-- ==== Sys2Proof/Word.lean ====
section
/-! DEFINITION. Word types of the bridge: bytes, 64-byte lines, byte strobes, 16-bit wrapping counts. -/

namespace Sys2Proof

/-- One byte on the management link. -/
abbrev Byte := BitVec 8

/-- The 64 bytes of one line (00 section 1.4). Byte k is bits 8k+7 to 8k. -/
abbrev LineData := BitVec 512

/-- The 64-bit byte strobe of a write (R24, R26). -/
abbrev ByteMask := BitVec 64

/-- A 16-bit wrapping value: revision, generation, sequence number, request number (R10, R11, R52, R152). -/
abbrev Count16 := BitVec 16

end Sys2Proof
end

