-- ==== Sys2Proof/Syntax.lean ====
section
/-! DEFINITION. The commands of the bridge: one constructor of `Instr` per row of spec/opcode_table.json, in the table's order. -/

namespace Sys2Proof

/-- The four lanes (00 section 1.4). -/
inductive Lane where
  | l0 | l1 | l2 | l3
  deriving DecidableEq, Repr

/-- Kind of a host transaction or entry (R26), and the two response channels of R35. -/
inductive Dir where
  | read | write
  deriving DecidableEq, Repr

/-- The pins read as PORST_N is deasserted: the value on the STRAP_L0SIZE pins (R20), and whether CS_N is high
(R163). -/
structure ResetPins where
  strap  : BitVec 3
  csHigh : Bool
  deriving DecidableEq, Repr

/-- What a host transaction carries (R24): a write has its byte strobe and 64 bytes of data. -/
inductive HostKind where
  | read
  | write (mask : ByteMask) (data : LineData)
  deriving DecidableEq, Repr

/-- A transaction as presented at the host port (R24, R25): upstream ID, start byte address, transfer
size in bytes, beats the burst declares, and its kind. -/
structure HostTxn where
  id      : Fin 16
  address : Nat
  size    : Nat
  beats   : Nat
  kind    : HostKind
  deriving DecidableEq, Repr

/-- The write whose data beat is taken by MALFORMED_WRITE_BEAT (R25). Its beats are discarded, so it
carries no data. -/
structure WriteBurst where
  id      : Fin 16
  address : Nat
  size    : Nat
  beats   : Nat
  deriving DecidableEq, Repr

/-- AXI response codes of a lane response (R58). -/
inductive AxiResp where
  | okay | exokay | slverr | decerr
  deriving DecidableEq, Repr

/-- The commands: the rows of spec/opcode_table.json. The table gives no operand fields; the operands
are those of the rule each row names. A management command carries the tag and payload bytes of its
sound frame (10 section 10.2). -/
inductive Instr where
  /-- PORST_N_ASSERT (R46). -/
  | porstNAssert
  /-- PORST_N_DEASSERT (R46, R20, R163). -/
  | porstNDeassert (pins : ResetPins)
  /-- SRST_N_ASSERT (R41, R45). -/
  | srstNAssert
  /-- SRST_N_DEASSERT (R44, R45). -/
  | srstNDeassert
  /-- HOST_ACCEPT (R24): the transaction whole at the port. -/
  | hostAccept (txn : HostTxn)
  /-- MALFORMED_WRITE_BEAT (R25): the multi-beat write one of whose data beats is taken. -/
  | malformedWriteBeat (burst : WriteBurst)
  /-- RESPONSE_TAKEN (R35): the channel whose presented response the host takes. -/
  | responseTaken (channel : Dir)
  /-- LANE_RESPONSE (R58, R60): lane, number, AXI response and, for a read, data. -/
  | laneResponse (lane : Lane) (number : Count16) (resp : AxiResp) (data : LineData)
  /-- CREDIT_WAIT_TIMEOUT (R57): lane and the request's place in its wait list, 0 the first presented. -/
  | creditWaitTimeout (lane : Lane) (place : Nat)
  /-- RESPONSE_TIMEOUT (R59): lane and number of the outstanding request. -/
  | responseTimeout (lane : Lane) (number : Count16)
  /-- LEG_DROP_REQUEST (R15): which of the drop requests asked and not yet taken, 0 the oldest. -/
  | legDropRequest (place : Nat)
  /-- QUIESCE_TIMEOUT (R62). -/
  | quiesceTimeout (lane : Lane)
  /-- ENTRY_DRAIN_TIMEOUT (R43). -/
  | entryDrainTimeout
  /-- COMMIT_DRAIN_TIMEOUT (R85). -/
  | commitDrainTimeout
  /-- SWITCH_TIMER_EXPIRY (R124). -/
  | switchTimerExpiry
  /-- DRAIN_TICK (R141). -/
  | drainTick
  /-- FETCH_FRAME (R167, R168): bits clocked after the marker byte before CS_N rose. -/
  | fetchFrame (bits : Nat)
  /-- IGNORE_FRAME (R163): the first byte of the frame. -/
  | ignoreFrame (first : Byte)
  /-- SHORT_FRAME (R163): bits clocked, fewer than 8. -/
  | shortFrame (bits : Fin 8)
  /-- UNKNOWN_COMMAND (R166). -/
  | unknownCommand (code tag : Byte) (payload : List Byte)
  | identify (tag : Byte) (payload : List Byte)
  | statusRead (tag : Byte) (payload : List Byte)
  | linkCountersRead (tag : Byte) (payload : List Byte)
  | bridgeReset (tag : Byte) (payload : List Byte)
  | drainLimitSet (tag : Byte) (payload : List Byte)
  | mapRead (tag : Byte) (payload : List Byte)
  | hostCountersRead (tag : Byte) (payload : List Byte)
  | hostCountersClear (tag : Byte) (payload : List Byte)
  | stageRead (tag : Byte) (payload : List Byte)
  | stageWrite (tag : Byte) (payload : List Byte)
  | stageRemove (tag : Byte) (payload : List Byte)
  | stageLoad (tag : Byte) (payload : List Byte)
  | mapCommit (tag : Byte) (payload : List Byte)
  | laneConfig (tag : Byte) (payload : List Byte)
  | laneRead (tag : Byte) (payload : List Byte)
  | laneCountersClear (tag : Byte) (payload : List Byte)
  | arbiterConfig (tag : Byte) (payload : List Byte)
  | healthConfig (tag : Byte) (payload : List Byte)
  | laneSetOffline (tag : Byte) (payload : List Byte)
  | laneSetActive (tag : Byte) (payload : List Byte)
  | laneRestore (tag : Byte) (payload : List Byte)
  | jobSubmitRelocate (tag : Byte) (payload : List Byte)
  | jobSubmitAudit (tag : Byte) (payload : List Byte)
  | jobCancel (tag : Byte) (payload : List Byte)
  | jobRead (tag : Byte) (payload : List Byte)
  | jobClear (tag : Byte) (payload : List Byte)
  | faultPop (tag : Byte) (payload : List Byte)
  | faultStatus (tag : Byte) (payload : List Byte)
  | faultReset (tag : Byte) (payload : List Byte)
  | noticePop (tag : Byte) (payload : List Byte)
  | alertMask (tag : Byte) (payload : List Byte)
  /-- DISCARDED_COMMAND_FRAME (R165): the whole bytes after the marker 0xC3 and the bits clocked beyond
  the last whole byte. -/
  | discardedCommandFrame (bytes : List Byte) (extraBits : Nat)
  /-- COMMIT_COMPLETION_TAKEN (R84). -/
  | commitCompletionTaken
  /-- SWITCH_COMPLETION_TAKEN (R123). -/
  | switchCompletionTaken
  deriving DecidableEq, Repr

end Sys2Proof
end

