-- ==== Sys2Proof/Decode.lean ====
section
/-! DEFINITION. The command a word spells. The rows of spec/opcode_table.json give no bits, so no word spells one. -/

namespace Sys2Proof

/-- No row of the table gives bits (98_reader.md: no row with fixed bits, none with fields), so every
word is refused. The frames a management command travels in are decoded by the model itself
(`Machine/Link.lean`), from R163 to R166. -/
def decodeTableWord (_nbits _w : Nat) : Option Instr := none

end Sys2Proof
end

