-- ==== Sys2Proof/Config.lean ====
section
/-! DEFINITION. The fixed capacities, limits and defaults of the part (00 section 1.4), and the one free value. -/

namespace Sys2Proof.Config

/-- Bytes of a line, the beat of a lane transfer (00 section 1.4, R52). -/
abbrev lineBytes : Nat := 64
/-- Lines in a block (00 section 1.4). -/
abbrev blockLines : Nat := 64
/-- Blocks in a granule (00 section 1.4). -/
abbrev granuleBlocks : Nat := 512
/-- Lines in a granule (00 section 1.4). -/
abbrev granuleLines : Nat := 32768
/-- Granules of the host span, and the largest lane capacity (00 section 1.4). -/
abbrev spanGranules : Nat := 131072
/-- Lines of the host span: host byte addresses below 2^38 (R4). -/
abbrev spanLines : Nat := 4294967296
/-- Descriptor slots, active and staging (R1, R70). -/
abbrev mapSlots : Nat := 64
/-- Slots of the in-flight table (R24). -/
abbrev iftSlots : Nat := 48
/-- Credits of a lane (R52). -/
abbrev credits : Nat := 16
/-- Contended grants in an arbiter window (R54). -/
abbrev windowSize : Nat := 16
/-- Job slots (R89). -/
abbrev jobSlots : Nat := 8
/-- Records the fault ring holds (R152). -/
abbrev ringSize : Nat := 32
/-- Largest overflow count (R152). -/
abbrev overflowMax : Nat := 255
/-- Notices the queue holds (R158). -/
abbrev noticeSize : Nat := 16
/-- Responses the FIFO holds (R167). -/
abbrev fifoSize : Nat := 4
/-- Largest payload of a frame (10 section 10.2). -/
abbrev payloadMax : Nat := 56
/-- Most numbers on a reclaimed list (R62). -/
abbrev reclaimedMax : Nat := 65520
/-- Largest value of a 32-bit saturating counter (R36, R67, R171). -/
abbrev counterMax : Nat := 4294967295
/-- Largest value of an audit count (R89). -/
abbrev auditMax : Nat := 65535
/-- Largest error budget (R140). -/
abbrev budgetMax : Nat := 4095
/-- Weight of a read error (R140). -/
abbrev weightRead : Nat := 64
/-- Weight of a write error (R140). -/
abbrev weightWrite : Nat := 128
/-- Weight of a timeout (R140). -/
abbrev weightTimeout : Nat := 256
/-- Weight of a late response (R140). -/
abbrev weightLate : Nat := 32
/-- Largest value of a 16-bit microsecond field: timeout, drain limit, drain interval. -/
abbrev microsMax : Nat := 65535
/-- Drain limit after PORST_N (R39). -/
abbrev drainLimitDefault : Nat := 10000
/-- Lane timeout after PORST_N (R48). -/
abbrev timeoutDefault : Nat := 2000
/-- Engine share after PORST_N (R56). -/
abbrev shareDefault : Nat := 4
/-- Suspect threshold after PORST_N (R150). -/
abbrev suspectDefault : Nat := 1024
/-- Retire threshold after PORST_N (R150). -/
abbrev retireDefault : Nat := 3072
/-- Drain interval after PORST_N (R150). -/
abbrev intervalDefault : Nat := 100
/-- Part code (R169). -/
abbrev partCode : Nat := 4420
/-- Part revision (R169). -/
abbrev partRevision : Nat := 1

/-- FREE VALUE (log entry 12). Which of several equally failing items an answer names, where the spec
says that one is named and not which. `choice site n` is only ever used modulo `n`, the number of
candidates at that place of the answer, so the answer always names a true candidate. -/
opaque choice (site n : Nat) : Nat

end Sys2Proof.Config
end

