-- ==== Sys2Proof/Machine/State.lean ====
section
/-! DEFINITION. The state of the bridge: everything the spec gives its eight blocks, and the queue of waiting commands. -/

namespace Sys2Proof.Machine

open Sys2Proof

/-! ### Map unit: descriptors, staging, commit record (chapters 1 and 4) -/

/-- One placement of a region's data: a lane and a lane base granule (R1). -/
structure Leg where
  lane : Lane
  base : Nat
  deriving DecidableEq, Repr

/-- Read preference (R6). -/
inductive ReadPref where
  | aFirst | bFirst | split
  deriving DecidableEq, Repr

/-- Access attribute (R7). -/
inductive Access where
  | readWrite | readOnly
  deriving DecidableEq, Repr

/-- The descriptor body (R1). The placement is MIRROR when leg B is present and SINGLE when it is
absent, as R1 and R73 bind the two together, so it is not held twice. -/
structure Body where
  base   : Nat
  length : Nat
  legA   : Leg
  legB   : Option Leg
  pref   : ReadPref
  access : Access
  deriving DecidableEq, Repr

/-- The fields of a valid slot beside its revision (R1, R8, R19). At risk is derived (R9). -/
structure Descriptor where
  body     : Body
  degraded : Bool
  job      : Option Nat
  deriving DecidableEq, Repr

/-- A slot of the active map: valid when it has a descriptor; its revision counts on either way (R1, R10). -/
structure MapSlot where
  desc     : Option Descriptor
  revision : Count16
  deriving DecidableEq, Repr

/-- A staging slot: staged valid with its body, or not, and the based-on revision (R70). -/
structure StageSlot where
  body    : Option Body
  basedOn : Count16
  deriving DecidableEq, Repr

/-- Result of the most recent commit to end (R76). -/
inductive CommitResult where
  | none | done | timeout | stale | resetAborted
  deriving DecidableEq, Repr

/-- One member of a commit set: the slot, and its staged body, absent when it is staged invalid (R76, R80). -/
structure CommitMember where
  slot : Nat
  body : Option Body
  deriving DecidableEq, Repr

/-- What the commit record holds while DRAINING (R76): the commit set in ascending slot order, the stale
flag and the drain timer's µs remaining. The commit legs are the legs of the set's bodies; the affected
span is held by the open drain span. -/
structure CommitDrain where
  members : List CommitMember
  stale   : Bool
  timer   : Nat
  deriving DecidableEq, Repr

/-- The commit record (R76): DRAINING when it has a drain, IDLE otherwise. -/
structure CommitRecord where
  drain : Option CommitDrain
  last  : CommitResult
  deriving DecidableEq, Repr

/-- A leg drop request that a lane port has asked and the map unit has not yet taken (R15, R65): the
region, the failed leg, and the IFT slot of the write that waits for the answer; the slot is absent once
that write has left the table or been discarded. -/
structure DropRequest where
  region : Nat
  leg    : Leg
  slot   : Option Nat
  deriving DecidableEq, Repr

/-- The map unit (MU). -/
structure MapUnit where
  slots      : List MapSlot
  generation : Count16
  staging    : List StageSlot
  commit     : CommitRecord
  drops      : List DropRequest
  deriving DecidableEq, Repr

/-! ### Host port and in-flight table (chapter 2) -/

/-- State of the bridge reset sequence (R40). -/
inductive SeqState where
  | opened | entryDrain | quiesce | hold
  deriving DecidableEq, Repr

/-- The host port (HP). A timer is µs remaining, absent when it is stopped. -/
structure HostPort where
  seq        : SeqState
  warmSeen   : Bool
  entryTimer : Option Nat
  unmapped   : Nat
  malformed  : Nat
  readOnly   : Nat
  drainLimit : Nat
  readChan   : Option Nat
  writeChan  : Option Nat
  writeBeats : Nat
  deriving DecidableEq, Repr

/-- What an IFT entry is (R25, R26): a read; a write with its byte mask and data; a malformed read with
the beats it is answered with; a malformed write, which has no mask and whose beats were discarded. -/
inductive EntryKind where
  | read
  | write (mask : ByteMask) (data : LineData)
  | badRead (beats : Nat)
  | badWrite
  deriving DecidableEq, Repr

/-- Outcome of a lane request (R26): absent (PENDING) until the lane port reports it. -/
inductive LaneOutcome where
  | ok | error | timeout
  deriving DecidableEq, Repr

/-- Which current leg of the lookup result a request went to. -/
inductive LegPos where
  | a | b
  deriving DecidableEq, Repr

/-- One member of an entry's leg set (R26). -/
structure LegUse where
  pos     : LegPos
  leg     : Leg
  line    : Nat
  outcome : Option LaneOutcome
  deriving DecidableEq, Repr

/-- One member of an entry's shadow set (R26, R109). -/
structure ShadowUse where
  leg     : Leg
  line    : Nat
  outcome : Option LaneOutcome
  deriving DecidableEq, Repr

/-- A lookup result (R4). The block index, line in block and lane lines follow from the line offset. -/
structure Lookup where
  region   : Nat
  offset   : Nat
  legA     : Leg
  legB     : Option Leg
  pref     : ReadPref
  access   : Access
  revision : Count16
  deriving DecidableEq, Repr

/-- Kind of a drain span, and value of an entry's hold field (R26, R28). -/
inductive Hold where
  | commit | switch
  deriving DecidableEq, Repr

/-- Phase of an entry (section 2.3). -/
inductive Phase where
  | held | lineWait | parked | issuing | issued | orderWait
  deriving DecidableEq, Repr

/-- Response code (R33). -/
inductive Code where
  | okay | slverr | decerr
  deriving DecidableEq, Repr

/-- A beat of a read response (R25, R33): its code, its data, and whether it is marked as the last. -/
structure ReadBeat where
  code : Code
  data : LineData
  last : Bool
  deriving DecidableEq, Repr

/-- A response as a channel of the host port presents it (R25, R33, R35), carrying its upstream ID: a read
response is its beats, and a write response carries no data. -/
inductive HostResponse where
  | read (id : Fin 16) (beats : List ReadBeat)
  | write (id : Fin 16) (code : Code)
  deriving DecidableEq, Repr

/-- An IFT entry (R26). -/
structure Entry where
  slot     : Nat
  id       : Fin 16
  kind     : EntryKind
  line     : Nat
  region   : Option Nat
  lookup   : Option Lookup
  hold     : Option Hold
  phase    : Phase
  legs     : List LegUse
  shadows  : List ShadowUse
  fallback : Bool
  code     : Option Code
  data     : LineData
  deriving DecidableEq, Repr

/-- A range of host granules, base up to base + length (R76). -/
structure Range where
  base   : Nat
  length : Nat
  deriving DecidableEq, Repr

/-- An open drain span (R28, R29): its granule ranges and the slots of the entries still counted. The
count of R29 is the number of those slots. -/
structure Span where
  ranges  : List Range
  counted : List Nat
  deriving DecidableEq, Repr

/-- The in-flight table (IFT). The entries stand in acceptance order, so the per-ID order list of an ID
is the slots of its entries in this order (R26). -/
structure InFlight where
  entries    : List Entry
  commitSpan : Option Span
  switchSpan : Option Span
  deriving DecidableEq, Repr

/-! ### Lane ports (chapter 3) -/

/-- Four of a kind, one for each lane. -/
structure PerLane (α : Type) where
  l0 : α
  l1 : α
  l2 : α
  l3 : α
  deriving DecidableEq, Repr

/-- The member of a lane. -/
def PerLane.get {α : Type} (p : PerLane α) : Lane → α
  | .l0 => p.l0
  | .l1 => p.l1
  | .l2 => p.l2
  | .l3 => p.l3

/-- Replace the member of one lane. -/
def PerLane.set {α : Type} (p : PerLane α) (n : Lane) (x : α) : PerLane α :=
  match n with
  | .l0 => { p with l0 := x }
  | .l1 => { p with l1 := x }
  | .l2 => { p with l2 := x }
  | .l3 => { p with l3 := x }

/-- What a request writes or that it reads (R51). -/
inductive ReqKind where
  | read
  | write (mask : ByteMask) (data : LineData)
  deriving DecidableEq, Repr

/-- Which of an entry's requests a host-side request is (R51): a current leg or the i-th shadow leg. -/
inductive HostPart where
  | current (pos : LegPos)
  | shadow (i : Nat)
  deriving DecidableEq, Repr

/-- Which request of a block step an engine request is (R51): a source read, the shadow write or verify
read of the i-th shadow leg, or an audit's read of leg A or leg B or its repair write. -/
inductive EnginePart where
  | source
  | shadowWrite (i : Nat)
  | verifyRead (i : Nat)
  | auditA
  | auditB
  | repair
  deriving DecidableEq, Repr

/-- Where a request's outcome goes (R51). `gone` stands for an IFT entry that no longer exists (R58). -/
inductive Requester where
  | host (slot : Nat) (part : HostPart)
  | engine (part : EnginePart) (line : Nat)
  | gone
  deriving DecidableEq, Repr

/-- A request (R51). Its side is ENGINE for the copy engine's and HOST otherwise. -/
structure Request where
  kind      : ReqKind
  line      : Nat
  requester : Requester
  deriving DecidableEq, Repr

/-- A WAITING request with its credit-wait timer (R51). -/
structure Waiting where
  req   : Request
  timer : Nat
  deriving DecidableEq, Repr

/-- An issued request that holds a credit (R52): OUTSTANDING while its response timer runs, TIMED_OUT
once the timer is absent (R59). -/
structure Outstanding where
  req    : Request
  number : Count16
  timer  : Option Nat
  deriving DecidableEq, Repr

/-- A transfer sent on a lane's AXI manager interface (R52): its direction with the strobe and data of a
WRITE, its beats, the bytes of a beat, its byte address, and the number its response carries. -/
structure LaneTransfer where
  kind      : ReqKind
  beats     : Nat
  beatBytes : Nat
  address   : Nat
  number    : Count16
  deriving DecidableEq, Repr

/-- A request whose credit a quiesce took back (R62). -/
structure Reclaimed where
  number : Count16
  line   : Nat
  deriving DecidableEq, Repr

/-- The six counters of a lane, 32-bit saturating (R67). -/
structure LaneCounters where
  readsIssued   : Nat
  writesIssued  : Nat
  readErrors    : Nat
  writeErrors   : Nat
  timeouts      : Nat
  lateResponses : Nat
  deriving DecidableEq, Repr

/-- A lane port (LPn). The wait list is in the order presented, the outstanding set in the order issued.
`quiesce` is the quiesce timer's µs remaining while the lane is quiescing. -/
structure LanePort where
  capacity     : Nat
  timeout      : Nat
  waiting      : List Waiting
  outstanding  : List Outstanding
  nextNumber   : Count16
  windowGrants : Nat
  windowEngine : Nat
  reclaimed    : List Reclaimed
  quiesce      : Option Nat
  counters     : LaneCounters
  deriving DecidableEq, Repr

/-! ### Copy engine (chapters 5 to 7) -/

/-- What a relocation installs at its switch (section 5.3): no base, length or access. The placement is
MIRROR when leg B is present. -/
structure Target where
  legA : Leg
  legB : Option Leg
  pref : ReadPref
  deriving DecidableEq, Repr

/-- Kind of a job with the fields only that kind has (R89). `keptA` and `keptB` say which target legs are
kept; a target leg that is present and not kept is a shadow leg (R93). -/
inductive JobWork where
  | relocate (target : Target) (keptA keptB verify : Bool)
  | audit (repair : Bool) (mismatches repaired : Nat)
  deriving DecidableEq, Repr

/-- Phase of a job (R89). -/
inductive JobPhase where
  | copy | verify | switch | scan
  deriving DecidableEq, Repr

/-- Failure reasons (R89). -/
inductive Reason where
  | sourceRead | shadowWrite | verifyMismatch | verifyRead | targetRetired | targetLegLost
  | switchTimeout | legRead | regionDegraded
  deriving DecidableEq, Repr

/-- The detail of a failure: a lane and a lane line (R89). -/
structure Detail where
  lane : Lane
  line : Nat
  deriving DecidableEq, Repr

/-- A stop request (R98). -/
inductive Stop where
  | cancel
  | reset
  | failed (reason : Reason) (detail : Option Detail)
  deriving DecidableEq, Repr

/-- The outcome of a finished job (R89, R100). -/
inductive JobOutcome where
  | done
  | cancelled
  | resetAborted
  | failed (reason : Reason) (detail : Option Detail)
  deriving DecidableEq, Repr

/-- The state of a job that is not FREE, with what only that state has (R89). A QUEUED job's stop request
is absent (R89, R98). -/
inductive JobLife where
  | queued
  | running (stop : Option Stop)
  | finished (outcome : JobOutcome)
  deriving DecidableEq, Repr

/-- A job record (R89); a FREE slot holds none. -/
structure Job where
  life       : JobLife
  work       : JobWork
  region     : Nat
  blockCount : Nat
  phase      : Option JobPhase
  cursor     : Nat
  deriving DecidableEq, Repr

/-- Stage of a block step (R110). -/
inductive StepStage where
  | lockWait | transfer
  deriving DecidableEq, Repr

/-- State of one request of a block step (R110, R131). -/
inductive ReqState where
  | notPresented | pending | ok | failed
  deriving DecidableEq, Repr

/-- Result of an audit's comparison (R131). -/
inductive Comparison where
  | none | equal | different
  deriving DecidableEq, Repr

/-- What a line state holds for one shadow leg: the outcome of the shadow write (COPY) or verify read
(VERIFY), and the data of a verify read until it is compared (R110, R120). -/
structure SideState where
  state : ReqState
  data  : Option LineData
  deriving DecidableEq, Repr

/-- The state of one line of the block (R110, R131): the source legs tried, the line of the block buffer,
the source or leg A read, the shadow legs, and an audit's leg B read, comparison, repair write and
finished mark. -/
structure LineState where
  tried      : List Leg
  data       : Option LineData
  readA      : ReqState
  sides      : List SideState
  readB      : ReqState
  comparison : Comparison
  repair     : ReqState
  finished   : Bool
  deriving DecidableEq, Repr

/-- The block step record (R110). The number of engine requests open is the number of the engine's
requests WAITING or OUTSTANDING at the lane ports. -/
structure BlockStep where
  block     : Nat
  stage     : StepStage
  writeWait : Nat
  lines     : List LineState
  deriving DecidableEq, Repr

/-- The block lock (R110). -/
structure Lock where
  region : Nat
  block  : Nat
  deriving DecidableEq, Repr

/-- The copy engine (CE). -/
structure Engine where
  jobs        : List (Option Job)
  queue       : List Nat
  running     : Option Nat
  lock        : Option Lock
  blockStep   : Option BlockStep
  stopping    : Bool
  switchTimer : Option Nat
  share       : Nat
  deriving DecidableEq, Repr

/-! ### Health monitor (chapter 8) -/

/-- Lane state (section 8.2). -/
inductive LaneState where
  | active | suspect | retired | offline
  deriving DecidableEq, Repr

/-- One lane's budget and state (R140). -/
structure LaneHealth where
  budget : Nat
  state  : LaneState
  deriving DecidableEq, Repr

/-- The health monitor (HM). The drain timer runs except while PORST_N is asserted (R141, R150). -/
structure Health where
  lanes      : PerLane LaneHealth
  suspect    : Nat
  retire     : Nat
  interval   : Nat
  drainTimer : Option Nat
  deriving DecidableEq, Repr

/-! ### Fault log (chapter 9) -/

/-- Record kinds (R153). -/
inductive FaultKind where
  | laneReadError | laneWriteError | laneTimeout | lateResponse | mirrorReadRecovered | legDropped
  | copySourceFailed | shadowWriteFailed | verifyMismatch | auditMismatch | auditRepaired
  | laneStateChanged
  deriving DecidableEq, Repr

/-- What the writing block supplies for a record (R151). -/
structure FaultInfo where
  kind     : FaultKind
  lane     : Option Lane := none
  region   : Option Nat := none
  hostLine : Option Nat := none
  laneLine : Option Nat := none
  job      : Option Nat := none
  id       : Option (Fin 16) := none
  deriving DecidableEq, Repr

/-- A fault record: the sequence number and generation are the fault log's (R151). -/
structure FaultRecord where
  seq        : Count16
  generation : Count16
  info       : FaultInfo
  deriving DecidableEq, Repr

/-- The outcome a JOB_FINISHED notice carries (R157). -/
inductive OutcomeKind where
  | done | cancelled | resetAborted | failed
  deriving DecidableEq, Repr

/-- Kind, subject and value of a notice (R157). -/
inductive NoticeInfo where
  | jobFinished (handle : Nat) (outcome : OutcomeKind)
  | commitFinished (slot : Nat) (result : CommitResult)
  | laneStateChanged (lane : Lane) (state : LaneState)
  | legDropped (region : Nat) (lane : Lane)
  | faultRingFull (seq : Count16)
  | resetDone (warm : Bool)
  deriving DecidableEq, Repr

/-- A notice (R157). -/
structure Notice where
  info       : NoticeInfo
  generation : Count16
  deriving DecidableEq, Repr

/-- The fault log (FL). Bit k of the mask enables notice kind k (R160, 10 section 10.6.6). -/
structure FaultLog where
  ring     : List FaultRecord
  overflow : Nat
  nextSeq  : Count16
  notices  : List Notice
  lost     : Bool
  mask     : BitVec 6
  alert    : Bool
  deriving DecidableEq, Repr

/-! ### Management link (chapter 10) -/

/-- Framing state (R163). `unframed` is none of R163's table: the link is there while PORST_N is asserted, and
after a deassertion with CS_N low until CS_N is seen high (R163, R173). -/
inductive Framing where
  | idle | marker | command | fetch | ignore | unframed
  deriving DecidableEq, Repr

/-- Status codes (10 section 10.6.3). -/
inductive Status where
  | ok | accepted | busy | badArgument | unknownCommand | noSuchItem | invalidMap | stale | mapBusy
  | noChange | regionBusy | jobFull | invalidTarget | notMirrored | notActive | notFinished | tooLate
  | laneInUse | laneBusy | resetting | empty
  deriving DecidableEq, Repr

/-- A response in the FIFO, held with its check code (R164, R166). -/
structure Response where
  code    : Byte
  tag     : Byte
  status  : Status
  payload : List Byte
  crc     : BitVec 16
  deriving DecidableEq, Repr

/-- The management link (ML). `miso` is the MODEL's own (log entry 16): the bits of a response that the latest
frame drove on MISO after its first byte, in the order they were driven, each byte most significant bit first
(R163, R167); every other bit of that frame was 0. -/
structure Link where
  framing       : Framing
  fifo          : List Response
  checkErrors   : Nat
  framingErrors : Nat
  overruns      : Nat
  miso          : List Bool
  deriving DecidableEq, Repr

/-! ### The whole bridge -/

/-- The state of the bridge, and the commands that wait, first in, first out. -/
structure State where
  porst   : Bool
  srst    : Bool
  strap   : BitVec 3
  hp      : HostPort
  ift     : InFlight
  mu      : MapUnit
  lanes   : PerLane LanePort
  engine  : Engine
  health  : Health
  log     : FaultLog
  link    : Link
  pending : List Instr
  deriving DecidableEq, Repr

/-- The spec gives no event that stops the bridge, so no command faults. -/
inductive Fault where
  deriving DecidableEq, Repr

/-- Raised by no meaning. `notModelled` would be raised by an arm of exec without a meaning, and would be
safe: the model stops where the hardware goes on. -/
inductive Refusal where
  | notModelled (mnemonic : String)
  deriving DecidableEq, Repr

/-! ### Power-on values -/

/-- Capacity of lane L0 by strap value (R20). -/
def l0Capacity (strap : BitVec 3) : Nat :=
  match strap.toNat with
  | 0 => 4096
  | 1 => 8192
  | 2 => 16384
  | 3 => 32768
  | 4 => 65536
  | 5 => 131072
  | _ => 0

/-- Whether the strap gives lane L0 memory (R20). -/
def l0Present (strap : BitVec 3) : Bool := strap.toNat < 6

/-- The body of the bring-up region (R21). -/
def bringUpBody (strap : BitVec 3) : Option Body :=
  if l0Present strap then
    some { base := 0, length := l0Capacity strap, legA := { lane := .l0, base := 0 }, legB := none
           pref := .aFirst, access := .readWrite }
  else none

/-- The active map at power-on (R21). -/
def bringUpSlots (strap : BitVec 3) : List MapSlot :=
  { desc := (bringUpBody strap).map fun b => { body := b, degraded := false, job := none }
    revision := 0 } :: List.replicate 63 { desc := none, revision := 0 }

/-- The staging map at power-on (R70). -/
def bringUpStaging (strap : BitVec 3) : List StageSlot :=
  { body := bringUpBody strap, basedOn := 0 } :: List.replicate 63 { body := none, basedOn := 0 }

/-- A lane port at power-on (R48, R69). -/
def powerOnLane (capacity : Nat) : LanePort :=
  { capacity := capacity, timeout := Config.timeoutDefault, waiting := [], outstanding := []
    nextNumber := 0, windowGrants := 0, windowEngine := 0, reclaimed := [], quiesce := none
    counters := { readsIssued := 0, writesIssued := 0, readErrors := 0, writeErrors := 0
                  timeouts := 0, lateResponses := 0 } }

/-- Every block at its power-on values, PORST_N deasserted and SRST_N deasserted, for a strap value:
R20, R21, R46, R69, R70, R76, R107, R130, R150, R162, R173. -/
def powerOn (strap : BitVec 3) : State :=
  { porst := false, srst := false, strap := strap
    hp := { seq := .opened, warmSeen := false, entryTimer := none, unmapped := 0, malformed := 0
            readOnly := 0, drainLimit := Config.drainLimitDefault, readChan := none
            writeChan := none, writeBeats := 0 }
    ift := { entries := [], commitSpan := none, switchSpan := none }
    mu := { slots := bringUpSlots strap, generation := 0, staging := bringUpStaging strap
            commit := { drain := none, last := .none }, drops := [] }
    lanes := { l0 := powerOnLane (l0Capacity strap), l1 := powerOnLane 0, l2 := powerOnLane 0
               l3 := powerOnLane 0 }
    engine := { jobs := List.replicate 8 none, queue := [], running := none, lock := none
                blockStep := none, stopping := false, switchTimer := none
                share := Config.shareDefault }
    health := { lanes := { l0 := { budget := 0, state := if l0Present strap then .active else .offline }
                           l1 := { budget := 0, state := .offline }
                           l2 := { budget := 0, state := .offline }
                           l3 := { budget := 0, state := .offline } }
                suspect := Config.suspectDefault, retire := Config.retireDefault
                interval := Config.intervalDefault, drainTimer := some Config.intervalDefault }
    log := { ring := [], overflow := 0, nextSeq := 0, notices := [], lost := false, mask := 0x3F
             alert := false }
    link := { framing := .idle, fifo := [], checkErrors := 0, framingErrors := 0, overruns := 0
              miso := [] }
    pending := [] }

/-- The machine right after reset: power-on with strap value 0, SRST_N deasserted and CS_N high (R163), nothing
waiting. The strap and the levels of SRST_N and CS_N are inputs of the part; their values here are a DESIGN CHOICE
(unsafe, log entry 1). -/
def State.reset : State := powerOn 0

end Sys2Proof.Machine
end

