-- ==== Sys2Proof/Machine/Operands.lean ====
section
/-! DEFINITION. Bytes of the management link: the check code, the fields of command payloads, and the layouts and codes of responses (R164, R174, 10 section 10.6). -/

namespace Sys2Proof.Machine

open Sys2Proof

/-! ### Numbers as bytes: most significant byte first (R174) -/

/-- The value of a field, most significant byte first. -/
def fieldValue (bytes : List Byte) : Nat := bytes.foldl (fun acc b => acc * 256 + b.toNat) 0

/-- One byte. -/
def byte1 (n : Nat) : List Byte := [BitVec.ofNat 8 n]
/-- Two bytes, high byte first. -/
def byte2 (n : Nat) : List Byte := [BitVec.ofNat 8 (n / 256), BitVec.ofNat 8 n]
/-- Three bytes, high byte first. -/
def byte3 (n : Nat) : List Byte := BitVec.ofNat 8 (n / 65536) :: byte2 n
/-- Four bytes, high byte first. -/
def byte4 (n : Nat) : List Byte := BitVec.ofNat 8 (n / 16777216) :: byte3 n
/-- n bytes 0xFF: an absent part of a response (R174). -/
def absent (n : Nat) : List Byte := List.replicate n 0xFF
/-- A yes-or-no byte (10 section 10.6.2). -/
def yesNo (b : Bool) : List Byte := [if b then 1 else 0]

/-- A one-byte field that may be absent, 0xFF when it is (R174). -/
def byteOr (o : Option Nat) : List Byte :=
  match o with
  | some n => byte1 n
  | none => absent 1

/-! ### The check code (R164) -/

/-- One bit of the check code: shift left, and add the generator x^16 + x^12 + x^5 + 1 when the bit
shifted out is set. -/
def crcBit (c : BitVec 16) : BitVec 16 :=
  if c.msb then (c <<< 1) ^^^ 0x1021#16 else c <<< 1

/-- Feed one byte, most significant bit first. -/
def crcByte (c : BitVec 16) (b : Byte) : BitVec 16 :=
  let c := c ^^^ ((b.setWidth 16) <<< 8)
  crcBit (crcBit (crcBit (crcBit (crcBit (crcBit (crcBit (crcBit c)))))))

/-- The check code over bytes: initial value 0xFFFF, no reflection, no final inversion (R164). -/
def checkCode (bytes : List Byte) : BitVec 16 := bytes.foldl crcByte 0xFFFF

/-! ### Enumerations (10 section 10.6.6) -/

def laneCode : Lane → Nat
  | .l0 => 0
  | .l1 => 1
  | .l2 => 2
  | .l3 => 3

def laneOf : Nat → Option Lane
  | 0 => some .l0
  | 1 => some .l1
  | 2 => some .l2
  | 3 => some .l3
  | _ => none

def prefCode : ReadPref → Nat
  | .aFirst => 0
  | .bFirst => 1
  | .split => 2

def prefOf : Nat → Option ReadPref
  | 0 => some .aFirst
  | 1 => some .bFirst
  | 2 => some .split
  | _ => none

def accessCode : Access → Nat
  | .readWrite => 0
  | .readOnly => 1

def accessOf : Nat → Option Access
  | 0 => some .readWrite
  | 1 => some .readOnly
  | _ => none

/-- A yes-or-no byte of a command payload: any value but 0 and 1 is no value (10 section 10.6.2). -/
def yesNoOf : Nat → Option Bool
  | 0 => some false
  | 1 => some true
  | _ => none

def laneStateCode : LaneState → Nat
  | .active => 0
  | .suspect => 1
  | .retired => 2
  | .offline => 3

def phaseCode : JobPhase → Nat
  | .copy => 0
  | .verify => 1
  | .switch => 2
  | .scan => 3

def outcomeCode : OutcomeKind → Nat
  | .done => 0
  | .cancelled => 1
  | .resetAborted => 2
  | .failed => 3

/-- The kind of an outcome. -/
def JobOutcome.kind : JobOutcome → OutcomeKind
  | .done => .done
  | .cancelled => .cancelled
  | .resetAborted => .resetAborted
  | .failed _ _ => .failed

def reasonCode : Reason → Nat
  | .sourceRead => 0
  | .shadowWrite => 1
  | .verifyMismatch => 2
  | .verifyRead => 3
  | .targetRetired => 4
  | .targetLegLost => 5
  | .switchTimeout => 6
  | .legRead => 7
  | .regionDegraded => 8

def commitResultCode : CommitResult → Nat
  | .none => 0
  | .done => 1
  | .timeout => 2
  | .stale => 3
  | .resetAborted => 4

def seqCode : SeqState → Nat
  | .opened => 0
  | .entryDrain => 1
  | .quiesce => 2
  | .hold => 3

def faultKindCode : FaultKind → Nat
  | .laneReadError => 0
  | .laneWriteError => 1
  | .laneTimeout => 2
  | .lateResponse => 3
  | .mirrorReadRecovered => 4
  | .legDropped => 5
  | .copySourceFailed => 6
  | .shadowWriteFailed => 7
  | .verifyMismatch => 8
  | .auditMismatch => 9
  | .auditRepaired => 10
  | .laneStateChanged => 11

/-- Code of a notice's kind, which is also its bit in the alert mask. -/
def noticeCode : NoticeInfo → Nat
  | .jobFinished _ _ => 0
  | .commitFinished _ _ => 1
  | .laneStateChanged _ _ => 2
  | .legDropped _ _ => 3
  | .faultRingFull _ => 4
  | .resetDone _ => 5

def statusCode : Status → Byte
  | .ok => 0x00
  | .accepted => 0x01
  | .busy => 0x02
  | .badArgument => 0x03
  | .unknownCommand => 0x04
  | .noSuchItem => 0x05
  | .invalidMap => 0x06
  | .stale => 0x07
  | .mapBusy => 0x08
  | .noChange => 0x09
  | .regionBusy => 0x0A
  | .jobFull => 0x0B
  | .invalidTarget => 0x0C
  | .notMirrored => 0x0D
  | .notActive => 0x0E
  | .notFinished => 0x0F
  | .tooLate => 0x10
  | .laneInUse => 0x11
  | .laneBusy => 0x12
  | .resetting => 0x13
  | .empty => 0x14

/-! ### Reading command payloads (10 sections 10.6.2, 10.6.4) -/

/-- The bytes from i, n of them. -/
def sliceOf (bytes : List Byte) (i n : Nat) : List Byte := (bytes.drop i).take n

/-- The value of the field of n bytes from byte i. -/
def fieldAt (bytes : List Byte) (i n : Nat) : Nat := fieldValue (sliceOf bytes i n)

/-- A payload that is one slot number, 0 to 63 (10 section 10.6.2). -/
def parseSlot (payload : List Byte) : Option Nat :=
  if payload.length = 1 ∧ fieldAt payload 0 1 < Config.mapSlots then some (fieldAt payload 0 1) else none

/-- A payload that is one lane, 0 to 3. -/
def parseLane (payload : List Byte) : Option Lane :=
  if payload.length = 1 then laneOf (fieldAt payload 0 1) else none

/-- A payload that is one job handle, 0 to 7. -/
def parseHandle (payload : List Byte) : Option Nat :=
  if payload.length = 1 ∧ fieldAt payload 0 1 < Config.jobSlots then some (fieldAt payload 0 1) else none

/-- Leg B of a payload (R73, R92, R174): absent for SINGLE, where its lane byte is 0xFF and its base
bytes are not examined; present for MIRROR, its lane 0 to 3. The outer option is the check. -/
def parseLegB (placement laneByte base : Nat) : Option (Option Leg) :=
  match placement with
  | 0 => if laneByte = 0xFF then some none else none
  | 1 => (laneOf laneByte).map fun lane => some { lane := lane, base := base }
  | _ => none

/-- A relocation target: bytes 6 to 15 of the body layout (10 section 10.6.4). -/
def parseTarget (bytes : List Byte) : Option Target := do
  let laneA ← laneOf (fieldAt bytes 1 1)
  let legB ← parseLegB (fieldAt bytes 0 1) (fieldAt bytes 5 1) (fieldAt bytes 6 3)
  let pref ← prefOf (fieldAt bytes 9 1)
  return { legA := { lane := laneA, base := fieldAt bytes 2 3 }, legB := legB, pref := pref }

/-- A descriptor body, 17 bytes (10 section 10.6.4, R73). -/
def parseBody (bytes : List Byte) : Option Body := do
  let t ← parseTarget (sliceOf bytes 6 10)
  let access ← accessOf (fieldAt bytes 16 1)
  return { base := fieldAt bytes 0 3, length := fieldAt bytes 3 3, legA := t.legA, legB := t.legB
           pref := t.pref, access := access }

/-- STAGE_WRITE's payload: slot, body, based-on revision (R73). -/
def parseStageWrite (payload : List Byte) : Option (Nat × Body × Count16) := do
  if payload.length = 20 ∧ fieldAt payload 0 1 < Config.mapSlots then
    let body ← parseBody (sliceOf payload 1 17)
    return (fieldAt payload 0 1, body, BitVec.ofNat 16 (fieldAt payload 18 2))
  else none

/-- STAGE_REMOVE's payload: slot, based-on revision (R74). -/
def parseStageRemove (payload : List Byte) : Option (Nat × Count16) :=
  if payload.length = 3 ∧ fieldAt payload 0 1 < Config.mapSlots then
    some (fieldAt payload 0 1, BitVec.ofNat 16 (fieldAt payload 1 2))
  else none

/-- LANE_CONFIG's payload: lane, capacity 0 to 131,072, timeout 1 to 65,535 (R49). -/
def parseLaneConfig (payload : List Byte) : Option (Lane × Nat × Nat) := do
  if payload.length = 6 ∧ fieldAt payload 1 3 ≤ Config.spanGranules ∧ 1 ≤ fieldAt payload 4 2 then
    let lane ← laneOf (fieldAt payload 0 1)
    return (lane, fieldAt payload 1 3, fieldAt payload 4 2)
  else none

/-- LANE_COUNTERS_CLEAR's payload: one lane, or 0xFF for all four (R68). -/
def parseLaneSelect (payload : List Byte) : Option (List Lane) :=
  if payload.length = 1 then
    if fieldAt payload 0 1 = 0xFF then some [.l0, .l1, .l2, .l3]
    else (laneOf (fieldAt payload 0 1)).map fun lane => [lane]
  else none

/-- HEALTH_CONFIG's setting payload: suspect, retire, interval (R146). -/
def parseHealth (payload : List Byte) : Option (Nat × Nat × Nat) :=
  let suspect := fieldAt payload 0 2
  let retire := fieldAt payload 2 2
  let interval := fieldAt payload 4 2
  if payload.length = 6 ∧ 1 ≤ suspect ∧ suspect < retire ∧ retire ≤ Config.budgetMax ∧ 1 ≤ interval then
    some (suspect, retire, interval)
  else none

/-- JOB_SUBMIT_RELOCATE's payload: region, target, verify (R92). -/
def parseRelocate (payload : List Byte) : Option (Nat × Target × Bool) := do
  if payload.length = 12 ∧ fieldAt payload 0 1 < Config.mapSlots then
    let target ← parseTarget (sliceOf payload 1 10)
    let verify ← yesNoOf (fieldAt payload 11 1)
    return (fieldAt payload 0 1, target, verify)
  else none

/-- JOB_SUBMIT_AUDIT's payload: region, repair (R92). -/
def parseAudit (payload : List Byte) : Option (Nat × Bool) := do
  if payload.length = 2 ∧ fieldAt payload 0 1 < Config.mapSlots then
    let repair ← yesNoOf (fieldAt payload 1 1)
    return (fieldAt payload 0 1, repair)
  else none

/-! ### Writing responses (10 sections 10.6.1, 10.6.4, 10.6.5) -/

/-- Leg B in a response: lane 0xFF when absent, and then the whole leg is 0xFF (R174, log entry 14). -/
def legBBytes (leg : Option Leg) : List Byte :=
  match leg with
  | some l => byte1 (laneCode l.lane) ++ byte3 l.base
  | none => absent 4

/-- A target: placement, leg A, leg B, read preference. -/
def targetBytes (t : Target) : List Byte :=
  byte1 (if t.legB.isSome then 1 else 0) ++ byte1 (laneCode t.legA.lane) ++ byte3 t.legA.base
    ++ legBBytes t.legB ++ byte1 (prefCode t.pref)

/-- The placement part of a body. -/
def Body.target (b : Body) : Target := { legA := b.legA, legB := b.legB, pref := b.pref }

/-- A descriptor body, or 17 bytes 0xFF when the slot holds none (R174). -/
def bodyBytes (b : Option Body) : List Byte :=
  match b with
  | some b => byte3 b.base ++ byte3 b.length ++ targetBytes b.target ++ byte1 (accessCode b.access)
  | none => absent 17

/-- The presence byte of a fault record (10 section 10.6.5). -/
def presence (f : FaultInfo) : Nat :=
  (if f.lane.isSome then 1 else 0) + (if f.region.isSome then 2 else 0)
    + (if f.hostLine.isSome then 4 else 0) + (if f.laneLine.isSome then 8 else 0)
    + (if f.job.isSome then 16 else 0) + (if f.id.isSome then 32 else 0)

/-- A fault record, 18 bytes; an absent field's bytes are 0 (R174). -/
def recordBytes (r : FaultRecord) : List Byte :=
  byte2 r.seq.toNat ++ byte1 (faultKindCode r.info.kind) ++ byte1 (presence r.info)
    ++ byte1 ((r.info.lane.map laneCode).getD 0) ++ byte1 (r.info.region.getD 0)
    ++ byte4 (r.info.hostLine.getD 0) ++ byte4 (r.info.laneLine.getD 0) ++ byte1 (r.info.job.getD 0)
    ++ byte1 ((r.info.id.map Fin.val).getD 0) ++ byte2 r.generation.toNat

/-- A notice's subject (R157). -/
def noticeSubject : NoticeInfo → Option Nat
  | .jobFinished h _ => some h
  | .commitFinished slot _ => some slot
  | .laneStateChanged lane _ => some (laneCode lane)
  | .legDropped region _ => some region
  | .faultRingFull _ => none
  | .resetDone _ => none

/-- A notice's value (R157, 10 section 10.6.5). -/
def noticeValue : NoticeInfo → Nat
  | .jobFinished _ o => outcomeCode o
  | .commitFinished _ r => commitResultCode r
  | .laneStateChanged _ st => laneStateCode st
  | .legDropped _ lane => laneCode lane
  | .faultRingFull n => n.toNat
  | .resetDone warm => if warm then 0 else 1

/-- A notice, 6 bytes. -/
def noticeBytes (n : Notice) : List Byte :=
  byte1 (noticeCode n.info) ++ byteOr (noticeSubject n.info) ++ byte2 (noticeValue n.info)
    ++ byte2 n.generation.toNat

/-- The reason and detail of a failure, bytes 31 to 36 of a job record. -/
def failureBytes (reason : Reason) (detail : Option Detail) : List Byte :=
  byte1 (reasonCode reason) ++
    match detail with
    | some d => byte1 (laneCode d.lane) ++ byte4 d.line
    | none => absent 5

/-- Bytes 29 to 36 of a job record: stop request, outcome, failure reason and detail (10 section 10.6.5). -/
def lifeBytes : JobLife → List Byte
  | .queued => byte1 0 ++ absent 7
  | .running none => byte1 0 ++ absent 7
  | .running (some .cancel) => byte1 1 ++ absent 7
  | .running (some .reset) => byte1 2 ++ absent 7
  | .running (some (.failed reason detail)) => byte1 3 ++ absent 1 ++ failureBytes reason detail
  | .finished (.failed reason detail) => byte1 0 ++ byte1 3 ++ failureBytes reason detail
  | .finished o => byte1 0 ++ byte1 (outcomeCode o.kind) ++ absent 6

def jobStateCode : JobLife → Nat
  | .queued => 1
  | .running _ => 2
  | .finished _ => 3

def jobKindCode : JobWork → Nat
  | .relocate _ _ _ _ => 0
  | .audit _ _ _ => 1

/-- Bytes 4 to 14 of a job record: target and kept bits, 0xFF throughout for an AUDIT (R174, log entry 13). -/
def workTargetBytes : JobWork → List Byte
  | .relocate t keptA keptB _ =>
    targetBytes t ++ byte1 ((if keptA then 1 else 0) + (if keptB then 2 else 0))
  | .audit _ _ _ => absent 11

/-- Byte 15 of a job record: flags. -/
def workFlags (w : JobWork) (holdsLock stopping : Bool) : Nat :=
  (match w with
    | .relocate _ _ _ verify => if verify then 1 else 0
    | .audit repair _ _ => if repair then 2 else 0)
    + (if holdsLock then 4 else 0) + (if stopping then 8 else 0)

/-- Bytes 25 to 28 of a job record: the counts of an AUDIT, 0xFF for a RELOCATE (R89, log entry 13). -/
def workCountBytes : JobWork → List Byte
  | .relocate _ _ _ _ => absent 4
  | .audit _ mismatches repaired => byte2 mismatches ++ byte2 repaired

/-- A job record, 37 bytes (10 section 10.6.5); a FREE slot is its handle, its state and 0xFF. -/
def jobBytes (handle : Nat) (job : Option Job) (holdsLock stopping : Bool) : List Byte :=
  match job with
  | none => byte1 handle ++ byte1 0 ++ absent 35
  | some j =>
    byte1 handle ++ byte1 (jobStateCode j.life) ++ byte1 (jobKindCode j.work) ++ byte1 j.region
      ++ workTargetBytes j.work ++ byte1 (workFlags j.work holdsLock stopping)
      ++ byte4 j.blockCount ++ byteOr (j.phase.map phaseCode) ++ byte4 j.cursor
      ++ workCountBytes j.work ++ lifeBytes j.life

/-- The bytes a fetch shifts out for a response: 7 + m of them (R167, 10 section 10.6.1). -/
def responseBytes (r : Response) : List Byte :=
  [0x96, r.code, r.tag, statusCode r.status, BitVec.ofNat 8 r.payload.length] ++ r.payload
    ++ byte2 r.crc.toNat

/-- The bits of bytes as the link shifts them, each byte most significant bit first (R163). -/
def bitsOf : List Byte → List Bool
  | [] => []
  | b :: rest => (List.range 8).map b.getMsbD ++ bitsOf rest

/-- A response with its check code over every byte after the lead byte (R164). -/
def mkResponse (code tag : Byte) (status : Status) (payload : List Byte) : Response :=
  { code := code, tag := tag, status := status, payload := payload
    crc := checkCode ([code, tag, statusCode status, BitVec.ofNat 8 payload.length] ++ payload) }

end Sys2Proof.Machine
end

