-- ==== Sys2Proof/Machine/Flags.lean ====
section
/-! DEFINITION. Derived values and flags: counters, the map's derived fields, occupancy, the alert condition, what an entry or a line is waiting for. -/

namespace Sys2Proof.Machine

open Sys2Proof

/-! ### Counters -/

/-- A 32-bit saturating counter's next value (R36, R67, R171). -/
def bump (n : Nat) : Nat := if n < Config.counterMax then n + 1 else n

/-- A saturating counter with another largest value (R89, R152). -/
def bumpTo (top n : Nat) : Nat := if n < top then n + 1 else n

/-- The lanes in order. -/
def allLanes : List Lane := [.l0, .l1, .l2, .l3]

/-- Change the member of one lane. -/
def PerLane.modify {α : Type} (p : PerLane α) (n : Lane) (f : α → α) : PerLane α :=
  p.set n (f (p.get n))

/-- Change every member. -/
def PerLane.map {α β : Type} (p : PerLane α) (f : α → β) : PerLane β :=
  { l0 := f p.l0, l1 := f p.l1, l2 := f p.l2, l3 := f p.l3 }

/-- Whether something holds of every member. -/
def PerLane.all {α : Type} (p : PerLane α) (f : α → Bool) : Bool :=
  f p.l0 && f p.l1 && f p.l2 && f p.l3

/-! ### The map (chapter 1) -/

/-- The legs of a pair of legs, A first. -/
def legList (a : Leg) (b : Option Leg) : List Leg := a :: b.toList

/-- The legs of a body. -/
def Body.legs (b : Body) : List Leg := legList b.legA b.legB

/-- The legs of a lookup result. -/
def Lookup.legs (l : Lookup) : List Leg := legList l.legA l.legB

/-- The descriptor of an active slot, absent for an invalid slot. -/
def descOf (slots : List MapSlot) (i : Nat) : Option Descriptor := (slots[i]?).bind MapSlot.desc

/-- The revision of an active slot. -/
def revisionOf (slots : List MapSlot) (i : Nat) : Count16 := ((slots[i]?).map MapSlot.revision).getD 0

/-- A staging slot. -/
def stageOf (staging : List StageSlot) (i : Nat) : StageSlot :=
  (staging[i]?).getD { body := none, basedOn := 0 }

/-- Whether a host line lies in a body's host range (R2). -/
def Body.holds (b : Body) (line : Nat) : Bool :=
  b.base * Config.granuleLines ≤ line && line < (b.base + b.length) * Config.granuleLines

/-- The lane line of line offset k on a leg (R3). -/
def laneLine (leg : Leg) (k : Nat) : Nat := leg.base * Config.granuleLines + k

/-- The block index of a lookup result (R3). -/
def Lookup.block (l : Lookup) : Nat := l.offset / Config.blockLines

/-- At risk (R9): a leg of a valid descriptor lies on a RETIRED lane. -/
def atRisk (health : Health) (d : Descriptor) : Bool :=
  d.body.legs.any fun leg => (health.lanes.get leg.lane).state == .retired

/-- Whether two half-open ranges share a granule. -/
def overlap (start1 len1 start2 len2 : Nat) : Bool :=
  start1 < start2 + len2 && start2 < start1 + len1 && 0 < len1 && 0 < len2

/-- Whether a staging slot is changed (R71). -/
def changedSlot (mu : MapUnit) (i : Nat) : Bool :=
  (stageOf mu.staging i).body != (descOf mu.slots i).map Descriptor.body

/-! ### Jobs (chapter 5) -/

/-- A target's legs. -/
def Target.legs (t : Target) : List Leg := legList t.legA t.legB

/-- The kept legs of a job (R93). -/
def JobWork.kept : JobWork → List Leg
  | .relocate t keptA keptB _ =>
    (if keptA then [t.legA] else []) ++ (if keptB then t.legB.toList else [])
  | .audit _ _ _ => []

/-- The shadow legs of a job, in recorded order: leg A before leg B (R93). -/
def JobWork.shadows : JobWork → List Leg
  | .relocate t keptA keptB _ =>
    (if keptA then [] else [t.legA]) ++ (if keptB then [] else t.legB.toList)
  | .audit _ _ _ => []

/-- Whether a job is QUEUED or RUNNING. -/
def JobLife.live : JobLife → Bool
  | .queued => true
  | .running _ => true
  | .finished _ => false

/-- The record in a job slot, absent when the slot is FREE. -/
def jobOf (engine : Engine) (h : Nat) : Option Job := (engine.jobs[h]?).join

/-- The running handle with its job record. -/
def runningJob (engine : Engine) : Option (Nat × Job) :=
  engine.running.bind fun h => (jobOf engine h).map fun j => (h, j)

/-- The stop request of a job, absent unless it is RUNNING with one recorded. -/
def Job.stop (j : Job) : Option Stop :=
  match j.life with
  | .running s => s
  | .queued => none
  | .finished _ => none

/-! ### Occupancy (R12, R14): derived from the active map and the job slots -/

/-- Who owns an item. -/
inductive Owner where
  | slot (i : Nat)
  | job (h : Nat)
  deriving DecidableEq, Repr

/-- An item of the occupancy view (R12). -/
structure Item where
  lane  : Lane
  start : Nat
  len   : Nat
  owner : Owner
  deriving DecidableEq, Repr

/-- The items of a body's legs. -/
def bodyItems (i : Nat) (b : Body) : List Item :=
  b.legs.map fun leg => { lane := leg.lane, start := leg.base, len := b.length, owner := .slot i }

/-- The leg items of the map, from slot i on. -/
def legItemsFrom (i : Nat) : List MapSlot → List Item
  | [] => []
  | m :: rest =>
    (match m.desc with
      | some d => bodyItems i d.body
      | none => []) ++ legItemsFrom (i + 1) rest

/-- The reservation items of a job slot: its shadow legs while it is QUEUED or RUNNING. Their length is
the region's, which is the block count over 512 (R90). -/
def jobItems (h : Nat) : Option Job → List Item
  | none => []
  | some j =>
    if j.life.live then
      j.work.shadows.map fun leg =>
        { lane := leg.lane, start := leg.base, len := j.blockCount / Config.granuleBlocks, owner := .job h }
    else []

/-- The reservation items of the job slots, from handle h on. -/
def reservationsFrom (h : Nat) : List (Option Job) → List Item
  | [] => []
  | j :: rest => jobItems h j ++ reservationsFrom (h + 1) rest

/-- The reservation items (R12). -/
def reservations (engine : Engine) : List Item := reservationsFrom 0 engine.jobs

/-- The occupancy view (R12). -/
def occupancy (s : State) : List Item := legItemsFrom 0 s.mu.slots ++ reservations s.engine

/-- The commit legs as items (R76, R82). -/
def commitItems (mu : MapUnit) : List Item :=
  match mu.commit.drain with
  | none => []
  | some d => d.members.flatMap fun m =>
      match m.body with
      | some b => bodyItems m.slot b
      | none => []

/-- Whether a leg of a length shares a granule with an item. -/
def Item.clashes (item : Item) (leg : Leg) (len : Nat) : Bool :=
  item.lane == leg.lane && overlap item.start item.len leg.base len

/-- The items a candidate leg overlaps (R14). -/
def clashing (items : List Item) (leg : Leg) (len : Nat) : List Item :=
  items.filter fun item => item.clashes leg len

/-- One of several equally failing candidates: the only one when there is one, and otherwise the one the
free value names (log entry 12). -/
def pickOne {α : Type} (site : Nat) (candidates : List α) : Option α :=
  match candidates with
  | [] => none
  | [x] => some x
  | x :: y :: rest =>
    (x :: y :: rest)[Config.choice site (rest.length + 2) % (rest.length + 2)]?

/-! ### In-flight entries (chapter 2) -/

/-- Channel of an entry's response (R35). -/
def Entry.dir (e : Entry) : Dir :=
  match e.kind with
  | .read => .read
  | .badRead _ => .read
  | .write _ _ => .write
  | .badWrite => .write

/-- The beats of a read response: as many as asked for, alike but for the mark of the last (R25). -/
def readBeats (code : Code) (data : LineData) : Nat → List ReadBeat
  | 0 => []
  | n + 1 => { code := code, data := data, last := n == 0 } :: readBeats code data n

/-- The response of an entry once its code is set (R25, R33): a well-formed read is answered with one beat, a
malformed one with as many as its burst declares, their data all zeros for every code but OKAY. -/
def Entry.response (e : Entry) : Option HostResponse :=
  e.code.map fun code =>
    let data := if code = .okay then e.data else 0
    match e.kind with
    | .read => .read e.id (readBeats code data 1)
    | .badRead beats => .read e.id (readBeats code data beats)
    | .write _ _ => .write e.id code
    | .badWrite => .write e.id code

/-- Whether an entry is a WRITE. -/
def Entry.isWrite (e : Entry) : Bool := e.dir == .write

/-- The entry of a slot. -/
def entryAt (entries : List Entry) (slot : Nat) : Option Entry := entries.find? fun e => e.slot == slot

/-- The per-ID order list of an upstream ID (R26). -/
def idOrder (entries : List Entry) (id : Fin 16) : List Nat :=
  (entries.filter fun e => e.id == id).map Entry.slot

/-- An entry is open until its outcome is known (R30). -/
def Entry.unanswered (e : Entry) : Bool := e.code.isNone

/-- The entries accepted before the one in a slot. -/
def olderThan (entries : List Entry) (slot : Nat) : List Entry := entries.takeWhile fun e => e.slot != slot

/-- The entries accepted after the one in a slot. -/
def youngerThan (entries : List Entry) (slot : Nat) : List Entry :=
  (entries.dropWhile fun e => e.slot != slot).drop 1

/-- The line-hazard test (R30): an older open entry names the line, and one of the two is a WRITE. -/
def hazard (entries : List Entry) (e : Entry) : Bool :=
  (olderThan entries e.slot).any fun o => o.unanswered && o.line == e.line && (o.isWrite || e.isWrite)

/-- The lowest-numbered free slot, if the table has one (R24). -/
def freeSlot (entries : List Entry) : Option Nat :=
  (List.range Config.iftSlots).find? fun n => !(entries.any fun e => e.slot == n)

/-- Whether an answered entry is the oldest of its ID's list (R34). -/
def eligible (entries : List Entry) (e : Entry) : Bool :=
  !e.unanswered && (idOrder entries e.id).head? == some e.slot

/-- Whether a host line lies in a span's ranges. -/
def Range.holds (r : Range) (line : Nat) : Bool :=
  r.base * Config.granuleLines ≤ line && line < (r.base + r.length) * Config.granuleLines

/-- Whether a host line lies in ranges. -/
def inRanges (ranges : List Range) (line : Nat) : Bool := ranges.any fun r => r.holds line

/-- The kind of the open drain span a host line lies in, if it lies in one (R28). The two spans never
overlap (R81). -/
def holdingSpan (ift : InFlight) (line : Nat) : Option Hold :=
  if ift.commitSpan.any fun sp => inRanges sp.ranges line then some .commit
  else if ift.switchSpan.any fun sp => inRanges sp.ranges line then some .switch
  else none

/-- Every request of an entry has an outcome (R32). -/
def Entry.settled (e : Entry) : Bool :=
  (e.legs.all fun u => u.outcome.isSome) && (e.shadows.all fun u => u.outcome.isSome)

/-- The live legs of a leg set against a descriptor (R64). -/
def liveLegs (d : Option Descriptor) (legs : List LegUse) : List LegUse :=
  match d with
  | none => []
  | some d => legs.filter fun u => d.body.legs.contains u.leg

/-! ### Lane requests (chapter 3) -/

/-- Whether a request waits on the engine side of the arbiter (R51). -/
def Request.fromEngine (r : Request) : Bool :=
  match r.requester with
  | .engine _ _ => true
  | .host _ _ => false
  | .gone => false

/-- Whether a request belongs to the entry in a slot. -/
def Request.ofSlot (r : Request) (slot : Nat) : Bool :=
  match r.requester with
  | .host n _ => n == slot
  | .engine _ _ => false
  | .gone => false

/-- Whether a request is a host-side request of some entry. -/
def Request.fromHost (r : Request) : Bool :=
  match r.requester with
  | .host _ _ => true
  | .engine _ _ => false
  | .gone => false

/-- Whether an issued request is OUTSTANDING, not TIMED_OUT (R51). -/
def Outstanding.running (o : Outstanding) : Bool := o.timer.isSome

/-- A lane with no request at all (R62). -/
def LanePort.idle (p : LanePort) : Bool := p.waiting.isEmpty && p.outstanding.isEmpty

/-- The engine requests of a lane without an outcome: WAITING, or OUTSTANDING and not TIMED_OUT. -/
def LanePort.engineOpen (p : LanePort) : Nat :=
  (p.waiting.filter fun w => w.req.fromEngine).length
    + (p.outstanding.filter fun o => o.running && o.req.fromEngine).length

/-- Engine requests open (R110). -/
def engineOpen (lanes : PerLane LanePort) : Nat :=
  lanes.l0.engineOpen + lanes.l1.engineOpen + lanes.l2.engineOpen + lanes.l3.engineOpen

/-- Whether any lane has a WAITING request of the entry in a slot. -/
def slotWaits (lanes : PerLane LanePort) (slot : Nat) : Bool :=
  !(lanes.all fun p => !(p.waiting.any fun w => w.req.ofSlot slot))

/-! ### Block steps (chapters 6 and 7) -/

/-- Whether a request of a line has its outcome. -/
def ReqState.over : ReqState → Bool
  | .ok => true
  | .failed => true
  | .notPresented => false
  | .pending => false

/-- Whether a line needs nothing more: in COPY its source failed on every leg, or was read and every
shadow write has an outcome (R114); in VERIFY its source and shadow reads are over (R119); in SCAN it is
marked (R131). -/
def lineFinished (phase : JobPhase) (l : LineState) : Bool :=
  match phase with
  | .copy => l.readA == .failed || (l.readA == .ok && l.sides.all fun d => d.state.over)
  | .verify => l.readA.over && l.sides.all fun d => d.state.over
  | .scan => l.finished
  | .switch => true

/-! ### The alert line (R161) -/

/-- The condition under which ALERT_N is asserted. -/
def alertCondition (log : FaultLog) : Bool :=
  log.lost || log.notices.any fun n => log.mask.getLsbD (noticeCode n.info)

end Sys2Proof.Machine
end

