-- ==== Sys2Proof/Machine/Ops.lean ====
section
/-! DEFINITION. Named operations of the blocks that other blocks ask for: records and notices, stop requests, entries, requests, drain spans. -/

namespace Sys2Proof.Machine

open Sys2Proof

/-- The outcome of a command. -/
abbrev Answer := Host.Outcome State Fault Refusal

/-! ### Fault log (R151, R152, R157, R158, R161) -/

/-- Evaluate ALERT_N (R161). -/
def evaluateAlert (log : FaultLog) : FaultLog := { log with alert := alertCondition log }

/-- Take a notice (R158): append it, or discard it and set the notices-lost flag when the queue holds 16;
then evaluate the line. -/
def takeNotice (generation : Count16) (info : NoticeInfo) (log : FaultLog) : FaultLog :=
  evaluateAlert
    (if log.notices.length < Config.noticeSize then
      { log with notices := log.notices ++ [{ info := info, generation := generation }] }
    else { log with lost := true })

/-- Take a record (R152): it consumes the next sequence number; it is appended when the ring has room, and
the append that fills the ring posts FAULT_RING_FULL in the same act; otherwise it counts as overflow. -/
def takeRecord (generation : Count16) (info : FaultInfo) (log : FaultLog) : FaultLog :=
  if log.ring.length < Config.ringSize then
    let kept := { log with
      nextSeq := log.nextSeq + 1
      ring := log.ring ++ [{ seq := log.nextSeq, generation := generation, info := info }] }
    if log.ring.length + 1 = Config.ringSize then takeNotice generation (.faultRingFull log.nextSeq) kept
    else kept
  else
    { log with nextSeq := log.nextSeq + 1, overflow := bumpTo Config.overflowMax log.overflow }

/-- Ask the fault log to write a record, stamped with the generation of this moment (R151). -/
def writeRecord (info : FaultInfo) (s : State) : State :=
  { s with log := takeRecord s.mu.generation info s.log }

/-- Ask the fault log to post a notice, stamped with the generation of this moment (R157). -/
def postNotice (info : NoticeInfo) (s : State) : State :=
  { s with log := takeNotice s.mu.generation info s.log }

/-! ### The reset sequence -/

/-- The bridge reset sequence is in OPEN (R40). -/
def isOpen (s : State) : Bool := s.hp.seq == .opened

/-! ### Map slots and jobs -/

/-- Replace an active slot. -/
def setMapSlot (i : Nat) (m : MapSlot) (s : State) : State :=
  { s with mu.slots := s.mu.slots.set i m }

/-- Set or clear a slot's job field (R19); an invalid slot has none. -/
def setJobField (i : Nat) (h : Option Nat) (s : State) : State :=
  match s.mu.slots[i]? with
  | none => s
  | some m => setMapSlot i { m with desc := m.desc.map fun d => { d with job := h } } s

/-- Replace a job slot. -/
def setJob (h : Nat) (j : Option Job) (s : State) : State :=
  { s with engine.jobs := s.engine.jobs.set h j }

/-- Change the running job's record. -/
def modifyRunning (f : Job → Job) (s : State) : State :=
  match runningJob s.engine with
  | none => s
  | some (h, j) => setJob h (some (f j)) s

/-- Record a stop request on the running job when none is recorded (R98). -/
def raiseStop (stop : Stop) (s : State) : State :=
  modifyRunning (fun j =>
    match j.life with
    | .running none => { j with life := .running (some stop) }
    | .running (some r) => { j with life := .running (some r) }
    | .queued => j
    | .finished o => { j with life := .finished o }) s

/-- RESET replaces any stop request already recorded (R98). -/
def raiseReset (s : State) : State :=
  modifyRunning (fun j =>
    match j.life with
    | .running _ => { j with life := .running (some .reset) }
    | .queued => j
    | .finished o => { j with life := .finished o }) s

/-! ### Entries -/

/-- Change the entry in a slot. -/
def modifyEntry (slot : Nat) (f : Entry → Entry) (s : State) : State :=
  { s with ift.entries := s.ift.entries.map fun e => if e.slot == slot then f e else e }

/-- Send an entry to a phase. -/
def setPhase (slot : Nat) (phase : Phase) (s : State) : State :=
  modifyEntry slot (fun e => { e with phase := phase }) s

/-! ### Lane requests (R51) -/

/-- Change one lane port. -/
def modifyLane (n : Lane) (f : LanePort → LanePort) (s : State) : State :=
  { s with lanes := s.lanes.modify n f }

/-- Present requests to a lane port, in order: each joins the wait list and starts its credit-wait timer
at the lane timeout (R51, R48). -/
def present (n : Lane) (reqs : List Request) (s : State) : State :=
  modifyLane n (fun p =>
    { p with waiting := p.waiting ++ reqs.map fun r => { req := r, timer := p.timeout } }) s

/-- Withdraw the WAITING requests a test selects, counting nothing (R53). -/
def withdraw (sel : Request → Bool) (s : State) : State :=
  { s with lanes := s.lanes.map fun p =>
      { p with waiting := p.waiting.filter fun w => !sel w.req } }

/-- The requests of an entry that has gone reach no entry any more (R58). -/
def Request.orphan (sel : Nat → Bool) (r : Request) : Request :=
  match r.requester with
  | .host slot part => { r with requester := if sel slot then .gone else .host slot part }
  | .engine part line => { r with requester := .engine part line }
  | .gone => r

/-- The entries in the selected slots have gone: their issued requests and their leg drop requests reach
no entry (R58, R65). -/
def orphan (sel : Nat → Bool) (s : State) : State :=
  { s with
    lanes := s.lanes.map fun p =>
      { p with outstanding := p.outstanding.map fun o => { o with req := o.req.orphan sel } }
    mu.drops := s.mu.drops.map fun d =>
      { d with slot := d.slot.bind fun n => if sel n then none else some n } }

/-! ### Drain spans (R28, R29) -/

/-- A drain span as it opens: it counts every entry then in the table whose host line lies in it. -/
def openSpan (ranges : List Range) (entries : List Entry) : Span :=
  { ranges := ranges
    counted := (entries.filter fun e => inRanges ranges e.line).map Entry.slot }

/-- The response of the entry in a slot leaves a span's count. -/
def Span.leave (slot : Nat) (sp : Span) : Span :=
  { sp with counted := sp.counted.filter fun n => n != slot }

/-- An IFT entry leaves the table: its slot is free, every open span's count falls if it was counted, and
nothing reaches it any more (R35). -/
def removeEntry (slot : Nat) (s : State) : State :=
  orphan (fun n => n == slot)
    { s with
      ift.entries := s.ift.entries.filter fun e => e.slot != slot
      ift.commitSpan := s.ift.commitSpan.map (Span.leave slot)
      ift.switchSpan := s.ift.switchSpan.map (Span.leave slot) }

/-! ### Block steps: entering TRANSFER (R111, R112, R119, R132) -/

/-- A line state before its step has presented anything (R110, R131). -/
def freshLine (shadows : Nat) : LineState :=
  { tried := [], data := none, readA := .notPresented
    sides := List.replicate shadows { state := .notPresented, data := none }
    readB := .notPresented, comparison := .none, repair := .notPresented, finished := false }

/-- The lines of a block, in order. -/
def blockLineNumbers : List Nat := List.range Config.blockLines

/-- The line offset in the region of a line of a block (R3). -/
def offsetIn (block line : Nat) : Nat := Config.blockLines * block + line

/-- The READs of all 64 lines of a block on a leg, in line order. -/
def blockReads (leg : Leg) (part : EnginePart) (block : Nat) : List Request :=
  blockLineNumbers.map fun i =>
    { kind := .read, line := laneLine leg (offsetIn block i), requester := .engine part i }

/-- Present the verify reads of the shadow legs from the i-th on, leg after leg (R119; log entry 31). -/
def presentVerifyReads (block : Nat) : Nat → List Leg → State → State
  | _, [], s => s
  | i, leg :: rest, s =>
    presentVerifyReads block (i + 1) rest (present leg.lane (blockReads leg (.verifyRead i) block) s)

/-- Replace the block step record. -/
def setStep (st : Option BlockStep) (s : State) : State := { s with engine.blockStep := st }

/-- Enter TRANSFER (R111): present the step's first reads. In COPY and VERIFY these are the source reads
on the region's current leg A, each line recording it as tried (R112, R119), and in VERIFY the reads of
every shadow leg (R119); in SCAN the leg A reads (R132). A stopping job presents nothing (R100).

In VERIFY all 64 source reads are presented before the 64 reads of a shadow leg, each in line order: R119 leaves
open whether source and shadow reads alternate line by line, which shows when a shadow leg lies on leg A's lane
(DESIGN CHOICE, log entry 31). -/
def enterTransfer (s : State) : State :=
  match runningJob s.engine, s.engine.blockStep with
  | some (_, j), some st =>
    if s.engine.stopping then s else
    match descOf s.mu.slots j.region, j.phase with
    | some d, some .copy =>
      let a := d.body.legA
      let line := { freshLine j.work.shadows.length with tried := [a], readA := .pending }
      present a.lane (blockReads a .source st.block)
        (setStep (some { st with stage := .transfer, lines := List.replicate Config.blockLines line }) s)
    | some d, some .verify =>
      let a := d.body.legA
      let line := { freshLine 0 with
        tried := [a], readA := .pending
        sides := List.replicate j.work.shadows.length { state := .pending, data := none } }
      presentVerifyReads st.block 0 j.work.shadows
        (present a.lane (blockReads a .source st.block)
          (setStep (some { st with stage := .transfer, lines := List.replicate Config.blockLines line }) s))
    | some d, some .scan =>
      let a := d.body.legA
      let line := { freshLine 0 with readA := .pending }
      present a.lane (blockReads a .auditA st.block)
        (setStep (some { st with stage := .transfer, lines := List.replicate Config.blockLines line }) s)
    | _, _ => s
  | _, _ => s

/-- The WRITE entries of a region's block that are ISSUING or ISSUED (R110). -/
def openWrites (entries : List Entry) (region block : Nat) : List Entry :=
  entries.filter fun e =>
    e.isWrite && (e.phase == .issuing || e.phase == .issued)
      && e.lookup.any fun l => l.region == region && l.block == block

/-- Begin a block step on the block at the cursor (R110, R131): set the lock, count the writes open in the
block, and enter TRANSFER at once when there are none. No step begins while the cursor equals the block
count. -/
def beginStep (s : State) : State :=
  match runningJob s.engine with
  | none => s
  | some (_, j) =>
    if j.cursor < j.blockCount then
      let wait := (openWrites s.ift.entries j.region j.cursor).length
      let s := { s with
        engine.lock := some { region := j.region, block := j.cursor }
        engine.blockStep := some
          { block := j.cursor, stage := .lockWait, writeWait := wait
            lines := List.replicate Config.blockLines (freshLine j.work.shadows.length) } }
      if wait = 0 then enterTransfer s else s
    else s

/-- The outcome of a write counted by the lock wait becomes known (R111): the count falls, and at 0 the
step enters TRANSFER. -/
def writeWaitFalls (s : State) : State :=
  match s.engine.blockStep with
  | none => s
  | some st =>
    let s := setStep (some { st with writeWait := st.writeWait - 1 }) s
    if st.writeWait - 1 = 0 then enterTransfer s else s

/-- Whether an entry is one of the writes a lock wait counts (R110, R111). -/
def countedByLock (engine : Engine) (e : Entry) : Bool :=
  e.isWrite && (e.phase == .issuing || e.phase == .issued)
    && (engine.blockStep.any fun st => st.stage == .lockWait)
    && e.lookup.any fun l => engine.lock == some { region := l.region, block := l.block }

end Sys2Proof.Machine
end

