-- ==== Sys2Proof/Machine/Tables.lean ====
section
/-! DEFINITION. The in-flight table at work: lookup, full and continued decode, issue, re-examination, outcomes becoming known, releases (R4, R27 to R33, R109). -/

namespace Sys2Proof.Machine

open Sys2Proof

/-! ### Lookup (R4) -/

/-- The slots from slot i on that hold a line, lowest first. By R2 there is at most one. -/
def lookupFrom (line : Nat) (i : Nat) : List MapSlot → Option Lookup
  | [] => none
  | m :: rest =>
    match m.desc with
    | none => lookupFrom line (i + 1) rest
    | some d =>
      if d.body.holds line then
        some { region := i, offset := line - d.body.base * Config.granuleLines, legA := d.body.legA
               legB := d.body.legB, pref := d.body.pref, access := d.body.access, revision := m.revision }
      else lookupFrom line (i + 1) rest

/-- The lookup of a host line; a line outside the host span matches nothing (R4). -/
def lookup (slots : List MapSlot) (line : Nat) : Option Lookup :=
  if line < Config.spanLines then lookupFrom line 0 slots else none

/-! ### Issue (R6, R32, R109) -/

/-- The leg a read of this lookup tries first (R6). -/
def firstPos (l : Lookup) : LegPos :=
  match l.legB with
  | none => .a
  | some _ =>
    match l.pref with
    | .aFirst => .a
    | .bFirst => .b
    | .split => if l.block % 2 = 0 then .a else .b

/-- The leg of a position. -/
def Lookup.legAt (l : Lookup) : LegPos → Option Leg
  | .a => some l.legA
  | .b => l.legB

/-- The other position. -/
def LegPos.other : LegPos → LegPos
  | .a => .b
  | .b => .a

/-- A leg set member, PENDING. -/
def legUse (l : Lookup) (pos : LegPos) (leg : Leg) : LegUse :=
  { pos := pos, leg := leg, line := laneLine leg l.offset, outcome := none }

/-- The shadow legs a host write takes, by the state of its region's job (R109). -/
def shadowLegs (engine : Engine) (l : Lookup) : List Leg :=
  match runningJob engine with
  | none => []
  | some (_, j) =>
    if j.region = l.region ∧ engine.stopping = false then
      match j.phase with
      | some .copy => if l.block < j.cursor then j.work.shadows else []
      | some .verify => j.work.shadows
      | some .switch => j.work.shadows
      | some .scan => []
      | none => []
    else []

/-- The leg set of an entry as it issues (R32): one leg for a READ, every current leg for a WRITE. -/
def issueLegs (e : Entry) (l : Lookup) : List LegUse :=
  if e.isWrite then
    legUse l .a l.legA :: (l.legB.map (legUse l .b)).toList
  else
    ((l.legAt (firstPos l)).map (legUse l (firstPos l))).toList

/-- The shadow set of an entry as it issues: a WRITE's, under R109. -/
def issueShadows (engine : Engine) (e : Entry) (l : Lookup) : List ShadowUse :=
  if e.isWrite then
    (shadowLegs engine l).map fun leg => { leg := leg, line := laneLine leg l.offset, outcome := none }
  else []

/-- What an entry's requests do on a lane (R32): a WRITE carries the entry's byte mask and data. -/
def Entry.reqKind (e : Entry) : ReqKind :=
  match e.kind with
  | .write mask data => .write mask data
  | .read => .read
  | .badRead _ => .read
  | .badWrite => .read

/-- Present the requests of a leg set. -/
def presentLegs (e : Entry) : List LegUse → State → State
  | [], s => s
  | u :: rest, s =>
    presentLegs e rest (present u.leg.lane
      [{ kind := e.reqKind, line := u.line, requester := .host e.slot (.current u.pos) }] s)

/-- Present the requests of a shadow set from the i-th on. -/
def presentShadows (e : Entry) : Nat → List ShadowUse → State → State
  | _, [], s => s
  | i, u :: rest, s =>
    presentShadows e (i + 1) rest (present u.leg.lane
      [{ kind := e.reqKind, line := u.line, requester := .host e.slot (.shadow i) }] s)

/-- Step 6 of the decode (R27, R32): the entry goes ISSUING, takes its leg set and shadow set, and
presents its requests. -/
def issueEntry (e : Entry) (l : Lookup) (s : State) : State :=
  let legs := issueLegs e l
  let shadows := issueShadows s.engine e l
  presentShadows e 0 shadows
    (presentLegs e legs
      (modifyEntry e.slot (fun e => { e with phase := .issuing, legs := legs, shadows := shadows }) s))

/-! ### Decode (R27) -/

/-- Steps 4 to 6 of the decode with the stored lookup result: line hazard, block lock, issue. -/
def continueDecode (slot : Nat) (s : State) : State :=
  match entryAt s.ift.entries slot with
  | none => s
  | some e =>
    match e.lookup with
    | none => s
    | some l =>
      if hazard s.ift.entries e then setPhase slot .lineWait s
      else if e.isWrite && s.engine.lock == some { region := l.region, block := l.block } then
        setPhase slot .parked s
      else issueEntry e l s

/-- Continue the decodes of several entries, one after another. -/
def continueDecodes : List Nat → State → State
  | [], s => s
  | slot :: rest, s => continueDecodes rest (continueDecode slot s)

/-- The younger LINE_WAIT entries naming an entry's host line (R30). -/
def waitersOn (entries : List Entry) (e : Entry) : List Nat :=
  ((youngerThan entries e.slot).filter fun y => y.phase == .lineWait && y.line == e.line).map Entry.slot

/-- An entry's outcome becomes known (R33): its code and read data are set and it goes ORDER_WAIT; the
younger LINE_WAIT entries of its line are re-examined in acceptance order (R30); and a lock wait that
counted it falls (R111). -/
def becomeKnown (slot : Nat) (code : Code) (data : LineData) (s : State) : State :=
  match entryAt s.ift.entries slot with
  | none => s
  | some e =>
    let counted := countedByLock s.engine e
    let s := modifyEntry slot (fun e =>
      { e with code := some code, data := data, phase := .orderWait }) s
    let s := continueDecodes (waitersOn s.ift.entries e) s
    if counted then writeWaitFalls s else s

/-- A full decode of the entry in a slot (R27): drain span, lookup, access, and then steps 4 to 6. -/
def fullDecode (slot : Nat) (s : State) : State :=
  match entryAt s.ift.entries slot with
  | none => s
  | some e =>
    match holdingSpan s.ift e.line with
    | some kind =>
      modifyEntry slot (fun e => { e with phase := .held, hold := some kind }) s
    | none =>
      match lookup s.mu.slots e.line with
      | none =>
        becomeKnown slot .decerr 0
          (modifyEntry slot (fun e => { e with hold := none, region := none, lookup := none })
            { s with hp.unmapped := bump s.hp.unmapped })
      | some l =>
        let s := modifyEntry slot (fun e =>
          { e with hold := none, region := some l.region, lookup := some l }) s
        if e.isWrite && l.access == .readOnly then
          becomeKnown slot .slverr 0 { s with hp.readOnly := bump s.hp.readOnly }
        else continueDecode slot s

/-- Decode several entries in full, one after another. -/
def fullDecodes : List Nat → State → State
  | [], s => s
  | slot :: rest, s => fullDecodes rest (fullDecode slot s)

/-! ### Releases (R28, R31) -/

/-- The entries a drain holds, in acceptance order. -/
def heldBy (entries : List Entry) (kind : Hold) (ranges : List Range) : List Nat :=
  (entries.filter fun e => e.phase == .held && e.hold == some kind && inRanges ranges e.line).map Entry.slot

/-- Release the entries held by a span that has just been closed (R28): each has its hold cleared and is
decoded in full, in acceptance order. -/
def releaseHeld (kind : Hold) (sp : Span) (s : State) : State :=
  fullDecodes (heldBy s.ift.entries kind sp.ranges) s

/-- The writes parked on a block, in acceptance order (R31). -/
def parkedOn (entries : List Entry) (lock : Lock) : List Nat :=
  (entries.filter fun e =>
    e.phase == .parked && e.lookup.any fun l => l.region == lock.region && l.block == lock.block).map
      Entry.slot

/-- Release the block lock if it is held, with the step record, and decode the block's PARKED writes in
full, in acceptance order (R31, R110). -/
def releaseLock (s : State) : State :=
  match s.engine.lock with
  | none => setStep none s
  | some lock =>
    fullDecodes (parkedOn s.ift.entries lock)
      { s with engine.lock := none, engine.blockStep := none }

end Sys2Proof.Machine
end

