-- ==== Sys2Proof/Machine/MapOps.lean ====
section
/-! DEFINITION. The map unit at work: ranges, commit validation, opening, installing and ending a commit, leg drops, switch installation (R15, R18, R77 to R87). -/

namespace Sys2Proof.Machine

open Sys2Proof

/-! ### Granule ranges -/

/-- Insert a range into a list sorted by base. -/
def insertRange (r : Range) : List Range → List Range
  | [] => [r]
  | x :: rest => if r.base ≤ x.base then r :: x :: rest else x :: insertRange r rest

/-- Sort ranges by base. -/
def sortRanges : List Range → List Range
  | [] => []
  | r :: rest => insertRange r (sortRanges rest)

/-- Granules covered by ranges sorted by base, of those from granule `from_` on. -/
def coveredFrom (from_ : Nat) : List Range → Nat
  | [] => 0
  | r :: rest =>
    let start := max from_ r.base
    let stop := max start (r.base + r.length)
    (stop - start) + coveredFrom stop rest

/-- The number of granules in the union of ranges (R80). -/
def unionSize (ranges : List Range) : Nat := coveredFrom 0 (sortRanges ranges)

/-- The host range of a body. -/
def Body.range (b : Body) : Range := { base := b.base, length := b.length }

/-! ### Commit validation (R77 to R79) -/

/-- The indices of the map slots. -/
def slotNumbers : List Nat := List.range Config.mapSlots

/-- The changed slots, ascending (R71). -/
def changedSlots (mu : MapUnit) : List Nat := slotNumbers.filter (changedSlot mu)

/-- The valid staging slots with their bodies, ascending. -/
def stagedBodies (mu : MapUnit) : List (Nat × Body) :=
  slotNumbers.filterMap fun i => (stageOf mu.staging i).body.map fun b => (i, b)

/-- The structural checks (R78). -/
inductive MapCheck where
  | span | lanePair | capacity | laneState | hostOverlap | legOverlap | reserved
  deriving DecidableEq, Repr

/-- A failed structural check: the slot reported and the detail (R78). -/
structure MapFailure where
  check : MapCheck
  slot  : Nat
  other : Option Nat
  lane  : Option Lane
  job   : Option Nat
  deriving DecidableEq, Repr

/-- The failure of a check that reports a slot alone or a slot and a lane. -/
def failAt (check : MapCheck) (slot : Nat) (lane : Option Lane) : MapFailure :=
  { check := check, slot := slot, other := none, lane := lane, job := none }

/-- The lanes of a body's legs that a test selects. -/
def lanesWhere (b : Body) (sel : Leg → Bool) : List Lane := (b.legs.filter sel).map Leg.lane

/-- SPAN (R78). -/
def checkSpan (p : Nat × Body) : Option MapFailure :=
  if p.2.length = 0 ∨ p.2.base + p.2.length > Config.spanGranules then some (failAt .span p.1 none)
  else none

/-- LANE_PAIR (R78). -/
def checkLanePair (p : Nat × Body) : Option MapFailure :=
  match p.2.legB with
  | none => none
  | some b => if p.2.legA.lane = b.lane then some (failAt .lanePair p.1 (some b.lane)) else none

/-- CAPACITY (R78). When both legs leave their lanes, which lane is reported is free (log entry 12). -/
def checkCapacity (lanes : PerLane LanePort) (p : Nat × Body) : Option MapFailure :=
  (pickOne 0 (lanesWhere p.2 fun leg => leg.base + p.2.length > (lanes.get leg.lane).capacity)).map
    fun lane => failAt .capacity p.1 (some lane)

/-- LANE_STATE, for changed slots (R78). -/
def checkLaneState (s : State) (p : Nat × Body) : Option MapFailure :=
  if changedSlot s.mu p.1 then
    (pickOne 1 (lanesWhere p.2 fun leg =>
      (s.health.lanes.get leg.lane).state == .offline || (s.health.lanes.get leg.lane).state == .retired)).map
      fun lane => failAt .laneState p.1 (some lane)
  else none

/-- HOST_OVERLAP of a slot with a lower-numbered one (R78). -/
def pairHost (p q : Nat × Body) : Option MapFailure :=
  if overlap p.2.base p.2.length q.2.base q.2.length then
    some { check := .hostOverlap, slot := p.1, other := some q.1, lane := none, job := none }
  else none

/-- LEG_OVERLAP of a slot with a lower-numbered one (R78). -/
def pairLegs (p q : Nat × Body) : Option MapFailure :=
  (pickOne 2 (lanesWhere p.2 fun leg => q.2.legs.any fun other =>
    leg.lane == other.lane && overlap leg.base p.2.length other.base q.2.length)).map
    fun lane => { check := .legOverlap, slot := p.1, other := some q.1, lane := some lane, job := none }

/-- The handle that owns an item, for a reservation item. -/
def Item.job (item : Item) : Option Nat :=
  match item.owner with
  | .job h => some h
  | .slot _ => none

/-- RESERVED (R78). -/
def checkReserved (engine : Engine) (p : Nat × Body) : Option MapFailure :=
  (pickOne 3 (p.2.legs.flatMap fun leg => clashing (reservations engine) leg p.2.length)).map
    fun item => { check := .reserved, slot := p.1, other := none, lane := some item.lane, job := item.job }

/-- The first failure a check finds over slots in ascending order. -/
def firstFailure (check : Nat × Body → Option MapFailure) : List (Nat × Body) → Option MapFailure
  | [] => none
  | p :: rest =>
    match check p with
    | some f => some f
    | none => firstFailure check rest

/-- A pair check: each slot in turn against every lower-numbered slot (R78). `lower` holds the slots
already taken, ascending. -/
def firstPair (check : Nat × Body → Nat × Body → Option MapFailure) (lower : List (Nat × Body)) :
    List (Nat × Body) → Option MapFailure
  | [] => none
  | p :: rest =>
    match firstFailure (check p) lower with
    | some f => some f
    | none => firstPair check (lower ++ [p]) rest

/-- The structural checks in the order of R78: the first to fail decides. -/
def structuralFailure (s : State) : Option MapFailure :=
  let bodies := stagedBodies s.mu
  (firstFailure checkSpan bodies) <|> (firstFailure checkLanePair bodies)
    <|> (firstFailure (checkCapacity s.lanes) bodies) <|> (firstFailure (checkLaneState s) bodies)
    <|> (firstPair pairHost [] bodies) <|> (firstPair pairLegs [] bodies)
    <|> (firstFailure (checkReserved s.engine) bodies)

/-- The lowest changed slot whose based-on revision is not its active revision (R79). -/
def staleSlot (mu : MapUnit) : Option Nat :=
  (changedSlots mu).find? fun i => (stageOf mu.staging i).basedOn != revisionOf mu.slots i

/-- The lowest changed slot whose active descriptor has a job, with the handle (R79). -/
def busySlot (mu : MapUnit) : Option (Nat × Nat) :=
  ((changedSlots mu).filterMap fun i => ((descOf mu.slots i).bind Descriptor.job).map fun h => (i, h)).head?

/-! ### Opening, installing and ending a commit (R80, R83, R84) -/

/-- The commit set of the changed slots (R80). -/
def commitMembers (mu : MapUnit) : List CommitMember :=
  (changedSlots mu).map fun i => { slot := i, body := (stageOf mu.staging i).body }

/-- The ranges of the affected span: old and new host ranges of the changed slots (R80). -/
def affectedRanges (mu : MapUnit) : List Range :=
  (changedSlots mu).flatMap fun i =>
    ((descOf mu.slots i).map fun d => d.body.range).toList
      ++ ((stageOf mu.staging i).body.map Body.range).toList

/-- Accept a commit (R80, steps 1 to 5). -/
def openCommit (s : State) : State :=
  { s with
    mu.commit.drain := some
      { members := commitMembers s.mu, stale := false, timer := s.hp.drainLimit }
    ift.commitSpan := some (openSpan (affectedRanges s.mu) s.ift.entries) }

/-- Install one member of a commit set (R84). -/
def installMember (m : CommitMember) (slots : List MapSlot) : List MapSlot :=
  slots.set m.slot
    { desc := m.body.map fun b => { body := b, degraded := false, job := (descOf slots m.slot).bind Descriptor.job }
      revision := revisionOf slots m.slot + 1 }

/-- Install the members of a commit set in order (R84). -/
def installMembers : List CommitMember → List MapSlot → List MapSlot
  | [], slots => slots
  | m :: rest, slots => installMembers rest (installMember m slots)

/-- Install a commit: every member, and then the generation once (R84). -/
def installCommit (members : List CommitMember) (s : State) : State :=
  { s with
    mu.slots := installMembers members s.mu.slots
    mu.generation := s.mu.generation + 1 }

/-- End a draining commit with a result (R83): the record returns to IDLE, the span closes and releases
its HELD entries, the claims end with the commit set, and COMMIT_FINISHED is posted with the lowest slot
of the set. -/
def endCommit (result : CommitResult) (s : State) : State :=
  match s.mu.commit.drain with
  | none => s
  | some d =>
    let subject := (d.members.head?.map CommitMember.slot).getD 0
    let closed := { s with
      mu.commit := { drain := none, last := result }
      ift.commitSpan := none }
    let released :=
      match s.ift.commitSpan with
      | none => closed
      | some sp => releaseHeld .commit sp closed
    postNotice (.commitFinished subject result) released

/-- A drain completion report, taken (R84): a draining commit that is not stale installs and ends DONE. -/
def completeCommit (s : State) : State :=
  match s.mu.commit.drain with
  | none => s
  | some d => if d.stale then s else endCommit .done (installCommit d.members s)

/-- The drain completion of the open commit span has been reported: its count is 0 (R29). -/
def commitReported (s : State) : Bool := s.ift.commitSpan.any fun sp => sp.counted.isEmpty

/-- Mark a draining commit stale (R86). -/
def markStale (s : State) : State :=
  { s with mu.commit.drain := s.mu.commit.drain.map fun d => { d with stale := true } }

/-- A slot is a member of the commit set of a draining commit (R82). -/
def inCommitSet (mu : MapUnit) (i : Nat) : Bool :=
  mu.commit.drain.any fun d => d.members.any fun m => m.slot == i

/-- A stale commit ends STALE at the close of the event that marked it (R86). -/
def closeStale (s : State) : State :=
  if s.mu.commit.drain.any fun d => d.stale then endCommit .stale s else s

/-! ### Leg drops (R15, R126, R137) -/

/-- The descriptor a drop of a leg leaves (R15, point 1): the other leg becomes leg A. -/
def dropLeg (leg : Leg) (d : Descriptor) (b : Leg) : Descriptor :=
  { d with
    body := { d.body with legA := if leg = d.body.legA then b else d.body.legA, legB := none, pref := .aFirst }
    degraded := true }

/-- The copy engine is told of an applied drop on its running job's region (R126, R137). -/
def tellDrop (region : Nat) (leg : Leg) (s : State) : State :=
  match runningJob s.engine with
  | none => s
  | some (_, j) =>
    if j.region = region then
      match j.work with
      | .relocate _ _ _ _ =>
        if j.work.kept.contains leg then raiseStop (.failed .targetLegLost none) s else s
      | .audit _ _ _ => raiseStop (.failed .regionDegraded none) s
    else s

/-- Whether the map unit applies a drop (R15): the slot is valid and MIRROR and the leg is one of its two.
Answers the slot, its descriptor and its leg B. -/
def dropTarget (slots : List MapSlot) (region : Nat) (leg : Leg) : Option (MapSlot × Descriptor × Leg) :=
  match slots[region]? with
  | none => none
  | some m =>
    match m.desc with
    | none => none
    | some d =>
      match d.body.legB with
      | none => none
      | some b => if leg = d.body.legA ∨ leg = b then some (m, d, b) else none

/-- Take a leg drop (R15): apply it, with its record, its notice, the copy engine told and the commit
marked stale, or ignore it. -/
def takeDrop (region : Nat) (leg : Leg) (s : State) : State :=
  match dropTarget s.mu.slots region leg with
  | none => s
  | some (m, d, b) =>
    let s := { s with
      mu.slots := s.mu.slots.set region { desc := some (dropLeg leg d b), revision := m.revision + 1 }
      mu.generation := s.mu.generation + 1 }
    let s := writeRecord
      { kind := .legDropped, lane := some leg.lane, region := some region, job := d.job } s
    let s := postNotice (.legDropped region leg.lane) s
    let s := tellDrop region leg s
    if inCommitSet s.mu region then markStale s else s

/-- The leg of a MIRROR descriptor on a lane (R17). -/
def mirrorLegOn (lane : Lane) (d : Option Descriptor) : Option Leg :=
  match d with
  | none => none
  | some d => if d.body.legB.isSome then d.body.legs.find? fun leg => leg.lane == lane else none

/-- Drop every MIRROR leg on a lane, over slots in ascending order (R17). -/
def dropLane (lane : Lane) : List Nat → State → State
  | [], s => s
  | i :: rest, s =>
    dropLane lane rest
      (match mirrorLegOn lane (descOf s.mu.slots i) with
        | some leg => takeDrop i leg s
        | none => s)

/-! ### Switch installation (R18) -/

/-- The map unit's answer to a switch request: the slot's new descriptor, or a refusal (R18). -/
def switchInstall (work : JobWork) (region : Nat) (s : State) : JobOutcome × State :=
  match work, s.mu.slots[region]? with
  | .relocate t keptA keptB verify, some m =>
    match m.desc with
    | none => (.failed .targetLegLost none, s)
    | some d =>
      if (JobWork.relocate t keptA keptB verify).kept.any fun leg => !d.body.legs.contains leg then
        (.failed .targetLegLost none, s)
      else if t.legB.isSome && t.legs.any fun leg => (s.health.lanes.get leg.lane).state == .retired then
        (.failed .targetRetired none, s)
      else
        (.done, { s with
          mu.slots := s.mu.slots.set region
            { desc := some { d with
                body := { d.body with legA := t.legA, legB := t.legB, pref := t.pref }, degraded := false }
              revision := m.revision + 1 }
          mu.generation := s.mu.generation + 1 })
  | _, _ => (.failed .targetLegLost none, s)

end Sys2Proof.Machine
end

