-- ==== Sys2Proof/Machine/HealthOps.lean ====
section
/-! DEFINITION. The health monitor at work: budgets, evaluation, lane state changes, retirement (R140 to R145). -/

namespace Sys2Proof.Machine

open Sys2Proof

/-- Change a lane's state, with the record and notice of R143. -/
def setLaneState (lane : Lane) (st : LaneState) (s : State) : State :=
  postNotice (.laneStateChanged lane st)
    (writeRecord { kind := .laneStateChanged, lane := some lane }
      { s with health.lanes := s.health.lanes.modify lane fun h => { h with state := st } })

/-- The health monitor tells the copy engine a retired lane (R127). -/
def tellRetired (lane : Lane) (s : State) : State :=
  match runningJob s.engine with
  | none => s
  | some (_, j) =>
    match j.work with
    | .audit _ _ _ => s
    | .relocate t _ _ _ =>
      if j.work.shadows.any (fun leg => leg.lane == lane)
          || (t.legB.isSome && j.work.kept.any fun leg => leg.lane == lane) then
        raiseStop (.failed .targetRetired none) s
      else s

/-- A draining commit with a leg on a retired lane becomes stale (R86, R144 step 2). -/
def staleByLane (lane : Lane) (s : State) : State :=
  if (commitItems s.mu).any fun item => item.lane == lane then markStale s else s

/-- Retirement (R144), steps 1 to 3, after the record and notice of the state change. -/
def retireLane (lane : Lane) (s : State) : State :=
  tellRetired lane (staleByLane lane (dropLane lane slotNumbers (setLaneState lane .retired s)))

/-- Evaluate a lane (R142): only ACTIVE and SUSPECT lanes are reached, and the first case that applies is
taken. -/
def evaluateLane (lane : Lane) (s : State) : State :=
  let h := s.health.lanes.get lane
  match h.state with
  | .active =>
    if s.health.retire ≤ h.budget then retireLane lane s
    else if s.health.suspect ≤ h.budget then setLaneState lane .suspect s
    else s
  | .suspect =>
    if s.health.retire ≤ h.budget then retireLane lane s
    else if 2 * h.budget < s.health.suspect then setLaneState lane .active s
    else s
  | .retired => s
  | .offline => s

/-- Evaluate several lanes, one after another. -/
def evaluateLanes : List Lane → State → State
  | [], s => s
  | lane :: rest, s => evaluateLanes rest (evaluateLane lane s)

/-- A lane port hands over an error of some weight (R140): the budget rises, to 4,095 at most, and the
lane is evaluated. -/
def addWeight (lane : Lane) (weight : Nat) (s : State) : State :=
  evaluateLane lane
    { s with health.lanes := s.health.lanes.modify lane fun h =>
        { h with budget := min Config.budgetMax (h.budget + weight) } }

/-- The lanes whose budgets a drain tick lowers (R141). -/
def tickingLanes (h : Health) : List Lane := allLanes.filter fun n => 0 < (h.lanes.get n).budget

/-- A drain tick (R141): every budget above 0 falls by 1, the timer restarts at the interval in force, and
each lane whose budget fell is evaluated. -/
def healthTick (s : State) : State :=
  evaluateLanes (tickingLanes s.health)
    { s with health := { s.health with
        lanes := s.health.lanes.map fun h => { h with budget := h.budget - 1 }
        drainTimer := some s.health.interval } }

end Sys2Proof.Machine
end

