-- ==== Sys2Proof/Machine/CopyEngine.lean ====
section
/-! DEFINITION. The copy engine at work: finish, start, switch, stop, block steps, and the outcomes of its requests (R96 to R106, R110 to R137). -/

namespace Sys2Proof.Machine

open Sys2Proof

/-! ### Finish (R101) -/

/-- The outcome a stop request gives (R100). -/
def Stop.outcome : Stop → JobOutcome
  | .cancel => .cancelled
  | .reset => .resetAborted
  | .failed reason detail => .failed reason detail

/-- Clear a region's job field if it still names the job (R101 step 4). -/
def clearJobField (region h : Nat) (s : State) : State :=
  if (descOf s.mu.slots region).bind Descriptor.job = some h then setJobField region none s else s

/-- The engine's fields that go with a RUNNING job when it finishes (R101 step 2, R130). -/
def Engine.release (e : Engine) (h : Nat) : Engine :=
  if e.running = some h then
    { e with running := none, lock := none, blockStep := none, stopping := false, switchTimer := none }
  else e

/-- A job finishes (R101 steps 1 to 5). Its reservations leave occupancy with its QUEUED or RUNNING state
(R13). Step 6, the start of the next head, is `startNext`. -/
def finishJob (h : Nat) (outcome : JobOutcome) (s : State) : State :=
  match jobOf s.engine h with
  | none => s
  | some j =>
    let s := setJob h (some { j with life := .finished outcome }) s
    let s := { s with engine := s.engine.release h }
    postNotice (.jobFinished h outcome.kind) (clearJobField j.region h s)

/-! ### The switch (R122 to R125) -/

/-- Enter SWITCH (R122 steps 1 to 3): the phase, the drain span over the region's host range, and the
switch timer at the drain limit in force. -/
def openSwitch (s : State) : State :=
  match runningJob s.engine with
  | none => s
  | some (h, j) =>
    let ranges := ((descOf s.mu.slots j.region).map fun d => d.body.range).toList
    setJob h (some { j with phase := some .switch })
      { s with
        ift.switchSpan := some (openSpan ranges s.ift.entries)
        engine.switchTimer := some s.hp.drainLimit }

/-- The drain completion of the open switch span has been reported: its count is 0 (R29). -/
def switchReported (s : State) : Bool := s.ift.switchSpan.any fun sp => sp.counted.isEmpty

/-- What completion of the switch drain does at the job's boundary (R123): the stop request's outcome,
with nothing installed, or the map unit's answer to the installation. -/
def switchDecide (j : Job) (s : State) : JobOutcome × State :=
  match j.stop with
  | some stop => (stop.outcome, s)
  | none => switchInstall j.work j.region s

/-! ### Start (R96, R97) -/

/-- The start checks (R97): the reason of the first that fails. -/
def startCheck (j : Job) (s : State) : Option Reason :=
  match j.work, descOf s.mu.slots j.region with
  | .relocate t keptA keptB verify, some d =>
    let w := JobWork.relocate t keptA keptB verify
    let retired := fun leg : Leg => (s.health.lanes.get leg.lane).state == .retired
    if w.kept.any fun leg => !d.body.legs.contains leg then some .targetLegLost
    else if w.shadows.any retired || (t.legB.isSome && w.kept.any retired) then some .targetRetired
    else none
  | .relocate _ _ _ _, none => some .targetLegLost
  | .audit _ _ _, some d => if d.body.legB.isSome then none else some .regionDegraded
  | .audit _ _ _, none => some .regionDegraded

/-- The phase a job's start enters (R97). -/
def firstPhase (w : JobWork) : JobPhase :=
  match w with
  | .audit _ _ _ => .scan
  | .relocate _ _ _ _ => if w.shadows.isEmpty then .switch else .copy

/-- A job becomes RUNNING in a phase with its cursor at 0 (R96, R97). -/
def enterRunning (h : Nat) (j : Job) (phase : JobPhase) (s : State) : State :=
  setJob h (some { j with life := .running none, phase := some phase, cursor := 0 })
    { s with engine := { s.engine with running := some h, stopping := false } }

/-- Start queue heads until a job runs or the queue is empty (R96). A relocation with no shadow leg opens
its switch drain; when nothing is counted the drain completes in this event (R122, R123): the job finishes,
the next head starts, and then the span closes and releases its entries (log entry 19). The first argument
bounds the heads taken; `startNext` gives the queue's length. -/
def startQueue : Nat → State → State
  | 0, s => s
  | n + 1, s =>
    match s.engine.running, s.engine.queue with
    | some _, _ => s
    | none, [] => s
    | none, h :: rest =>
      let s := { s with engine.queue := rest }
      match jobOf s.engine h with
      | none => startQueue n s
      | some j =>
        match startCheck j s with
        | some reason => startQueue n (finishJob h (.failed reason none) s)
        | none =>
          let s := enterRunning h j (firstPhase j.work) s
          match firstPhase j.work with
          | .copy => beginStep s
          | .scan => beginStep s
          | .verify => s
          | .switch =>
            let s := openSwitch s
            match s.ift.switchSpan with
            | none => s
            | some sp =>
              if sp.counted.isEmpty then
                let decided := switchDecide { j with life := .running none } s
                releaseHeld .switch sp
                  (startQueue n (finishJob h decided.1 { decided.2 with ift.switchSpan := none }))
              else s

/-- Start the queue's head if no job runs (R96, R101 step 6). -/
def startNext (s : State) : State := startQueue s.engine.queue.length s

/-- End the switch drain with an outcome (R123, R124): the job finishes, the next head starts, and then
the span closes and its HELD entries are released. -/
def endSwitch (outcome : JobOutcome) (s : State) : State :=
  match runningJob s.engine, s.ift.switchSpan with
  | some (h, _), some sp =>
    releaseHeld .switch sp (startNext (finishJob h outcome { s with ift.switchSpan := none }))
  | _, _ => s

/-- Take completion of the switch drain (R123). -/
def completeSwitch (s : State) : State :=
  match runningJob s.engine with
  | none => s
  | some (_, j) =>
    let decided := switchDecide j s
    endSwitch decided.1 decided.2

/-- The end of a stop (R100, R101): the lock is released while the stopping flag stands, so its PARKED
writes take current legs alone; the job finishes with its stop request's outcome; the next head starts. -/
def stopFinish (s : State) : State :=
  let s := releaseLock { s with engine.stopping := true }
  match runningJob s.engine with
  | none => s
  | some (h, j) =>
    match j.stop with
    | none => s
    | some stop => startNext (finishJob h stop.outcome s)

/-- The entry to SWITCH at the end of COPY or VERIFY (R99, R122). -/
def enterSwitch (s : State) : State :=
  let s := openSwitch s
  if switchReported s then completeSwitch s else s

/-! ### Block steps end (R114, R115, R121, R136) -/

/-- What follows a step that ends with no stop request, once the cursor has passed its block and the lock
is released: the next step, or the end of the phase. -/
def afterStep (s : State) : State :=
  match runningJob s.engine with
  | none => s
  | some (h, j) =>
    if j.cursor < j.blockCount then beginStep s
    else
      match j.phase, j.work with
      | some .copy, .relocate _ _ _ true =>
        beginStep (setJob h (some { j with phase := some .verify, cursor := 0 }) s)
      | some .copy, _ => enterSwitch s
      | some .verify, _ => enterSwitch s
      | some .scan, _ => startNext (finishJob h .done s)
      | some .switch, _ => s
      | none, _ => s

/-- A block step ends (R114, R121, R136): with a stop request set the job stops here; otherwise the cursor
advances, the lock is released with its PARKED writes decoded, and the walk goes on. -/
def stepEnd (s : State) : State :=
  match runningJob s.engine with
  | none => s
  | some (h, j) =>
    match j.stop with
    | some _ => stopFinish s
    | none => afterStep (releaseLock (setJob h (some { j with cursor := j.cursor + 1 }) s))

/-- The running step is over: it is in TRANSFER and every line is finished (R114, R119, R136). -/
def stepOver (s : State) : Bool :=
  match runningJob s.engine, s.engine.blockStep with
  | some (_, j), some st =>
    st.stage == .transfer && j.phase.any fun phase => st.lines.all (lineFinished phase)
  | _, _ => false

/-- After an outcome of an engine request: a stopping job with no request left without an outcome finishes
(R100), and a step with every line finished and no such request ends (R114). -/
def engineAdvance (s : State) : State :=
  if engineOpen s.lanes = 0 then
    if s.engine.stopping then stopFinish s else if stepOver s then stepEnd s else s
  else s

/-! ### Outcomes of engine requests -/

/-- Change one line state of the running step. -/
def modifyLine (i : Nat) (f : LineState → LineState) (s : State) : State :=
  match s.engine.blockStep with
  | none => s
  | some st => setStep (some { st with lines := st.lines.modify i f }) s

/-- Change the state of one shadow leg of one line. -/
def modifySide (i k : Nat) (side : SideState) (s : State) : State :=
  modifyLine i (fun l => { l with sides := l.sides.set k side }) s

/-- A line state of the running step. -/
def lineState (s : State) (i : Nat) : Option LineState := s.engine.blockStep.bind fun st => st.lines[i]?

/-- The block of the running step. -/
def stepBlock (s : State) : Nat := (s.engine.blockStep.map BlockStep.block).getD 0

/-- The host line of a line of the running step's block in a region (R129, R139). -/
def stepHostLine (region i : Nat) (s : State) : Option Nat :=
  (descOf s.mu.slots region).map fun d =>
    d.body.base * Config.granuleLines + offsetIn (stepBlock s) i

/-- Write one of the copy engine's records (R129, R139) about a lane line, for the running job. -/
def engineRecord (kind : FaultKind) (h region : Nat) (hostLine : Option Nat) (lane : Lane) (line : Nat)
    (id : Option (Fin 16)) (s : State) : State :=
  writeRecord
    { kind := kind, lane := some lane, region := some region, hostLine := hostLine
      laneLine := some line, job := some h, id := id } s

/-- Raise FAILED with a detail (R98). -/
def raiseFailure (reason : Reason) (lane : Lane) (line : Nat) (s : State) : State :=
  raiseStop (.failed reason (some { lane := lane, line := line })) s

/-- A shadow-write failure is reported (R118): for a region whose job is a RUNNING relocation it writes its
record and raises FAILED SHADOW_WRITE; otherwise it does nothing. -/
def shadowFailure (region : Nat) (hostLine : Option Nat) (lane : Lane) (line : Nat) (id : Option (Fin 16))
    (s : State) : State :=
  match runningJob s.engine with
  | none => s
  | some (h, j) =>
    match j.work with
    | .audit _ _ _ => s
    | .relocate _ _ _ _ =>
      if j.region = region then
        raiseFailure .shadowWrite lane line
          (engineRecord .shadowWriteFailed h region hostLine lane line id s)
      else s

/-- A WRITE of a whole line by the engine (R51, R112). -/
def wholeLine (data : LineData) : ReqKind := .write (BitVec.allOnes 64) data

/-- Present the shadow writes of a line to the shadow legs from the k-th on (R112). -/
def presentCopies (i : Nat) (data : LineData) : Nat → List Leg → State → State
  | _, [], s => s
  | k, leg :: rest, s =>
    presentCopies i data (k + 1) rest
      (modifySide i k { state := .pending, data := none }
        (present leg.lane
          [{ kind := wholeLine data, line := laneLine leg (offsetIn (stepBlock s) i)
             requester := .engine (.shadowWrite k) i }] s))

/-- Compare a line with one shadow leg's read of it (R120). -/
def verifyCompare (h region i : Nat) (leg : Leg) (source copy : LineData) (s : State) : State :=
  if source = copy then s
  else
    let line := laneLine leg (offsetIn (stepBlock s) i)
    raiseFailure .verifyMismatch leg.lane line
      (engineRecord .verifyMismatch h region (stepHostLine region i s) leg.lane line none s)

/-- Compare a line's source data with every shadow read that has answered OK (R120). R120 gives the
comparisons of one event no order: the shadow legs are taken in recorded order (DESIGN CHOICE, log entry
30). -/
def verifySides (h region i : Nat) (source : LineData) : List Leg → List SideState → State → State
  | leg :: legs, side :: sides, s =>
    verifySides h region i source legs sides
      (match side.data with
        | some copy => verifyCompare h region i leg source copy s
        | none => s)
  | _, _, s => s

/-- A source read answers OK (R112, R120). A stopping job presents no shadow write (R100). -/
def sourceOk (h : Nat) (j : Job) (i : Nat) (data : LineData) (s : State) : State :=
  match lineState s i with
  | none => s
  | some l =>
    let s := modifyLine i (fun l => { l with data := some data, readA := .ok }) s
    match j.phase with
    | some .copy => if s.engine.stopping then s else presentCopies i data 0 j.work.shadows s
    | some .verify => verifySides h j.region i data j.work.shadows l.sides s
    | some .switch => s
    | some .scan => s
    | none => s

/-- A source read fails (R113, R119): a retry on an untried leg of the descriptor, or the line has failed.
A stopping job presents no retry (R100, log entry 26). -/
def sourceFailed (h : Nat) (j : Job) (i : Nat) (lane : Lane) (line : Nat) (s : State) : State :=
  match lineState s i with
  | none => s
  | some l =>
    let legs := ((descOf s.mu.slots j.region).map fun d => d.body.legs).getD []
    match legs.find? fun leg => !l.tried.contains leg with
    | some leg =>
      if s.engine.stopping then s
      else
        present leg.lane
          [{ kind := .read, line := laneLine leg (offsetIn (stepBlock s) i), requester := .engine .source i }]
          (modifyLine i (fun l => { l with tried := l.tried ++ [leg] }) s)
    | none =>
      raiseFailure .sourceRead lane line
        (engineRecord .copySourceFailed h j.region (stepHostLine j.region i s) lane line none
          (modifyLine i (fun l => { l with readA := .failed }) s))

/-- A verify read answers OK (R120). -/
def verifyReadOk (h : Nat) (j : Job) (k i : Nat) (data : LineData) (s : State) : State :=
  match lineState s i, j.work.shadows[k]? with
  | some l, some leg =>
    let s := modifySide i k { state := .ok, data := some data } s
    match l.readA, l.data with
    | .ok, some source => verifyCompare h j.region i leg source data s
    | _, _ => s
  | _, _ => s

/-- An audit's leg A read answers OK (R132): the leg B read follows while no stop request is set. -/
def auditAOk (j : Job) (i : Nat) (data : LineData) (s : State) : State :=
  let legB := (descOf s.mu.slots j.region).bind fun d => d.body.legB
  match j.stop, legB with
  | none, some leg =>
    present leg.lane
      [{ kind := .read, line := laneLine leg (offsetIn (stepBlock s) i), requester := .engine .auditB i }]
      (modifyLine i (fun l => { l with data := some data, readA := .ok, readB := .pending }) s)
  | _, _ => modifyLine i (fun l => { l with data := some data, readA := .ok, finished := true }) s

/-- Raise an audit's mismatch count (R133). -/
def countMismatch (j : Job) : Job :=
  match j.work with
  | .audit repair mismatches repaired =>
    { j with work := .audit repair (bumpTo Config.auditMax mismatches) repaired }
  | .relocate _ _ _ _ => j

/-- Raise an audit's repaired count (R134). -/
def countRepaired (j : Job) : Job :=
  match j.work with
  | .audit repair mismatches repaired =>
    { j with work := .audit repair mismatches (bumpTo Config.auditMax repaired) }
  | .relocate _ _ _ _ => j

/-- Whether a DIFFERENT comparison is followed by a repair write (R133, R134). -/
def repairs (j : Job) : Bool :=
  match j.work with
  | .audit repair _ _ => repair && j.stop.isNone
  | .relocate _ _ _ _ => false

/-- An audit's leg B read answers OK (R133, R134). -/
def auditBOk (h : Nat) (j : Job) (i : Nat) (lane : Lane) (line : Nat) (data : LineData) (s : State) : State :=
  match (lineState s i).bind LineState.data with
  | none => modifyLine i (fun l => { l with readB := .ok, finished := true }) s
  | some source =>
    if source = data then
      modifyLine i (fun l => { l with readB := .ok, comparison := .equal, finished := true }) s
    else
      let s := engineRecord .auditMismatch h j.region (stepHostLine j.region i s) lane line none s
      let s := modifyRunning countMismatch s
      if repairs j then
        present lane [{ kind := wholeLine source, line := line, requester := .engine .repair i }]
          (modifyLine i (fun l => { l with readB := .ok, comparison := .different, repair := .pending }) s)
      else
        modifyLine i (fun l => { l with readB := .ok, comparison := .different, finished := true }) s

/-- An audit's repair write answers OK (R134). -/
def repairOk (h : Nat) (j : Job) (i : Nat) (lane : Lane) (line : Nat) (s : State) : State :=
  modifyRunning countRepaired
    (engineRecord .auditRepaired h j.region (stepHostLine j.region i s) lane line none
      (modifyLine i (fun l => { l with repair := .ok, finished := true }) s))

/-- A request of the engine answers OK. -/
def engineOk (h : Nat) (j : Job) (part : EnginePart) (i : Nat) (lane : Lane) (line : Nat) (data : LineData)
    (s : State) : State :=
  match part with
  | .source => sourceOk h j i data s
  | .shadowWrite k => modifySide i k { state := .ok, data := none } s
  | .verifyRead k => verifyReadOk h j k i data s
  | .auditA => auditAOk j i data s
  | .auditB => auditBOk h j i lane line data s
  | .repair => repairOk h j i lane line s

/-- A request of the engine has the outcome ERROR or TIMEOUT (R113, R114, R119, R134, R135). -/
def engineFailed (h : Nat) (j : Job) (part : EnginePart) (i : Nat) (lane : Lane) (line : Nat) (s : State) :
    State :=
  match part with
  | .source => sourceFailed h j i lane line s
  | .shadowWrite k =>
    shadowFailure j.region (stepHostLine j.region i s) lane line none
      (modifySide i k { state := .failed, data := none } s)
  | .verifyRead k =>
    raiseFailure .verifyRead lane line (modifySide i k { state := .failed, data := none } s)
  | .auditA =>
    raiseFailure .legRead lane line (modifyLine i (fun l => { l with readA := .failed, finished := true }) s)
  | .auditB =>
    raiseFailure .legRead lane line (modifyLine i (fun l => { l with readB := .failed, finished := true }) s)
  | .repair => modifyLine i (fun l => { l with repair := .failed, finished := true }) s

/-- The copy engine is told the outcome of one of its requests, and goes on from there. -/
def tellEngine (part : EnginePart) (i : Nat) (lane : Lane) (line : Nat) (outcome : LaneOutcome)
    (data : LineData) (s : State) : State :=
  match runningJob s.engine with
  | none => s
  | some (h, j) =>
    engineAdvance
      (match outcome with
        | .ok => engineOk h j part i lane line data s
        | .error => engineFailed h j part i lane line s
        | .timeout => engineFailed h j part i lane line s)

/-! ### The reset signal (R106) -/

/-- Finish queued jobs RESET_ABORTED, in queue order (R106 step 1). -/
def abortQueued : List Nat → State → State
  | [], s => s
  | h :: rest, s => abortQueued rest (finishJob h .resetAborted s)

/-- The reset signal at a RUNNING job (R106 step 2): in SWITCH its span closes at once; otherwise its
waiting requests are withdrawn and it finishes when no request is left without an outcome. -/
def abortRunning (s : State) : State :=
  match runningJob s.engine with
  | none => s
  | some (_, j) =>
    let s := raiseReset { s with engine.stopping := true }
    if j.phase = some .switch then endSwitch .resetAborted s
    else
      let s := withdraw Request.fromEngine s
      if engineOpen s.lanes = 0 then stopFinish s else s

/-- The reset signal reaches the copy engine (R106). -/
def resetJobs (s : State) : State :=
  abortRunning (abortQueued s.engine.queue { s with engine.queue := [] })

end Sys2Proof.Machine
end

