-- ==== Sys2Proof/Machine/LaneOps.lean ====
section
/-! DEFINITION. The lane ports at work: grants and issue, errors, response codes of host entries, late responses, quiesce (R52 to R66). -/

namespace Sys2Proof.Machine

open Sys2Proof

/-! ### Numbering (R52) -/

/-- Whether a number is held by an issued request or stands on the reclaimed list. -/
def numberHeld (p : LanePort) (n : Count16) : Bool :=
  (p.outstanding.any fun o => o.number == n) || p.reclaimed.any fun r => r.number == n

/-- The next number not held, from n on. The first argument bounds the numbers skipped. -/
def freshFrom (p : LanePort) : Nat → Count16 → Count16
  | 0, n => n
  | k + 1, n => if numberHeld p n then freshFrom p k (n + 1) else n

/-- The number the next issued request takes: at most as many numbers are skipped as are held. -/
def freshNumber (p : LanePort) : Count16 :=
  freshFrom p (p.outstanding.length + p.reclaimed.length) p.nextNumber

/-! ### The arbiter (R54, R55) -/

/-- Place of a request among the requests of its entry (R55): leg A, leg B, and then the shadow legs. -/
def partPlace : HostPart → Nat
  | .current .a => 0
  | .current .b => 1
  | .shadow i => 2 + i

/-- Place of a host-side request in the order of R55: its entry's place in acceptance order, and its place
in its entry. -/
def hostPlace (entries : List Entry) (r : Request) : Nat × Nat :=
  match r.requester with
  | .host slot part => ((olderThan entries slot).length, partPlace part)
  | .engine _ _ => (entries.length, 0)
  | .gone => (entries.length, 0)

/-- Whether a place comes before another. -/
def placeBefore (p q : Nat × Nat) : Bool := p.1 < q.1 || (p.1 == q.1 && p.2 < q.2)

/-- The first of a non-empty list of candidates with the least place. -/
def leastPlace (entries : List Entry) (best : Waiting) : List Waiting → Waiting
  | [] => best
  | w :: rest =>
    leastPlace entries
      (if placeBefore (hostPlace entries w.req) (hostPlace entries best.req) then w else best) rest

/-- The host-side request the arbiter would grant. -/
def nextHost (entries : List Entry) (p : LanePort) : Option Waiting :=
  match p.waiting.filter fun w => !w.req.fromEngine with
  | [] => none
  | w :: rest => some (leastPlace entries w rest)

/-- The engine request the arbiter would grant: the first presented. -/
def nextEngine (p : LanePort) : Option Waiting := p.waiting.find? fun w => w.req.fromEngine

/-- The window after a contended grant (R54). -/
def windowAfter (engineWon : Bool) (p : LanePort) : LanePort :=
  if Config.windowSize ≤ p.windowGrants + 1 then { p with windowGrants := 0, windowEngine := 0 }
  else
    { p with
      windowGrants := p.windowGrants + 1
      windowEngine := if engineWon then p.windowEngine + 1 else p.windowEngine }

/-- The transfer that an issued request sends on its lane's AXI manager interface (R52): a single beat of 64
bytes at byte address 64 × lane line, carrying its number. -/
def Outstanding.transfer (o : Outstanding) : LaneTransfer :=
  { kind := o.req.kind, beats := 1, beatBytes := Config.lineBytes, address := Config.lineBytes * o.req.line
    number := o.number }

/-- The transfers of a lane that await their responses, in the order sent (R52). -/
def LanePort.transfers (p : LanePort) : List LaneTransfer := p.outstanding.map Outstanding.transfer

/-- Issue a waiting request (R52): it leaves the wait list, takes the next free number and a credit, its
transfer joins those the lane has sent, and its response timer starts at the lane timeout. -/
def issueRequest (w : Waiting) (p : LanePort) : LanePort :=
  let n := freshNumber p
  { p with
    waiting := p.waiting.erase w
    outstanding := p.outstanding ++ [{ req := w.req, number := n, timer := some p.timeout }]
    nextNumber := n + 1
    counters :=
      match w.req.kind with
      | .read => { p.counters with readsIssued := bump p.counters.readsIssued }
      | .write _ _ => { p.counters with writesIssued := bump p.counters.writesIssued } }

/-- One grant (R54): none when no credit is free or no request waits. -/
def grantOne (entries : List Entry) (share : Nat) (p : LanePort) : Option LanePort :=
  if p.outstanding.length < Config.credits then
    match nextHost entries p, nextEngine p with
    | none, none => none
    | some w, none => some (issueRequest w p)
    | none, some w => some (issueRequest w p)
    | some host, some engine =>
      if p.windowEngine < share then some (issueRequest engine (windowAfter true p))
      else some (issueRequest host (windowAfter false p))
  else none

/-- Grants of one lane, one after another (R54). The first argument bounds them; `grantLane` gives the
number of requests that wait. -/
def grantMany (entries : List Entry) (share : Nat) : Nat → LanePort → LanePort
  | 0, p => p
  | n + 1, p =>
    match grantOne entries share p with
    | none => p
    | some p => grantMany entries share n p

/-- Every grant a lane can make. -/
def grantLane (entries : List Entry) (share : Nat) (p : LanePort) : LanePort :=
  grantMany entries share p.waiting.length p

/-- Grants of an event, made at its end (log entry 4). -/
def grantAll (s : State) : State :=
  { s with lanes := s.lanes.map (grantLane s.ift.entries s.engine.share) }

/-- An ISSUING entry with no request left waiting becomes ISSUED (R32, R52, R57). -/
def refreshPhases (s : State) : State :=
  { s with
    ift.entries := s.ift.entries.map fun e =>
      if e.phase = .issuing ∧ slotWaits s.lanes e.slot = false then { e with phase := .issued } else e }

/-! ### Codes of host entries (R63 to R66) -/

/-- The first failed leg of a leg set. -/
def failedLeg (legs : List LegUse) : Option LegUse :=
  legs.find? fun u => u.outcome == some .error || u.outcome == some .timeout

/-- Write MIRROR_READ_RECOVERED for an entry whose fallback answered OK (R63). -/
def recordRecovered (e : Entry) (s : State) : State :=
  match failedLeg e.legs with
  | none => s
  | some u =>
    writeRecord
      { kind := .mirrorReadRecovered, lane := some u.leg.lane, region := e.region
        hostLine := some e.line, laneLine := some u.line, id := some e.id } s

/-- The leg a READ falls back to (R63): the other leg of its lookup result, when it is still a leg of the
region's descriptor. -/
def fallbackLeg (e : Entry) (pos : LegPos) (s : State) : Option Leg :=
  match e.lookup with
  | none => none
  | some l =>
    match l.legB, l.legAt pos.other, descOf s.mu.slots l.region with
    | some _, some leg, some d => if d.body.legs.contains leg then some leg else none
    | _, _, _ => none

/-- Present a READ's fallback (R63): the request joins the leg set, fallback-tried is set, and the entry
returns to ISSUING. -/
def presentFallback (e : Entry) (pos : LegPos) (leg : Leg) (s : State) : State :=
  let offset := (e.lookup.map Lookup.offset).getD 0
  let use : LegUse := { pos := pos.other, leg := leg, line := laneLine leg offset, outcome := none }
  present leg.lane [{ kind := .read, line := use.line, requester := .host e.slot (.current pos.other) }]
    (modifyEntry e.slot (fun e => { e with legs := e.legs ++ [use], fallback := true, phase := .issuing }) s)

/-- A READ's current leg has an outcome (R63). `e` holds it already. -/
def formRead (e : Entry) (pos : LegPos) (outcome : LaneOutcome) (data : LineData) (s : State) : State :=
  match outcome with
  | .ok => becomeKnown e.slot .okay data (if e.fallback then recordRecovered e s else s)
  | _ =>
    match fallbackLeg e pos s with
    | some leg => if e.fallback then becomeKnown e.slot .slverr 0 s else presentFallback e pos leg s
    | none => becomeKnown e.slot .slverr 0 s

/-- Whether a member of a leg set succeeded. -/
def LegUse.succeeded (u : LegUse) : Bool := u.outcome == some .ok

/-- A WRITE has all its outcomes (R64): its code is formed from its live legs, or the drop of the one that
failed is requested (R65). No live leg gives SLVERR (log entry 20). -/
def formWrite (e : Entry) (s : State) : State :=
  let region := e.region.getD 0
  let live := liveLegs (descOf s.mu.slots region) e.legs
  if live.isEmpty then becomeKnown e.slot .slverr 0 s
  else if live.all LegUse.succeeded then becomeKnown e.slot .okay 0 s
  else
    match live.any LegUse.succeeded, failedLeg live with
    | true, some u =>
      { s with mu.drops := s.mu.drops ++ [{ region := region, leg := u.leg, slot := some e.slot }] }
    | _, _ => becomeKnown e.slot .slverr 0 s

/-- Record an outcome in an entry's leg set or shadow set (R32, R66). -/
def recordOutcome (part : HostPart) (outcome : LaneOutcome) (e : Entry) : Entry :=
  match part with
  | .current pos =>
    { e with legs := e.legs.map fun u => if u.pos = pos then { u with outcome := some outcome } else u }
  | .shadow i => { e with shadows := e.shadows.modify i fun u => { u with outcome := some outcome } }

/-- Form a code as the outcomes allow: a READ's at each, a WRITE's when every request has one. -/
def formCode (e : Entry) (part : HostPart) (outcome : LaneOutcome) (data : LineData) (s : State) : State :=
  match e.dir, part with
  | .read, .current pos => formRead e pos outcome data s
  | .read, .shadow _ => s
  | .write, _ => if e.settled then formWrite e s else s

/-- Whether an outcome is a failure. -/
def LaneOutcome.isFailure : LaneOutcome → Bool
  | .ok => false
  | .error => true
  | .timeout => true

/-- An in-flight entry is told an outcome (R58, R63 to R66). An entry that has gone or is answered takes
nothing. -/
def tellHost (slot : Nat) (part : HostPart) (lane : Lane) (line : Nat) (outcome : LaneOutcome)
    (data : LineData) (s : State) : State :=
  match entryAt s.ift.entries slot with
  | none => s
  | some e =>
    if e.unanswered then
      let e := recordOutcome part outcome e
      let s := modifyEntry slot (recordOutcome part outcome) s
      let s :=
        match part with
        | .current _ => s
        | .shadow _ =>
          if outcome.isFailure then
            shadowFailure (e.region.getD 0) (some e.line) lane line (some e.id) s
          else s
      formCode e part outcome data s
    else s

/-- Report an outcome to a request's requester (R58, R59, R61 step 4). -/
def tellRequester (lane : Lane) (r : Request) (outcome : LaneOutcome) (data : LineData) (s : State) : State :=
  match r.requester with
  | .host slot part => tellHost slot part lane r.line outcome data s
  | .engine part i => tellEngine part i lane r.line outcome data s
  | .gone => s

/-! ### Lane errors (R61) -/

/-- The handle of the RUNNING job of a region, for the record of a failed shadow write (R66): absent when no
job of the region runs any more (R153, log entry 9). -/
def runningOn (region : Option Nat) (engine : Engine) : Option Nat :=
  (runningJob engine).bind fun r => if region = some r.2.region then some r.1 else none

/-- The record of a lane error (R61, R66, R153). The fields that come from a requester are absent when it
has gone. -/
def errorRecord (kind : FaultKind) (lane : Lane) (r : Request) (s : State) : FaultInfo :=
  let base : FaultInfo := { kind := kind, lane := some lane, laneLine := some r.line }
  match r.requester with
  | .gone => base
  | .host slot part =>
    match entryAt s.ift.entries slot with
    | none => base
    | some e =>
      { base with
        region := e.region, hostLine := some e.line, id := some e.id
        job :=
          match part with
          | .current _ => none
          | .shadow _ => runningOn e.region s.engine }
  | .engine _ _ =>
    match runningJob s.engine with
    | none => base
    | some (h, j) => { base with region := some j.region, job := some h }

/-- Change the counters of a lane. -/
def countLane (lane : Lane) (f : LaneCounters → LaneCounters) (s : State) : State :=
  modifyLane lane (fun p => { p with counters := f p.counters }) s

/-- An AXI error answer (R58, R61): the counter, the record, the weight, and the requester. -/
def laneError (lane : Lane) (r : Request) (s : State) : State :=
  match r.kind with
  | .read =>
    let s := countLane lane (fun c => { c with readErrors := bump c.readErrors }) s
    let s := writeRecord (errorRecord .laneReadError lane r s) s
    tellRequester lane r .error 0 (addWeight lane Config.weightRead s)
  | .write _ _ =>
    let s := countLane lane (fun c => { c with writeErrors := bump c.writeErrors }) s
    let s := writeRecord (errorRecord .laneWriteError lane r s) s
    tellRequester lane r .error 0 (addWeight lane Config.weightWrite s)

/-- A timeout (R57, R59, R62): the counter, the record, the weight, and the requester (R61). -/
def laneTimeout (lane : Lane) (r : Request) (s : State) : State :=
  let s := countLane lane (fun c => { c with timeouts := bump c.timeouts }) s
  let s := writeRecord (errorRecord .laneTimeout lane r s) s
  tellRequester lane r .timeout 0 (addWeight lane Config.weightTimeout s)

/-- A late response (R60): the counter, the weight, and the record (log entry 11). -/
def lateResponse (lane : Lane) (line : Option Nat) (s : State) : State :=
  let s := countLane lane (fun c => { c with lateResponses := bump c.lateResponses }) s
  writeRecord { kind := .lateResponse, lane := some lane, laneLine := line }
    (addWeight lane Config.weightLate s)

/-- Whether an AXI response gives OK (R58). -/
def respondsOk : AxiResp → Bool
  | .okay => true
  | .exokay => true
  | .slverr => false
  | .decerr => false

/-- An issued request leaves a lane's outstanding set; its credit is free. -/
def freeCredit (lane : Lane) (o : Outstanding) (s : State) : State :=
  modifyLane lane (fun p => { p with outstanding := p.outstanding.erase o }) s

/-- A lane response is taken (R58, R60). -/
def takeResponse (lane : Lane) (number : Count16) (resp : AxiResp) (data : LineData) (s : State) : State :=
  let p := s.lanes.get lane
  match p.outstanding.find? fun o => o.number == number with
  | some o =>
    let s := freeCredit lane o s
    if o.running then
      if respondsOk resp then tellRequester lane o.req .ok data s else laneError lane o.req s
    else lateResponse lane (some o.req.line) s
  | none =>
    match p.reclaimed.find? fun r => r.number == number with
    | some r =>
      lateResponse lane (some r.line)
        (modifyLane lane (fun p => { p with reclaimed := p.reclaimed.erase r }) s)
    | none => lateResponse lane none s

/-- A credit-wait timer expires (R57): the request at a place of the wait list. -/
def expireWait (lane : Lane) (place : Nat) (s : State) : State :=
  match (s.lanes.get lane).waiting[place]? with
  | none => s
  | some w =>
    laneTimeout lane w.req (modifyLane lane (fun p => { p with waiting := p.waiting.eraseIdx place }) s)

/-- A response timer expires (R59): the request with a number becomes TIMED_OUT and keeps its credit. -/
def expireResponse (lane : Lane) (number : Count16) (s : State) : State :=
  match (s.lanes.get lane).outstanding.find? fun o => o.number == number && o.running with
  | none => s
  | some o =>
    laneTimeout lane o.req
      (modifyLane lane (fun p =>
        { p with
          outstanding := p.outstanding.map fun x =>
            if x.number = number then { x with timer := none } else x }) s)

/-! ### Quiesce (R62) -/

/-- Every lane port is signalled to quiesce, bounded by the drain limit in force; a lane already quiescing
ignores it (R62, R45). -/
def startQuiesce (s : State) : State :=
  { s with
    lanes := s.lanes.map fun p =>
      if p.quiesce.isNone then { p with quiesce := some s.hp.drainLimit } else p }

/-- A lane that completes its quiesce (R62). -/
def quiesceDone (p : LanePort) : LanePort :=
  { p with quiesce := none, windowGrants := 0, windowEngine := 0 }

/-- Quiescing lanes with no request complete (R62). -/
def completeQuiesces (s : State) : State :=
  { s with lanes := s.lanes.map fun p => if p.quiesce.isSome && p.idle then quiesceDone p else p }

/-- The reclaimed list of a lane once its issued requests have joined it, in issue order (R62, log entry 10).
When the joining would carry it past its bound, its oldest numbers leave first, one for each number joining. -/
def joinReclaimed (p : LanePort) : List Reclaimed :=
  (if p.reclaimed.length + p.outstanding.length ≤ Config.reclaimedMax then p.reclaimed
   else p.reclaimed.drop p.outstanding.length)
    ++ p.outstanding.map fun o => { number := o.number, line := o.req.line }

/-- At the expiry of a quiesce, the issued requests leave a lane's outstanding set in issue order (R62, log entry
10), and an OUTSTANDING one's requester is told TIMEOUT as a lane timeout. The first argument bounds them. -/
def reclaimIssued (lane : Lane) : Nat → State → State
  | 0, s => s
  | n + 1, s =>
    match (s.lanes.get lane).outstanding with
    | [] => s
    | o :: rest =>
      let s := modifyLane lane (fun p => { p with outstanding := rest }) s
      reclaimIssued lane n (if o.running then laneTimeout lane o.req s else s)

/-- At the expiry of a quiesce, the waiting requests of a lane are withdrawn in the order presented, their
requesters told TIMEOUT, and nothing is counted (R53, R62). The first argument bounds them. -/
def withdrawWaiting (lane : Lane) : Nat → State → State
  | 0, s => s
  | n + 1, s =>
    match (s.lanes.get lane).waiting with
    | [] => s
    | w :: rest =>
      withdrawWaiting lane n
        (tellRequester lane w.req .timeout 0 (modifyLane lane (fun p => { p with waiting := rest }) s))

/-- A lane's quiesce timer expires (R62): its issued requests are reclaimed, its waiting ones withdrawn, and the
quiesce completes. -/
def expireQuiesce (lane : Lane) (s : State) : State :=
  let p := s.lanes.get lane
  let joined := modifyLane lane (fun p => { p with reclaimed := joinReclaimed p }) s
  modifyLane lane quiesceDone
    (withdrawWaiting lane p.waiting.length (reclaimIssued lane p.outstanding.length joined))

end Sys2Proof.Machine
end

