-- ==== Sys2Proof/Machine/Settle.lean ====
section
/-! DEFINITION. What every event leaves to its close: a stale commit's end, grants, the bridge reset sequence, and the responses presented (R35, R43, R44, R54, R62, R86); and the passing of a microsecond. -/

namespace Sys2Proof.Machine

open Sys2Proof

/-! ### The bridge reset sequence (R43, R44) -/

/-- The outcome of every entry in the table is known. -/
def allKnown (s : State) : Bool := s.ift.entries.all fun e => !e.unanswered

/-- Every lane port has reported its quiesce complete. -/
def lanesQuiet (s : State) : Bool := s.lanes.all fun p => p.quiesce.isNone

/-- ENTRY_DRAIN ends: the timer stops, every lane port is signalled, and the state becomes QUIESCE (R43). -/
def leaveEntryDrain (s : State) : State :=
  startQuiesce { s with hp := { s.hp with entryTimer := none, seq := .quiesce } }

/-- The sequence ends (R44): RESET_DONE with WARM or COMMAND, the warm-seen flag clear, and OPEN. -/
def endSequence (s : State) : State :=
  let s := postNotice (.resetDone s.hp.warmSeen) s
  { s with hp := { s.hp with warmSeen := false, seq := .opened } }

/-- ENTRY_DRAIN ends when every outcome is known (R43). -/
def drainStep (s : State) : State :=
  if s.hp.seq = .entryDrain ∧ allKnown s = true then leaveEntryDrain s else s

/-- QUIESCE ends with the last lane's report: in HOLD when SRST_N is asserted or entries remain, and
otherwise with the sequence (R44). -/
def quiesceStep (s : State) : State :=
  if s.hp.seq = .quiesce ∧ lanesQuiet s = true then
    if s.srst ∨ s.ift.entries ≠ [] then { s with hp.seq := .hold } else endSequence s
  else s

/-- HOLD ends when SRST_N is deasserted and the table is empty (R44). -/
def holdStep (s : State) : State :=
  if s.hp.seq = .hold ∧ s.srst = false ∧ s.ift.entries = [] then endSequence s else s

/-- Advance the reset sequence as far as the event carries it. -/
def advanceSequence (s : State) : State := holdStep (quiesceStep (completeQuiesces (drainStep s)))

/-! ### Presenting responses (R34, R35) -/

/-- The oldest eligible entry of a channel. -/
def nextResponse (entries : List Entry) (dir : Dir) : Option Nat :=
  (entries.find? fun e => e.dir == dir && eligible entries e).map Entry.slot

/-- A free channel presents the oldest eligible entry of its kind (R35). -/
def presentResponses (s : State) : State :=
  { s with
    hp := { s.hp with
      readChan := s.hp.readChan <|> nextResponse s.ift.entries .read
      writeChan := s.hp.writeChan <|> nextResponse s.ift.entries .write } }

/-- The close of an event, in this order (log entry 5). -/
def settle (s : State) : State :=
  presentResponses (advanceSequence (refreshPhases (grantAll (closeStale s))))

/-! ### A microsecond passes (00 section 1.6) -/

/-- Count a timer down; at 0 it stands until its expiry is taken. -/
def tickTimer (t : Option Nat) : Option Nat := t.map fun n => n - 1

/-- A microsecond at a lane port: its waiting, response and quiesce timers. -/
def LanePort.tick (p : LanePort) : LanePort :=
  { p with
    waiting := p.waiting.map fun w => { w with timer := w.timer - 1 }
    outstanding := p.outstanding.map fun o => { o with timer := tickTimer o.timer }
    quiesce := tickTimer p.quiesce }

/-- A microsecond passes: every running timer counts down by one (00 section 1.6). While PORST_N is asserted no
timer runs (log entry 3). -/
def tick (s : State) : State :=
  if s.porst then s
  else
    { s with
      hp.entryTimer := tickTimer s.hp.entryTimer
      mu.commit.drain := s.mu.commit.drain.map fun d => { d with timer := d.timer - 1 }
      lanes := s.lanes.map LanePort.tick
      engine.switchTimer := tickTimer s.engine.switchTimer
      health.drainTimer := tickTimer s.health.drainTimer }

end Sys2Proof.Machine
end

