-- ==== Sys2Proof/Machine/HostBus.lean ====
section
/-! DEFINITION. HOST_ACCEPT, MALFORMED_WRITE_BEAT, RESPONSE_TAKEN (R24, R25, R35). -/

namespace Sys2Proof.Machine

open Sys2Proof

/-- An event of the powered part: while PORST_N is asserted it is no event (log entry 15). -/
def whilePowered (f : State → State) (s : State) : Answer := .next (if s.porst then s else f s)

/-- An event of the powered part that is possible only where a test says so; anywhere else it changes nothing
(log entry 2). -/
def event (possible : Bool) (f : State → State) (s : State) : Answer :=
  .next (if !s.porst && possible then settle (f s) else s)

/-- A malformed transaction (R25). -/
def HostTxn.malformed (t : HostTxn) : Bool := t.address % 64 != 0 || t.size != 64 || 1 < t.beats

/-- The entry kind of a transaction (R25, R26). -/
def txnKind (t : HostTxn) : EntryKind :=
  match t.kind with
  | .read => if HostTxn.malformed t then .badRead t.beats else .read
  | .write mask data => if HostTxn.malformed t then .badWrite else .write mask data

/-- A new entry in a slot (R26). -/
def newEntry (slot : Nat) (id : Fin 16) (address : Nat) (kind : EntryKind) : Entry :=
  { slot := slot, id := id, kind := kind, line := address / 64, region := none, lookup := none
    hold := none, phase := .orderWait, legs := [], shadows := [], fallback := false, code := none, data := 0 }

/-- A well-formed transaction takes its slot and is decoded in full (R24, R27). -/
def acceptGood (e : Entry) (s : State) : State :=
  fullDecode e.slot { s with ift.entries := s.ift.entries ++ [e] }

/-- A malformed transaction takes its slot with SLVERR, and is counted (R25). -/
def acceptBad (e : Entry) (s : State) : State :=
  { s with
    ift.entries := s.ift.entries ++ [{ e with code := some .slverr }]
    hp.malformed := bump s.hp.malformed }

/-- The write's remaining beats are taken with it (R25, log entry 7). -/
def finishBeats (t : HostTxn) (s : State) : State :=
  match t.kind with
  | .read => s
  | .write _ _ => if 1 < t.beats then { s with hp.writeBeats := 0 } else s

/-- Take a whole transaction (R24). With the port closed or the table full it stays with the interconnect. -/
def acceptTxn (t : HostTxn) (s : State) : State :=
  match isOpen s, freeSlot s.ift.entries with
  | true, some slot =>
    let e := newEntry slot t.id t.address (txnKind t)
    settle (if HostTxn.malformed t then acceptBad e (finishBeats t s) else acceptGood e s)
  | _, _ => s

/-- HOST_ACCEPT (R24). -/
def execHostAccept (txn : HostTxn) (s : State) : Answer := whilePowered (acceptTxn txn) s

/-- Take a data beat of a malformed multi-beat write (R25): it is discarded, and with the last declared beat
the write is accepted. -/
def takeBeat (b : WriteBurst) (s : State) : State :=
  match isOpen s, freeSlot s.ift.entries with
  | true, some slot =>
    if b.beats < 2 then s
    else if s.hp.writeBeats + 1 < b.beats then { s with hp.writeBeats := s.hp.writeBeats + 1 }
    else settle (acceptBad (newEntry slot b.id b.address .badWrite) { s with hp.writeBeats := 0 })
  | _, _ => s

/-- MALFORMED_WRITE_BEAT (R25). -/
def execMalformedWriteBeat (burst : WriteBurst) (s : State) : Answer := whilePowered (takeBeat burst) s

/-- The slot a channel presents. -/
def presented (channel : Dir) (s : State) : Option Nat :=
  match channel with
  | .read => s.hp.readChan
  | .write => s.hp.writeChan

/-- The response a channel presents, and hands to the host that takes it (R33, R35). -/
def presentedResponse (channel : Dir) (s : State) : Option HostResponse :=
  (presented channel s).bind fun slot => (entryAt s.ift.entries slot).bind Entry.response

/-- The channel falls free. -/
def freeChannel (channel : Dir) (s : State) : State :=
  match channel with
  | .read => { s with hp.readChan := none }
  | .write => { s with hp.writeChan := none }

/-- The host takes the presented response (R35). -/
def takeResponseOf (channel : Dir) (s : State) : State :=
  match presented channel s with
  | none => s
  | some slot => removeEntry slot (freeChannel channel s)

/-- RESPONSE_TAKEN (R35). -/
def execResponseTaken (channel : Dir) (s : State) : Answer :=
  event (presented channel s).isSome (takeResponseOf channel) s

end Sys2Proof.Machine
end

