-- ==== Sys2Proof/Machine/Drains.lean ====
section
/-! DEFINITION. LEG_DROP_REQUEST, ENTRY_DRAIN_TIMEOUT, COMMIT_DRAIN_TIMEOUT, COMMIT_COMPLETION_TAKEN, SWITCH_TIMER_EXPIRY, SWITCH_COMPLETION_TAKEN, DRAIN_TICK (R15, R43, R65, R84, R85, R123, R124, R141). -/

namespace Sys2Proof.Machine

open Sys2Proof

/-- The map unit's answer to a leg drop request reaches the write that waits for it (R65): applied gives
OKAY; ignored forms the code from the live legs of that moment. -/
def answerDrop (applied : Bool) (slot : Option Nat) (s : State) : State :=
  match slot.bind (entryAt s.ift.entries) with
  | none => s
  | some e =>
    if e.unanswered then
      let live := liveLegs (descOf s.mu.slots (e.region.getD 0)) e.legs
      if applied || (!live.isEmpty && live.all LegUse.succeeded) then becomeKnown e.slot .okay 0 s
      else becomeKnown e.slot .slverr 0 s
    else s

/-- The map unit takes a leg drop request (R15): the drop, the end of a commit it made stale (R86), and the
answer (R65). -/
def takeRequest (place : Nat) (s : State) : State :=
  match s.mu.drops[place]? with
  | none => s
  | some d =>
    let applied := (dropTarget s.mu.slots d.region d.leg).isSome
    let s := closeStale (takeDrop d.region d.leg { s with mu.drops := s.mu.drops.eraseIdx place })
    answerDrop applied d.slot s

/-- LEG_DROP_REQUEST (R15). -/
def execLegDropRequest (place : Nat) (s : State) : Answer :=
  event (s.mu.drops[place]?).isSome (takeRequest place) s

/-- An entry at the bridge reset drain limit (R43): SLVERR when its outcome is not known. -/
def cutOff (e : Entry) : Entry :=
  if e.unanswered then { e with code := some .slverr, data := 0, phase := .orderWait } else e

/-- The lock wait falls once for each of several writes. -/
def waitFalls : Nat → State → State
  | 0, s => s
  | n + 1, s => waitFalls n (writeWaitFalls s)

/-- Expiry of the entry-drain timer (R43): every unanswered entry is answered SLVERR, waiting host requests
are withdrawn (R53), leg drop answers reach no entry (R65), and the lanes quiesce. -/
def expireEntryDrain (s : State) : State :=
  let counted := (s.ift.entries.filter (countedByLock s.engine)).length
  let s := withdraw (fun r => !r.fromEngine)
    { s with
      ift.entries := s.ift.entries.map cutOff
      mu.drops := s.mu.drops.map fun d => { d with slot := none } }
  leaveEntryDrain (waitFalls counted s)

/-- ENTRY_DRAIN_TIMEOUT (R43): possible in ENTRY_DRAIN, while its timer runs. -/
def execEntryDrainTimeout (s : State) : Answer :=
  event (s.hp.seq == .entryDrain && s.hp.entryTimer.isSome) expireEntryDrain s

/-- COMMIT_DRAIN_TIMEOUT (R85): possible while a commit drains. -/
def execCommitDrainTimeout (s : State) : Answer :=
  event s.mu.commit.drain.isSome (endCommit .timeout) s

/-- COMMIT_COMPLETION_TAKEN (R84): possible once completion is reported to a draining commit. -/
def execCommitCompletionTaken (s : State) : Answer :=
  event (s.mu.commit.drain.isSome && commitReported s) completeCommit s

/-- Expiry of the switch timer (R124): nothing is installed. -/
def expireSwitch (s : State) : State :=
  match runningJob s.engine with
  | some (_, j) => endSwitch ((j.stop.map Stop.outcome).getD (.failed .switchTimeout none)) s
  | none => s

/-- SWITCH_TIMER_EXPIRY (R124): possible while the switch timer runs. -/
def execSwitchTimerExpiry (s : State) : Answer := event s.engine.switchTimer.isSome expireSwitch s

/-- SWITCH_COMPLETION_TAKEN (R123): possible once completion is reported to the copy engine. -/
def execSwitchCompletionTaken (s : State) : Answer := event (switchReported s) completeSwitch s

/-- DRAIN_TICK (R141): possible while the drain timer runs. -/
def execDrainTick (s : State) : Answer := event s.health.drainTimer.isSome healthTick s

end Sys2Proof.Machine
end

