-- ==== Sys2Proof/Machine/Link.lean ====
section
/-! DEFINITION. The management link: the end of a command frame, the response FIFO, and the tests every command shares (R163 to R168, R171). -/

namespace Sys2Proof.Machine

open Sys2Proof

/-- What a command's owning block answers: status, payload, and the state after it. -/
abbrev Reply := Status × List Byte × State

/-- The meaning of a command at its owning block, from its payload (R166). -/
abbrev Handler := List Byte → State → Reply

/-- A refusal: a status, no payload, nothing changed (R166, 10 section 10.6.3). -/
def refuse (status : Status) (s : State) : Reply := (status, [], s)

/-- A refusal that carries detail (10 section 10.6.3). -/
def refuseWith (status : Status) (detail : List Byte) (s : State) : Reply := (status, detail, s)

/-- The state of a reply. -/
def Reply.state (r : Reply) : State := r.2.2

/-- A command without payload: any other length is BAD_ARGUMENT (R166). -/
def noPayload (f : State → Reply) : Handler := fun payload s =>
  match payload with
  | [] => f s
  | _ :: _ => refuse .badArgument s

/-- A command that a bridge reset sequence in progress refuses (R47, R172). -/
def inOpen (f : State → Reply) (s : State) : Reply := if isOpen s then f s else refuse .resetting s

/-- A command whose payload must parse (R166, R174). -/
def parsed {α : Type} (parse : List Byte → Option α) (f : α → State → Reply) : Handler := fun payload s =>
  match parse payload with
  | some a => f a s
  | none => refuse .badArgument s

/-- Append a response at the tail of the FIFO, with its check code (R164, R166). -/
def pushResponse (r : Response) (s : State) : State :=
  { s with link.fifo := s.link.fifo ++ [r] }

/-! ### Framing (R163) -/

/-- The bits the link has to shift out from the entry to a framing state (R163, R167): in FETCH those of the head
response, taken as the marker byte is complete; in MARKER, COMMAND and IGNORE none. Every bit it drives otherwise
is 0, and while CS_N is high MISO is not driven. -/
def drives (framing : Framing) (fifo : List Response) : List Bool :=
  match framing with
  | .fetch =>
    match fifo with
    | [] => []
    | r :: _ => bitsOf (responseBytes r)
  | .marker => []
  | .command => []
  | .ignore => []
  | .idle => []
  | .unframed => []

/-- The bit that stood on MISO at the SCLK rise with number i of the latest frame, the first with number 0 (R163,
R167). The number past the frame's last rise gives the bit that MISO took after the last fall, which stood there
until CS_N rose. -/
def Link.misoBit (l : Link) (i : Nat) : Bool := if i < 8 then false else (l.miso[i - 8]?).getD false

/-- Byte i that MISO carried in the latest frame, byte 0 the one clocked with the frame's first byte: its bits,
most significant first (R163, R167). -/
def Link.misoByte (l : Link) (i : Nat) : Byte :=
  BitVec.ofBoolListBE [l.misoBit (8 * i), l.misoBit (8 * i + 1), l.misoBit (8 * i + 2), l.misoBit (8 * i + 3),
    l.misoBit (8 * i + 4), l.misoBit (8 * i + 5), l.misoBit (8 * i + 6), l.misoBit (8 * i + 7)]

/-- Enter a framing state, with what MISO drives in it (R163). -/
def enterFraming (framing : Framing) (s : State) : State :=
  { s with link := { s.link with framing := framing, miso := drives framing s.link.fifo } }

/-- The framing state that a complete first byte leads to (R163). -/
def framingOf (first : Byte) : Framing :=
  if first = 0xC3 then .command else if first = 0x3C then .fetch else .ignore

/-- A frame from the fall of CS_N to its last bit (R163): MARKER, and with a complete first byte the state that
byte leads to. CS_N was high before it fell, so a frame begins out of IDLE and out of the wait for CS_N to
rise alike (log entry 16). -/
def openFrame (first : Option Byte) (s : State) : State :=
  match first with
  | none => enterFraming .marker s
  | some b => enterFraming (framingOf b) (enterFraming .marker s)

/-- A frame that ends in MARKER is dropped, and nothing is counted (R163). -/
def shortEnd (s : State) : State := { s with link.framing := .idle }

/-- The framing error of a frame (R163, R165). -/
def framingError (s : State) : State :=
  { s with link := { s.link with framing := .idle, framingErrors := bump s.link.framingErrors } }

/-- The check error of a frame (R165). -/
def checkError (s : State) : State :=
  { s with link := { s.link with framing := .idle, checkErrors := bump s.link.checkErrors } }

/-- A sound frame that finds the FIFO full is discarded (R165 test 3). -/
def overrun (s : State) : State :=
  { s with link := { s.link with framing := .idle, overruns := bump s.link.overruns } }

/-- Carry out a command and append its response (R166). -/
def carryOut (code tag : Byte) (payload : List Byte) (body : Handler) (s : State) : State :=
  let r := body payload { s with link.framing := .idle }
  pushResponse (mkResponse code tag r.1 r.2.1) r.2.2

/-- The frame-end event of a command frame with a correct check code (R165, R166; log entry 18): a payload
longer than 56 bytes fails framing, a full FIFO discards it, and otherwise the command is carried out. -/
def frameEnd (code tag : Byte) (payload : List Byte) (body : Handler) (s : State) : State :=
  if Config.payloadMax < payload.length then framingError s
  else if Config.fifoSize ≤ s.link.fifo.length then overrun s
  else carryOut code tag payload body s

/-- A fetch frame ends after some bits beyond its marker (R163, R167, R168). Of the response it shifts, MISO took
one bit after each fall of SCLK from the fall that follows the marker's last rise: those clocked, whole bytes or
not, and one more after the last fall (log entry 16). The head leaves the FIFO when all its 7 + m bytes were
clocked out whole. -/
def fetch (bits : Nat) (s : State) : State :=
  { s with link := { s.link with
      framing := .idle
      fifo :=
        match s.link.fifo with
        | [] => []
        | r :: rest => if (responseBytes r).length ≤ bits / 8 then rest else r :: rest
      miso := s.link.miso.take (bits + 1) } }

/-- The end of a frame, by the framing state it ends in (R163); the link then is in IDLE. `command` is what the
end of a frame in COMMAND does, `bits` the bits clocked beyond the first byte of a fetch. -/
def closeFrame (command : State → State) (bits : Nat) (s : State) : State :=
  match s.link.framing with
  | .marker => shortEnd s
  | .command => command s
  | .fetch => fetch bits s
  | .ignore => framingError s
  | .idle => s
  | .unframed => s

/-- A whole frame (R163). While PORST_N is asserted no frame begins. -/
def frame (first : Option Byte) (bits : Nat) (command : State → State) (s : State) : Answer :=
  whilePowered (fun s => closeFrame command bits (openFrame first s)) s

/-- A management command's frame. -/
def commandFrame (code tag : Byte) (payload : List Byte) (body : Handler) (s : State) : Answer :=
  frame (some 0xC3) 0 (frameEnd code tag payload body) s

end Sys2Proof.Machine
end

