-- ==== Sys2Proof/Machine/JobCommands.lean ====
section
/-! DEFINITION. JOB_SUBMIT_RELOCATE, JOB_SUBMIT_AUDIT, JOB_CANCEL, JOB_READ, JOB_CLEAR (R92 to R95, R102 to R105). -/

namespace Sys2Proof.Machine

open Sys2Proof

/-! ### Submission (R92) -/

/-- The lowest-numbered FREE job slot, from handle h on. -/
def freeJobFrom (h : Nat) : List (Option Job) → Option Nat
  | [] => none
  | none :: _ => some h
  | some _ :: rest => freeJobFrom (h + 1) rest

/-- The lowest-numbered FREE job slot (R92). -/
def freeJob (engine : Engine) : Option Nat := freeJobFrom 0 engine.jobs

/-- Tests 3 to 5 of R92, and then the kind's own tests with the FREE slot and the region's descriptor. -/
def submission (region : Nat) (f : Nat → Descriptor → State → Reply) (s : State) : Reply :=
  match freeJob s.engine, descOf s.mu.slots region with
  | none, _ => refuse .jobFull s
  | some _, none => refuse .noSuchItem s
  | some h, some d =>
    if d.job.isSome || inCommitSet s.mu region then refuse .regionBusy s else f h d s

/-- A job's start, when none runs, in the event of its acceptance (R94 step 6, R96). -/
def startIfIdle (s : State) : State := if s.engine.running.isNone then settle (startNext s) else s

/-- Take a job into a FREE slot (R94 steps 1 to 4, R95): the slot QUEUED, the region's job field, the
queue's tail. Its shadow legs are occupancy items from here on (R13). -/
def queueJob (h region : Nat) (d : Descriptor) (work : JobWork) (s : State) : State :=
  let job : Job :=
    { life := .queued, work := work, region := region
      blockCount := Config.granuleBlocks * d.body.length, phase := none, cursor := 0 }
  let s := setJobField region (some h) (setJob h (some job) s)
  { s with engine.queue := s.engine.queue ++ [h] }

/-! ### The tests of a relocation (R93) -/

/-- A target leg, A as 0 and B as 1 (10 section 10.6.3). -/
abbrev TargetLeg := Nat × Leg

/-- The legs of a target with their positions. -/
def targetLegs (t : Target) : List TargetLeg :=
  (0, t.legA) :: (t.legB.map fun leg => (1, leg)).toList

/-- The job a target makes on a region: its legs that equal a current leg are kept (R93). -/
def relocateWork (t : Target) (verify : Bool) (d : Descriptor) : JobWork :=
  .relocate t (d.body.legs.contains t.legA) (t.legB.any fun leg => d.body.legs.contains leg) verify

/-- Whether a target leg is a shadow leg. -/
def isShadow (d : Descriptor) (leg : Leg) : Bool := !d.body.legs.contains leg

/-- INVALID_TARGET's 5 bytes (10 section 10.6.3): the check and the leg that failed it; for 6f also the lane
and the owner of the overlapping item. -/
def targetDetail (check leg : Nat) (lane : Option Lane) (owner : Option Owner) : List Byte :=
  byte1 check ++ byte1 leg ++ byteOr (lane.map laneCode) ++
    match owner with
    | none => absent 2
    | some (.slot i) => byte1 0 ++ byte1 i
    | some (.job h) => byte1 1 ++ byte1 h

/-- Test 6b (R93): a MIRROR target on one lane. Which of the two legs is named is free (log entry 12). -/
def failsLanePair (t : Target) : List TargetLeg :=
  match t.legB with
  | none => []
  | some b => if t.legA.lane = b.lane then targetLegs t else []

/-- Test 6c (R93): a target leg that overlaps a current leg on its lane without being equal to it. -/
def failsOwnOverlap (t : Target) (d : Descriptor) : List TargetLeg :=
  (targetLegs t).filter fun p => d.body.legs.any fun c =>
    c.lane == p.2.lane && c != p.2 && overlap c.base d.body.length p.2.base d.body.length

/-- Test 6d (R93): a shadow leg on an OFFLINE or RETIRED lane, or a MIRROR target's leg on a RETIRED one. -/
def failsLaneState (t : Target) (d : Descriptor) (s : State) : List TargetLeg :=
  (targetLegs t).filter fun p =>
    let st := (s.health.lanes.get p.2.lane).state
    (isShadow d p.2 && (st == .offline || st == .retired)) || (t.legB.isSome && st == .retired)

/-- Test 6e (R93): a shadow leg that leaves its lane's capacity. -/
def failsCapacity (t : Target) (d : Descriptor) (s : State) : List TargetLeg :=
  (targetLegs t).filter fun p =>
    isShadow d p.2 && (s.lanes.get p.2.lane).capacity < p.2.base + d.body.length

/-- Test 6f (R93, R82): a shadow leg that shares a granule with an item or a commit leg, with that item. -/
def failsOccupied (t : Target) (d : Descriptor) (s : State) : List (TargetLeg × Item) :=
  (targetLegs t).flatMap fun p =>
    if isShadow d p.2 then
      (clashing (occupancy s ++ commitItems s.mu) p.2 d.body.length).map fun item => (p, item)
    else []

/-- The first of tests 6b to 6f to fail, with its detail (R93). -/
def targetFailure (t : Target) (d : Descriptor) (s : State) : Option (List Byte) :=
  let named (check : Nat) (p : TargetLeg) : List Byte := targetDetail check p.1 none none
  ((pickOne 4 (failsLanePair t)).map (named 0))
    <|> ((pickOne 5 (failsOwnOverlap t d)).map (named 1))
    <|> ((pickOne 6 (failsLaneState t d s)).map (named 2))
    <|> ((pickOne 7 (failsCapacity t d s)).map (named 3))
    <|> ((pickOne 8 (failsOccupied t d s)).map fun p =>
          targetDetail 4 p.1.1 (some p.2.lane) (some p.2.owner))

/-! ### JOB_SUBMIT_RELOCATE (R93, R94) -/

/-- JOB_SUBMIT_RELOCATE from test 6 on. -/
def relocateBody (region : Nat) (t : Target) (verify : Bool) (h : Nat) (d : Descriptor) (s : State) : Reply :=
  if t = d.body.target then refuse .noChange s
  else
    match targetFailure t d s with
    | some detail => refuseWith .invalidTarget detail s
    | none =>
      let work := relocateWork t verify d
      (.ok,
        byte1 h ++ byte1 work.shadows.length ++ byte4 (Config.granuleBlocks * d.body.length),
        startIfIdle (queueJob h region d work s))

/-- JOB_SUBMIT_RELOCATE at the copy engine. -/
def bodyJobSubmitRelocate : Handler := parsed parseRelocate fun a =>
  inOpen (submission a.1 (relocateBody a.1 a.2.1 a.2.2))

/-- JOB_SUBMIT_RELOCATE (R92 to R94). -/
def execJobSubmitRelocate (tag : Byte) (payload : List Byte) (s : State) : Answer :=
  commandFrame 0x40 tag payload bodyJobSubmitRelocate s

/-! ### JOB_SUBMIT_AUDIT (R95) -/

/-- JOB_SUBMIT_AUDIT from test 6 on. -/
def auditBody (region : Nat) (repair : Bool) (h : Nat) (d : Descriptor) (s : State) : Reply :=
  if d.body.legB.isNone then refuse .notMirrored s
  else
    (.ok, byte1 h ++ byte4 (Config.granuleBlocks * d.body.length),
      startIfIdle (queueJob h region d (.audit repair 0 0) s))

/-- JOB_SUBMIT_AUDIT at the copy engine. -/
def bodyJobSubmitAudit : Handler := parsed parseAudit fun a =>
  inOpen (submission a.1 (auditBody a.1 a.2))

/-- JOB_SUBMIT_AUDIT (R92, R95). -/
def execJobSubmitAudit (tag : Byte) (payload : List Byte) (s : State) : Answer :=
  commandFrame 0x41 tag payload bodyJobSubmitAudit s

/-! ### JOB_CANCEL, JOB_READ, JOB_CLEAR (R103 to R105) -/

/-- A QUEUED job is cancelled (R103): it leaves the queue and finishes CANCELLED. -/
def cancelQueued (h : Nat) (s : State) : State :=
  startIfIdle (finishJob h .cancelled { s with engine.queue := s.engine.queue.erase h })

/-- JOB_CANCEL by the slot's state (R103). -/
def cancelJob (h : Nat) (s : State) : Reply :=
  match jobOf s.engine h with
  | none => refuse .notActive s
  | some j =>
    match j.life with
    | .queued => (.ok, [], cancelQueued h s)
    | .finished _ => refuse .notActive s
    | .running _ =>
      if j.phase = some .switch then refuse .tooLate s else (.accepted, [], raiseStop .cancel s)

/-- JOB_CANCEL at the copy engine. -/
def bodyJobCancel : Handler := parsed parseHandle fun h => inOpen (cancelJob h)

/-- JOB_CANCEL (R103). -/
def execJobCancel (tag : Byte) (payload : List Byte) (s : State) : Answer :=
  commandFrame 0x42 tag payload bodyJobCancel s

/-- JOB_READ's 37 bytes (R104): the lock and the stopping flag are the running job's. -/
def jobReadBytes (h : Nat) (s : State) : List Byte :=
  let runs := s.engine.running == some h
  jobBytes h (jobOf s.engine h) (runs && s.engine.lock.isSome) (runs && s.engine.stopping)

/-- JOB_READ at the copy engine. -/
def bodyJobRead : Handler := parsed parseHandle fun h s => (.ok, jobReadBytes h s, s)

/-- JOB_READ (R104). -/
def execJobRead (tag : Byte) (payload : List Byte) (s : State) : Answer :=
  commandFrame 0x43 tag payload bodyJobRead s

/-- JOB_CLEAR by the slot's state (R105). -/
def clearJob (h : Nat) (s : State) : Reply :=
  match jobOf s.engine h with
  | none => refuse .notFinished s
  | some j =>
    match j.life with
    | .finished _ => (.ok, [], setJob h none s)
    | .queued => refuse .notFinished s
    | .running _ => refuse .notFinished s

/-- JOB_CLEAR at the copy engine. -/
def bodyJobClear : Handler := parsed parseHandle fun h => inOpen (clearJob h)

/-- JOB_CLEAR (R105). -/
def execJobClear (tag : Byte) (payload : List Byte) (s : State) : Answer :=
  commandFrame 0x44 tag payload bodyJobClear s

end Sys2Proof.Machine
end

