-- ==== Sys2Proof/Machine/LaneCommands.lean ====
section
/-! DEFINITION. LANE_CONFIG, LANE_READ, LANE_COUNTERS_CLEAR, ARBITER_CONFIG, HEALTH_CONFIG, LANE_SET_OFFLINE, LANE_SET_ACTIVE, LANE_RESTORE (R49, R50, R56, R68, R146 to R149). -/

namespace Sys2Proof.Machine

open Sys2Proof

/-- The items that lie on a lane, or will when the draining commit installs: occupancy and commit legs (R12,
R82). -/
def itemsOn (lane : Lane) (s : State) : List Item :=
  (occupancy s ++ commitItems s.mu).filter fun item => item.lane == lane

/-- Whether an item ends above a capacity (R49). -/
def Item.above (item : Item) (capacity : Nat) : Bool := capacity < item.start + item.len

/-- A lane's state. -/
def laneStateOf (lane : Lane) (s : State) : LaneState := (s.health.lanes.get lane).state

/-! ### LANE_CONFIG (R49) -/

/-- LANE_CONFIG at the lane port, after its payload test. -/
def configLane (lane : Lane) (capacity timeout : Nat) (s : State) : Reply :=
  if capacity = 0 ∧ laneStateOf lane s ≠ .offline then refuse .badArgument s
  else if (itemsOn lane s).any fun item => item.above capacity then refuse .laneInUse s
  else (.ok, [], modifyLane lane (fun p => { p with capacity := capacity, timeout := timeout }) s)

/-- LANE_CONFIG at the lane port. -/
def bodyLaneConfig : Handler := parsed parseLaneConfig fun a => inOpen (configLane a.1 a.2.1 a.2.2)

/-- LANE_CONFIG (R49). -/
def execLaneConfig (tag : Byte) (payload : List Byte) (s : State) : Answer :=
  commandFrame 0x30 tag payload bodyLaneConfig s

/-! ### LANE_READ (R50) -/

/-- LANE_READ's 41 bytes (10 section 10.6.2). -/
def laneReadBytes (lane : Lane) (s : State) : List Byte :=
  let p := s.lanes.get lane
  let h := s.health.lanes.get lane
  let engineSide := p.waiting.filter fun w => w.req.fromEngine
  byte1 (laneCode lane) ++ byte3 p.capacity ++ byte2 p.timeout ++ byte1 (laneStateCode h.state)
    ++ byte2 h.budget ++ byte1 (Config.credits - p.outstanding.length) ++ byte1 p.outstanding.length
    ++ byte1 (p.outstanding.filter fun o => !o.running).length
    ++ byte1 (p.waiting.length - engineSide.length) ++ byte1 engineSide.length
    ++ byte2 p.reclaimed.length ++ yesNo p.quiesce.isSome
    ++ byte4 p.counters.readsIssued ++ byte4 p.counters.writesIssued ++ byte4 p.counters.readErrors
    ++ byte4 p.counters.writeErrors ++ byte4 p.counters.timeouts ++ byte4 p.counters.lateResponses

/-- LANE_READ at the lane port. -/
def bodyLaneRead : Handler := parsed parseLane fun lane s => (.ok, laneReadBytes lane s, s)

/-- LANE_READ (R50). -/
def execLaneRead (tag : Byte) (payload : List Byte) (s : State) : Answer :=
  commandFrame 0x31 tag payload bodyLaneRead s

/-! ### LANE_COUNTERS_CLEAR (R68) -/

/-- The six counters at 0. -/
def zeroCounters : LaneCounters :=
  { readsIssued := 0, writesIssued := 0, readErrors := 0, writeErrors := 0, timeouts := 0
    lateResponses := 0 }

/-- Clear the counters of several lanes. -/
def clearCounters : List Lane → State → State
  | [], s => s
  | lane :: rest, s =>
    clearCounters rest (modifyLane lane (fun p => { p with counters := zeroCounters }) s)

/-- LANE_COUNTERS_CLEAR at the lane ports. -/
def bodyLaneCountersClear : Handler :=
  parsed parseLaneSelect fun lanes => inOpen fun s => (.ok, [], clearCounters lanes s)

/-- LANE_COUNTERS_CLEAR (R68). -/
def execLaneCountersClear (tag : Byte) (payload : List Byte) (s : State) : Answer :=
  commandFrame 0x32 tag payload bodyLaneCountersClear s

/-! ### ARBITER_CONFIG (R56) -/

/-- ARBITER_CONFIG at the copy engine's settings. -/
def bodyArbiterConfig : Handler := fun payload s =>
  match payload with
  | [] => (.ok, byte1 s.engine.share, s)
  | [b] =>
    if 1 ≤ b.toNat ∧ b.toNat < Config.windowSize then
      inOpen (fun s => (.ok, byte1 b.toNat, { s with engine.share := b.toNat })) s
    else refuse .badArgument s
  | _ => refuse .badArgument s

/-- ARBITER_CONFIG (R56). -/
def execArbiterConfig (tag : Byte) (payload : List Byte) (s : State) : Answer :=
  commandFrame 0x33 tag payload bodyArbiterConfig s

/-! ### HEALTH_CONFIG (R146) -/

/-- HEALTH_CONFIG's 6 bytes. -/
def healthBytes (h : Health) : List Byte := byte2 h.suspect ++ byte2 h.retire ++ byte2 h.interval

/-- Take the thresholds and the interval, restart the drain timer, and evaluate the lanes in order (R146). -/
def setHealth (suspect retire interval : Nat) (s : State) : State :=
  evaluateLanes allLanes
    { s with health := { s.health with
        suspect := suspect, retire := retire, interval := interval, drainTimer := some interval } }

/-- HEALTH_CONFIG at the health monitor. -/
def bodyHealthConfig : Handler := fun payload s =>
  match payload with
  | [] => (.ok, healthBytes s.health, s)
  | _ :: _ =>
    parsed parseHealth (fun a =>
      inOpen fun s =>
        let s := settle (setHealth a.1 a.2.1 a.2.2 s)
        (.ok, healthBytes s.health, s)) payload s

/-- HEALTH_CONFIG (R146). -/
def execHealthConfig (tag : Byte) (payload : List Byte) (s : State) : Answer :=
  commandFrame 0x38 tag payload bodyHealthConfig s

/-! ### LANE_SET_OFFLINE, LANE_SET_ACTIVE, LANE_RESTORE (R147 to R149) -/

/-- LANE_SET_OFFLINE at the health monitor: tests 3 to 5 of R147, and then OFFLINE. -/
def setOffline (lane : Lane) (s : State) : Reply :=
  if laneStateOf lane s ≠ .active ∧ laneStateOf lane s ≠ .suspect then refuse .notActive s
  else if !(itemsOn lane s).isEmpty then refuse .laneInUse s
  else if !(s.lanes.get lane).idle then refuse .laneBusy s
  else (.ok, [], setLaneState lane .offline s)

/-- LANE_SET_OFFLINE at the health monitor. -/
def bodyLaneSetOffline : Handler := parsed parseLane fun lane => inOpen (setOffline lane)

/-- LANE_SET_OFFLINE (R147). -/
def execLaneSetOffline (tag : Byte) (payload : List Byte) (s : State) : Answer :=
  commandFrame 0x39 tag payload bodyLaneSetOffline s

/-- A lane becomes ACTIVE with budget 0, with the record and notice of R143 (R148, R149). -/
def makeActive (lane : Lane) (s : State) : State :=
  setLaneState lane .active
    { s with health.lanes := s.health.lanes.modify lane fun h => { h with budget := 0 } }

/-- LANE_SET_ACTIVE at the health monitor (R148). -/
def setActive (lane : Lane) (s : State) : Reply :=
  if laneStateOf lane s ≠ .offline then refuse .notActive s
  else if (s.lanes.get lane).capacity = 0 then refuse .badArgument s
  else (.ok, [], makeActive lane s)

/-- LANE_SET_ACTIVE at the health monitor. -/
def bodyLaneSetActive : Handler := parsed parseLane fun lane => inOpen (setActive lane)

/-- LANE_SET_ACTIVE (R148). -/
def execLaneSetActive (tag : Byte) (payload : List Byte) (s : State) : Answer :=
  commandFrame 0x3A tag payload bodyLaneSetActive s

/-- LANE_RESTORE at the health monitor (R149). -/
def restoreLane (lane : Lane) (s : State) : Reply :=
  if laneStateOf lane s ≠ .retired then refuse .notActive s else (.ok, [], makeActive lane s)

/-- LANE_RESTORE at the health monitor. -/
def bodyLaneRestore : Handler := parsed parseLane fun lane => inOpen (restoreLane lane)

/-- LANE_RESTORE (R149). -/
def execLaneRestore (tag : Byte) (payload : List Byte) (s : State) : Answer :=
  commandFrame 0x3B tag payload bodyLaneRestore s

end Sys2Proof.Machine
end

