-- ==== Sys2Proof/Machine/LinkCommands.lean ====
section
/-! DEFINITION. IDENTIFY, STATUS_READ, LINK_COUNTERS_READ, BRIDGE_RESET, DRAIN_LIMIT_SET, HOST_COUNTERS_READ, HOST_COUNTERS_CLEAR (R37 to R39, R42, R169 to R172). -/

namespace Sys2Proof.Machine

open Sys2Proof

/-! ### IDENTIFY (R169) -/

/-- IDENTIFY's 14 bytes (10 section 10.6.7). -/
def identifyBytes (s : State) : List Byte :=
  byte2 Config.partCode ++ byte1 Config.partRevision ++ byte1 s.strap.toNat ++ byte1 Config.mapSlots
    ++ byte1 Config.iftSlots ++ byte1 4 ++ byte1 Config.credits ++ byte1 16 ++ byte1 Config.jobSlots
    ++ byte1 Config.ringSize ++ byte1 Config.noticeSize ++ byte1 Config.fifoSize
    ++ byte1 Config.payloadMax

/-- IDENTIFY at the link. -/
def bodyIdentify : Handler := noPayload fun s => (.ok, identifyBytes s, s)

/-- IDENTIFY (R169). -/
def execIdentify (tag : Byte) (payload : List Byte) (s : State) : Answer :=
  commandFrame 0x01 tag payload bodyIdentify s

/-! ### STATUS_READ (R170) -/

/-- How many map slots hold a descriptor that a test selects. -/
def countSlots (slots : List MapSlot) (sel : Descriptor → Bool) : Nat :=
  (slots.filter fun m => m.desc.any sel).length

/-- How many job slots hold a record that a test selects. -/
def countJobs (jobs : List (Option Job)) (sel : Job → Bool) : Nat :=
  (jobs.filter fun j => j.any sel).length

/-- Whether a job is QUEUED. -/
def Job.isQueued (j : Job) : Bool :=
  match j.life with
  | .queued => true
  | .running _ => false
  | .finished _ => false

/-- Whether a job is FINISHED. -/
def Job.isFinished (j : Job) : Bool :=
  match j.life with
  | .queued => false
  | .running _ => false
  | .finished _ => true

/-- How many members a commit set has. -/
def commitSize (c : CommitRecord) : Nat := (c.drain.map fun d => d.members.length).getD 0

/-- STATUS_READ's 23 bytes (10 section 10.6.7). -/
def statusBytes (s : State) : List Byte :=
  byte2 s.mu.generation.toNat ++ yesNo s.mu.commit.drain.isSome
    ++ byte1 (commitResultCode s.mu.commit.last) ++ byte1 (commitSize s.mu.commit)
    ++ byte1 s.ift.entries.length
    ++ byte1 (laneStateCode s.health.lanes.l0.state) ++ byte1 (laneStateCode s.health.lanes.l1.state)
    ++ byte1 (laneStateCode s.health.lanes.l2.state) ++ byte1 (laneStateCode s.health.lanes.l3.state)
    ++ byteOr s.engine.running
    ++ byteOr ((runningJob s.engine).bind fun r => r.2.phase.map phaseCode)
    ++ byte1 (countJobs s.engine.jobs Job.isQueued) ++ byte1 (countJobs s.engine.jobs Job.isFinished)
    ++ byte1 (s.engine.jobs.filter Option.isNone).length
    ++ byte1 (countSlots s.mu.slots fun _ => true) ++ byte1 (countSlots s.mu.slots Descriptor.degraded)
    ++ byte1 (countSlots s.mu.slots (atRisk s.health))
    ++ byte1 s.log.ring.length ++ byte1 s.log.overflow ++ byte1 s.log.notices.length
    ++ yesNo s.log.lost ++ byte1 (seqCode s.hp.seq)

/-- STATUS_READ at the link. -/
def bodyStatusRead : Handler := noPayload fun s => (.ok, statusBytes s, s)

/-- STATUS_READ (R170). -/
def execStatusRead (tag : Byte) (payload : List Byte) (s : State) : Answer :=
  commandFrame 0x02 tag payload bodyStatusRead s

/-! ### LINK_COUNTERS_READ (R171) -/

/-- LINK_COUNTERS_READ's 12 bytes. -/
def linkCounterBytes (s : State) : List Byte :=
  byte4 s.link.checkErrors ++ byte4 s.link.framingErrors ++ byte4 s.link.overruns

/-- LINK_COUNTERS_READ at the link. -/
def bodyLinkCountersRead : Handler := noPayload fun s => (.ok, linkCounterBytes s, s)

/-- LINK_COUNTERS_READ (R171). -/
def execLinkCountersRead (tag : Byte) (payload : List Byte) (s : State) : Answer :=
  commandFrame 0x03 tag payload bodyLinkCountersRead s

/-! ### BRIDGE_RESET (R42, R172) -/

/-- BRIDGE_RESET taken in OPEN (R42): the copy engine and the map unit take the reset signal, the entry-drain
timer starts at the drain limit, the warm-seen flag is cleared, and the state becomes ENTRY_DRAIN. -/
def commandReset (s : State) : State :=
  let s := endCommit .resetAborted (resetJobs s)
  { s with hp := { s.hp with entryTimer := some s.hp.drainLimit, warmSeen := false, seq := .entryDrain } }

/-- BRIDGE_RESET at the host port. -/
def bodyBridgeReset : Handler := noPayload (inOpen fun s => (.accepted, [], settle (commandReset s)))

/-- BRIDGE_RESET (R42, R172). -/
def execBridgeReset (tag : Byte) (payload : List Byte) (s : State) : Answer :=
  commandFrame 0x04 tag payload bodyBridgeReset s

/-! ### DRAIN_LIMIT_SET (R39) -/

/-- DRAIN_LIMIT_SET at the host port. -/
def bodyDrainLimitSet : Handler := fun payload s =>
  match payload with
  | [] => (.ok, byte2 s.hp.drainLimit, s)
  | [a, b] =>
    let limit := fieldValue [a, b]
    if limit = 0 then refuse .badArgument s
    else inOpen (fun s => (.ok, byte2 limit, { s with hp.drainLimit := limit })) s
  | _ => refuse .badArgument s

/-- DRAIN_LIMIT_SET (R39). -/
def execDrainLimitSet (tag : Byte) (payload : List Byte) (s : State) : Answer :=
  commandFrame 0x05 tag payload bodyDrainLimitSet s

/-! ### HOST_COUNTERS_READ, HOST_COUNTERS_CLEAR (R37, R38) -/

/-- HOST_COUNTERS_READ's 13 bytes. -/
def hostCounterBytes (s : State) : List Byte :=
  byte4 s.hp.unmapped ++ byte4 s.hp.malformed ++ byte4 s.hp.readOnly ++ byte1 s.ift.entries.length

/-- HOST_COUNTERS_READ at the host port. -/
def bodyHostCountersRead : Handler := noPayload fun s => (.ok, hostCounterBytes s, s)

/-- HOST_COUNTERS_READ (R37). -/
def execHostCountersRead (tag : Byte) (payload : List Byte) (s : State) : Answer :=
  commandFrame 0x18 tag payload bodyHostCountersRead s

/-- The three host counters at 0 (R38). -/
def clearHostCounters (s : State) : State :=
  { s with hp := { s.hp with unmapped := 0, malformed := 0, readOnly := 0 } }

/-- HOST_COUNTERS_CLEAR at the host port. -/
def bodyHostCountersClear : Handler := noPayload (inOpen fun s => (.ok, [], clearHostCounters s))

/-- HOST_COUNTERS_CLEAR (R38). -/
def execHostCountersClear (tag : Byte) (payload : List Byte) (s : State) : Answer :=
  commandFrame 0x19 tag payload bodyHostCountersClear s

end Sys2Proof.Machine
end

