-- ==== Sys2Proof/Machine/LogCommands.lean ====
section
/-! DEFINITION. FAULT_POP, FAULT_STATUS, FAULT_RESET, NOTICE_POP, ALERT_MASK (R154 to R156, R159, R160). -/

namespace Sys2Proof.Machine

open Sys2Proof

/-- FAULT_POP at the fault log (R154). -/
def popFault (s : State) : Reply :=
  match s.log.ring with
  | [] => refuse .empty s
  | r :: rest => (.ok, recordBytes r ++ byte1 rest.length, { s with log.ring := rest })

/-- FAULT_POP at the fault log. -/
def bodyFaultPop : Handler := noPayload popFault

/-- FAULT_POP (R154). -/
def execFaultPop (tag : Byte) (payload : List Byte) (s : State) : Answer :=
  commandFrame 0x50 tag payload bodyFaultPop s

/-- FAULT_STATUS's 4 bytes (R155). -/
def faultStatusBytes (log : FaultLog) : List Byte :=
  byte1 log.ring.length ++ byte1 log.overflow ++ byte2 log.nextSeq.toNat

/-- FAULT_STATUS at the fault log. -/
def bodyFaultStatus : Handler := noPayload fun s => (.ok, faultStatusBytes s.log, s)

/-- FAULT_STATUS (R155). -/
def execFaultStatus (tag : Byte) (payload : List Byte) (s : State) : Answer :=
  commandFrame 0x51 tag payload bodyFaultStatus s

/-- FAULT_RESET at the fault log (R156): the ring and the overflow count, and nothing else. -/
def bodyFaultReset : Handler :=
  noPayload fun s => (.ok, [], { s with log := { s.log with ring := [], overflow := 0 } })

/-- FAULT_RESET (R156). -/
def execFaultReset (tag : Byte) (payload : List Byte) (s : State) : Answer :=
  commandFrame 0x52 tag payload bodyFaultReset s

/-- NOTICE_POP at the fault log (R159): the head notice and the lost flag as it stood, or EMPTY with the
flag; the flag is cleared either way, and ALERT_N evaluated (R161). -/
def popNotice (s : State) : Reply :=
  match s.log.notices with
  | [] => (.empty, yesNo s.log.lost, { s with log := evaluateAlert { s.log with lost := false } })
  | n :: rest =>
    (.ok, noticeBytes n ++ yesNo s.log.lost ++ byte1 rest.length,
      { s with log := evaluateAlert { s.log with notices := rest, lost := false } })

/-- NOTICE_POP at the fault log. -/
def bodyNoticePop : Handler := noPayload popNotice

/-- NOTICE_POP (R159). -/
def execNoticePop (tag : Byte) (payload : List Byte) (s : State) : Answer :=
  commandFrame 0x53 tag payload bodyNoticePop s

/-- ALERT_MASK at the fault log (R160): bits 6 and 7 enable no kind. -/
def bodyAlertMask : Handler := fun payload s =>
  match payload with
  | [] => (.ok, byte1 s.log.mask.toNat, s)
  | [b] =>
    if b.toNat < 64 then
      (.ok, byte1 b.toNat, { s with log := evaluateAlert { s.log with mask := b.setWidth 6 } })
    else refuse .badArgument s
  | _ => refuse .badArgument s

/-- ALERT_MASK (R160). -/
def execAlertMask (tag : Byte) (payload : List Byte) (s : State) : Answer :=
  commandFrame 0x54 tag payload bodyAlertMask s

end Sys2Proof.Machine
end

