-- ==== Sys2Proof/Machine/MapCommands.lean ====
section
/-! DEFINITION. MAP_READ, STAGE_READ, STAGE_WRITE, STAGE_REMOVE, STAGE_LOAD, MAP_COMMIT (R23, R72 to R80). -/

namespace Sys2Proof.Machine

open Sys2Proof

/-! ### MAP_READ (R23) -/

/-- MAP_READ's 26 bytes (10 section 10.6.2). -/
def mapReadBytes (i : Nat) (s : State) : List Byte :=
  let d := descOf s.mu.slots i
  byte1 i ++ yesNo d.isSome ++ byte2 (revisionOf s.mu.slots i).toNat
    ++ bodyBytes (d.map Descriptor.body) ++ yesNo (d.any Descriptor.degraded)
    ++ yesNo (d.any (atRisk s.health)) ++ byteOr (d.bind Descriptor.job) ++ byte2 s.mu.generation.toNat

/-- MAP_READ at the map unit. -/
def bodyMapRead : Handler := parsed parseSlot fun i s => (.ok, mapReadBytes i s, s)

/-- MAP_READ (R23). -/
def execMapRead (tag : Byte) (payload : List Byte) (s : State) : Answer :=
  commandFrame 0x10 tag payload bodyMapRead s

/-! ### The staging map (R72 to R75) -/

/-- STAGE_READ's 24 bytes. -/
def stageReadBytes (i : Nat) (s : State) : List Byte :=
  let st := stageOf s.mu.staging i
  byte1 i ++ yesNo st.body.isSome ++ bodyBytes st.body ++ byte2 st.basedOn.toNat
    ++ yesNo (changedSlot s.mu i) ++ byte2 (revisionOf s.mu.slots i).toNat

/-- STAGE_READ at the map unit. -/
def bodyStageRead : Handler := parsed parseSlot fun i s => (.ok, stageReadBytes i s, s)

/-- STAGE_READ (R72). -/
def execStageRead (tag : Byte) (payload : List Byte) (s : State) : Answer :=
  commandFrame 0x20 tag payload bodyStageRead s

/-- Replace a staging slot. -/
def setStage (i : Nat) (st : StageSlot) (s : State) : State :=
  { s with mu.staging := s.mu.staging.set i st }

/-- The answer of STAGE_WRITE and STAGE_REMOVE: whether the slot is now changed, and its active revision. -/
def stageAnswer (i : Nat) (s : State) : Reply :=
  (.ok, yesNo (changedSlot s.mu i) ++ byte2 (revisionOf s.mu.slots i).toNat, s)

/-- STAGE_WRITE at the map unit. -/
def bodyStageWrite : Handler := parsed parseStageWrite fun a =>
  inOpen fun s => stageAnswer a.1 (setStage a.1 { body := some a.2.1, basedOn := a.2.2 } s)

/-- STAGE_WRITE (R73). -/
def execStageWrite (tag : Byte) (payload : List Byte) (s : State) : Answer :=
  commandFrame 0x21 tag payload bodyStageWrite s

/-- STAGE_REMOVE at the map unit. -/
def bodyStageRemove : Handler := parsed parseStageRemove fun a =>
  inOpen fun s => stageAnswer a.1 (setStage a.1 { body := none, basedOn := a.2 } s)

/-- STAGE_REMOVE (R74). -/
def execStageRemove (tag : Byte) (payload : List Byte) (s : State) : Answer :=
  commandFrame 0x22 tag payload bodyStageRemove s

/-- The staging slot that equals an active slot (R75). -/
def loadSlot (m : MapSlot) : StageSlot := { body := m.desc.map Descriptor.body, basedOn := m.revision }

/-- Every staging slot takes its active slot's valid, body and revision (R75). -/
def loadStaging (s : State) : State := { s with mu.staging := s.mu.slots.map loadSlot }

/-- STAGE_LOAD at the map unit. -/
def bodyStageLoad : Handler :=
  noPayload (inOpen fun s => (.ok, byte2 s.mu.generation.toNat, loadStaging s))

/-- STAGE_LOAD (R75). -/
def execStageLoad (tag : Byte) (payload : List Byte) (s : State) : Answer :=
  commandFrame 0x23 tag payload bodyStageLoad s

/-! ### MAP_COMMIT (R77 to R80) -/

def mapCheckCode : MapCheck → Nat
  | .span => 0
  | .lanePair => 1
  | .capacity => 2
  | .laneState => 3
  | .hostOverlap => 4
  | .legOverlap => 5
  | .reserved => 6

/-- INVALID_MAP's 5 bytes (10 section 10.6.3). -/
def failureDetail (f : MapFailure) : List Byte :=
  byte1 (mapCheckCode f.check) ++ byte1 f.slot ++ byteOr f.other ++ byteOr (f.lane.map laneCode)
    ++ byteOr f.job

/-- Accept a commit (R80): when the span opens with nothing counted, completion is reported and taken in the
same event (R29, R84). -/
def acceptCommit (s : State) : State :=
  let s := openCommit s
  settle (if commitReported s then completeCommit s else s)

/-- MAP_COMMIT at the map unit: tests 2 to 7 of R77 in order, and then the commit. -/
def commitBody (s : State) : Reply :=
  if s.mu.commit.drain.isSome then refuse .busy s
  else if (changedSlots s.mu).isEmpty then refuse .noChange s
  else
    match structuralFailure s, staleSlot s.mu, busySlot s.mu with
    | some f, _, _ => refuseWith .invalidMap (failureDetail f) s
    | none, some i, _ => refuseWith .stale (byte1 i) s
    | none, none, some (i, h) => refuseWith .mapBusy (byte1 i ++ byte1 h) s
    | none, none, none =>
      (.accepted, byte1 (changedSlots s.mu).length ++ byte4 (unionSize (affectedRanges s.mu)),
        acceptCommit s)

/-- MAP_COMMIT at the map unit. -/
def bodyMapCommit : Handler := noPayload (inOpen commitBody)

/-- MAP_COMMIT (R77 to R80). -/
def execMapCommit (tag : Byte) (payload : List Byte) (s : State) : Answer :=
  commandFrame 0x24 tag payload bodyMapCommit s

end Sys2Proof.Machine
end

