-- ==== Sys2Proof/Machine/Frames.lean ====
section
/-! DEFINITION. FETCH_FRAME, IGNORE_FRAME, SHORT_FRAME, UNKNOWN_COMMAND, DISCARDED_COMMAND_FRAME (R163 to R168). -/

namespace Sys2Proof.Machine

open Sys2Proof

/-- A code that names no command (R166). -/
def bodyUnknown : Handler := fun _ s => refuse .unknownCommand s

/-- What a command code names (10 section 10.6.2). -/
def handlerOf (code : Byte) : Handler :=
  match code.toNat with
  | 0x01 => bodyIdentify
  | 0x02 => bodyStatusRead
  | 0x03 => bodyLinkCountersRead
  | 0x04 => bodyBridgeReset
  | 0x05 => bodyDrainLimitSet
  | 0x10 => bodyMapRead
  | 0x18 => bodyHostCountersRead
  | 0x19 => bodyHostCountersClear
  | 0x20 => bodyStageRead
  | 0x21 => bodyStageWrite
  | 0x22 => bodyStageRemove
  | 0x23 => bodyStageLoad
  | 0x24 => bodyMapCommit
  | 0x30 => bodyLaneConfig
  | 0x31 => bodyLaneRead
  | 0x32 => bodyLaneCountersClear
  | 0x33 => bodyArbiterConfig
  | 0x38 => bodyHealthConfig
  | 0x39 => bodyLaneSetOffline
  | 0x3A => bodyLaneSetActive
  | 0x3B => bodyLaneRestore
  | 0x40 => bodyJobSubmitRelocate
  | 0x41 => bodyJobSubmitAudit
  | 0x42 => bodyJobCancel
  | 0x43 => bodyJobRead
  | 0x44 => bodyJobClear
  | 0x50 => bodyFaultPop
  | 0x51 => bodyFaultStatus
  | 0x52 => bodyFaultReset
  | 0x53 => bodyNoticePop
  | 0x54 => bodyAlertMask
  | _ => bodyUnknown

/-- UNKNOWN_COMMAND (R166). A code that names a command makes it that command's frame (log entry 17). -/
def execUnknownCommand (code tag : Byte) (payload : List Byte) (s : State) : Answer :=
  commandFrame code tag payload (handlerOf code) s

/-- The end of a frame in COMMAND (R165): `bytes` are the whole bytes after the marker. Test 1 needs 4 whole
bytes with the marker, a length byte of at most 56, exactly 6 + n whole bytes and no bits beyond them; test 2
the check code over the bytes between. A sound frame is carried out (log entry 17). -/
def commandEnd (bytes : List Byte) (extraBits : Nat) (s : State) : State :=
  match bytes with
  | code :: tag :: len :: rest =>
    let n := len.toNat
    if Config.payloadMax < n ∨ rest.length ≠ n + 2 ∨ extraBits ≠ 0 then framingError s
    else if fieldValue (rest.drop n) ≠ (checkCode (code :: tag :: len :: rest.take n)).toNat then checkError s
    else frameEnd code tag (rest.take n) (handlerOf code) s
  | _ => framingError s

/-- DISCARDED_COMMAND_FRAME (R165). -/
def execDiscardedCommandFrame (bytes : List Byte) (extraBits : Nat) (s : State) : Answer :=
  frame (some 0xC3) 0 (commandEnd bytes extraBits) s

/-- FETCH_FRAME (R167, R168). -/
def execFetchFrame (bits : Nat) (s : State) : Answer := frame (some 0x3C) bits (commandEnd [] 0) s

/-- IGNORE_FRAME (R163). A first byte that is a marker makes it a fetch of no bits, or a command frame that
fails framing (log entry 17). -/
def execIgnoreFrame (first : Byte) (s : State) : Answer := frame (some first) 0 (commandEnd [] 0) s

/-- SHORT_FRAME (R163): fewer than 8 bits were clocked, so the frame ends in MARKER. -/
def execShortFrame (_bits : Fin 8) (s : State) : Answer := frame none 0 (commandEnd [] 0) s

end Sys2Proof.Machine
end

