-- ==== Sys2Proof/Machine/LaneEvents.lean ====
section
/-! DEFINITION. LANE_RESPONSE, CREDIT_WAIT_TIMEOUT, RESPONSE_TIMEOUT, QUIESCE_TIMEOUT (R57 to R62). -/

namespace Sys2Proof.Machine

open Sys2Proof

/-- LANE_RESPONSE (R58, R60). -/
def execLaneResponse (lane : Lane) (number : Count16) (resp : AxiResp) (data : LineData) (s : State) :
    Answer :=
  event true (takeResponse lane number resp data) s

/-- CREDIT_WAIT_TIMEOUT (R57): possible when a request waits at that place. -/
def execCreditWaitTimeout (lane : Lane) (place : Nat) (s : State) : Answer :=
  event ((s.lanes.get lane).waiting[place]?).isSome (expireWait lane place) s

/-- RESPONSE_TIMEOUT (R59): possible when the request with that number is OUTSTANDING. -/
def execResponseTimeout (lane : Lane) (number : Count16) (s : State) : Answer :=
  event ((s.lanes.get lane).outstanding.any fun o => o.number == number && o.running)
    (expireResponse lane number) s

/-- QUIESCE_TIMEOUT (R62): possible while the lane is quiescing. -/
def execQuiesceTimeout (lane : Lane) (s : State) : Answer :=
  event (s.lanes.get lane).quiesce.isSome (expireQuiesce lane) s

end Sys2Proof.Machine
end

