-- ==== Sys2Proof/Machine/Pins.lean ====
section
/-! DEFINITION. PORST_N_ASSERT, PORST_N_DEASSERT, SRST_N_ASSERT, SRST_N_DEASSERT (R20, R41, R44 to R46). -/

namespace Sys2Proof.Machine

open Sys2Proof

/-- Every entry is discarded without a response (R41 step 2): the table empties, the counts of open spans
become 0, presented responses are withdrawn, waiting host requests are withdrawn (R53), issued ones reach no
entry (R58), and the beats of a write in progress are forgotten (log entry 7). -/
def discardEntries (s : State) : State :=
  orphan (fun _ => true)
    (withdraw (fun r => !r.fromEngine)
      { s with
        ift :=
          { entries := []
            commitSpan := s.ift.commitSpan.map fun sp => { sp with counted := [] }
            switchSpan := s.ift.switchSpan.map fun sp => { sp with counted := [] } }
        hp := { s.hp with readChan := none, writeChan := none, writeBeats := 0 } })

/-- The map unit is signalled to abandon a draining commit (R87). -/
def abandonCommit (s : State) : State := endCommit .resetAborted s

/-- SRST_N asserted in OPEN (R41 steps 2 to 6). -/
def warmReset (s : State) : State :=
  let s := startQuiesce (abandonCommit (resetJobs (discardEntries s)))
  { s with hp := { s.hp with warmSeen := true, seq := .quiesce } }

/-- SRST_N asserted while a sequence is in progress (R45). -/
def warmOverlap (s : State) : State :=
  let s := discardEntries s
  let s := { s with hp := { s.hp with warmSeen := true } }
  if s.hp.seq = .entryDrain then leaveEntryDrain s else s

/-- PORST_N asserted: every block at its power-on values, no timer running, ALERT_N deasserted (R46, R69,
R76, R87, R106, R150, R162, R173; log entry 15). The strap is kept until the deassertion latches it (R20), and
the link enters IDLE no sooner than that (R163). -/
def porstState (s : State) : State :=
  let p := powerOn s.strap
  { p with
    porst := true, srst := s.srst, pending := s.pending
    health := { p.health with drainTimer := none }
    link := { p.link with framing := .unframed } }

/-- PORST_N_ASSERT (R46). -/
def execPorstNAssert (s : State) : Answer := .next (porstState s)

/-- The part as PORST_N is deasserted, the strap latched (R20, R21): OPEN, or QUIESCE with the warm-seen
flag set while SRST_N is asserted (R46). The link is in IDLE when CS_N is high, and waits for CS_N to rise when
it is low (R163, R173). -/
def powerUp (pins : ResetPins) (s : State) : State :=
  let q := powerOn pins.strap
  let p := { q with
    srst := s.srst, pending := s.pending
    link := { q.link with framing := if pins.csHigh then .idle else .unframed } }
  if s.srst then startQuiesce { p with hp := { p.hp with seq := .quiesce, warmSeen := true } } else p

/-- PORST_N_DEASSERT (R46, R20). -/
def execPorstNDeassert (pins : ResetPins) (s : State) : Answer :=
  .next (if s.porst then settle (powerUp pins s) else s)

/-- SRST_N_ASSERT (R41, R45). While PORST_N is asserted only the pin's level is kept. -/
def execSrstNAssert (s : State) : Answer :=
  .next
    (if s.srst then s
     else
      let s := { s with srst := true }
      if s.porst then s
      else if isOpen s then settle (warmReset s) else settle (warmOverlap s))

/-- SRST_N_DEASSERT (R44, R45). -/
def execSrstNDeassert (s : State) : Answer :=
  .next
    (if s.srst then
      let s := { s with srst := false }
      if s.porst then s else settle s
     else s)

end Sys2Proof.Machine
end

