-- ==== Sys2Proof/Machine/Dispatch.lean ====
section
/-! DEFINITION. One arm per command: each calls its meaning. -/

namespace Sys2Proof.Machine

open Sys2Proof

def exec (i : Instr) (s : State) : Host.Outcome State Fault Refusal :=
  match i with
  | .porstNAssert => Sys2Proof.Machine.execPorstNAssert s
  | .porstNDeassert pins => Sys2Proof.Machine.execPorstNDeassert pins s
  | .srstNAssert => Sys2Proof.Machine.execSrstNAssert s
  | .srstNDeassert => Sys2Proof.Machine.execSrstNDeassert s
  | .hostAccept txn => Sys2Proof.Machine.execHostAccept txn s
  | .malformedWriteBeat burst => Sys2Proof.Machine.execMalformedWriteBeat burst s
  | .responseTaken channel => Sys2Proof.Machine.execResponseTaken channel s
  | .laneResponse lane number resp data => Sys2Proof.Machine.execLaneResponse lane number resp data s
  | .creditWaitTimeout lane place => Sys2Proof.Machine.execCreditWaitTimeout lane place s
  | .responseTimeout lane number => Sys2Proof.Machine.execResponseTimeout lane number s
  | .legDropRequest place => Sys2Proof.Machine.execLegDropRequest place s
  | .quiesceTimeout lane => Sys2Proof.Machine.execQuiesceTimeout lane s
  | .entryDrainTimeout => Sys2Proof.Machine.execEntryDrainTimeout s
  | .commitDrainTimeout => Sys2Proof.Machine.execCommitDrainTimeout s
  | .switchTimerExpiry => Sys2Proof.Machine.execSwitchTimerExpiry s
  | .drainTick => Sys2Proof.Machine.execDrainTick s
  | .fetchFrame bits => Sys2Proof.Machine.execFetchFrame bits s
  | .ignoreFrame first => Sys2Proof.Machine.execIgnoreFrame first s
  | .shortFrame bits => Sys2Proof.Machine.execShortFrame bits s
  | .unknownCommand code tag payload => Sys2Proof.Machine.execUnknownCommand code tag payload s
  | .identify tag payload => Sys2Proof.Machine.execIdentify tag payload s
  | .statusRead tag payload => Sys2Proof.Machine.execStatusRead tag payload s
  | .linkCountersRead tag payload => Sys2Proof.Machine.execLinkCountersRead tag payload s
  | .bridgeReset tag payload => Sys2Proof.Machine.execBridgeReset tag payload s
  | .drainLimitSet tag payload => Sys2Proof.Machine.execDrainLimitSet tag payload s
  | .mapRead tag payload => Sys2Proof.Machine.execMapRead tag payload s
  | .hostCountersRead tag payload => Sys2Proof.Machine.execHostCountersRead tag payload s
  | .hostCountersClear tag payload => Sys2Proof.Machine.execHostCountersClear tag payload s
  | .stageRead tag payload => Sys2Proof.Machine.execStageRead tag payload s
  | .stageWrite tag payload => Sys2Proof.Machine.execStageWrite tag payload s
  | .stageRemove tag payload => Sys2Proof.Machine.execStageRemove tag payload s
  | .stageLoad tag payload => Sys2Proof.Machine.execStageLoad tag payload s
  | .mapCommit tag payload => Sys2Proof.Machine.execMapCommit tag payload s
  | .laneConfig tag payload => Sys2Proof.Machine.execLaneConfig tag payload s
  | .laneRead tag payload => Sys2Proof.Machine.execLaneRead tag payload s
  | .laneCountersClear tag payload => Sys2Proof.Machine.execLaneCountersClear tag payload s
  | .arbiterConfig tag payload => Sys2Proof.Machine.execArbiterConfig tag payload s
  | .healthConfig tag payload => Sys2Proof.Machine.execHealthConfig tag payload s
  | .laneSetOffline tag payload => Sys2Proof.Machine.execLaneSetOffline tag payload s
  | .laneSetActive tag payload => Sys2Proof.Machine.execLaneSetActive tag payload s
  | .laneRestore tag payload => Sys2Proof.Machine.execLaneRestore tag payload s
  | .jobSubmitRelocate tag payload => Sys2Proof.Machine.execJobSubmitRelocate tag payload s
  | .jobSubmitAudit tag payload => Sys2Proof.Machine.execJobSubmitAudit tag payload s
  | .jobCancel tag payload => Sys2Proof.Machine.execJobCancel tag payload s
  | .jobRead tag payload => Sys2Proof.Machine.execJobRead tag payload s
  | .jobClear tag payload => Sys2Proof.Machine.execJobClear tag payload s
  | .faultPop tag payload => Sys2Proof.Machine.execFaultPop tag payload s
  | .faultStatus tag payload => Sys2Proof.Machine.execFaultStatus tag payload s
  | .faultReset tag payload => Sys2Proof.Machine.execFaultReset tag payload s
  | .noticePop tag payload => Sys2Proof.Machine.execNoticePop tag payload s
  | .alertMask tag payload => Sys2Proof.Machine.execAlertMask tag payload s
  | .discardedCommandFrame bytes extraBits => Sys2Proof.Machine.execDiscardedCommandFrame bytes extraBits s
  | .commitCompletionTaken => Sys2Proof.Machine.execCommitCompletionTaken s
  | .switchCompletionTaken => Sys2Proof.Machine.execSwitchCompletionTaken s

end Sys2Proof.Machine
end

