-- ==== Sys2Proof/WellFormed.lean ====
section
/-! DEFINITION. Which commands the outside can really send. The meanings are total and do not need it. -/

namespace Sys2Proof

/-- The command code of 10 section 10.6.2, for the rows that are management commands. -/
def Instr.code : Instr → Option Byte
  | .identify _ _ => some 0x01
  | .statusRead _ _ => some 0x02
  | .linkCountersRead _ _ => some 0x03
  | .bridgeReset _ _ => some 0x04
  | .drainLimitSet _ _ => some 0x05
  | .mapRead _ _ => some 0x10
  | .hostCountersRead _ _ => some 0x18
  | .hostCountersClear _ _ => some 0x19
  | .stageRead _ _ => some 0x20
  | .stageWrite _ _ => some 0x21
  | .stageRemove _ _ => some 0x22
  | .stageLoad _ _ => some 0x23
  | .mapCommit _ _ => some 0x24
  | .laneConfig _ _ => some 0x30
  | .laneRead _ _ => some 0x31
  | .laneCountersClear _ _ => some 0x32
  | .arbiterConfig _ _ => some 0x33
  | .healthConfig _ _ => some 0x38
  | .laneSetOffline _ _ => some 0x39
  | .laneSetActive _ _ => some 0x3A
  | .laneRestore _ _ => some 0x3B
  | .jobSubmitRelocate _ _ => some 0x40
  | .jobSubmitAudit _ _ => some 0x41
  | .jobCancel _ _ => some 0x42
  | .jobRead _ _ => some 0x43
  | .jobClear _ _ => some 0x44
  | .faultPop _ _ => some 0x50
  | .faultStatus _ _ => some 0x51
  | .faultReset _ _ => some 0x52
  | .noticePop _ _ => some 0x53
  | .alertMask _ _ => some 0x54
  | .porstNAssert | .porstNDeassert _ | .srstNAssert | .srstNDeassert | .hostAccept _
  | .malformedWriteBeat _ | .responseTaken _ | .laneResponse _ _ _ _ | .creditWaitTimeout _ _
  | .responseTimeout _ _ | .legDropRequest _ | .quiesceTimeout _ | .entryDrainTimeout
  | .commitDrainTimeout | .switchTimerExpiry | .drainTick | .fetchFrame _ | .ignoreFrame _
  | .shortFrame _ | .unknownCommand _ _ _ | .discardedCommandFrame _ _ | .commitCompletionTaken
  | .switchCompletionTaken => none

/-- The command codes that name a command (10 section 10.6.2). -/
def knownCodes : List Byte :=
  [0x01, 0x02, 0x03, 0x04, 0x05, 0x10, 0x18, 0x19, 0x20, 0x21, 0x22, 0x23, 0x24, 0x30, 0x31, 0x32,
   0x33, 0x38, 0x39, 0x3A, 0x3B, 0x40, 0x41, 0x42, 0x43, 0x44, 0x50, 0x51, 0x52, 0x53, 0x54]

/-- A payload a sound frame can carry: n from 0 to 56 (10 section 10.2). -/
def payloadFits (payload : List Byte) : Bool := payload.length ≤ Config.payloadMax

/-- A command the outside can send as that row: a sound frame carries at most 56 payload bytes, an
unknown command's code names no command, a burst declares at least one beat (AXI: at most 256), a beat
row's write declares more than one, an ignored frame's first byte is neither marker (R163), and what is
left beyond the last whole byte is fewer than 8 bits. -/
def Instr.wellFormed : Instr → Bool
  | .hostAccept t => 1 ≤ t.beats && t.beats ≤ 256
  | .malformedWriteBeat b => 2 ≤ b.beats && b.beats ≤ 256
  | .ignoreFrame first => first != 0xC3 && first != 0x3C
  | .unknownCommand code _ payload => !(knownCodes.contains code) && payloadFits payload
  | .discardedCommandFrame _ extraBits => extraBits < 8
  | .identify _ p | .statusRead _ p | .linkCountersRead _ p | .bridgeReset _ p | .drainLimitSet _ p
  | .mapRead _ p | .hostCountersRead _ p | .hostCountersClear _ p | .stageRead _ p | .stageWrite _ p
  | .stageRemove _ p | .stageLoad _ p | .mapCommit _ p | .laneConfig _ p | .laneRead _ p
  | .laneCountersClear _ p | .arbiterConfig _ p | .healthConfig _ p | .laneSetOffline _ p
  | .laneSetActive _ p | .laneRestore _ p | .jobSubmitRelocate _ p | .jobSubmitAudit _ p
  | .jobCancel _ p | .jobRead _ p | .jobClear _ p | .faultPop _ p | .faultStatus _ p
  | .faultReset _ p | .noticePop _ p | .alertMask _ p => payloadFits p
  | .porstNAssert | .porstNDeassert _ | .srstNAssert | .srstNDeassert | .responseTaken _
  | .laneResponse _ _ _ _ | .creditWaitTimeout _ _ | .responseTimeout _ _ | .legDropRequest _
  | .quiesceTimeout _ | .entryDrainTimeout | .commitDrainTimeout | .switchTimerExpiry | .drainTick
  | .fetchFrame _ | .shortFrame _ | .commitCompletionTaken | .switchCompletionTaken => true

end Sys2Proof
end

