-- ==== Sys2Proof/Safety.lean ====
section
/-! DEFINITION. The laws of the spec that every state keeps, and the quiet states the statements speak of. -/

namespace Sys2Proof.Machine

open Sys2Proof

/-- The fault log's laws (R152, R158, R161): at most 32 records, an overflow count of at most 255, at most 16
notices, and ALERT_N at the level its condition gives. -/
def FaultLog.Wf (log : FaultLog) : Prop :=
  log.ring.length ≤ Config.ringSize ∧ log.overflow ≤ Config.overflowMax
    ∧ log.notices.length ≤ Config.noticeSize ∧ log.alert = alertCondition log

/-- A response as the link holds one (R164, R166): at most 56 payload bytes, and the check code of R164 over
the bytes from its command code to its last payload byte. -/
def Response.Sound (r : Response) : Prop :=
  r.payload.length ≤ Config.payloadMax ∧ r = mkResponse r.code r.tag r.status r.payload

/-- The link's laws (R165, R167, R171): at most 4 responses, each sound, and saturating counters. -/
def Link.Wf (l : Link) : Prop :=
  l.fifo.length ≤ Config.fifoSize ∧ (∀ r ∈ l.fifo, r.Sound) ∧ l.checkErrors ≤ Config.counterMax
    ∧ l.framingErrors ≤ Config.counterMax ∧ l.overruns ≤ Config.counterMax

/-- The six counters of a lane saturate (R67). -/
def LaneCounters.Wf (c : LaneCounters) : Prop :=
  c.readsIssued ≤ Config.counterMax ∧ c.writesIssued ≤ Config.counterMax ∧ c.readErrors ≤ Config.counterMax
    ∧ c.writeErrors ≤ Config.counterMax ∧ c.timeouts ≤ Config.counterMax
    ∧ c.lateResponses ≤ Config.counterMax

/-- A lane port's laws (R52, R54, R62, R67): at most 16 issued requests, a window below 16 whose engine
grants are among its grants, a reclaimed list within its bound, and saturating counters. -/
def LanePort.Wf (p : LanePort) : Prop :=
  p.outstanding.length ≤ Config.credits ∧ p.windowGrants < Config.windowSize
    ∧ p.windowEngine ≤ p.windowGrants ∧ p.reclaimed.length ≤ Config.reclaimedMax ∧ p.counters.Wf

/-- Every lane port keeps its laws. -/
def lanesWf (lanes : PerLane LanePort) : Prop := ∀ n : Lane, (lanes.get n).Wf

/-- The table's laws (R24, R26): at most 48 entries, each in its own slot of 0 to 47. -/
def InFlight.Wf (t : InFlight) : Prop :=
  t.entries.length ≤ Config.iftSlots ∧ (t.entries.map Entry.slot).Nodup
    ∧ ∀ e ∈ t.entries, e.slot < Config.iftSlots

/-- The health monitor's budgets and settings in their ranges (R140, R146). -/
def Health.Wf (h : Health) : Prop :=
  (∀ n : Lane, (h.lanes.get n).budget ≤ Config.budgetMax) ∧ 1 ≤ h.suspect ∧ h.suspect < h.retire
    ∧ h.retire ≤ Config.budgetMax ∧ 1 ≤ h.interval ∧ h.interval ≤ Config.microsMax

/-- The host port's counters and drain limit in their ranges (R36, R39). -/
def HostPort.Wf (p : HostPort) : Prop :=
  p.unmapped ≤ Config.counterMax ∧ p.malformed ≤ Config.counterMax ∧ p.readOnly ≤ Config.counterMax
    ∧ 1 ≤ p.drainLimit ∧ p.drainLimit ≤ Config.microsMax

/-- A lane's capacity and timeout in their ranges (R48). -/
def LanePort.Configured (p : LanePort) : Prop :=
  p.capacity ≤ Config.spanGranules ∧ 1 ≤ p.timeout ∧ p.timeout ≤ Config.microsMax

/-- Every setting software can make stays in its range (R36, R39, R48, R56, R140, R146). -/
def SettingsWf (s : State) : Prop :=
  s.health.Wf ∧ s.hp.Wf ∧ (∀ n : Lane, (s.lanes.get n).Configured) ∧ 1 ≤ s.engine.share
    ∧ s.engine.share < Config.windowSize

/-- The fixed sizes of the part (R1, R70, R89). -/
def SizesWf (s : State) : Prop :=
  s.mu.slots.length = Config.mapSlots ∧ s.mu.staging.length = Config.mapSlots
    ∧ s.engine.jobs.length = Config.jobSlots

/-- What an entry keeps from its acceptance until it leaves (R26): its slot, upstream ID, kind and host
line. -/
def Entry.identity (e : Entry) : Nat × Fin 16 × EntryKind × Nat := (e.slot, e.id, e.kind, e.line)

/-- The entries of the table in acceptance order, by what they keep (R24, R26). -/
def identities (s : State) : List (Nat × Fin 16 × EntryKind × Nat) := s.ift.entries.map Entry.identity

/-- What software configures, and no event of the bridge but PORST_N changes (R39, R48, R56, R70, R146,
R160). -/
structure Configuration where
  drainLimit : Nat
  share      : Nat
  suspect    : Nat
  retire     : Nat
  interval   : Nat
  capacity   : PerLane Nat
  timeout    : PerLane Nat
  mask       : BitVec 6
  staging    : List StageSlot
  deriving DecidableEq, Repr

/-- The configuration of a state. -/
def configuration (s : State) : Configuration :=
  { drainLimit := s.hp.drainLimit, share := s.engine.share, suspect := s.health.suspect
    retire := s.health.retire, interval := s.health.interval, capacity := s.lanes.map LanePort.capacity
    timeout := s.lanes.map LanePort.timeout, mask := s.log.mask, staging := s.mu.staging }

/-- The counters of a lane that count what went wrong (R67). -/
structure ErrorCounts where
  readErrors    : Nat
  writeErrors   : Nat
  timeouts      : Nat
  lateResponses : Nat
  deriving DecidableEq, Repr

/-- The error counters of a lane. -/
def errorCounts (s : State) (n : Lane) : ErrorCounts :=
  let c := (s.lanes.get n).counters
  { readErrors := c.readErrors, writeErrors := c.writeErrors, timeouts := c.timeouts
    lateResponses := c.lateResponses }

/-- The error budget of a lane (R140). -/
def budgetOf (s : State) (n : Lane) : Nat := (s.health.lanes.get n).budget

/-- A budget after a weight (R140). -/
def weighed (weight budget : Nat) : Nat := min Config.budgetMax (budget + weight)

/-- The state an evaluation gives a lane (R142): the first case that applies. -/
def evaluatedState (suspect retire budget : Nat) : LaneState → LaneState
  | .active =>
    if retire ≤ budget then .retired else if suspect ≤ budget then .suspect else .active
  | .suspect =>
    if retire ≤ budget then .retired else if 2 * budget < suspect then .active else .suspect
  | .retired => .retired
  | .offline => .offline

/-- No valid MIRROR descriptor has a leg on a RETIRED lane (R17, R145), and no leg of a draining commit that
is not stale lies on one (R86). -/
def RetiredClear (s : State) : Prop :=
  (∀ (i : Nat) (d : Descriptor), descOf s.mu.slots i = some d → d.body.legB ≠ none →
    ∀ leg ∈ d.body.legs, (s.health.lanes.get leg.lane).state ≠ .retired)
  ∧ (∀ c : CommitDrain, s.mu.commit.drain = some c → c.stale = false → ∀ m ∈ c.members, ∀ b : Body,
    m.body = some b → ∀ leg ∈ b.legs, (s.health.lanes.get leg.lane).state ≠ .retired)

/-- Whether a job is RUNNING (R89). -/
def Job.isRunning (j : Job) : Bool :=
  match j.life with
  | .queued => false
  | .running _ => true
  | .finished _ => false

/-- The copy engine's laws. The one RUNNING slot is the one the running handle names, and the job queue lists
exactly the QUEUED slots, each once (R91). The running job's cursor is at most its block count (R90). A
block step stands on the block at the running job's cursor, below its block count, with that block locked; no
block is locked without one (R110). -/
def Engine.Wf (e : Engine) : Prop :=
  (∀ h : Nat, e.running = some h ↔ (jobOf e h).any Job.isRunning = true)
    ∧ (∀ (h : Nat) (j : Job), runningJob e = some (h, j) → j.cursor ≤ j.blockCount)
    ∧ e.queue.Nodup ∧ (∀ h : Nat, h ∈ e.queue ↔ (jobOf e h).any Job.isQueued = true)
    ∧ match e.blockStep with
      | none => e.lock = none
      | some st => ∃ h j, runningJob e = some (h, j) ∧ j.cursor < j.blockCount ∧ st.block = j.cursor
          ∧ e.lock = some { region := j.region, block := j.cursor }

/-- The region of a QUEUED or RUNNING job is valid, its job field names the job, and its length in blocks is
the job's block count (R19, R90); a job field names a QUEUED or RUNNING job of its region (R19), so that a
region is named by at most one (R91); and no member of a draining commit set has a job (R79, R82). -/
def JobFieldsWf (s : State) : Prop :=
  (∀ (h : Nat) (j : Job), jobOf s.engine h = some j → j.life.live = true →
    ∃ d, descOf s.mu.slots j.region = some d ∧ d.job = some h ∧ j.blockCount = 512 * d.body.length)
  ∧ (∀ (i h : Nat) (d : Descriptor), descOf s.mu.slots i = some d → d.job = some h →
    ∃ j, jobOf s.engine h = some j ∧ j.life.live = true ∧ j.region = i)
  ∧ (∀ c : CommitDrain, s.mu.commit.drain = some c → ∀ m ∈ c.members,
    (descOf s.mu.slots m.slot).bind Descriptor.job = none)

/-- A lane with nothing waiting and no quiesce in progress. -/
def LanePort.Settled (p : LanePort) : Prop := p.waiting = [] ∧ p.quiesce = none

/-- The command code, tag and payload of a row that is a sound command frame (10 section 10.2); no other row
is one. -/
def frameOf : Instr → Option (Byte × Byte × List Byte)
  | .identify tag payload => some (0x01, tag, payload)
  | .statusRead tag payload => some (0x02, tag, payload)
  | .linkCountersRead tag payload => some (0x03, tag, payload)
  | .bridgeReset tag payload => some (0x04, tag, payload)
  | .drainLimitSet tag payload => some (0x05, tag, payload)
  | .mapRead tag payload => some (0x10, tag, payload)
  | .hostCountersRead tag payload => some (0x18, tag, payload)
  | .hostCountersClear tag payload => some (0x19, tag, payload)
  | .stageRead tag payload => some (0x20, tag, payload)
  | .stageWrite tag payload => some (0x21, tag, payload)
  | .stageRemove tag payload => some (0x22, tag, payload)
  | .stageLoad tag payload => some (0x23, tag, payload)
  | .mapCommit tag payload => some (0x24, tag, payload)
  | .laneConfig tag payload => some (0x30, tag, payload)
  | .laneRead tag payload => some (0x31, tag, payload)
  | .laneCountersClear tag payload => some (0x32, tag, payload)
  | .arbiterConfig tag payload => some (0x33, tag, payload)
  | .healthConfig tag payload => some (0x38, tag, payload)
  | .laneSetOffline tag payload => some (0x39, tag, payload)
  | .laneSetActive tag payload => some (0x3A, tag, payload)
  | .laneRestore tag payload => some (0x3B, tag, payload)
  | .jobSubmitRelocate tag payload => some (0x40, tag, payload)
  | .jobSubmitAudit tag payload => some (0x41, tag, payload)
  | .jobCancel tag payload => some (0x42, tag, payload)
  | .jobRead tag payload => some (0x43, tag, payload)
  | .jobClear tag payload => some (0x44, tag, payload)
  | .faultPop tag payload => some (0x50, tag, payload)
  | .faultStatus tag payload => some (0x51, tag, payload)
  | .faultReset tag payload => some (0x52, tag, payload)
  | .noticePop tag payload => some (0x53, tag, payload)
  | .alertMask tag payload => some (0x54, tag, payload)
  | .unknownCommand code tag payload => some (code, tag, payload)
  | .porstNAssert | .porstNDeassert _ | .srstNAssert | .srstNDeassert | .hostAccept _
  | .malformedWriteBeat _ | .responseTaken _ | .laneResponse _ _ _ _ | .creditWaitTimeout _ _
  | .responseTimeout _ _ | .legDropRequest _ | .quiesceTimeout _ | .entryDrainTimeout
  | .commitDrainTimeout | .switchTimerExpiry | .drainTick | .fetchFrame _ | .ignoreFrame _
  | .shortFrame _ | .discardedCommandFrame _ _ | .commitCompletionTaken | .switchCompletionTaken => none

/-- The payload lengths of a command (10 section 10.6.2). -/
def payloadLengths (code : Byte) : List Nat :=
  if code ∈ ([0x05] : List Byte) then [0, 2]
  else if code ∈ ([0x33, 0x54] : List Byte) then [0, 1]
  else if code ∈ ([0x38] : List Byte) then [0, 6]
  else if code ∈ ([0x10, 0x20, 0x31, 0x32, 0x39, 0x3A, 0x3B, 0x42, 0x43, 0x44] : List Byte) then [1]
  else if code ∈ ([0x21] : List Byte) then [20]
  else if code ∈ ([0x22] : List Byte) then [3]
  else if code ∈ ([0x30] : List Byte) then [6]
  else if code ∈ ([0x40] : List Byte) then [12]
  else if code ∈ ([0x41] : List Byte) then [2]
  else [0]

/-- A quiet state: powered, in OPEN, the table empty, no commit draining, nothing waiting at a lane. What an
event leaves to its close has nothing to do in it. -/
def Quiet (s : State) : Prop :=
  s.porst = false ∧ s.hp.seq = .opened ∧ s.ift.entries = [] ∧ s.mu.commit.drain = none
    ∧ ∀ n : Lane, (s.lanes.get n).Settled

/-- A state in which the command executor takes a sound frame: powered, with room in the response FIFO (R163,
R165). -/
def LinkReady (s : State) : Prop := s.porst = false ∧ s.link.fifo.length < Config.fifoSize

/-- The state with a command's response appended (R164, R166): what a frame-end event does to the link. MISO
drove 0x00 throughout the frame (R163). -/
def answered (code tag : Byte) (status : Status) (payload : List Byte) (s : State) : State :=
  { s with link := { s.link with
      framing := .idle, fifo := s.link.fifo ++ [mkResponse code tag status payload], miso := [] } }

/-- A state with one entry in the table, whose outcome is not known, and nothing else in progress: powered, in
OPEN, no commit draining, nothing waiting at a lane. -/
def LoneEntry (s : State) (e : Entry) : Prop :=
  s.porst = false ∧ s.hp.seq = .opened ∧ s.ift.entries = [e] ∧ e.code = none ∧ s.mu.commit.drain = none
    ∧ ∀ n : Lane, (s.lanes.get n).Settled

/-- A state whose one entry is answered: its channel presents it, unless it presents another (R35). -/
def answering (e : Entry) (s : State) : State :=
  { s with
    ift.entries := [e]
    hp :=
      match e.dir with
      | .read => { s.hp with readChan := s.hp.readChan <|> some e.slot }
      | .write => { s.hp with writeChan := s.hp.writeChan <|> some e.slot } }

/-- A request that waits at a lane, or is OUTSTANDING there (R51). -/
def LanePort.Has (p : LanePort) (r : Request) : Prop :=
  (∃ w ∈ p.waiting, w.req = r) ∨ ∃ o ∈ p.outstanding, o.req = r ∧ o.timer.isSome = true

/-- A lane that takes a request behind those it holds (R51, R52, R54): with a credit free it is issued with
the next number, its response timer at the lane timeout, and counted; with none it waits, its credit-wait
timer at the lane timeout. -/
def LanePort.taking (p : LanePort) (r : Request) : LanePort :=
  if p.outstanding.length < Config.credits then
    { p with
      outstanding := p.outstanding ++ [{ req := r, number := freshNumber p, timer := some p.timeout }]
      nextNumber := freshNumber p + 1
      counters :=
        match r.kind with
        | .read => { p.counters with readsIssued := bump p.counters.readsIssued }
        | .write _ _ => { p.counters with writesIssued := bump p.counters.writesIssued } }
  else { p with waiting := p.waiting ++ [{ req := r, timer := p.timeout }] }

/-- An OUTSTANDING request of a lane, found by its number, that is the copy engine's part of line i. -/
def EngineRequest (s : State) (lane : Lane) (number : Count16) (o : Outstanding) (part : EnginePart) (i : Nat) :
    Prop :=
  (s.lanes.get lane).outstanding.find? (fun x => x.number == number) = some o ∧ o.timer.isSome = true
    ∧ o.req.requester = .engine part i

/-- A command by which a request of a lane that is the copy engine's part of line i fails, with the record and the
weight of the lane error it is: an SLVERR or DECERR answer to it while it is OUTSTANDING (R58), the expiry of its
response timer, its number no other request's (R59), or the expiry of its credit-wait timer (R57). -/
def EngineFailure (c : Instr) (s : State) (lane : Lane) (part : EnginePart) (i : Nat) (req : Request)
    (kind : FaultKind) (weight : Nat) : Prop :=
  req.requester = .engine part i
  ∧ ((∃ number resp data o, c = .laneResponse lane number resp data ∧ (resp = .slverr ∨ resp = .decerr)
      ∧ EngineRequest s lane number o part i ∧ o.req = req
      ∧ ((req.kind = .read ∧ kind = .laneReadError ∧ weight = 64)
        ∨ (req.kind ≠ .read ∧ kind = .laneWriteError ∧ weight = 128)))
    ∨ (∃ number o, c = .responseTimeout lane number ∧ EngineRequest s lane number o part i ∧ o.req = req
      ∧ ((s.lanes.get lane).outstanding.map Outstanding.number).Nodup ∧ kind = .laneTimeout ∧ weight = 256)
    ∨ (∃ place w, c = .creditWaitTimeout lane place ∧ (s.lanes.get lane).waiting[place]? = some w
      ∧ w.req = req ∧ kind = .laneTimeout ∧ weight = 256))

/-- An entry w stands in a state as w', issued with a lookup result: a READ to the leg its read preference puts
first (R6), a WRITE to every current leg and to the shadow legs given (R32, R109), each request waiting or
OUTSTANDING at its lane, ISSUING while one waits. -/
def Issued (t : State) (w w' : Entry) (l : Lookup) (shadows : List Leg) : Prop :=
  let use := fun (pos : LegPos) (leg : Leg) =>
    ({ pos := pos, leg := leg, line := leg.base * 32768 + l.offset, outcome := none } : LegUse)
  let asks := fun (lane : Lane) (line : Nat) (part : HostPart) =>
    (t.lanes.get lane).Has { kind := w.reqKind, line := line, requester := .host w.slot part }
  w'.identity = w.identity ∧ w'.code = none ∧ w'.lookup = some l
  ∧ w'.legs =
      (match w.dir, l.legB, l.pref with
        | .write, b, _ => use .a l.legA :: (b.map (use .b)).toList
        | .read, none, _ => [use .a l.legA]
        | .read, some _, .aFirst => [use .a l.legA]
        | .read, some b, .bFirst => [use .b b]
        | .read, some b, .split => if l.offset / 64 % 2 = 0 then [use .a l.legA] else [use .b b])
  ∧ w'.shadows =
      (match w.dir with
        | .read => []
        | .write => shadows.map fun leg =>
            { leg := leg, line := leg.base * 32768 + l.offset, outcome := none })
  ∧ (∀ u ∈ w'.legs, asks u.leg.lane u.line (.current u.pos))
  ∧ (∀ i u, w'.shadows[i]? = some u → asks u.leg.lane u.line (.shadow i))
  ∧ w'.phase = if slotWaits t.lanes w.slot then .issuing else .issued

/-- A powered state in OPEN, no commit stale, whose running job is in TRANSFER of a block step and does not
stop. -/
def Transferring (s : State) (h : Nat) (j : Job) (st : BlockStep) : Prop :=
  s.porst = false ∧ s.hp.seq = .opened ∧ (s.mu.commit.drain.any fun c => c.stale) = false
    ∧ runningJob s.engine = some (h, j) ∧ s.engine.blockStep = some st ∧ st.stage = .transfer
    ∧ s.engine.stopping = false

/-- A command answers a next state in which line i of the running block step is l, the running job's record is
j, the fault log is as given, and each request asked waits at its lane or is OUTSTANDING there; the job still
runs with its lock, and the map and the entries are as they were. -/
def StepAnswer (c : Instr) (s : State) (h : Nat) (st : BlockStep) (i : Nat) (l : LineState) (j : Job)
    (log : FaultLog) (asked : List (Lane × Request)) : Prop :=
  ∃ t, exec c s = .next t
    ∧ t.engine.blockStep = some { st with lines := st.lines.set i l } ∧ jobOf t.engine h = some j
    ∧ t.engine.running = some h ∧ t.engine.lock = s.engine.lock ∧ t.log = log ∧ t.mu = s.mu
    ∧ identities t = identities s ∧ ∀ q ∈ asked, (t.lanes.get q.1).Has q.2

/-- The running job with a stop request recorded, unless it has one (R98). -/
def Job.stopped (j : Job) (stop : Option Stop) (r : Stop) : Job :=
  { j with life := .running (some (stop.getD r)) }

/-- What the OK answer of a line's last request makes of the line (R114, R119, R133): in COPY a shadow write's,
in VERIFY the read of a shadow leg that equals the source, in SCAN a leg B read that equals leg A's. -/
def lastOutcome (j : Job) (part : EnginePart) (l : LineState) (data : LineData) : Option LineState :=
  match j.phase, part with
  | some .copy, .shadowWrite k => some { l with sides := l.sides.set k { state := .ok, data := none } }
  | some .verify, .verifyRead k =>
    if l.readA = .ok ∧ l.data = some data ∧ k < j.work.shadows.length then
      some { l with sides := l.sides.set k { state := .ok, data := some data } }
    else none
  | some .scan, .auditB =>
    if l.data = some data then some { l with readB := .ok, comparison := .equal, finished := true } else none
  | _, _ => none

/-- A lane that a weight of a lane error leaves ACTIVE (R142). -/
def StaysActive (s : State) (n : Lane) (weight : Nat) : Prop :=
  (s.health.lanes.get n).state = .active ∧ weighed weight (budgetOf s n) < s.health.suspect
    ∧ weighed weight (budgetOf s n) < s.health.retire

/-- An outcome of an engine request on line i of the running job's block after which the engine asks nothing more of
the line: it leaves the line as l', the job's record as j' and the fault log as given. It is an OK answer to a
shadow write in COPY (R114), to a source read or verify read in VERIFY, compared where both stand, several legs in
recorded order (R119, R120, log entry 30), to
a leg A read in SCAN with a stop request or no leg B (R132), to a leg B read that repairs nothing (R133), or to a
repair write (R134); or it is a failure, on a lane that stays ACTIVE, of a source read with no leg left to try
(R113), of a shadow write (R118), of a verify read (R119), of a read of an audit (R135) or of a repair write. -/
def LastOutcome (c : Instr) (s : State) (h : Nat) (j : Job) (d : Descriptor) (block i : Nat) (l l' : LineState)
    (j' : Job) (log : FaultLog) : Prop :=
  let offset := 64 * block + i
  let record := fun (kind : FaultKind) (n : Lane) (line : Nat) (log : FaultLog) =>
    takeRecord s.mu.generation
      { kind := kind, lane := some n, region := some j.region
        hostLine := some (d.body.base * 32768 + offset), laneLine := some line, job := some h }
      log
  let raised := fun (reason : Reason) (n : Lane) (line : Nat) =>
    j.stopped j.stop (.failed reason (some { lane := n, line := line }))
  let side := fun (k : Nat) (x : SideState) => { l with sides := l.sides.set k x }
  let shadowLine := fun leg : Leg => leg.base * 32768 + offset
  let more := fun n : Nat => if n < 65535 then n + 1 else n
  (∃ lane number resp data o part, c = .laneResponse lane number resp data ∧ (resp = .okay ∨ resp = .exokay)
    ∧ EngineRequest s lane number o part i
    ∧ (match part with
      | .source => j.phase = some .verify ∧ l' = { l with data := some data, readA := .ok }
          ∧ (let differ := (j.work.shadows.zip l.sides).filterMap fun x =>
              x.2.data.bind fun copy => if data = copy then none else some x.1
            j' = (match differ with
              | [] => j
              | leg :: _ => raised .verifyMismatch leg.lane (shadowLine leg))
            ∧ log = differ.foldl (fun log leg => record .verifyMismatch leg.lane (shadowLine leg) log) s.log)
      | .shadowWrite k => j.phase = some .copy ∧ l' = side k { state := .ok, data := none } ∧ j' = j ∧ log = s.log
      | .verifyRead k => ∃ leg, j.phase = some .verify ∧ j.work.shadows[k]? = some leg
          ∧ l' = side k { state := .ok, data := some data }
          ∧ (((l.readA = .ok → l.data = some data) ∧ j' = j ∧ log = s.log)
            ∨ (∃ source, l.readA = .ok ∧ l.data = some source ∧ source ≠ data
              ∧ j' = raised .verifyMismatch leg.lane (shadowLine leg)
              ∧ log = record .verifyMismatch leg.lane (shadowLine leg) s.log))
      | .auditA => j.phase = some .scan ∧ (j.stop ≠ none ∨ d.body.legB = none)
          ∧ l' = { l with data := some data, readA := .ok, finished := true } ∧ j' = j ∧ log = s.log
      | .auditB => ∃ source repair mismatches repaired, j.phase = some .scan ∧ l.data = some source
          ∧ j.work = .audit repair mismatches repaired
          ∧ ((source = data ∧ l' = { l with readB := .ok, comparison := .equal, finished := true } ∧ j' = j
              ∧ log = s.log)
            ∨ (source ≠ data ∧ (repair = false ∨ j.stop ≠ none)
              ∧ l' = { l with readB := .ok, comparison := .different, finished := true }
              ∧ j' = { j with work := .audit repair (more mismatches) repaired }
              ∧ log = record .auditMismatch lane o.req.line s.log))
      | .repair => ∃ repair mismatches repaired, j.phase = some .scan
          ∧ j.work = .audit repair mismatches repaired ∧ l' = { l with repair := .ok, finished := true }
          ∧ j' = { j with work := .audit repair mismatches (more repaired) }
          ∧ log = record .auditRepaired lane o.req.line s.log))
  ∨ (∃ lane part req kind weight, EngineFailure c s lane part i req kind weight ∧ StaysActive s lane weight
    ∧ (let error := takeRecord s.mu.generation
        { kind := kind, lane := some lane, region := some j.region, laneLine := some req.line, job := some h } s.log
      match part with
      | .source => j.phase ≠ some .scan ∧ d.body.legs.find? (fun x => !l.tried.contains x) = none
          ∧ l' = { l with readA := .failed } ∧ j' = raised .sourceRead lane req.line
          ∧ log = record .copySourceFailed lane req.line error
      | .shadowWrite k => ∃ target keptA keptB verify, j.phase = some .copy
          ∧ j.work = .relocate target keptA keptB verify ∧ l' = side k { state := .failed, data := none }
          ∧ j' = raised .shadowWrite lane req.line ∧ log = record .shadowWriteFailed lane req.line error
      | .verifyRead k => j.phase = some .verify ∧ l' = side k { state := .failed, data := none }
          ∧ j' = raised .verifyRead lane req.line ∧ log = error
      | .auditA => j.phase = some .scan ∧ l' = { l with readA := .failed, finished := true }
          ∧ j' = raised .legRead lane req.line ∧ log = error
      | .auditB => j.phase = some .scan ∧ l' = { l with readB := .failed, finished := true }
          ∧ j' = raised .legRead lane req.line ∧ log = error
      | .repair => j.phase = some .scan ∧ l' = { l with repair := .failed, finished := true } ∧ j' = j
          ∧ log = error))

/-! ### What follows a job (R96, R97, R101, R122, R123) -/

/-- The region whose relocation, at the head of a queue, starts in SWITCH (R97, R125). -/
def SwitchHead (s : State) (queue : List Nat) (region : Nat) : Prop :=
  ∃ k i, queue.head? = some k ∧ jobOf s.engine k = some i ∧ i.region = region ∧ firstPhase i.work = .switch

/-- The bodies and revisions of the active map are those of a state before, except at the slots named. -/
def KeepsMap (s t : State) (except : Nat → Prop) : Prop :=
  ∀ i, ¬except i → (descOf t.mu.slots i).map Descriptor.body = (descOf s.mu.slots i).map Descriptor.body
    ∧ revisionOf t.mu.slots i = revisionOf s.mu.slots i

/-- A queue from which at most its head is taken when the jobs `gone` finish: it is empty, or its head is another
job that passes its start checks and, when that starts in SWITCH, is of none of the regions given, with an entry of
the table in its region's host range or with no job behind it. -/
def QueueReady (s : State) (queue gone regions : List Nat) : Prop :=
  queue = [] ∨ ∃ k i rest, queue = k :: rest ∧ k ∉ gone ∧ jobOf s.engine k = some i ∧ startCheck i s = none
    ∧ (firstPhase i.work = .switch → i.region ∉ regions
      ∧ ∀ d, descOf s.mu.slots i.region = some d →
        rest = [] ∨ ∃ e ∈ s.ift.entries, inRanges [d.body.range] e.line = true)

/-- No job runs and none is queued: nothing is locked, no switch drain is open, the generation is as given, and, in
OPEN, the log. -/
def NoneRuns (s t : State) (generation : Count16) (log : FaultLog) : Prop :=
  t.engine.running = none ∧ t.engine.queue = [] ∧ t.engine.lock = none ∧ t.engine.blockStep = none
    ∧ t.engine.switchTimer = none ∧ t.ift.switchSpan = none ∧ t.mu.generation = generation
    ∧ (s.hp.seq = .opened → t.log = log)

/-- What the entry to SWITCH of a job leaves (R122, R123, R18), its record j, its region's slot m with descriptor d,
the generation and the log those before the entry. With an entry of the table in the region's host range, the drain
is open and counts those entries. With none, completion is taken in the same event: the target is installed and the
job finishes DONE, or the installation is refused and it finishes FAILED; `after` is what follows. -/
def EntersSwitch (s t : State) (h : Nat) (j : Job) (m : MapSlot) (d : Descriptor) (queue : List Nat)
    (generation : Count16) (log : FaultLog) (after : Count16 → FaultLog → Prop) : Prop :=
  let counted := s.ift.entries.filter fun e => inRanges [d.body.range] e.line
  let rests := { d with job := if d.job = some h then none else d.job }
  ((∃ e ∈ s.ift.entries, inRanges [d.body.range] e.line = true) →
    t.engine.running = some h ∧ t.engine.queue = queue ∧ jobOf t.engine h = some j
    ∧ t.engine.lock = none ∧ t.engine.blockStep = none ∧ t.engine.switchTimer = some s.hp.drainLimit
    ∧ t.ift.switchSpan = some { ranges := [d.body.range], counted := counted.map Entry.slot }
    ∧ t.mu.slots[j.region]? = some m ∧ t.mu.generation = generation ∧ (s.hp.seq = .opened → t.log = log))
  ∧ ((∀ e ∈ s.ift.entries, inRanges [d.body.range] e.line = false) →
    ∀ target keptA keptB verify, j.work = .relocate target keptA keptB verify →
    let kept := ∀ leg ∈ j.work.kept, leg ∈ d.body.legs
    let retired := target.legB ≠ none
      ∧ ∃ leg ∈ target.legs, (s.health.lanes.get leg.lane).state = .retired
    let finishes := fun (outcome : JobOutcome) (slot : MapSlot) (generation : Count16) =>
      jobOf t.engine h = some { j with life := .finished outcome } ∧ t.mu.slots[j.region]? = some slot
      ∧ after generation (takeNotice generation (.jobFinished h outcome.kind) log)
    (¬kept → finishes (.failed .targetLegLost none) { m with desc := some rests } generation)
    ∧ (kept → retired → finishes (.failed .targetRetired none) { m with desc := some rests } generation)
    ∧ (kept → ¬retired → finishes .done
        { desc := some { rests with
            body := { d.body with legA := target.legA, legB := target.legB, pref := target.pref }
            degraded := false }
          revision := m.revision + 1 }
        (generation + 1)))

/-- What follows when the running job has finished with a queue behind it (R96, R97): nothing runs when the queue is
empty; otherwise its head has left it and runs in its first phase at cursor 0, or, when it has no shadow leg, has
entered SWITCH. -/
def NextRuns (s t : State) (queue : List Nat) (generation : Count16) (log : FaultLog) : Prop :=
  match queue with
  | [] => NoneRuns s t generation log
  | k :: rest => ∀ i, jobOf s.engine k = some i →
    let started := { i with life := .running none, phase := some (firstPhase i.work), cursor := 0 }
    (firstPhase i.work ≠ .switch →
      t.engine.running = some k ∧ t.engine.queue = rest ∧ jobOf t.engine k = some started
      ∧ t.engine.switchTimer = none ∧ t.ift.switchSpan = none ∧ t.mu.generation = generation
      ∧ (s.hp.seq = .opened → t.log = log))
    ∧ (firstPhase i.work = .switch → ∀ m d, s.mu.slots[i.region]? = some m → m.desc = some d →
      EntersSwitch s t k started m d rest generation log (NoneRuns s t))

end Sys2Proof.Machine
end

