-- ==== Sys2Proof/Certificates/Slice0/Obligations.lean ====
section
/-! DEFINITION. The statements for the provers. A clause that rests on a choice of the model names its log entry. -/

open Sys2Proof Sys2Proof.Machine

/-- A step carries out the command at the front of the queue (95_what_each_step_holds.md). For every command c,
queue rest q and state s: step of s with the queue c followed by q is exec of c on s with the queue q. -/
def Obligations.StepTakesTheFrontCommand : Prop :=
  ∀ (c : Instr) (q : List Instr) (s : State),
    step { s with pending := c :: q } = exec c { s with pending := q }

/-- On an empty queue a microsecond passes (the model's choice, log entry 3) (00_scope.md section 1.6). For every
state with nothing waiting, a step answers a next state. While PORST_N is asserted it is the same state.
Otherwise every running timer has counted down by one (entry drain, commit drain, switch, drain timer, and at
each lane the credit-wait, response and quiesce timers), and the pins, the entries, the map, the lane states
and budgets, the fault log, the link and the job slots are as they were. That the time passes on an empty
queue is the DESIGN CHOICE of log entry 3. -/
def Obligations.EmptyQueueLetsAMicrosecondPass : Prop :=
  ∀ s : State, s.pending = [] → ∃ t, step s = .next t
    ∧ (s.porst = true → t = s)
    ∧ (s.porst = false →
        t.hp.entryTimer = s.hp.entryTimer.map (fun n => n - 1)
        ∧ t.engine.switchTimer = s.engine.switchTimer.map (fun n => n - 1)
        ∧ t.health.drainTimer = s.health.drainTimer.map (fun n => n - 1)
        ∧ t.mu.commit.drain = s.mu.commit.drain.map (fun d => { d with timer := d.timer - 1 })
        ∧ (∀ n : Lane,
            (t.lanes.get n).quiesce = (s.lanes.get n).quiesce.map (fun k => k - 1)
            ∧ (t.lanes.get n).waiting
                = (s.lanes.get n).waiting.map (fun w => { w with timer := w.timer - 1 })
            ∧ (t.lanes.get n).outstanding
                = (s.lanes.get n).outstanding.map
                    (fun o => { o with timer := o.timer.map (fun k => k - 1) })
            ∧ (t.lanes.get n).counters = (s.lanes.get n).counters
            ∧ (t.lanes.get n).reclaimed = (s.lanes.get n).reclaimed)
        ∧ t.ift = s.ift ∧ t.mu.slots = s.mu.slots ∧ t.mu.generation = s.mu.generation
        ∧ t.mu.staging = s.mu.staging ∧ t.mu.drops = s.mu.drops ∧ t.engine.jobs = s.engine.jobs
        ∧ t.engine.queue = s.engine.queue ∧ t.health.lanes = s.health.lanes ∧ t.log = s.log
        ∧ t.link = s.link ∧ t.porst = s.porst ∧ t.srst = s.srst ∧ t.strap = s.strap ∧ t.pending = [])

/-- Every command completes, leaves the queue alone, and moves no pin but its own (log entries 2 and 15)
(00_scope.md section 1.7, 01_the_region_map.md section 1.10, 95_what_each_step_holds.md). For every command
and state, exec answers a next state. The queue of waiting commands is unchanged. The latched strap changes
only at PORST_N_DEASSERT, the level of PORST_N only at its two commands, and the level of SRST_N only at its
two commands. That a command whose event cannot happen in a state completes there and changes nothing is the
DESIGN CHOICE of log entry 2, and that a command other than those of the pins changes nothing while PORST_N is
asserted that of log entry 15. -/
def Obligations.EveryCommandCompletesAndKeepsPinsAndQueue : Prop :=
  ∀ (c : Instr) (s : State), ∃ t, exec c s = .next t
    ∧ t.pending = s.pending
    ∧ ((∀ v, c ≠ .porstNDeassert v) → t.strap = s.strap)
    ∧ (c ≠ .porstNAssert → (∀ v, c ≠ .porstNDeassert v) → t.porst = s.porst)
    ∧ (c ≠ .srstNAssert → c ≠ .srstNDeassert → t.srst = s.srst)

/-- The laws of the bridge hold right after reset (01_the_region_map.md sections 1.1, 1.7 and 1.9,
02_host_port_and_in_flight_table.md section 2.6, 03_lane_ports.md section 3.9, 04_staging_and_commit.md
section 4.1, 05_jobs_and_the_copy_engine.md sections 5.1 and 5.2, 08_lane_health_and_retirement.md section
8.5, 09_fault_records_notices_and_the_alert_line.md section 9.6, 10_the_management_link.md section 10.5). The
state right after reset keeps the laws of the fault log, the link, the lane ports and the in-flight table; its
settings are in their ranges and its sizes are those of the part; no MIRROR leg and no leg of a draining
commit lies on a RETIRED lane; the copy engine keeps its laws (the running handle and the queue name exactly
the RUNNING and the QUEUED job slots, each once, the cursor is in range, no block is locked without a block
step); and job fields and live jobs name each other. The strap value of that state is the DESIGN CHOICE of log
entry 1. -/
def Obligations.LawsHoldAtReset : Prop :=
  State.reset.log.Wf ∧ State.reset.link.Wf ∧ lanesWf State.reset.lanes ∧ State.reset.ift.Wf
    ∧ SettingsWf State.reset ∧ SizesWf State.reset ∧ RetiredClear State.reset ∧ State.reset.engine.Wf
    ∧ JobFieldsWf State.reset

/-- PORST_N asserted returns every block, field by field, to its power-on values; the strap is kept
(01_the_region_map.md sections 1.5 and 1.10, 02_host_port_and_in_flight_table.md section 2.6, 03_lane_ports.md
section 3.9, 04_staging_and_commit.md sections 4.1 and 4.3, 05_jobs_and_the_copy_engine.md section 5.8,
08_lane_health_and_retirement.md section 8.5, 09_fault_records_notices_and_the_alert_line.md section 9.6,
10_the_management_link.md sections 10.2 and 10.5). From every state PORST_N_ASSERT answers a next state in
which the pin is asserted, the level of SRST_N, the strap and the queue are kept, and every field of every
block holds its power-on value. Each lane port has no request, the next request number 0, timeout 2,000, an
empty reclaimed list, a cleared window and counters, and no quiesce. Slot 0 and staging slot 0 hold the
bring-up region of the kept strap (none for straps 6 and 7), every other slot of both maps is invalid, all
revisions are 0, and lane L0 has that region's capacity and is ACTIVE; the other lanes have capacity 0 and are
OFFLINE. The host port, the in-flight table, the commit record, the leg drop requests, the copy engine, the
health monitor (its drain timer stopped), the fault log and the link are as after power-on; the link begins no
frame. That the blocks hold these values, the maps and lanes those of the kept strap, while the pin stays
asserted is log entry 15. -/
def Obligations.PorstAssertRestoresPowerOnValues : Prop :=
  ∀ s : State,
    let bringUp : Option Body :=
      if s.strap.toNat < 6 then some
        { base := 0, length := 4096 * 2 ^ s.strap.toNat, legA := { lane := .l0, base := 0 }, legB := none
          pref := .aFirst, access := .readWrite }
      else none
    ∃ t, exec .porstNAssert s = .next t
    ∧ t.porst = true ∧ t.srst = s.srst ∧ t.strap = s.strap ∧ t.pending = s.pending
    ∧ t.hp = { seq := .opened, warmSeen := false, entryTimer := none, unmapped := 0, malformed := 0
               readOnly := 0, drainLimit := 10000, readChan := none, writeChan := none, writeBeats := 0 }
    ∧ (∀ n : Lane, t.lanes.get n =
        { capacity := if n = .l0 ∧ s.strap.toNat < 6 then 4096 * 2 ^ s.strap.toNat else 0
          timeout := 2000, waiting := [], outstanding := [], nextNumber := 0, windowGrants := 0
          windowEngine := 0, reclaimed := [], quiesce := none
          counters := { readsIssued := 0, writesIssued := 0, readErrors := 0, writeErrors := 0
                        timeouts := 0, lateResponses := 0 } })
    ∧ t.mu.slots[0]? = some
        { desc := bringUp.map fun b => { body := b, degraded := false, job := none }, revision := 0 }
    ∧ t.mu.staging[0]? = some { body := bringUp, basedOn := 0 }
    ∧ (∀ i, 1 ≤ i → i < 64 →
        t.mu.slots[i]? = some { desc := none, revision := 0 }
        ∧ t.mu.staging[i]? = some { body := none, basedOn := 0 })
    ∧ t.mu.slots.length = 64 ∧ t.mu.staging.length = 64
    ∧ t.mu.generation = 0 ∧ t.mu.commit = { drain := none, last := .none } ∧ t.mu.drops = []
    ∧ t.ift = { entries := [], commitSpan := none, switchSpan := none }
    ∧ t.engine = { jobs := List.replicate 8 none, queue := [], running := none, lock := none
                   blockStep := none, stopping := false, switchTimer := none, share := 4 }
    ∧ (∀ n : Lane, t.health.lanes.get n =
        { budget := 0, state := if n = .l0 ∧ s.strap.toNat < 6 then .active else .offline })
    ∧ t.health.suspect = 1024 ∧ t.health.retire = 3072 ∧ t.health.interval = 100
    ∧ t.log = { ring := [], overflow := 0, nextSeq := 0, notices := [], lost := false, mask := 0x3F
                alert := false }
    ∧ t.health.drainTimer = none
    ∧ t.link = { framing := .unframed, fifo := [], checkErrors := 0, framingErrors := 0, overruns := 0
                 miso := [] }

/-- PORST_N deasserted latches the strap and brings every block up at its power-on values (01_the_region_map.md
section 1.10, 02_host_port_and_in_flight_table.md section 2.6, 03_lane_ports.md section 3.9,
04_staging_and_commit.md section 4.1, 05_jobs_and_the_copy_engine.md section 5.8,
08_lane_health_and_retirement.md section 8.5, 09_fault_records_notices_and_the_alert_line.md section 9.6,
10_the_management_link.md sections 10.2 and 10.5). From every state with PORST_N asserted, PORST_N_DEASSERT
with a strap value answers a next state with that strap latched. Lane L0 has 4,096 times 2 to the strap
granules and is ACTIVE for straps 0 to 5, and has none and is OFFLINE for 6 and 7; the other lanes have
capacity 0 and are OFFLINE; every lane port has no request, next request number 0 and timeout 2,000. Slot 0
and staging slot 0 hold the bring-up region for straps 0 to 5 and are invalid otherwise, the other slots of
both maps are invalid, all revisions and the generation are 0. The table, the commit record, the copy engine,
the health monitor (its drain timer running) and the fault log are at their power-on values: no notice is
posted. The link is in IDLE with CS_N high, and with CS_N low waits for it to rise; the FIFO is empty and the
counters are 0. With SRST_N deasserted the sequence is in OPEN with warm-seen clear; with SRST_N asserted it
is in HOLD with warm-seen set. The other fields of the host port are at their power-on values. -/
def Obligations.PorstDeassertLatchesTheStrap : Prop :=
  ∀ (strap : BitVec 3) (csHigh : Bool) (s : State), s.porst = true →
    let bringUp : Option Body :=
      if strap.toNat < 6 then some
        { base := 0, length := 4096 * 2 ^ strap.toNat, legA := { lane := .l0, base := 0 }, legB := none
          pref := .aFirst, access := .readWrite }
      else none
    ∃ t, exec (.porstNDeassert { strap := strap, csHigh := csHigh }) s = .next t
    ∧ t.porst = false ∧ t.srst = s.srst ∧ t.strap = strap ∧ t.pending = s.pending
    ∧ (∀ n : Lane, t.lanes.get n =
        { capacity := if n = .l0 ∧ strap.toNat < 6 then 4096 * 2 ^ strap.toNat else 0
          timeout := 2000, waiting := [], outstanding := [], nextNumber := 0, windowGrants := 0
          windowEngine := 0, reclaimed := [], quiesce := none
          counters := { readsIssued := 0, writesIssued := 0, readErrors := 0, writeErrors := 0
                        timeouts := 0, lateResponses := 0 } })
    ∧ t.mu.slots[0]? = some
        { desc := bringUp.map fun b => { body := b, degraded := false, job := none }, revision := 0 }
    ∧ t.mu.staging[0]? = some { body := bringUp, basedOn := 0 }
    ∧ (∀ i, 1 ≤ i → i < 64 →
        t.mu.slots[i]? = some { desc := none, revision := 0 }
        ∧ t.mu.staging[i]? = some { body := none, basedOn := 0 })
    ∧ t.mu.slots.length = 64 ∧ t.mu.staging.length = 64
    ∧ t.mu.generation = 0 ∧ t.mu.commit = { drain := none, last := .none } ∧ t.mu.drops = []
    ∧ t.ift = { entries := [], commitSpan := none, switchSpan := none }
    ∧ t.engine = { jobs := List.replicate 8 none, queue := [], running := none, lock := none
                   blockStep := none, stopping := false, switchTimer := none, share := 4 }
    ∧ (∀ n : Lane, t.health.lanes.get n =
        { budget := 0, state := if n = .l0 ∧ strap.toNat < 6 then .active else .offline })
    ∧ t.health.suspect = 1024 ∧ t.health.retire = 3072 ∧ t.health.interval = 100
    ∧ t.log = { ring := [], overflow := 0, nextSeq := 0, notices := [], lost := false, mask := 0x3F
                alert := false }
    ∧ t.health.drainTimer = some 100
    ∧ t.link = { framing := if csHigh then .idle else .unframed, fifo := [], checkErrors := 0
                 framingErrors := 0, overruns := 0, miso := [] }
    ∧ t.hp = { seq := if s.srst then .hold else .opened, warmSeen := s.srst, entryTimer := none
               unmapped := 0, malformed := 0, readOnly := 0, drainLimit := 10000, readChan := none
               writeChan := none, writeBeats := 0 }

/-- SRST_N asserted empties the table whatever the sequence was doing; deasserted it ends HOLD when the table is
empty, and only then (02_host_port_and_in_flight_table.md section 2.6). Asserted. From every powered state
with SRST_N deasserted, SRST_N_ASSERT answers a next state with the pin asserted, no entry in the table, no
response presented, the warm-seen flag set, and the sequence in QUIESCE or HOLD. The configuration and the
link are unchanged. Taken in OPEN, no commit drains afterwards and the job queue is empty. Deasserted. In HOLD
with SRST_N asserted, the table empty, no commit draining and the lanes at rest, SRST_N_DEASSERT posts
RESET_DONE with the warm-seen flag's value, clears the flag and opens the port, and changes nothing else. With
entries left in the table (and no commit draining) the sequence stays in HOLD and the entries stay. -/
def Obligations.SrstEmptiesTheTableAndEndsHold : Prop :=
  (∀ s : State, s.porst = false → s.srst = false → ∃ t, exec .srstNAssert s = .next t
    ∧ t.srst = true ∧ t.ift.entries = [] ∧ t.hp.readChan = none ∧ t.hp.writeChan = none
    ∧ t.hp.warmSeen = true ∧ (t.hp.seq = .quiesce ∨ t.hp.seq = .hold)
    ∧ configuration t = configuration s ∧ t.link = s.link
    ∧ (s.hp.seq = .opened → t.mu.commit.drain = none ∧ t.engine.queue = []))
  ∧ (∀ s : State, s.porst = false → s.srst = true → s.hp.seq = .hold → s.ift.entries = [] →
    s.mu.commit.drain = none → (∀ n : Lane, (s.lanes.get n).Settled) →
    exec .srstNDeassert s = .next
      { s with
        srst := false
        hp := { s.hp with warmSeen := false, seq := .opened }
        log := takeNotice s.mu.generation (.resetDone s.hp.warmSeen) s.log })
  ∧ (∀ s : State, s.porst = false → s.srst = true → s.hp.seq = .hold → s.ift.entries ≠ [] →
    s.mu.commit.drain = none → ∃ t, exec .srstNDeassert s = .next t
      ∧ t.srst = false ∧ t.hp.seq = .hold ∧ identities t = identities s)

/-- An accepted transaction joins the table at its tail in the lowest free slot; a closed port or a full table
leaves it with the interconnect (02_host_port_and_in_flight_table.md sections 2.1 and 2.2). In every powered
state in OPEN whose lowest free slot is n, HOST_ACCEPT answers a next state whose entries are those before, in
their order, followed by one entry in slot n with the transaction's ID, kind and host line (its address
divided by 64). No lane error is counted or weighed, and the configuration and the link are unchanged. In
every powered state in which the sequence is not in OPEN, or the table (48 entries in distinct slots 0 to 47)
is full, HOST_ACCEPT changes nothing. -/
def Obligations.HostAcceptTakesTheLowestFreeSlotOrNothing : Prop :=
  (∀ (txn : HostTxn) (s : State), s.porst = false →
    (s.hp.seq ≠ .opened ∨ (s.ift.Wf ∧ s.ift.entries.length = 48)) → exec (.hostAccept txn) s = .next s)
  ∧ (∀ (txn : HostTxn) (s : State) (n : Nat), s.porst = false → s.hp.seq = .opened → n < 48 →
    (∀ e ∈ s.ift.entries, e.slot ≠ n) → (∀ m, m < n → ∃ e ∈ s.ift.entries, e.slot = m) →
    ∃ t, exec (.hostAccept txn) s = .next t
      ∧ identities t = identities s ++ [(n, txn.id, txnKind txn, txn.address / 64)]
      ∧ (∀ k : Lane, errorCounts t k = errorCounts s k ∧ budgetOf t k = budgetOf s k)
      ∧ configuration t = configuration s ∧ t.link = s.link)

/-- Malformed, unmapped and read-only accesses are answered and counted without a lane
(02_host_port_and_in_flight_table.md sections 2.1, 2.2, 2.4 and 2.5). In a quiet state: a malformed
transaction gets SLVERR and is counted; a data beat of a malformed multi-beat write that is not its last is
only counted as taken, and the last one accepts the write with SLVERR and counts it; a well-formed access
outside every drain span that no region maps gets DECERR and is counted; a write to a READ_ONLY region gets
SLVERR and is counted. Each entry takes slot 0, is presented on its free channel, and nothing else changes. A
malformed read that finds the read channel free is presented as as many beats as its burst declares, each with
SLVERR and data of all zeros, the last alone marked as the last. A beat counter is the model's (log entry 7). -/
def Obligations.AccessesAnsweredWithoutALane : Prop :=
  ∀ s : State, Quiet s →
    (∀ txn : HostTxn, (txn.address % 64 ≠ 0 ∨ txn.size ≠ 64 ∨ 1 < txn.beats) →
      exec (.hostAccept txn) s = .next
        (answering { newEntry 0 txn.id txn.address (txnKind txn) with code := some .slverr }
          { s with hp := { s.hp with
              malformed := bump s.hp.malformed
              writeBeats :=
                match txn.kind with
                | .read => s.hp.writeBeats
                | .write _ _ => if 1 < txn.beats then 0 else s.hp.writeBeats } }))
    ∧ (∀ txn : HostTxn, (txn.address % 64 ≠ 0 ∨ txn.size ≠ 64 ∨ 1 < txn.beats) → txn.kind = .read →
        s.hp.readChan = none →
        ∃ t beats, exec (.hostAccept txn) s = .next t
          ∧ presentedResponse .read t = some (.read txn.id beats) ∧ beats.length = txn.beats
          ∧ ∀ i, i < txn.beats →
            beats[i]? = some { code := .slverr, data := 0, last := decide (i + 1 = txn.beats) })
    ∧ (∀ b : WriteBurst, 2 ≤ b.beats →
        (s.hp.writeBeats + 1 < b.beats →
          exec (.malformedWriteBeat b) s = .next { s with hp.writeBeats := s.hp.writeBeats + 1 })
        ∧ (b.beats ≤ s.hp.writeBeats + 1 →
          exec (.malformedWriteBeat b) s = .next
            (answering { newEntry 0 b.id b.address .badWrite with code := some .slverr }
              { s with hp := { s.hp with malformed := bump s.hp.malformed, writeBeats := 0 } })))
    ∧ (∀ txn : HostTxn, txn.address % 64 = 0 → txn.size = 64 → txn.beats ≤ 1 →
        holdingSpan s.ift (txn.address / 64) = none →
        (lookup s.mu.slots (txn.address / 64) = none →
          exec (.hostAccept txn) s = .next
            (answering { newEntry 0 txn.id txn.address (txnKind txn) with code := some .decerr }
              { s with hp := { s.hp with unmapped := bump s.hp.unmapped } }))
        ∧ (∀ l mask data, lookup s.mu.slots (txn.address / 64) = some l → l.access = .readOnly →
            txn.kind = .write mask data →
            exec (.hostAccept txn) s = .next
              (answering
                { newEntry 0 txn.id txn.address (.write mask data) with
                  region := some l.region, lookup := some l, code := some .slverr }
                { s with hp := { s.hp with readOnly := bump s.hp.readOnly } })))

/-- A lookup answers the region that holds a host line, and nothing when none does (01_the_region_map.md sections
1.2 and 1.3). When the lookup of a host line answers a result, its region is a valid slot whose host range
holds the line, the line lies in the host span, the offset is counted from the region's base, and legs, read
preference, access and revision are the slot's. When it answers nothing for a line of the span, no valid
slot's host range holds the line. -/
def Obligations.LookupFindsTheRegionOfALine : Prop :=
  ∀ (slots : List MapSlot) (line : Nat),
    (∀ l, lookup slots line = some l → ∃ d, descOf slots l.region = some d
      ∧ line < 2 ^ 32 ∧ d.body.base * 32768 ≤ line ∧ line < (d.body.base + d.body.length) * 32768
      ∧ l.offset = line - d.body.base * 32768 ∧ l.legA = d.body.legA ∧ l.legB = d.body.legB
      ∧ l.pref = d.body.pref ∧ l.access = d.body.access ∧ l.revision = revisionOf slots l.region)
    ∧ (lookup slots line = none → line < 2 ^ 32 → ∀ i d, descOf slots i = some d →
      ¬(d.body.base * 32768 ≤ line ∧ line < (d.body.base + d.body.length) * 32768))

/-- A mapped read goes to the leg its read preference puts first; an access in a drain span is held, and one
behind an older access of its line waits (01_the_region_map.md sections 1.3 and 1.4,
02_host_port_and_in_flight_table.md sections 2.2 and 2.3, 03_lane_ports.md sections 3.2 and 3.3). READ. In a
quiet state, for a well-formed read outside every drain span whose line a region maps: the leg it tries first
is leg A of a SINGLE region; of a MIRROR region, leg A for A_FIRST, leg B for B_FIRST, and for SPLIT leg A in
an even and leg B in an odd block of the region. With a credit free on its lane, the entry takes slot 0, is
ISSUED, and its request is OUTSTANDING on that lane with a number no held request has, its response timer at
the lane timeout, and the reads-issued counter raised. With all 16 credits taken the entry is ISSUING and its
request waits with its credit-wait timer at the lane timeout. Nothing else changes. HELD. In a quiet state a
well-formed access, read or write, whose line lies in an open drain span takes slot 0 HELD by that span, with
no lookup, and nothing else changes. LINE_WAIT. With one older entry without an outcome on the same line, one
of the two being a WRITE, a well-formed access outside every drain span whose region lets it pass takes the
lowest free slot in LINE_WAIT with its region and lookup result, and nothing else changes. -/
def Obligations.ReadsAreIssuedAndDecodesWait : Prop :=
  (∀ (s : State) (txn : HostTxn) (l : Lookup) (pos : LegPos) (leg : Leg), Quiet s →
    txn.address % 64 = 0 → txn.size = 64 → txn.beats ≤ 1 → txn.kind = .read →
    holdingSpan s.ift (txn.address / 64) = none → lookup s.mu.slots (txn.address / 64) = some l →
    (match l.legB, l.pref with
      | none, _ => pos = .a ∧ leg = l.legA
      | some _, .aFirst => pos = .a ∧ leg = l.legA
      | some b, .bFirst => pos = .b ∧ leg = b
      | some b, .split => if l.offset / 64 % 2 = 0 then pos = .a ∧ leg = l.legA else pos = .b ∧ leg = b) →
    let p := s.lanes.get leg.lane
    let line := leg.base * 32768 + l.offset
    let req : Request := { kind := .read, line := line, requester := .host 0 (.current pos) }
    let entry : Entry := { newEntry 0 txn.id txn.address .read with
      region := some l.region, lookup := some l
      legs := [{ pos := pos, leg := leg, line := line, outcome := none }] }
    (p.outstanding.length < 16 → exec (.hostAccept txn) s = .next
      { s with
        ift.entries := [{ entry with phase := .issued }]
        lanes := s.lanes.set leg.lane { p with
          outstanding := p.outstanding ++ [{ req := req, number := freshNumber p, timer := some p.timeout }]
          nextNumber := freshNumber p + 1
          counters := { p.counters with readsIssued := bump p.counters.readsIssued } } })
    ∧ (16 ≤ p.outstanding.length → exec (.hostAccept txn) s = .next
      { s with
        ift.entries := [{ entry with phase := .issuing }]
        lanes := s.lanes.set leg.lane { p with waiting := [{ req := req, timer := p.timeout }] } }))
  ∧ (∀ (s : State) (txn : HostTxn) (hold : Hold), Quiet s →
    txn.address % 64 = 0 → txn.size = 64 → txn.beats ≤ 1 →
    holdingSpan s.ift (txn.address / 64) = some hold →
    exec (.hostAccept txn) s = .next
      { s with ift.entries :=
          [{ newEntry 0 txn.id txn.address (txnKind txn) with phase := .held, hold := some hold }] })
  ∧ (∀ (s : State) (txn : HostTxn) (e : Entry) (l : Lookup), LoneEntry s e → e.phase ≠ .issuing →
    txn.address % 64 = 0 → txn.size = 64 → txn.beats ≤ 1 → e.line = txn.address / 64 →
    (e.dir = .write ∨ txn.kind ≠ .read) →
    holdingSpan s.ift (txn.address / 64) = none → lookup s.mu.slots (txn.address / 64) = some l →
    (txn.kind = .read ∨ l.access = .readWrite) →
    exec (.hostAccept txn) s = .next
      { s with ift.entries :=
          [e, { newEntry (if e.slot = 0 then 1 else 0) txn.id txn.address (txnKind txn) with
            region := some l.region, lookup := some l, phase := .lineWait }] })

/-- A grant goes to the side the window gives it, in each side's order, takes a free number and sends its transfer
(03_lane_ports.md sections 3.2, 3.3, 3.4 and 3.5). For every lane port. With a credit free and at most 65,520
reclaimed numbers, the number that the next issued request takes is held by no issued request and stands
nowhere on the reclaimed list. An issued request leaves the wait list and its transfer joins those sent: one
beat of 64 bytes at byte address 64 times its lane line, with its number. A grant needs a credit free and a
request waiting. With one side waiting, that side is granted and the window stays. With both, the engine is
granted while its grants in the window are fewer than its share, the host otherwise; the window counts the
grant, and starts again at 0 with its sixteenth. The engine request granted is the first presented; the
host-side request granted is one whose entry is oldest, and in its entry leg A, leg B and the shadow legs in
this order. An event goes on granting until nothing waits or 16 requests are issued; so a LANE_RESPONSE that
frees a credit leaves each lane as its grants leave it. -/
def Obligations.GrantsFollowTheWindowAndTakeFreeNumbers : Prop :=
  (∀ p : LanePort, p.outstanding.length < 16 → p.reclaimed.length ≤ 65520 →
    (∀ o ∈ p.outstanding, o.number ≠ freshNumber p) ∧ (∀ r ∈ p.reclaimed, r.number ≠ freshNumber p))
  ∧ (∀ (p : LanePort) (w : Waiting), (issueRequest w p).waiting = p.waiting.erase w
    ∧ (issueRequest w p).transfers = p.transfers ++
        [{ kind := w.req.kind, beats := 1, beatBytes := 64, address := 64 * w.req.line
           number := freshNumber p }])
  ∧ (∀ (entries : List Entry) (share : Nat) (p : LanePort),
    let host := p.waiting.filter fun w => !w.req.fromEngine
    let engine := p.waiting.filter fun w => w.req.fromEngine
    let first := fun w : Waiting => w ∈ host ∧ ∀ v ∈ host,
      let a := hostPlace entries w.req
      let b := hostPlace entries v.req
      a.1 < b.1 ∨ (a.1 = b.1 ∧ a.2 ≤ b.2)
    let counted := fun engineGrants : Nat =>
      if p.windowGrants + 1 < 16 then
        { p with windowGrants := p.windowGrants + 1, windowEngine := engineGrants }
      else { p with windowGrants := 0, windowEngine := 0 }
    ((16 ≤ p.outstanding.length ∨ p.waiting = []) → grantOne entries share p = none)
    ∧ (p.outstanding.length < 16 →
      (∀ w rest, host = [] → engine = w :: rest → grantOne entries share p = some (issueRequest w p))
      ∧ (host ≠ [] → engine = [] →
          ∃ w, first w ∧ grantOne entries share p = some (issueRequest w p))
      ∧ (∀ w rest, host ≠ [] → engine = w :: rest → p.windowEngine < share →
          grantOne entries share p = some (issueRequest w (counted (p.windowEngine + 1))))
      ∧ (∀ w rest, host ≠ [] → engine = w :: rest → share ≤ p.windowEngine →
          ∃ v, first v ∧ grantOne entries share p = some (issueRequest v (counted p.windowEngine))))
    ∧ ((grantLane entries share p).waiting = [] ∨ 16 ≤ (grantLane entries share p).outstanding.length))
  ∧ (∀ (s : State) (lane : Lane) (number : Count16) (data : LineData) (o : Outstanding), s.porst = false →
    s.hp.seq = .opened → s.mu.commit.drain = none → (∀ n : Lane, (s.lanes.get n).quiesce = none) →
    (s.lanes.get lane).outstanding.find? (fun x => x.number == number) = some o →
    o.timer.isSome = true → o.req.requester = .gone →
    ∃ t, exec (.laneResponse lane number .okay data) s = .next t
      ∧ ∀ n : Lane, t.lanes.get n = grantLane s.ift.entries s.engine.share
          (if n = lane then
            { s.lanes.get n with outstanding := (s.lanes.get n).outstanding.erase o }
           else s.lanes.get n))

/-- A mapped write goes to every current leg of its region and to the shadow legs its job gives it, or parks on a
locked block (02_host_port_and_in_flight_table.md sections 2.2 and 2.3, 03_lane_ports.md sections 3.2 and 3.3,
06_relocation.md sections 6.1 and 6.2). In a quiet state, for a well-formed write outside every drain span to
a READ_WRITE region. When its block is locked, the entry takes slot 0 PARKED with its region and lookup
result, and nothing else changes. Otherwise its leg set is every current leg, and its shadow set is the shadow
legs of the region's running job when that job does not stop and is in VERIFY or SWITCH, or in COPY with its
cursor past the block; it is empty otherwise. Each lane takes the requests that fall to it, leg A before leg B
before the shadow legs: each is issued with the next number, its response timer at the lane timeout, and
counted, while fewer than 16 requests are issued there, and waits with its credit-wait timer at the lane
timeout otherwise. The entry is ISSUED when none of them waits, ISSUING when one does. Nothing else changes. -/
def Obligations.WritesTakeEveryCurrentAndShadowLeg : Prop :=
  ∀ (s : State) (txn : HostTxn) (l : Lookup) (mask : ByteMask) (data : LineData), Quiet s →
    txn.address % 64 = 0 → txn.size = 64 → txn.beats ≤ 1 → txn.kind = .write mask data →
    holdingSpan s.ift (txn.address / 64) = none → lookup s.mu.slots (txn.address / 64) = some l →
    l.access = .readWrite →
    let entry : Entry :=
      { newEntry 0 txn.id txn.address (.write mask data) with region := some l.region, lookup := some l }
    let locked := s.engine.lock = some { region := l.region, block := l.offset / 64 }
    (locked → exec (.hostAccept txn) s = .next { s with ift.entries := [{ entry with phase := .parked }] })
    ∧ (¬locked →
      let uses : List LegUse :=
        { pos := .a, leg := l.legA, line := l.legA.base * 32768 + l.offset, outcome := none }
          :: (l.legB.map fun b =>
              ({ pos := .b, leg := b, line := b.base * 32768 + l.offset, outcome := none } : LegUse)).toList
      let shadows : List ShadowUse :=
        match runningJob s.engine with
        | none => []
        | some (_, j) =>
          if j.region = l.region ∧ s.engine.stopping = false
              ∧ (j.phase = some .verify ∨ j.phase = some .switch
                ∨ (j.phase = some .copy ∧ l.offset / 64 < j.cursor)) then
            j.work.shadows.map fun leg =>
              { leg := leg, line := leg.base * 32768 + l.offset, outcome := none }
          else []
      let reqs : List (Lane × Request) :=
        (uses.map fun u =>
          (u.leg.lane,
            ({ kind := .write mask data, line := u.line, requester := .host 0 (.current u.pos) } : Request)))
        ++ shadows.mapIdx fun i u =>
          (u.leg.lane,
            ({ kind := .write mask data, line := u.line, requester := .host 0 (.shadow i) } : Request))
      ∃ lanes phase, exec (.hostAccept txn) s = .next
          { s with
            ift.entries := [{ entry with legs := uses, shadows := shadows, phase := phase }]
            lanes := lanes }
        ∧ (∀ n : Lane, lanes.get n =
            ((reqs.filter fun q => q.1 == n).map Prod.snd).foldl LanePort.taking (s.lanes.get n))
        ∧ ((∀ n : Lane, (lanes.get n).waiting = []) → phase = .issued)
        ∧ ((∃ n : Lane, (lanes.get n).waiting ≠ []) → phase = .issuing))

/-- A response taken carries its entry's beats and frees its slot, and each free channel presents the oldest entry
that no older one of its ID blocks (02_host_port_and_in_flight_table.md sections 2.1 and 2.4). In every
powered state whose channel presents a slot, the response presented is that of the entry in the slot, with its
upstream ID: for a read one beat with its code, marked as the last, for a malformed read as many beats as its
burst declares, the last alone marked, with the data of the entry for OKAY and all zeros otherwise; for a
write the code and no data. RESPONSE_TAKEN answers a next state in which exactly the entries of that slot have
left the table and the others keep their order. What the other channel presents stays. The channel taken from,
and the other when it was free, presents the oldest eligible entry of its kind: with the slots of the table
distinct, it presents a slot exactly when an entry in that slot is of its kind, its outcome is known, no older
entry in the table carries its upstream ID, and no older entry is of that kind with those two properties. When
no draining commit is stale, the slot has left the count of each open drain span, and the active map is
unchanged. No lane error is counted or weighed, and the configuration and the link are unchanged. -/
def Obligations.ResponseTakenFreesItsSlot : Prop :=
  ∀ (channel : Dir) (s : State) (slot : Nat), s.porst = false → presented channel s = some slot →
    ∃ t, exec (.responseTaken channel) s = .next t
      ∧ identities t = (s.ift.entries.filter fun e => e.slot != slot).map Entry.identity
      ∧ (∀ e code, (s.ift.entries.map Entry.slot).Nodup → e ∈ s.ift.entries → e.slot = slot →
          e.code = some code →
          let data := if code = .okay then e.data else 0
          match e.kind with
          | .read =>
            presentedResponse channel s = some (.read e.id [{ code := code, data := data, last := true }])
          | .badRead n => ∃ beats, presentedResponse channel s = some (.read e.id beats)
            ∧ beats.length = n
            ∧ ∀ i, i < n → beats[i]? = some { code := code, data := data, last := decide (i + 1 = n) }
          | .write _ _ => presentedResponse channel s = some (.write e.id code)
          | .badWrite => presentedResponse channel s = some (.write e.id code))
      ∧ presented channel t = nextResponse t.ift.entries channel
      ∧ (∀ (other : Dir) (n : Nat), other ≠ channel → presented other s = some n → presented other t = some n)
      ∧ (∀ kind : Dir, (kind = channel ∨ presented kind s = none) → (s.ift.entries.map Entry.slot).Nodup →
          let ready := fun (older : List Entry) (e : Entry) =>
            e.dir = kind ∧ e.code ≠ none ∧ ∀ x ∈ older, x.id ≠ e.id
          ∀ n : Nat, presented kind t = some n ↔
            ∃ older e younger, t.ift.entries = older ++ e :: younger ∧ e.slot = n ∧ ready older e
              ∧ ∀ first x rest, older = first ++ x :: rest → ¬ready first x)
      ∧ ((s.mu.commit.drain.any fun d => d.stale) = false →
          t.ift.commitSpan = s.ift.commitSpan.map
            (fun sp => { sp with counted := sp.counted.filter fun n => n != slot })
          ∧ t.ift.switchSpan = s.ift.switchSpan.map
            (fun sp => { sp with counted := sp.counted.filter fun n => n != slot })
          ∧ t.mu.slots = s.mu.slots ∧ t.mu.generation = s.mu.generation)
      ∧ (∀ k : Lane, errorCounts t k = errorCounts s k ∧ budgetOf t k = budgetOf s k)
      ∧ configuration t = configuration s ∧ t.link = s.link

/-- A lane response forms the code of the entry that waits for it, or asks for the drop of the leg that failed
(03_lane_ports.md sections 3.4, 3.6 and 3.7, 08_lane_health_and_retirement.md section 8.1). With one entry in
the table and nothing else in progress, the request leaves the outstanding set and its credit is free. READ
with OKAY or EXOKAY: the entry is answered OKAY with the data; on the fallback leg MIRROR_READ_RECOVERED is
recorded with the leg that failed. WRITE whose other requests all have outcomes, no lock wait in progress: an
SLVERR or DECERR response (on a lane that stays ACTIVE) is first counted, recorded as LANE_WRITE_ERROR and
weighed. With one leg, still a leg of its region: answered OKAY when it succeeded, SLVERR when it failed. With
two legs of its region: OKAY when both succeeded, SLVERR when both failed; when exactly one failed no code is
formed and the drop of that leg is requested for this write. An answered entry is presented on its free
channel; shadow legs form no code; nothing else changes. -/
def Obligations.LaneResponseAnswersItsEntry : Prop :=
  ∀ (s : State) (e : Entry) (lane : Lane) (number : Count16) (resp : AxiResp) (data : LineData)
    (o : Outstanding) (pos : LegPos), LoneEntry s e →
    (s.lanes.get lane).outstanding.find? (fun x => x.number == number) = some o → o.timer.isSome = true →
    o.req.requester = .host e.slot (.current pos) →
    let ok := resp = .okay ∨ resp = .exokay
    let freed : State := { s with
      lanes := s.lanes.modify lane fun p => { p with outstanding := p.outstanding.erase o } }
    let told := fun outcome : LaneOutcome => { e with
      legs := e.legs.map fun u => if u.pos = pos then { u with outcome := some outcome } else u }
    let coded := fun (outcome : LaneOutcome) (code : Code) (bytes : LineData) =>
      { told outcome with code := some code, data := bytes, phase := .orderWait }
    (e.kind = .read → ok →
      (e.fallback = false →
        exec (.laneResponse lane number resp data) s = .next (answering (coded .ok .okay data) freed))
      ∧ (∀ u v x, e.fallback = true → e.legs = [u, v] → u.pos ≠ pos → v.pos = pos →
          u.outcome = some x → x ≠ .ok →
          exec (.laneResponse lane number resp data) s = .next
            (answering (coded .ok .okay data) { freed with
              log := takeRecord s.mu.generation
                { kind := .mirrorReadRecovered, lane := some u.leg.lane, region := e.region
                  hostLine := some e.line, laneLine := some u.line, id := some e.id } s.log })))
    ∧ (∀ mask bytes r d, e.kind = .write mask bytes → e.region = some r → descOf s.mu.slots r = some d →
        e.phase = .issued → (∀ u ∈ e.shadows, u.outcome ≠ none) → (∀ u ∈ e.legs, u.leg ∈ d.body.legs) →
        (s.engine.blockStep.any fun st => st.stage == .lockWait) = false →
        o.req.kind ≠ .read → (ok ∨ StaysActive s lane 128) →
        let out : LaneOutcome := if resp = .okay ∨ resp = .exokay then .ok else .error
        let base : State :=
          if resp = .okay ∨ resp = .exokay then freed
          else { s with
            lanes := s.lanes.modify lane fun p =>
              { p with
                outstanding := p.outstanding.erase o
                counters := { p.counters with writeErrors := bump p.counters.writeErrors } }
            health.lanes := s.health.lanes.modify lane fun h => { h with budget := weighed 128 h.budget }
            log := takeRecord s.mu.generation
              { kind := .laneWriteError, lane := some lane, region := e.region, hostLine := some e.line
                laneLine := some o.req.line, id := some e.id } s.log }
        let answers := fun code : Code =>
          exec (.laneResponse lane number resp data) s = .next (answering (coded out code 0) base)
        let drops := fun leg : Leg =>
          exec (.laneResponse lane number resp data) s = .next { base with
            ift.entries := [told out]
            mu.drops := s.mu.drops ++ [{ region := r, leg := leg, slot := some e.slot }] }
        (∀ u, e.legs = [u] → u.pos = pos → (ok → answers .okay) ∧ (¬ok → answers .slverr))
        ∧ (∀ u v x, (e.legs = [u, v] ∨ e.legs = [v, u]) → u.pos = pos → v.pos ≠ pos → v.outcome = some x →
            (ok → x = .ok → answers .okay) ∧ (¬ok → x ≠ .ok → answers .slverr)
            ∧ (ok → x ≠ .ok → drops v.leg) ∧ (¬ok → x = .ok → drops u.leg)))

/-- A lane error or a late response raises one counter and one budget and evaluates the lane, whoever asked
(03_lane_ports.md sections 3.4 and 3.8, 08_lane_health_and_retirement.md sections 8.1 and 8.2). In every
powered state: an SLVERR or DECERR response to an OUTSTANDING request raises the lane's read-error counter and
adds 64 to its budget for a READ, and raises the write-error counter and adds 128 for a WRITE; the expiry of a
response timer or of a credit-wait timer raises the timeout counter and adds 256. Counters saturate at
4,294,967,295 and budgets at 4,095. The lane's state is the one the evaluation gives it at the new budget. No
other error counter, budget or lane state changes, and the entries in the table, the configuration and the
link are unchanged. LATE. In every powered state, a LANE_RESPONSE whose number no OUTSTANDING request of the
lane holds raises that lane's late-response counter by one (saturating) and its budget by 32 (to 4,095 at
most), and no other error counter or budget; the lane's state is the one the evaluation gives it at that
budget, and no other lane's changes; the entries, the configuration and the link are unchanged. In a quiet
state, when the number stands nowhere on the lane and the lane is OFFLINE or RETIRED, a LATE_RESPONSE record
with the lane is written and nothing else changes. -/
def Obligations.LaneErrorsAndLateResponsesAreCounted : Prop :=
  (∀ (lane : Lane) (s : State), s.porst = false →
    let raised := fun (up : ErrorCounts → ErrorCounts) (weight : Nat) (t : State) =>
      (∀ n : Lane, errorCounts t n = (if n = lane then up (errorCounts s n) else errorCounts s n))
      ∧ (∀ n : Lane, budgetOf t n = (if n = lane then weighed weight (budgetOf s n) else budgetOf s n))
      ∧ (∀ n : Lane, (t.health.lanes.get n).state =
          (if n = lane then
            evaluatedState s.health.suspect s.health.retire (weighed weight (budgetOf s n))
              (s.health.lanes.get n).state
           else (s.health.lanes.get n).state))
      ∧ identities t = identities s ∧ configuration t = configuration s ∧ t.link = s.link
    (∀ (number : Count16) (resp : AxiResp) (data : LineData) (o : Outstanding),
      (resp = .slverr ∨ resp = .decerr) →
      (s.lanes.get lane).outstanding.find? (fun x => x.number == number) = some o →
      o.timer.isSome = true →
      ∃ t, exec (.laneResponse lane number resp data) s = .next t
        ∧ (o.req.kind = .read →
            raised (fun c => { c with readErrors := bump c.readErrors }) 64 t)
        ∧ (o.req.kind ≠ .read →
            raised (fun c => { c with writeErrors := bump c.writeErrors }) 128 t))
    ∧ (∀ (number : Count16) (o : Outstanding), o ∈ (s.lanes.get lane).outstanding → o.number = number →
        o.timer.isSome = true →
        ∃ t, exec (.responseTimeout lane number) s = .next t
          ∧ raised (fun c => { c with timeouts := bump c.timeouts }) 256 t)
    ∧ (∀ place : Nat, place < (s.lanes.get lane).waiting.length →
        ∃ t, exec (.creditWaitTimeout lane place) s = .next t
          ∧ raised (fun c => { c with timeouts := bump c.timeouts }) 256 t))
  ∧ (∀ (lane : Lane) (number : Count16) (resp : AxiResp) (data : LineData) (s : State), s.porst = false →
    (∀ o ∈ (s.lanes.get lane).outstanding, o.number = number → o.timer = none) →
    (∃ t, exec (.laneResponse lane number resp data) s = .next t
      ∧ (∀ n : Lane, errorCounts t n =
          (if n = lane then
            { errorCounts s n with lateResponses := bump (errorCounts s n).lateResponses }
           else errorCounts s n))
      ∧ (∀ n : Lane, budgetOf t n = (if n = lane then weighed 32 (budgetOf s n) else budgetOf s n))
      ∧ (∀ n : Lane, (t.health.lanes.get n).state =
          (if n = lane then
            evaluatedState s.health.suspect s.health.retire (weighed 32 (budgetOf s n))
              (s.health.lanes.get n).state
           else (s.health.lanes.get n).state))
      ∧ identities t = identities s ∧ configuration t = configuration s ∧ t.link = s.link)
    ∧ (Quiet s → (∀ o ∈ (s.lanes.get lane).outstanding, o.number ≠ number) →
        (∀ r ∈ (s.lanes.get lane).reclaimed, r.number ≠ number) →
        ((s.health.lanes.get lane).state = .offline ∨ (s.health.lanes.get lane).state = .retired) →
        exec (.laneResponse lane number resp data) s = .next
          { s with
            lanes := s.lanes.modify lane fun p =>
              { p with counters := { p.counters with lateResponses := bump p.counters.lateResponses } }
            health.lanes := s.health.lanes.modify lane fun h => { h with budget := weighed 32 h.budget }
            log := takeRecord s.mu.generation { kind := .lateResponse, lane := some lane } s.log }))

/-- A retired lane loses every MIRROR leg in slot order, makes the commit stale and stops the job that needs it
(01_the_region_map.md section 1.7, 03_lane_ports.md section 3.4, 04_staging_and_commit.md section 4.6,
06_relocation.md section 6.6, 07_mirror_audit.md section 7.5, 08_lane_health_and_retirement.md sections 8.1,
8.2 and 8.3). In a powered state in OPEN with 64 map slots, no commit stale and a lane ACTIVE or SUSPECT, take
a LANE_RESPONSE whose number stands nowhere on the lane and whose weight of 32 lifts the budget to the retire
threshold. Afterwards the lane is RETIRED and no other lane's state has changed. Each valid MIRROR slot with a
leg on the lane is SINGLE on its other leg with read preference A_FIRST, degraded set and its revision raised
by one; every other slot is as it was; the generation has risen by one for each drop. The log has taken
LANE_STATE_CHANGED (record and notice), then for each dropped slot in ascending order LEG_DROPPED (record with
the slot's job, and notice) at the generation after that drop, then the LATE_RESPONSE record. A draining
commit with a dropped slot in its set or a leg of its set on the lane has ended STALE, with COMMIT_FINISHED;
any other commit record is as it was. A running job without a stop request has taken the one that applies
first: TARGET_LEG_LOST for a relocation whose kept leg was dropped, REGION_DEGRADED for an audit whose region
lost a leg, TARGET_RETIRED for a relocation with a shadow leg on the lane or a MIRROR target with a kept leg
on it. That the LATE_RESPONSE record follows those of the retirement is log entry 11. -/
def Obligations.RetirementDropsLegsInSlotOrder : Prop :=
  ∀ (s : State) (lane : Lane) (number : Count16) (resp : AxiResp) (data : LineData), s.porst = false →
    s.hp.seq = .opened → s.mu.slots.length = 64 → (s.mu.commit.drain.any fun c => c.stale) = false →
    ((s.health.lanes.get lane).state = .active ∨ (s.health.lanes.get lane).state = .suspect) →
    s.health.retire ≤ weighed 32 (budgetOf s lane) →
    (∀ o ∈ (s.lanes.get lane).outstanding, o.number ≠ number) →
    (∀ r ∈ (s.lanes.get lane).reclaimed, r.number ≠ number) →
    let on := fun d : Descriptor => d.body.legB.isSome && d.body.legs.any fun leg => leg.lane == lane
    let lost : List (Nat × Option Nat) := (List.range 64).filterMap fun i =>
      (descOf s.mu.slots i).bind fun d => if on d then some (i, d.job) else none
    let stale := ∃ c, s.mu.commit.drain = some c ∧ ∃ x ∈ c.members,
      (∃ q ∈ lost, q.1 = x.slot) ∨ ∃ b, x.body = some b ∧ ∃ leg ∈ b.legs, leg.lane = lane
    let g := s.mu.generation
    let changed := takeNotice g (.laneStateChanged lane .retired)
      (takeRecord g { kind := .laneStateChanged, lane := some lane } s.log)
    let dropped := lost.foldl
      (fun (x : Count16 × FaultLog) q =>
        (x.1 + 1, takeNotice (x.1 + 1) (.legDropped q.1 lane)
          (takeRecord (x.1 + 1)
            { kind := .legDropped, lane := some lane, region := some q.1, job := q.2 } x.2)))
      (g, changed)
    let late := takeRecord dropped.1 { kind := .lateResponse, lane := some lane } dropped.2
    ∃ t, exec (.laneResponse lane number resp data) s = .next t
      ∧ (∀ n : Lane, (t.health.lanes.get n).state =
          if n = lane then .retired else (s.health.lanes.get n).state)
      ∧ (∀ (i : Nat) (m : MapSlot), s.mu.slots[i]? = some m →
          ((∀ d, m.desc = some d → on d = false) → t.mu.slots[i]? = some m)
          ∧ (∀ d b, m.desc = some d → d.body.legB = some b → on d = true → t.mu.slots[i]? = some
              { desc := some
                  { d with
                    body := { d.body with
                      legA := if d.body.legA.lane = lane then b else d.body.legA
                      legB := none, pref := .aFirst }
                    degraded := true }
                revision := m.revision + 1 }))
      ∧ t.mu.generation = g + BitVec.ofNat 16 lost.length
      ∧ (¬stale → t.mu.commit = s.mu.commit ∧ t.log = late)
      ∧ (stale → t.mu.commit = { drain := none, last := .stale }
        ∧ ∀ c x rest, s.mu.commit.drain = some c → c.members = x :: rest →
            t.log = takeNotice dropped.1 (.commitFinished x.slot .stale) late)
      ∧ (∀ h j, runningJob s.engine = some (h, j) → j.life = .running none →
          let hit := (descOf s.mu.slots j.region).any on
          let goneLeg := (descOf s.mu.slots j.region).bind fun d =>
            if on d then d.body.legs.find? fun leg => leg.lane == lane else none
          let onLane := fun leg : Leg => leg.lane == lane
          let told : Option Stop :=
            match j.work with
            | .audit _ _ _ => if hit then some (.failed .regionDegraded none) else none
            | .relocate target _ _ _ =>
              if goneLeg.any fun leg => j.work.kept.contains leg then some (.failed .targetLegLost none)
              else if j.work.shadows.any onLane || (target.legB.isSome && j.work.kept.any onLane) then
                some (.failed .targetRetired none)
              else none
          jobOf t.engine h = some { j with life := .running told })
      ∧ identities t = identities s

/-- A failed read with no leg left to try is recorded and answered SLVERR (03_lane_ports.md sections 3.3, 3.4 and
3.6, 08_lane_health_and_retirement.md section 8.1). With one READ entry in the table and nothing else in
progress, on a lane that stays ACTIVE, when no leg is left to try (the read was its fallback, its lookup
result has one leg, or the other leg is no longer a leg of the region's descriptor): an SLVERR or DECERR
response writes LANE_READ_ERROR and frees the credit; the expiry of the response timer writes LANE_TIMEOUT and
leaves the request TIMED_OUT with its credit; the expiry of its credit-wait timer writes LANE_TIMEOUT and the
request leaves the wait list. The record carries the lane, lane line, region, host line and upstream ID. The
counter and the budget of the lane rise, the entry is answered SLVERR and presented on its free channel, and
nothing else changes. -/
def Obligations.FailedReadWithNoLegLeftIsSlverr : Prop :=
  ∀ (s : State) (e : Entry) (l : Lookup) (lane : Lane) (pos : LegPos), e.kind = .read →
    e.lookup = some l →
    (e.fallback = true ∨ l.legB = none
      ∨ ∀ leg d, l.legAt pos.other = some leg → descOf s.mu.slots l.region = some d → leg ∉ d.body.legs) →
    let info := fun (kind : FaultKind) (line : Nat) =>
      ({ kind := kind, lane := some lane, region := e.region, hostLine := some e.line
         laneLine := some line, id := some e.id } : FaultInfo)
    let failed := fun (outcome : LaneOutcome) =>
      { e with
        legs := e.legs.map fun u => if u.pos = pos then { u with outcome := some outcome } else u
        code := some .slverr, data := 0, phase := .orderWait }
    (∀ (number : Count16) (resp : AxiResp) (data : LineData) (o : Outstanding), LoneEntry s e →
      StaysActive s lane 64 → (resp = .slverr ∨ resp = .decerr) →
      (s.lanes.get lane).outstanding.find? (fun x => x.number == number) = some o →
      o.timer.isSome = true → o.req.kind = .read → o.req.requester = .host e.slot (.current pos) →
      exec (.laneResponse lane number resp data) s = .next
        (answering (failed .error)
          { s with
            lanes := s.lanes.modify lane fun p =>
              { p with
                outstanding := p.outstanding.erase o
                counters := { p.counters with readErrors := bump p.counters.readErrors } }
            health.lanes := s.health.lanes.modify lane fun h => { h with budget := weighed 64 h.budget }
            log := takeRecord s.mu.generation (info .laneReadError o.req.line) s.log }))
    ∧ (∀ (number : Count16) (o : Outstanding), LoneEntry s e → StaysActive s lane 256 →
      (s.lanes.get lane).outstanding.find? (fun x => x.number == number && x.timer.isSome) = some o →
      o.req.kind = .read → o.req.requester = .host e.slot (.current pos) →
      exec (.responseTimeout lane number) s = .next
        (answering (failed .timeout)
          { s with
            lanes := s.lanes.modify lane fun p =>
              { p with
                outstanding := p.outstanding.map fun x =>
                  if x.number = number then { x with timer := none } else x
                counters := { p.counters with timeouts := bump p.counters.timeouts } }
            health.lanes := s.health.lanes.modify lane fun h => { h with budget := weighed 256 h.budget }
            log := takeRecord s.mu.generation (info .laneTimeout o.req.line) s.log }))
    ∧ (∀ w : Waiting, s.porst = false → s.hp.seq = .opened → s.ift.entries = [e] → e.code = none →
      s.mu.commit.drain = none → (∀ n : Lane, n ≠ lane → (s.lanes.get n).Settled) →
      (s.lanes.get lane).quiesce = none → (s.lanes.get lane).waiting = [w] → w.req.kind = .read →
      w.req.requester = .host e.slot (.current pos) → StaysActive s lane 256 →
      exec (.creditWaitTimeout lane 0) s = .next
        (answering (failed .timeout)
          { s with
            lanes := s.lanes.modify lane fun p =>
              { p with
                waiting := []
                counters := { p.counters with timeouts := bump p.counters.timeouts } }
            health.lanes := s.health.lanes.modify lane fun h => { h with budget := weighed 256 h.budget }
            log := takeRecord s.mu.generation (info .laneTimeout w.req.line) s.log }))

/-- A read whose first leg fails, by an error or by either timer, is tried on the other leg of its region
(03_lane_ports.md sections 3.2, 3.3, 3.4 and 3.6, 08_lane_health_and_retirement.md section 8.1). With one READ
entry of a MIRROR region in the table and nothing else in progress, its first leg's lane staying ACTIVE, and
the other leg of its lookup result still a leg of the descriptor on another lane. When the lane answers SLVERR
or DECERR, or the response timer expires, or the credit-wait timer of a request that has not been issued
expires, the failure is counted, weighed and recorded (LANE_READ_ERROR or LANE_TIMEOUT), the entry takes the
other leg into its leg set with fallback-tried set and has no code, and a READ of that leg is presented on its
lane: with a credit free there it is OUTSTANDING and counted and the entry is ISSUED; with 16 requests issued
there it waits and the entry is ISSUING. A failed response frees its credit; a TIMED_OUT request keeps it.
Nothing else changes. -/
def Obligations.FailedFirstReadFallsBack : Prop :=
  ∀ (s : State) (e : Entry) (l : Lookup) (lane : Lane) (pos : LegPos) (leg b : Leg) (d : Descriptor),
    e.kind = .read → e.fallback = false → e.lookup = some l → l.legB = some b →
    l.legAt pos.other = some leg → descOf s.mu.slots l.region = some d → leg ∈ d.body.legs →
    leg.lane ≠ lane →
    let line := leg.base * 32768 + l.offset
    let falls := fun (c : Instr) (outcome : LaneOutcome) (kind : FaultKind) (at_ weight : Nat)
        (port : LanePort) =>
      ∃ lanes, exec c s = .next
          { s with
            ift.entries := [{ e with
              legs := (e.legs.map fun u => if u.pos = pos then { u with outcome := some outcome } else u)
                ++ [{ pos := pos.other, leg := leg, line := line, outcome := none }]
              fallback := true
              phase := if (s.lanes.get leg.lane).outstanding.length < 16 then .issued else .issuing }]
            lanes := lanes
            health.lanes := s.health.lanes.modify lane fun h => { h with budget := weighed weight h.budget }
            log := takeRecord s.mu.generation
              { kind := kind, lane := some lane, region := e.region, hostLine := some e.line
                laneLine := some at_, id := some e.id } s.log }
        ∧ ∀ n : Lane, lanes.get n =
            if n = lane then port
            else if n = leg.lane then
              (s.lanes.get n).taking
                { kind := .read, line := line, requester := .host e.slot (.current pos.other) }
            else s.lanes.get n
    let timedOut := { (s.lanes.get lane).counters with
      timeouts := bump (s.lanes.get lane).counters.timeouts }
    (∀ (number : Count16) (resp : AxiResp) (data : LineData) (o : Outstanding), LoneEntry s e →
      StaysActive s lane 64 → (resp = .slverr ∨ resp = .decerr) →
      (s.lanes.get lane).outstanding.find? (fun x => x.number == number) = some o →
      o.timer.isSome = true → o.req.kind = .read → o.req.requester = .host e.slot (.current pos) →
      falls (.laneResponse lane number resp data) .error .laneReadError o.req.line 64
        { s.lanes.get lane with
          outstanding := (s.lanes.get lane).outstanding.erase o
          counters := { (s.lanes.get lane).counters with
            readErrors := bump (s.lanes.get lane).counters.readErrors } })
    ∧ (∀ (number : Count16) (o : Outstanding), LoneEntry s e → StaysActive s lane 256 →
      (s.lanes.get lane).outstanding.find? (fun x => x.number == number && x.timer.isSome) = some o →
      o.req.kind = .read → o.req.requester = .host e.slot (.current pos) →
      falls (.responseTimeout lane number) .timeout .laneTimeout o.req.line 256
        { s.lanes.get lane with
          outstanding := (s.lanes.get lane).outstanding.map fun x =>
            if x.number = number then { x with timer := none } else x
          counters := timedOut })
    ∧ (∀ w : Waiting, s.porst = false → s.hp.seq = .opened → s.ift.entries = [e] → e.code = none →
      s.mu.commit.drain = none → (∀ n : Lane, n ≠ lane → (s.lanes.get n).Settled) →
      (s.lanes.get lane).quiesce = none → (s.lanes.get lane).waiting = [w] → w.req.kind = .read →
      w.req.requester = .host e.slot (.current pos) → StaysActive s lane 256 →
      falls (.creditWaitTimeout lane 0) .timeout .laneTimeout w.req.line 256
        { s.lanes.get lane with waiting := [], counters := timedOut })

/-- A leg drop is applied to a valid MIRROR slot that has the leg, with the job told, and ignored otherwise
(SLVERR with no live leg: log entry 20) (01_the_region_map.md section 1.7, 03_lane_ports.md section 3.7,
04_staging_and_commit.md section 4.6, 06_relocation.md section 6.6, 07_mirror_audit.md section 7.5). In every
powered state in OPEN with a leg drop request at the place named, and no commit stale. When the slot named is
valid and MIRROR and the leg is one of its two: the other leg becomes leg A, the slot becomes SINGLE with read
preference A_FIRST and degraded set, its revision and the generation rise by one, and a write that waits for
the answer (ISSUED, in its own slot, when a commit ends) gets OKAY. A running job of the region without a stop
request takes one: TARGET_LEG_LOST when it is a relocation that keeps the leg, REGION_DEGRADED when it is an
audit. With the slot in no commit set, LEG_DROPPED is recorded and posted with the generation after the drop
and the commit record is as it was; with the slot in the set of a draining commit, that commit ends STALE. In
any other case the map, the commit, the generation, the log and the jobs are unchanged, and a write that waits
for the answer gets OKAY when it has live legs and all of them succeeded, SLVERR otherwise; that it is SLVERR
when no leg of the write is live any more is the DESIGN CHOICE of log entry 20. The request has been taken
either way, and no lane error is counted. -/
def Obligations.LegDropRequestIsAppliedOrIgnored : Prop :=
  ∀ (place : Nat) (s : State) (q : DropRequest), s.porst = false → s.hp.seq = .opened →
    (s.mu.commit.drain.any fun c => c.stale) = false → s.mu.drops[place]? = some q →
    (∀ m d b, s.mu.slots[q.region]? = some m → m.desc = some d → d.body.legB = some b →
      (q.leg = d.body.legA ∨ q.leg = b) →
      ∃ t, exec (.legDropRequest place) s = .next t
        ∧ t.mu.slots = s.mu.slots.set q.region
            { desc := some
                { d with
                  body := { d.body with
                    legA := if q.leg = d.body.legA then b else d.body.legA, legB := none, pref := .aFirst }
                  degraded := true }
              revision := m.revision + 1 }
        ∧ t.mu.generation = s.mu.generation + 1 ∧ t.mu.drops = s.mu.drops.eraseIdx place
        ∧ (inCommitSet s.mu q.region = false → t.mu.commit = s.mu.commit
          ∧ t.log = takeNotice (s.mu.generation + 1) (.legDropped q.region q.leg.lane)
            (takeRecord (s.mu.generation + 1)
              { kind := .legDropped, lane := some q.leg.lane, region := some q.region, job := d.job } s.log))
        ∧ (inCommitSet s.mu q.region = true → t.mu.commit = { drain := none, last := .stale })
        ∧ identities t = identities s
        ∧ (∀ n e, q.slot = some n → entryAt s.ift.entries n = some e → e.code = none →
            (inCommitSet s.mu q.region = false ∨ (s.ift.Wf ∧ e.phase = .issued)) →
            ∃ e' ∈ t.ift.entries, e'.slot = n ∧ e'.code = some .okay)
        ∧ (∀ h j, runningJob s.engine = some (h, j) → j.life = .running none →
            let told : Option Stop :=
              match j.work with
              | .audit _ _ _ => if j.region = q.region then some (.failed .regionDegraded none) else none
              | .relocate _ _ _ _ =>
                if j.region = q.region ∧ j.work.kept.contains q.leg = true then
                  some (.failed .targetLegLost none)
                else none
            jobOf t.engine h = some { j with life := .running told })
        ∧ (∀ k : Lane, errorCounts t k = errorCounts s k ∧ budgetOf t k = budgetOf s k))
    ∧ ((∀ m d b, s.mu.slots[q.region]? = some m → m.desc = some d → d.body.legB = some b →
        q.leg ≠ d.body.legA ∧ q.leg ≠ b) →
      ∃ t, exec (.legDropRequest place) s = .next t
        ∧ t.mu.slots = s.mu.slots ∧ t.mu.generation = s.mu.generation ∧ t.mu.commit = s.mu.commit
        ∧ t.mu.drops = s.mu.drops.eraseIdx place ∧ t.log = s.log ∧ identities t = identities s
        ∧ t.engine.jobs = s.engine.jobs
        ∧ (∀ n e r, q.slot = some n → entryAt s.ift.entries n = some e → e.code = none →
            e.region = some r →
            let live := liveLegs (descOf s.mu.slots r) e.legs
            ∃ e' ∈ t.ift.entries, e'.slot = n ∧ e'.code =
              some (if live ≠ [] ∧ ∀ u ∈ live, u.outcome = some .ok then .okay else .slverr))
        ∧ (∀ k : Lane, errorCounts t k = errorCounts s k ∧ budgetOf t k = budgetOf s k))

/-- At the quiesce bound a lane's credits are reclaimed in issue order (log entry 10), its requesters told
TIMEOUT, and its quiesce completes (02_host_port_and_in_flight_table.md section 2.6, 03_lane_ports.md sections
3.2, 3.4, 3.5 and 3.6, 05_jobs_and_the_copy_engine.md section 5.6). In every powered state, for a quiescing
lane, QUIESCE_TIMEOUT raises the lane's timeout counter (saturating) and adds 256 to its budget (to 4,095 at
most) once for each OUTSTANDING request, and for no TIMED_OUT or WAITING one; no other counter or budget
changes. Every issued request's number and lane line join the reclaimed list in issue order (the DESIGN CHOICE
of log entry 10), and when they would carry it past 65,520, its oldest numbers leave first, one for each
number joining. Outside ENTRY_DRAIN the lane no longer quiesces. With nothing waiting, every issued request
TIMED_OUT, no commit draining: the outstanding set is empty, the arbiter window cleared, and the rest of the
lane as it was. HOST. With one READ entry in the table whose outcome is not known and that has no leg left to
try, on a lane that stays ACTIVE: its OUTSTANDING request writes LANE_TIMEOUT and answers it SLVERR; its
WAITING request is withdrawn and answers it SLVERR, and nothing is recorded. ENGINE. With the table empty,
nothing queued and a stopping job: when its only open request is OUTSTANDING on the lane, which stays ACTIVE,
the job finishes with its stop request's outcome, and nothing runs or is locked. The entries, the
configuration and the link are unchanged. -/
def Obligations.QuiesceExpiryReclaimsCredits : Prop :=
  ∀ (lane : Lane) (s : State), s.porst = false → (s.lanes.get lane).quiesce.isSome = true →
    let p := s.lanes.get lane
    let running := (p.outstanding.filter fun o => o.timer.isSome).length
    let joining : List Reclaimed := p.outstanding.map fun o => { number := o.number, line := o.req.line }
    let kept :=
      if p.reclaimed.length + joining.length ≤ 65520 then p.reclaimed ++ joining
      else p.reclaimed.drop joining.length ++ joining
    ∃ t, exec (.quiesceTimeout lane) s = .next t
      ∧ (∀ k : Lane, errorCounts t k =
          (if k = lane then
            { errorCounts s k with timeouts := Nat.repeat bump running (errorCounts s k).timeouts }
           else errorCounts s k))
      ∧ (∀ k : Lane, budgetOf t k =
          (if k = lane then Nat.repeat (weighed 256) running (budgetOf s k) else budgetOf s k))
      ∧ (t.lanes.get lane).reclaimed = kept
      ∧ (s.hp.seq ≠ .entryDrain → (t.lanes.get lane).quiesce = none)
      ∧ identities t = identities s ∧ configuration t = configuration s ∧ t.link = s.link
      ∧ (s.hp.seq ≠ .entryDrain → s.mu.commit.drain = none → p.waiting = [] →
          (∀ o ∈ p.outstanding, o.timer = none) →
          t.lanes.get lane =
            { p with outstanding := [], quiesce := none, windowGrants := 0, windowEngine := 0, reclaimed := kept })
      ∧ (∀ (e : Entry) (l : Lookup) (pos : LegPos), s.hp.seq ≠ .entryDrain → s.mu.commit.drain = none →
          s.ift.entries = [e] → e.kind = .read → e.code = none → e.lookup = some l →
          (e.fallback = true ∨ l.legB = none
            ∨ ∀ leg d, l.legAt pos.other = some leg → descOf s.mu.slots l.region = some d → leg ∉ d.body.legs) →
          let answered := ∃ e', t.ift.entries = [e'] ∧ e'.slot = e.slot ∧ e'.code = some .slverr
          (∀ o, p.outstanding = [o] → p.waiting = [] → o.timer.isSome = true → o.req.kind = .read →
            o.req.requester = .host e.slot (.current pos) → StaysActive s lane 256 →
            answered ∧ t.log = takeRecord s.mu.generation
              { kind := .laneTimeout, lane := some lane, region := e.region, hostLine := some e.line
                laneLine := some o.req.line, id := some e.id } s.log)
          ∧ (∀ w, p.outstanding = [] → p.waiting = [w] → w.req.kind = .read →
            w.req.requester = .host e.slot (.current pos) → answered ∧ t.log = s.log))
      ∧ (∀ h j stop o part i, s.ift.entries = [] → s.mu.commit.drain = none → s.engine.queue = [] →
          runningJob s.engine = some (h, j) → j.life = .running (some stop) → s.engine.stopping = true →
          p.outstanding = [o] → p.waiting = [] → o.timer.isSome = true →
          o.req.requester = .engine part i → engineOpen s.lanes = 1 → StaysActive s lane 256 →
          t.engine.running = none ∧ t.engine.lock = none ∧ t.engine.blockStep = none
          ∧ (jobOf t.engine h).map Job.life = some (.finished stop.outcome))

/-- At the bridge reset drain limit every entry has its outcome (02_host_port_and_in_flight_table.md section 2.6).
In every powered state in ENTRY_DRAIN with its timer running, ENTRY_DRAIN_TIMEOUT answers a next state in
which every entry of the table has a response code and the same entries stand in the same order, the timer is
stopped and the sequence has left ENTRY_DRAIN. With no commit draining, every entry whose outcome was not
known has SLVERR. No lane error is counted or weighed, and the configuration and the link are unchanged. -/
def Obligations.EntryDrainExpiryAnswersEveryEntry : Prop :=
  ∀ s : State, s.porst = false → s.hp.seq = .entryDrain → s.hp.entryTimer.isSome = true →
    ∃ t, exec .entryDrainTimeout s = .next t
      ∧ identities t = identities s ∧ (∀ e ∈ t.ift.entries, e.code ≠ none)
      ∧ t.hp.entryTimer = none ∧ t.hp.seq ≠ .entryDrain
      ∧ (s.mu.commit.drain = none → ∀ e ∈ s.ift.entries, e.code = none →
          ∃ e' ∈ t.ift.entries, e'.identity = e.identity ∧ e'.code = some .slverr)
      ∧ (∀ k : Lane, errorCounts t k = errorCounts s k ∧ budgetOf t k = budgetOf s k)
      ∧ configuration t = configuration s ∧ t.link = s.link

/-- Drain completion taken installs every member of the commit set and nothing else; the drain limit ends the
commit with nothing installed (04_staging_and_commit.md section 4.6). Completion. In every powered state with
a commit draining that is not stale and whose span counts no entry any more, with the members of its set in
distinct slots of the map: COMMIT_COMPLETION_TAKEN gives each member's slot the staged valid and body with
degraded cleared, the job as it was and the revision raised by one, leaves every other slot, raises the
generation by one, and ends the commit DONE with its span closed. The staging map, the entries in the table,
the configuration and the link are unchanged, and no lane error is counted or weighed. Limit. In every powered
state with a commit draining, COMMIT_DRAIN_TIMEOUT ends it: the record is IDLE with last result TIMEOUT, its
drain span is closed, and the active map with its revisions, the generation and the staging map are unchanged.
In OPEN the log takes exactly the COMMIT_FINISHED notice with the lowest slot of the set. The entries in the
table stay, no lane error is counted or weighed, and the configuration and the link are unchanged. -/
def Obligations.CommitDrainEndsInstalledOrTimedOut : Prop :=
  (∀ (s : State) (d : CommitDrain) (sp : Span), s.porst = false → s.mu.commit.drain = some d →
    d.stale = false → s.ift.commitSpan = some sp → sp.counted = [] →
    (d.members.map CommitMember.slot).Nodup → (∀ m ∈ d.members, m.slot < s.mu.slots.length) →
    ∃ t, exec .commitCompletionTaken s = .next t
      ∧ (∀ m ∈ d.members, t.mu.slots[m.slot]? = some
          { desc := m.body.map fun b =>
              { body := b, degraded := false, job := (descOf s.mu.slots m.slot).bind Descriptor.job }
            revision := revisionOf s.mu.slots m.slot + 1 })
      ∧ (∀ i, (∀ m ∈ d.members, m.slot ≠ i) → t.mu.slots[i]? = s.mu.slots[i]?)
      ∧ t.mu.generation = s.mu.generation + 1 ∧ t.mu.staging = s.mu.staging
      ∧ t.mu.commit = { drain := none, last := .done } ∧ t.ift.commitSpan = none
      ∧ identities t = identities s
      ∧ (∀ k : Lane, errorCounts t k = errorCounts s k ∧ budgetOf t k = budgetOf s k)
      ∧ configuration t = configuration s ∧ t.link = s.link)
  ∧ (∀ (s : State) (d : CommitDrain), s.porst = false → s.mu.commit.drain = some d →
    ∃ t, exec .commitDrainTimeout s = .next t
      ∧ t.mu.commit = { drain := none, last := .timeout } ∧ t.ift.commitSpan = none
      ∧ t.mu.slots = s.mu.slots ∧ t.mu.generation = s.mu.generation ∧ t.mu.staging = s.mu.staging
      ∧ (∀ m rest, d.members = m :: rest → s.hp.seq = .opened →
          t.log = takeNotice s.mu.generation (.commitFinished m.slot .timeout) s.log)
      ∧ identities t = identities s
      ∧ (∀ k : Lane, errorCounts t k = errorCounts s k ∧ budgetOf t k = budgetOf s k)
      ∧ configuration t = configuration s ∧ t.link = s.link)

/-- A switch drain ends with its target installed at completion, or with nothing installed when it is refused,
stopped or expires (01_the_region_map.md section 1.8, 05_jobs_and_the_copy_engine.md sections 5.4 and 5.6,
06_relocation.md section 6.5). In every powered state with a job running whose switch span is open and no
commit stale, with nothing queued, or with a QUEUED job of another region at the head that passes its start
checks (as FailedStartChecksFinishTheJob says) and, when it starts in SWITCH, with an entry in its host range
or nothing behind it. At SWITCH_TIMER_EXPIRY nothing is installed: the job finishes with its stop request's
outcome, or FAILED SWITCH_TIMEOUT when it has none. At SWITCH_COMPLETION_TAKEN with nothing counted: a job
with a stop request finishes with its outcome and nothing is installed; a relocation with none finishes FAILED
TARGET_LEG_LOST when a kept leg is no longer a leg of the descriptor, else FAILED TARGET_RETIRED when its
MIRROR target has a leg on a RETIRED lane, both with nothing installed; else the slot takes the target's legs
and read preference, degraded is cleared, its revision and the generation rise by one, and the job finishes
DONE. Every way, the job leaves the slot's job field, JOB_FINISHED is posted, and the head of the queue, if
any, has left it and runs in its first phase at cursor 0; a head without a shadow leg has entered SWITCH
(NextRuns, EntersSwitch): its drain is open, or with no entry in its host range it is installed and DONE in
the same event. Without such a head the timer is stopped and no span is open. No other slot's body or revision
changes. -/
def Obligations.SwitchDrainEndsInstalledOrTimedOut : Prop :=
  ∀ (s : State) (h : Nat) (j : Job) (sp : Span), s.porst = false → runningJob s.engine = some (h, j) →
    (s.mu.commit.drain.any fun c => c.stale) = false → s.ift.switchSpan = some sp →
    QueueReady s s.engine.queue [h] [j.region] →
    (∀ k i, s.engine.queue.head? = some k → jobOf s.engine k = some i → i.region ≠ j.region) →
    let ends := fun (outcome : JobOutcome) (generation : Count16) (t : State) =>
      jobOf t.engine h = some { j with life := .finished outcome }
      ∧ (descOf t.mu.slots j.region).bind Descriptor.job ≠ some h
      ∧ NextRuns s t s.engine.queue generation
          (takeNotice generation (.jobFinished h outcome.kind) s.log)
      ∧ identities t = identities s
    let fails := fun (outcome : JobOutcome) (t : State) =>
      ends outcome s.mu.generation t ∧ KeepsMap s t (SwitchHead s s.engine.queue)
    (∀ stop, j.life = .running stop → s.engine.switchTimer.isSome = true →
      ∃ t, exec .switchTimerExpiry s = .next t
        ∧ fails
            (match stop with
              | none => .failed .switchTimeout none
              | some r => r.outcome) t)
    ∧ (sp.counted = [] →
      (∀ stop, j.life = .running (some stop) → ∃ t, exec .switchCompletionTaken s = .next t
        ∧ fails stop.outcome t)
      ∧ (∀ target keptA keptB verify m d, j.life = .running none →
        j.work = .relocate target keptA keptB verify → s.mu.slots[j.region]? = some m → m.desc = some d →
        let kept := ∀ leg ∈ j.work.kept, leg ∈ d.body.legs
        let retired := target.legB ≠ none
          ∧ ∃ leg ∈ target.legs, (s.health.lanes.get leg.lane).state = .retired
        (¬kept → ∃ t, exec .switchCompletionTaken s = .next t ∧ fails (.failed .targetLegLost none) t)
        ∧ (kept → retired → ∃ t, exec .switchCompletionTaken s = .next t
          ∧ fails (.failed .targetRetired none) t)
        ∧ (kept → ¬retired → ∃ t, exec .switchCompletionTaken s = .next t
          ∧ ends .done (s.mu.generation + 1) t
          ∧ t.mu.slots[j.region]? = some
              { desc := some
                  { body := { d.body with legA := target.legA, legB := target.legB, pref := target.pref }
                    degraded := false, job := if d.job = some h then none else d.job }
                revision := m.revision + 1 }
          ∧ (∀ i : Nat, i ≠ j.region → ¬SwitchHead s s.engine.queue i →
              t.mu.slots[i]? = s.mu.slots[i]?))))

/-- A queued job whose start check fails finishes FAILED without starting, and the next head is taken in the same
event (05_jobs_and_the_copy_engine.md sections 5.4 and 5.6, 06_relocation.md section 6.5). A job passes its
start checks when it is a relocation of which every kept leg is a leg of the region's descriptor, no shadow
leg lies on a RETIRED lane and, for a MIRROR target, no kept leg does, or an audit of a region that is MIRROR.
The first check that fails gives the reason: TARGET_LEG_LOST, TARGET_RETIRED, REGION_DEGRADED. In every
powered state in OPEN with a job running in SWITCH without a stop request, its span open and its timer
running, no commit stale, and a QUEUED job that fails a check at the head of the queue, behind it none or one
of another handle that passes and, when it starts in SWITCH, is of neither region, with an entry in its host
range or nothing behind it: at SWITCH_TIMER_EXPIRY the running job finishes FAILED SWITCH_TIMEOUT, and in the
same event that head leaves the queue and finishes FAILED with the reason and no detail, has never run (its
phase and cursor are as they were), its region's job field names it no more, and the next head, if any, has
left the queue and runs in its first phase at cursor 0, or, without a shadow leg, has entered SWITCH
(NextRuns). The log has taken JOB_FINISHED for the running job, then for that head, then for the next one when
its switch is complete in this event, and nothing else. -/
def Obligations.FailedStartChecksFinishTheJob : Prop :=
  (∀ (s : State) (i : Job) (d : Descriptor), descOf s.mu.slots i.region = some d →
    let retired := fun leg : Leg => (s.health.lanes.get leg.lane).state = .retired
    (∀ target keptA keptB verify, i.work = .relocate target keptA keptB verify →
      let lost := ∃ leg ∈ i.work.kept, leg ∉ d.body.legs
      let out := (∃ leg ∈ i.work.shadows, retired leg)
        ∨ (target.legB ≠ none ∧ ∃ leg ∈ i.work.kept, retired leg)
      (lost → startCheck i s = some .targetLegLost) ∧ (¬lost → out → startCheck i s = some .targetRetired)
      ∧ (¬lost → ¬out → startCheck i s = none))
    ∧ (∀ repair mismatches repaired, i.work = .audit repair mismatches repaired →
      (d.body.legB = none → startCheck i s = some .regionDegraded)
      ∧ (d.body.legB ≠ none → startCheck i s = none)))
  ∧ (∀ (s : State) (h k : Nat) (j i : Job) (sp : Span) (reason : Reason) (rest : List Nat), s.porst = false →
    s.hp.seq = .opened → runningJob s.engine = some (h, j) → j.life = .running none →
    (s.mu.commit.drain.any fun c => c.stale) = false → s.ift.switchSpan = some sp →
    s.engine.switchTimer.isSome = true → s.engine.queue = k :: rest → k ≠ h → jobOf s.engine k = some i →
    startCheck i s = some reason →
    QueueReady s rest [h, k] [j.region, i.region] →
    ∃ t, exec .switchTimerExpiry s = .next t
      ∧ jobOf t.engine h = some { j with life := .finished (.failed .switchTimeout none) }
      ∧ jobOf t.engine k = some { i with life := .finished (.failed reason none) }
      ∧ (descOf t.mu.slots i.region).bind Descriptor.job ≠ some k
      ∧ NextRuns s t rest s.mu.generation (takeNotice s.mu.generation (.jobFinished k .failed)
          (takeNotice s.mu.generation (.jobFinished h .failed) s.log))
      ∧ KeepsMap s t (SwitchHead s rest)
      ∧ identities t = identities s)

/-- A drain tick lowers every budget above 0 and evaluates those lanes; an evaluation takes the first case that
applies (08_lane_health_and_retirement.md sections 8.1 and 8.2). In every powered state with the drain timer
running, DRAIN_TICK lowers every budget above 0 by one, leaves those at 0, and restarts the timer at the
interval; each lane whose budget fell has the state the evaluation gives it at its new budget, and the others
keep theirs; the entries, the error counters, the configuration and the link are unchanged. An evaluation of a
lane makes it RETIRED at the retire threshold, SUSPECT from ACTIVE at the suspect threshold, ACTIVE from
SUSPECT below half of it, and leaves it otherwise; it changes no other lane's state, and no budget. -/
def Obligations.DrainTickLowersBudgetsAndEvaluates : Prop :=
  (∀ s : State, s.porst = false → s.health.drainTimer.isSome = true →
    ∃ t, exec .drainTick s = .next t
      ∧ (∀ n : Lane, budgetOf t n = budgetOf s n - 1)
      ∧ (∀ n : Lane, (t.health.lanes.get n).state =
          if 0 < budgetOf s n then
            evaluatedState s.health.suspect s.health.retire (budgetOf s n - 1) (s.health.lanes.get n).state
          else (s.health.lanes.get n).state)
      ∧ t.health.drainTimer = some s.health.interval
      ∧ (∀ n : Lane, errorCounts t n = errorCounts s n)
      ∧ identities t = identities s ∧ configuration t = configuration s ∧ t.link = s.link)
  ∧ (∀ (lane : Lane) (s : State),
    let h := s.health.lanes.get lane
    ((evaluateLane lane s).health.lanes.get lane).state =
      (match h.state with
        | .active =>
          if s.health.retire ≤ h.budget then .retired
          else if s.health.suspect ≤ h.budget then .suspect else .active
        | .suspect =>
          if s.health.retire ≤ h.budget then .retired
          else if 2 * h.budget < s.health.suspect then .active else .suspect
        | .retired => .retired
        | .offline => .offline)
    ∧ (∀ n : Lane, n ≠ lane →
        ((evaluateLane lane s).health.lanes.get n).state = (s.health.lanes.get n).state)
    ∧ (∀ n : Lane, budgetOf (evaluateLane lane s) n = budgetOf s n))

/-- A fetch frame shifts the head response out on MISO bit by bit, and removes it exactly when all its bytes were
clocked out whole (10_the_management_link.md sections 10.2 and 10.3). The bits of a response that MISO took,
each byte most significant bit first, stand in the model's own field miso (log entry 16); every other bit of a
frame is 0. In every powered state, a fetch frame that clocks some bits after its marker: on an empty FIFO it
drives 0x00 for every byte and changes nothing but the link's framing state and that field; on a FIFO with a
head of m payload bytes it drives 0x96, the code, the tag, the status, m, the payload and the check code, then
0x00, bit by bit, whole bytes or not, with one bit more after the last fall of SCLK (log entry 16), removes
the head when at least 7 + m whole bytes were clocked, and otherwise leaves the FIFO as it was. The first byte
of the frame, under which the marker arrives, carries 0x00. A byte clocked whole is given as a byte too. -/
def Obligations.FetchRemovesTheHeadWhenClockedWhole : Prop :=
  ∀ (bits : Nat) (s : State), s.porst = false →
    (s.link.fifo = [] → exec (.fetchFrame bits) s = .next
      { s with link := { s.link with framing := .idle, miso := [] } })
    ∧ (∀ r rest, s.link.fifo = r :: rest →
      let bytes := [0x96, r.code, r.tag, statusCode r.status, BitVec.ofNat 8 r.payload.length] ++ r.payload
        ++ byte2 r.crc.toNat
      (7 + r.payload.length ≤ bits / 8 → exec (.fetchFrame bits) s = .next
        { s with link := { s.link with framing := .idle, fifo := rest, miso := bitsOf bytes } })
      ∧ (bits / 8 < 7 + r.payload.length → exec (.fetchFrame bits) s = .next
        { s with link := { s.link with framing := .idle, miso := (bitsOf bytes).take (bits + 1) } })
      ∧ ∃ t, exec (.fetchFrame bits) s = .next t ∧ t.link.misoByte 0 = 0x00
        ∧ (∀ k, k < 8 → t.link.misoBit k = false)
        ∧ (∀ k, k ≤ bits → t.link.misoBit (8 + k) = ((bytes[k / 8]?).getD 0x00).getMsbD (k % 8))
        ∧ (∀ i, i < bits / 8 → t.link.misoByte (i + 1) = (bytes[i]?).getD 0x00))

/-- The check code, and frames that carry no command out: each is counted once, by the first test it fails, and
MISO carries 0x00 (10_the_management_link.md sections 10.1 and 10.2). The check code over the nine bytes 0x31
to 0x39 is 0x29B1. In every powered state: a frame of fewer than 8 bits counts nothing; a frame whose first
byte is neither marker counts one framing error; bytes after the command marker that are not a code, a tag, a
length n of at most 56, n payload bytes and two check bytes, or that leave bits over, count one framing error;
a frame of that shape whose check bytes differ from the check code counts one check error; every sound command
frame that finds 4 responses in the FIFO counts one overrun, as the bytes of DISCARDED_COMMAND_FRAME, for
which R165 says so, or as a row of a management command (log entry 18); and, with room in the FIFO, a sound
frame whose code names no command is answered UNKNOWN_COMMAND with no payload. In each case the link is then
in IDLE, MISO has carried 0x00 for every byte (the model's field miso is empty, log entry 16), and nothing
else changes. That the unknown-command row carries a known code's frame too is log entry 17. -/
def Obligations.DroppedAndDiscardedFramesAreCounted : Prop :=
  checkCode [0x31, 0x32, 0x33, 0x34, 0x35, 0x36, 0x37, 0x38, 0x39] = 0x29B1#16
  ∧ (∀ (bits : Fin 8) (s : State), s.porst = false →
    exec (.shortFrame bits) s = .next { s with link := { s.link with framing := .idle, miso := [] } })
  ∧ (∀ (first : Byte) (s : State), s.porst = false → first ≠ 0x3C → first ≠ 0xC3 →
    exec (.ignoreFrame first) s = .next
      { s with link := { s.link with
          framing := .idle, framingErrors := bump s.link.framingErrors, miso := [] } })
  ∧ (∀ (bytes : List Byte) (extra : Nat) (s : State), s.porst = false →
    (¬∃ code tag len rest, bytes = code :: tag :: len :: rest ∧ len.toNat ≤ 56
        ∧ rest.length = len.toNat + 2 ∧ extra = 0) →
    exec (.discardedCommandFrame bytes extra) s = .next
      { s with link := { s.link with
          framing := .idle, framingErrors := bump s.link.framingErrors, miso := [] } })
  ∧ (∀ (code tag len hi lo : Byte) (payload : List Byte) (s : State), s.porst = false →
    payload.length = len.toNat → len.toNat ≤ 56 →
    hi.toNat * 256 + lo.toNat ≠ (checkCode ([code, tag, len] ++ payload)).toNat →
    exec (.discardedCommandFrame ([code, tag, len] ++ payload ++ [hi, lo]) 0) s = .next
      { s with link := { s.link with
          framing := .idle, checkErrors := bump s.link.checkErrors, miso := [] } })
  ∧ (∀ (code tag len hi lo : Byte) (payload : List Byte) (s : State), s.porst = false →
    payload.length = len.toNat → len.toNat ≤ 56 →
    hi.toNat * 256 + lo.toNat = (checkCode ([code, tag, len] ++ payload)).toNat → 4 ≤ s.link.fifo.length →
    exec (.discardedCommandFrame ([code, tag, len] ++ payload ++ [hi, lo]) 0) s = .next
      { s with link := { s.link with framing := .idle, overruns := bump s.link.overruns, miso := [] } })
  ∧ (∀ (c : Instr) (code tag : Byte) (payload : List Byte) (s : State),
    frameOf c = some (code, tag, payload) → s.porst = false → payload.length ≤ 56 →
    4 ≤ s.link.fifo.length →
    exec c s = .next
      { s with link := { s.link with framing := .idle, overruns := bump s.link.overruns, miso := [] } })
  ∧ (∀ (l : Link) (i : Nat), l.miso = [] → l.misoByte i = 0x00 ∧ l.misoBit i = false)
  ∧ (∀ (code tag : Byte) (payload : List Byte) (s : State), LinkReady s → code ∉ knownCodes →
    payload.length ≤ 56 →
    exec (.unknownCommand code tag payload) s = .next (answered code tag .unknownCommand [] s))

/-- A sound command frame appends exactly one sound response with its code and tag (10_the_management_link.md
section 10.2). For every command row that is a sound frame of at most 56 payload bytes, in every powered state
with room in the response FIFO: the command completes, one response is appended at the tail of the FIFO with
the frame's code and tag, at most 56 payload bytes and the check code over its bytes, the link is in IDLE,
MISO has carried 0x00 throughout the frame (the model's field miso is empty, log entry 16), and the responses
before it and the three link counters are as they were. That the unknown-command row carries a known code's
frame too is log entry 17. -/
def Obligations.EveryCommandFrameAppendsOneResponse : Prop :=
  ∀ (c : Instr) (code tag : Byte) (payload : List Byte) (s : State),
    frameOf c = some (code, tag, payload) → payload.length ≤ 56 → LinkReady s →
    ∃ t r, exec c s = .next t
      ∧ t.link = { s.link with framing := .idle, fifo := s.link.fifo ++ [r], miso := [] }
      ∧ r.code = code ∧ r.tag = tag ∧ r.Sound

/-- IDENTIFY, HOST_COUNTERS_READ and FAULT_STATUS answer the part and its counts, and change nothing (R169, R37,
R155). With room in the FIFO, IDENTIFY without payload is answered OK with part code 4420, revision 1, the
latched strap, and 64 map slots, 48 entries, 4 lanes, 16 credits, 16 upstream IDs, 8 job slots, 32 records, 16
notices, 4 responses and 56 payload bytes, in every state of the reset sequence; it changes nothing but the
link. With a payload it is answered BAD_ARGUMENT. With room in the FIFO, at any state of the reset sequence:
HOST_COUNTERS_READ without payload is answered OK with the unmapped, malformed and read-only counters (4 bytes
each, high byte first) and the number of entries in the table; with a payload it is answered BAD_ARGUMENT.
FAULT_STATUS is answered OK with the number of records, the overflow count and the next sequence number.
Nothing but the link changes. -/
def Obligations.IdentifyAndCountReads : Prop :=
  (∀ (tag : Byte) (s : State), LinkReady s →
    exec (.identify tag []) s = .next (answered 0x01 tag .ok
      [0x11, 0x44, 1, s.strap.setWidth 8, 64, 48, 4, 16, 16, 8, 32, 16, 4, 56] s)
    ∧ (∀ b rest, (b :: rest).length ≤ 56 →
        exec (.identify tag (b :: rest)) s = .next (answered 0x01 tag .badArgument [] s)))
  ∧ (∀ (tag : Byte) (s : State), LinkReady s →
    exec (.hostCountersRead tag []) s = .next (answered 0x18 tag .ok
      (byte4 s.hp.unmapped ++ byte4 s.hp.malformed ++ byte4 s.hp.readOnly ++ byte1 s.ift.entries.length) s)
    ∧ (∀ b rest, (b :: rest).length ≤ 56 →
        exec (.hostCountersRead tag (b :: rest)) s = .next (answered 0x18 tag .badArgument [] s))
    ∧ exec (.faultStatus tag []) s = .next (answered 0x51 tag .ok
        (byte1 s.log.ring.length ++ byte1 s.log.overflow ++ byte2 s.log.nextSeq.toNat) s))

/-- STATUS_READ and LINK_COUNTERS_READ answer what the blocks hold (10_the_management_link.md sections 10.4,
10.6.7 and 10.6.6). With room in the FIFO and the laws of the log, the table, the link and the sizes:
STATUS_READ is answered OK with 23 bytes whose fields, at the places of 10.6.7, are the generation, whether a
commit drains, its last result and the members of its set (0 when none drains), the occupied slots, the lane
states, the running handle and its phase (0xFF when absent), the QUEUED, FINISHED and FREE job slots, the
valid, degraded and at-risk regions, the ring, overflow and notice counts, the lost flag and the sequence
state; the job counts sum to 8 with the running jobs. LINK_COUNTERS_READ is answered OK with 12 bytes that are
the three counters. Neither changes anything but the link. -/
def Obligations.StatusAndCounterSnapshots : Prop :=
  ∀ (tag : Byte) (s : State), LinkReady s →
    (s.log.Wf → s.ift.Wf → SizesWf s → ∃ b, exec (.statusRead tag []) s = .next (answered 0x02 tag .ok b s)
      ∧ b.length = 23 ∧ fieldAt b 0 2 = s.mu.generation.toNat
      ∧ fieldAt b 2 1 = (if s.mu.commit.drain.isSome then 1 else 0)
      ∧ (s.mu.commit.drain = none → fieldAt b 4 1 = 0)
      ∧ (∀ c, s.mu.commit.drain = some c → c.members.length ≤ 64 → fieldAt b 4 1 = c.members.length)
      ∧ fieldAt b 3 1 = commitResultCode s.mu.commit.last ∧ fieldAt b 5 1 = s.ift.entries.length
      ∧ fieldAt b 6 1 = laneStateCode (s.health.lanes.get .l0).state
      ∧ fieldAt b 7 1 = laneStateCode (s.health.lanes.get .l1).state
      ∧ fieldAt b 8 1 = laneStateCode (s.health.lanes.get .l2).state
      ∧ fieldAt b 9 1 = laneStateCode (s.health.lanes.get .l3).state
      ∧ (s.engine.running = none → fieldAt b 10 1 = 0xFF ∧ fieldAt b 11 1 = 0xFF)
      ∧ (∀ h, s.engine.running = some h → h < 8 → fieldAt b 10 1 = h)
      ∧ (∀ h j, runningJob s.engine = some (h, j) → fieldAt b 11 1 =
          (match j.phase with
            | none => 0xFF
            | some phase => phaseCode phase))
      ∧ fieldAt b 12 1 = (s.engine.jobs.filter fun j => j.any Job.isQueued).length
      ∧ fieldAt b 13 1 = (s.engine.jobs.filter fun j => j.any Job.isFinished).length
      ∧ fieldAt b 14 1 = (s.engine.jobs.filter fun j => j.isNone).length
      ∧ fieldAt b 15 1 = (s.mu.slots.filter fun m => m.desc.isSome).length
      ∧ fieldAt b 16 1 = (s.mu.slots.filter fun m => m.desc.any fun d => d.degraded).length
      ∧ fieldAt b 17 1 = (s.mu.slots.filter fun m => m.desc.any fun d => d.body.legs.any fun leg =>
          (s.health.lanes.get leg.lane).state == .retired).length
      ∧ fieldAt b 12 1 + fieldAt b 13 1 + fieldAt b 14 1
          + (s.engine.jobs.filter fun j => j.any fun j => j.life.live && !j.isQueued).length = 8
      ∧ fieldAt b 18 1 = s.log.ring.length ∧ fieldAt b 19 1 = s.log.overflow
      ∧ fieldAt b 20 1 = s.log.notices.length ∧ fieldAt b 21 1 = (if s.log.lost then 1 else 0)
      ∧ fieldAt b 22 1 = seqCode s.hp.seq)
    ∧ (s.link.Wf → ∃ b, exec (.linkCountersRead tag []) s = .next (answered 0x03 tag .ok b s)
      ∧ b.length = 12 ∧ fieldAt b 0 4 = s.link.checkErrors ∧ fieldAt b 4 4 = s.link.framingErrors
      ∧ fieldAt b 8 4 = s.link.overruns)

/-- LANE_READ and JOB_READ answer what the lane port and the job slot hold (03_lane_ports.md section 3.1,
05_jobs_and_the_copy_engine.md section 5.7, 10_the_management_link.md sections 10.6.2, 10.6.5 and 10.6.6).
With room in the FIFO: LANE_READ of a lane within its laws and ranges is answered OK with 41 bytes whose
fields, at the places of 10.6.2, are the lane, capacity, timeout, lane state, budget, free credits, issued and
TIMED_OUT requests, the host-side and engine-side requests that wait (fewer than 256 in all), the reclaimed
numbers, whether it quiesces, and the six counters. JOB_READ of a FREE slot is answered OK with the handle,
state 0 and 35 bytes 0xFF; of a used slot with 37 bytes whose fields are the handle, state, kind and region;
for a RELOCATE its target (which reads back) and which legs are kept, and 0xFF at the counts; for an AUDIT
0xFF at those places, and its two counts; the flags (verify, repair, and for the running job the lock and the
stopping flag), the block count, the phase (0xFF when absent), the cursor, the stop request, the outcome, and
the failure reason and detail (0xFF when absent). That a RELOCATE has 0xFF at its count bytes 25 to 28, and an
AUDIT 0xFF at its target and kept bytes 4 to 14, is the DEDUCED reading of log entry 13. Neither changes
anything but the link. -/
def Obligations.LaneAndJobSnapshots : Prop :=
  ∀ (tag : Byte) (s : State), LinkReady s →
    (∀ (payload : List Byte) (n : Lane), parseLane payload = some n → (s.lanes.get n).Wf →
      (s.lanes.get n).Configured → s.health.Wf →
      ∃ b, exec (.laneRead tag payload) s = .next (answered 0x31 tag .ok b s)
        ∧ b.length = 41 ∧ fieldAt b 0 1 = laneCode n ∧ fieldAt b 1 3 = (s.lanes.get n).capacity
        ∧ fieldAt b 4 2 = (s.lanes.get n).timeout
        ∧ fieldAt b 6 1 = laneStateCode (s.health.lanes.get n).state ∧ fieldAt b 7 2 = budgetOf s n
        ∧ fieldAt b 9 1 + fieldAt b 10 1 = 16 ∧ fieldAt b 10 1 = (s.lanes.get n).outstanding.length
        ∧ fieldAt b 11 1 = ((s.lanes.get n).outstanding.filter fun o => o.timer.isNone).length
        ∧ ((s.lanes.get n).waiting.length < 256 →
            fieldAt b 12 1 = ((s.lanes.get n).waiting.filter fun w => !w.req.fromEngine).length
            ∧ fieldAt b 13 1 = ((s.lanes.get n).waiting.filter fun w => w.req.fromEngine).length)
        ∧ fieldAt b 14 2 = (s.lanes.get n).reclaimed.length
        ∧ fieldAt b 16 1 = (if (s.lanes.get n).quiesce.isSome then 1 else 0)
        ∧ fieldAt b 17 4 = (s.lanes.get n).counters.readsIssued
        ∧ fieldAt b 21 4 = (s.lanes.get n).counters.writesIssued
        ∧ fieldAt b 25 4 = (s.lanes.get n).counters.readErrors
        ∧ fieldAt b 29 4 = (s.lanes.get n).counters.writeErrors
        ∧ fieldAt b 33 4 = (s.lanes.get n).counters.timeouts
        ∧ fieldAt b 37 4 = (s.lanes.get n).counters.lateResponses)
    ∧ (∀ (payload : List Byte) (h : Nat), parseHandle payload = some h →
      (jobOf s.engine h = none → exec (.jobRead tag payload) s = .next
        (answered 0x43 tag .ok ([BitVec.ofNat 8 h, 0] ++ List.replicate 35 0xFF) s))
      ∧ (∀ j, jobOf s.engine h = some j → j.region < 64 → j.blockCount < 2 ^ 32 → j.cursor < 2 ^ 32 →
        ∃ b, exec (.jobRead tag payload) s = .next (answered 0x43 tag .ok b s)
          ∧ b.length = 37 ∧ fieldAt b 0 1 = h
          ∧ fieldAt b 1 1 = (match j.life with
              | .queued => 1
              | .running _ => 2
              | .finished _ => 3)
          ∧ fieldAt b 3 1 = j.region ∧ fieldAt b 16 4 = j.blockCount ∧ fieldAt b 21 4 = j.cursor
          ∧ (∀ target keptA keptB verify, j.work = .relocate target keptA keptB verify →
              fieldAt b 2 1 = 0 ∧ sliceOf b 25 4 = List.replicate 4 0xFF
              ∧ fieldAt b 14 1 = (if keptA then 1 else 0) + (if keptB then 2 else 0)
              ∧ ((∀ leg ∈ target.legs, leg.base < 2 ^ 24) → parseTarget (sliceOf b 4 10) = some target))
          ∧ (∀ repair mismatches repaired, j.work = .audit repair mismatches repaired →
              fieldAt b 2 1 = 1 ∧ sliceOf b 4 11 = List.replicate 11 0xFF
              ∧ (mismatches < 65536 → fieldAt b 25 2 = mismatches)
              ∧ (repaired < 65536 → fieldAt b 27 2 = repaired))
          ∧ fieldAt b 15 1 =
              (match j.work with
                | .relocate _ _ _ verify => if verify then 1 else 0
                | .audit repair _ _ => if repair then 2 else 0)
              + (if s.engine.running = some h ∧ s.engine.lock ≠ none then 4 else 0)
              + (if s.engine.running = some h ∧ s.engine.stopping = true then 8 else 0)
          ∧ fieldAt b 20 1 = (match j.phase with
              | none => 0xFF
              | some phase => phaseCode phase)
          ∧ fieldAt b 29 1 = (match j.life with
              | .running (some .cancel) => 1
              | .running (some .reset) => 2
              | .running (some (.failed _ _)) => 3
              | _ => 0)
          ∧ fieldAt b 30 1 = (match j.life with
              | .finished outcome => outcomeCode outcome.kind
              | _ => 0xFF)
          ∧ (let failure : Option (Reason × Option Detail) :=
              match j.life with
              | .running (some (.failed reason detail)) => some (reason, detail)
              | .finished (.failed reason detail) => some (reason, detail)
              | _ => none
             fieldAt b 31 1 = (match failure with
                | none => 0xFF
                | some (reason, _) => reasonCode reason)
             ∧ (failure.bind Prod.snd = none → sliceOf b 32 5 = List.replicate 5 0xFF)
             ∧ (∀ detail, failure.bind Prod.snd = some detail → detail.line < 2 ^ 32 →
                 fieldAt b 32 1 = laneCode detail.lane ∧ fieldAt b 33 4 = detail.line))))

/-- Counters are cleared, and the drain limit, engine share and alert mask read and set, as their commands say
(02_host_port_and_in_flight_table.md sections 2.5 and 2.6, 03_lane_ports.md sections 3.3 and 3.8,
09_fault_records_notices_and_the_alert_line.md section 9.5). With room in the FIFO. HOST_COUNTERS_CLEAR
without payload: in OPEN the three host counters become 0 and it is answered OK; otherwise RESETTING; with a
payload BAD_ARGUMENT. LANE_COUNTERS_CLEAR of one lane 0 to 3, or of all with 0xFF: in OPEN the six counters of
each named lane become 0 and it is answered OK; otherwise RESETTING; any other payload BAD_ARGUMENT.
DRAIN_LIMIT_SET and ARBITER_CONFIG without payload answer the value in force at any time; with a value in
range (1 to 65,535 µs; 1 to 15) they set it in OPEN and answer it, and are answered RESETTING otherwise; a
limit of 0 and a share of 0 or above 15 are answered BAD_ARGUMENT. ALERT_MASK without payload answers the
mask; with a mask below 64 it sets it at any time, answers it, and re-evaluates ALERT_N; a mask of 64 or more
is answered BAD_ARGUMENT. Nothing else changes. -/
def Obligations.CounterClearsAndSettings : Prop :=
  (∀ (tag : Byte) (s : State), LinkReady s →
    (s.hp.seq = .opened → exec (.hostCountersClear tag []) s = .next (answered 0x19 tag .ok []
      { s with hp := { s.hp with unmapped := 0, malformed := 0, readOnly := 0 } }))
    ∧ (s.hp.seq ≠ .opened →
        exec (.hostCountersClear tag []) s = .next (answered 0x19 tag .resetting [] s))
    ∧ (∀ b rest, (b :: rest).length ≤ 56 →
        exec (.hostCountersClear tag (b :: rest)) s = .next (answered 0x19 tag .badArgument [] s))
    ∧ (∀ b : Byte, (b.toNat < 4 ∨ b = 0xFF) →
        (s.hp.seq = .opened → ∃ lanes, exec (.laneCountersClear tag [b]) s = .next
            (answered 0x32 tag .ok [] { s with lanes := lanes })
          ∧ ∀ n : Lane, lanes.get n =
            (if b = 0xFF ∨ laneCode n = b.toNat then
              { s.lanes.get n with counters :=
                  { readsIssued := 0, writesIssued := 0, readErrors := 0, writeErrors := 0
                    timeouts := 0, lateResponses := 0 } }
             else s.lanes.get n))
        ∧ (s.hp.seq ≠ .opened →
            exec (.laneCountersClear tag [b]) s = .next (answered 0x32 tag .resetting [] s)))
    ∧ (∀ payload : List Byte, payload.length ≤ 56 →
        (∀ b, payload = [b] → 4 ≤ b.toNat ∧ b ≠ 0xFF) →
        exec (.laneCountersClear tag payload) s = .next (answered 0x32 tag .badArgument [] s)))
  ∧ (∀ (tag : Byte) (s : State), LinkReady s →
    exec (.drainLimitSet tag []) s = .next (answered 0x05 tag .ok (byte2 s.hp.drainLimit) s)
    ∧ (∀ a b : Byte,
        (a.toNat * 256 + b.toNat = 0 →
          exec (.drainLimitSet tag [a, b]) s = .next (answered 0x05 tag .badArgument [] s))
        ∧ (a.toNat * 256 + b.toNat ≠ 0 → s.hp.seq = .opened →
          exec (.drainLimitSet tag [a, b]) s = .next (answered 0x05 tag .ok [a, b]
            { s with hp.drainLimit := a.toNat * 256 + b.toNat }))
        ∧ (a.toNat * 256 + b.toNat ≠ 0 → s.hp.seq ≠ .opened →
          exec (.drainLimitSet tag [a, b]) s = .next (answered 0x05 tag .resetting [] s)))
    ∧ exec (.arbiterConfig tag []) s = .next (answered 0x33 tag .ok [BitVec.ofNat 8 s.engine.share] s)
    ∧ (∀ b : Byte,
        (b.toNat = 0 ∨ 15 < b.toNat →
          exec (.arbiterConfig tag [b]) s = .next (answered 0x33 tag .badArgument [] s))
        ∧ (1 ≤ b.toNat → b.toNat ≤ 15 → s.hp.seq = .opened →
          exec (.arbiterConfig tag [b]) s = .next (answered 0x33 tag .ok [b]
            { s with engine.share := b.toNat }))
        ∧ (1 ≤ b.toNat → b.toNat ≤ 15 → s.hp.seq ≠ .opened →
          exec (.arbiterConfig tag [b]) s = .next (answered 0x33 tag .resetting [] s)))
    ∧ exec (.alertMask tag []) s = .next (answered 0x54 tag .ok [s.log.mask.setWidth 8] s)
    ∧ (∀ b : Byte,
        (64 ≤ b.toNat → exec (.alertMask tag [b]) s = .next (answered 0x54 tag .badArgument [] s))
        ∧ (b.toNat < 64 → exec (.alertMask tag [b]) s = .next (answered 0x54 tag .ok [b]
            { s with log := { s.log with
                mask := b.setWidth 6
                alert := s.log.lost
                  || s.log.notices.any fun n => (b.setWidth 6).getLsbD (noticeCode n.info) } }))))

/-- MAP_READ and STAGE_READ answer the slot as it stands, and a body's 17 bytes read back as the body
(01_the_region_map.md sections 1.3, 1.4, 1.9 and 1.12, 04_staging_and_commit.md section 4.2,
10_the_management_link.md sections 10.6.2, 10.6.4 and 10.6.6). With room in the FIFO, for a slot 0 to 63:
MAP_READ is answered OK with 26 bytes whose fields are the slot, valid, revision, the body (which reads back
as the descriptor's, or is 17 bytes 0xFF for an invalid slot), degraded, at risk, the job (0xFF when absent)
and the generation; STAGE_READ is answered OK with 24 bytes whose fields are the slot, staged valid, the
staged body, the based-on revision, whether the slot is changed, and the active revision. Neither changes
anything but the link. BYTES. For every body whose base, length and lane bases fit their three-byte fields,
its 17 bytes are 17 in number and parse back as the same body, at every value of every field. -/
def Obligations.MapAndStageSnapshots : Prop :=
  (∀ (tag : Byte) (payload : List Byte) (i : Nat) (s : State), LinkReady s → parseSlot payload = some i →
    let inRange := fun b : Body => b.base < 2 ^ 24 ∧ b.length < 2 ^ 24 ∧ ∀ leg ∈ b.legs, leg.base < 2 ^ 24
    (∃ b, exec (.mapRead tag payload) s = .next (answered 0x10 tag .ok b s)
      ∧ b.length = 26 ∧ fieldAt b 0 1 = i
      ∧ fieldAt b 1 1 = (if (descOf s.mu.slots i).isSome then 1 else 0)
      ∧ fieldAt b 2 2 = (revisionOf s.mu.slots i).toNat ∧ fieldAt b 24 2 = s.mu.generation.toNat
      ∧ (descOf s.mu.slots i = none → sliceOf b 4 17 = List.replicate 17 0xFF ∧ fieldAt b 23 1 = 0xFF)
      ∧ (∀ d, descOf s.mu.slots i = some d → inRange d.body →
          parseBody (sliceOf b 4 17) = some d.body ∧ fieldAt b 21 1 = (if d.degraded then 1 else 0))
      ∧ (∀ d, descOf s.mu.slots i = some d →
          fieldAt b 22 1 = (if d.body.legs.any fun leg =>
            (s.health.lanes.get leg.lane).state == .retired then 1 else 0)
          ∧ (d.job = none → fieldAt b 23 1 = 0xFF) ∧ (∀ h, d.job = some h → h < 8 → fieldAt b 23 1 = h)))
    ∧ (∃ b, exec (.stageRead tag payload) s = .next (answered 0x20 tag .ok b s)
      ∧ b.length = 24 ∧ fieldAt b 0 1 = i
      ∧ fieldAt b 1 1 = (if (stageOf s.mu.staging i).body.isSome then 1 else 0)
      ∧ fieldAt b 19 2 = (stageOf s.mu.staging i).basedOn.toNat
      ∧ fieldAt b 21 1 =
          (if (stageOf s.mu.staging i).body = (descOf s.mu.slots i).map Descriptor.body then 0 else 1)
      ∧ fieldAt b 22 2 = (revisionOf s.mu.slots i).toNat
      ∧ (∀ body, (stageOf s.mu.staging i).body = some body → inRange body →
          parseBody (sliceOf b 2 17) = some body)))
  ∧ (∀ b : Body, b.base < 2 ^ 24 → b.length < 2 ^ 24 → (∀ leg ∈ b.legs, leg.base < 2 ^ 24) →
    (bodyBytes (some b)).length = 17 ∧ parseBody (bodyBytes (some b)) = some b)

/-- STAGE_WRITE and STAGE_REMOVE replace one staging slot, and STAGE_LOAD makes every one equal its active slot
(04_staging_and_commit.md section 4.2). With room in the FIFO, in OPEN and with 64 staging slots: STAGE_WRITE
with a payload that passes its checks gives the slot its body and based-on revision, and STAGE_REMOVE makes it
invalid with the based-on revision given; each is answered OK with whether the slot now differs from the
active slot and the active revision, and nothing else changes. A payload that fails its checks is answered
BAD_ARGUMENT, and a passing one is answered RESETTING outside OPEN, with nothing changed. In OPEN, STAGE_LOAD
without payload gives every staging slot its active slot's valid, body and revision, is answered OK with the
generation, and changes nothing else; afterwards no slot is changed. Outside OPEN it is answered RESETTING,
and with a payload BAD_ARGUMENT, with nothing changed. -/
def Obligations.StagingCommandsSetTheirSlots : Prop :=
  (∀ (tag : Byte) (payload : List Byte) (s : State), LinkReady s → SizesWf s → payload.length ≤ 56 →
    let answer := fun (i : Nat) (body : Option Body) =>
      yesNo (decide (body ≠ (descOf s.mu.slots i).map Descriptor.body))
        ++ byte2 (revisionOf s.mu.slots i).toNat
    (∀ i body revision, parseStageWrite payload = some (i, body, revision) →
      (s.hp.seq = .opened → exec (.stageWrite tag payload) s = .next
        (answered 0x21 tag .ok (answer i (some body))
          { s with mu.staging := s.mu.staging.set i { body := some body, basedOn := revision } }))
      ∧ (s.hp.seq ≠ .opened →
          exec (.stageWrite tag payload) s = .next (answered 0x21 tag .resetting [] s)))
    ∧ (parseStageWrite payload = none →
        exec (.stageWrite tag payload) s = .next (answered 0x21 tag .badArgument [] s))
    ∧ (∀ i hi lo : Byte, payload = [i, hi, lo] →
        (64 ≤ i.toNat →
          exec (.stageRemove tag payload) s = .next (answered 0x22 tag .badArgument [] s))
        ∧ (i.toNat < 64 → s.hp.seq = .opened → exec (.stageRemove tag payload) s = .next
            (answered 0x22 tag .ok (answer i.toNat none)
              { s with mu.staging := s.mu.staging.set i.toNat { body := none, basedOn := hi ++ lo } }))
        ∧ (i.toNat < 64 → s.hp.seq ≠ .opened →
            exec (.stageRemove tag payload) s = .next (answered 0x22 tag .resetting [] s))))
  ∧ (∀ (tag : Byte) (s : State), LinkReady s →
    (s.hp.seq = .opened → ∃ staging : List StageSlot, exec (.stageLoad tag []) s = .next
        (answered 0x23 tag .ok (byte2 s.mu.generation.toNat) { s with mu.staging := staging })
      ∧ staging.length = s.mu.slots.length
      ∧ (∀ (i : Nat) (m : MapSlot), s.mu.slots[i]? = some m →
          staging[i]? = some { body := m.desc.map Descriptor.body, basedOn := m.revision })
      ∧ (∀ i, changedSlot ({ s.mu with staging := staging } : MapUnit) i = false))
    ∧ (s.hp.seq ≠ .opened → exec (.stageLoad tag []) s = .next (answered 0x23 tag .resetting [] s))
    ∧ (∀ b rest, (b :: rest).length ≤ 56 →
        exec (.stageLoad tag (b :: rest)) s = .next (answered 0x23 tag .badArgument [] s)))

/-- MAP_COMMIT answers from the first test that fails, and a refused commit changes nothing
(04_staging_and_commit.md section 4.4, 10_the_management_link.md section 10.6.3). With room in the FIFO,
MAP_COMMIT is refused, in this order of tests and with nothing changed: BAD_ARGUMENT with a payload; RESETTING
outside OPEN; BUSY while a commit drains; NO_CHANGE when no staging slot differs from its active slot;
INVALID_MAP with the check, slot and detail when a structural check fails (which,
StructuralChecksNameTheFirstFailure says); STALE with the lowest changed slot whose based-on revision is not
its active revision; MAP_BUSY with the lowest changed slot whose region has a job, and the job. -/
def Obligations.MapCommitTestsInOrder : Prop :=
  ∀ (tag : Byte) (s : State), LinkReady s →
    let refused := fun (status : Status) (detail : List Byte) =>
      exec (.mapCommit tag []) s = .next (answered 0x24 tag status detail s)
    let changed := fun i : Nat =>
      i < 64 ∧ (stageOf s.mu.staging i).body ≠ (descOf s.mu.slots i).map Descriptor.body
    (∀ b rest, (b :: rest).length ≤ 56 →
      exec (.mapCommit tag (b :: rest)) s = .next (answered 0x24 tag .badArgument [] s))
    ∧ (s.hp.seq ≠ .opened → refused .resetting [])
    ∧ (s.hp.seq = .opened → s.mu.commit.drain ≠ none → refused .busy [])
    ∧ (s.hp.seq = .opened → s.mu.commit.drain = none →
        ((∀ i, ¬changed i) → refused .noChange [])
        ∧ (∀ k, changed k →
          (∀ f, structuralFailure s = some f → refused .invalidMap (failureDetail f))
          ∧ (structuralFailure s = none →
            (∀ i, changed i → (stageOf s.mu.staging i).basedOn ≠ revisionOf s.mu.slots i →
              (∀ m, m < i → changed m → (stageOf s.mu.staging m).basedOn = revisionOf s.mu.slots m) →
              refused .stale [BitVec.ofNat 8 i])
            ∧ ((∀ m, changed m → (stageOf s.mu.staging m).basedOn = revisionOf s.mu.slots m) →
              ∀ i h, changed i → (descOf s.mu.slots i).bind Descriptor.job = some h →
              (∀ m, m < i → changed m → (descOf s.mu.slots m).bind Descriptor.job = none) →
              refused .mapBusy [BitVec.ofNat 8 i, BitVec.ofNat 8 h]))))

/-- An accepted commit installs the staged map at once, or drains the entries of its span first
(04_staging_and_commit.md sections 4.5 and 4.6, 09_fault_records_notices_and_the_alert_line.md section 9.4).
With room in the FIFO, in OPEN with no commit draining, when a slot is changed and every test of MAP_COMMIT
passes: it is answered ACCEPTED with the number of changed slots and of granules in the affected span. With no
entry of the table in the affected span the commit installs in the same event: every changed slot takes its
staged body with degraded clear, no job and its revision raised by one, every other slot is as it was, the
generation rises by one, the commit ends DONE, no staging slot is changed any more, COMMIT_FINISHED is posted
with the lowest slot of the set at the new generation, and the entries of the table stay. With an entry in the
affected span the record drains with the changed slots and the drain limit, the span counts the entries in it,
and the active map is unchanged. -/
def Obligations.AcceptedCommitInstallsOrDrains : Prop :=
  ∀ (tag : Byte) (s : State), LinkReady s → SizesWf s → s.hp.seq = .opened → s.mu.commit.drain = none →
    changedSlots s.mu ≠ [] → structuralFailure s = none → staleSlot s.mu = none → busySlot s.mu = none →
    let bytes := byte1 (changedSlots s.mu).length ++ byte4 (unionSize (affectedRanges s.mu))
    ((∀ e ∈ s.ift.entries, inRanges (affectedRanges s.mu) e.line = false) →
      ∃ t, exec (.mapCommit tag []) s = .next (answered 0x24 tag .accepted bytes t)
      ∧ (∀ i ∈ changedSlots s.mu, t.mu.slots[i]? = some
          { desc := (stageOf s.mu.staging i).body.map fun b => { body := b, degraded := false, job := none }
            revision := revisionOf s.mu.slots i + 1 })
      ∧ (∀ i, i ∉ changedSlots s.mu → t.mu.slots[i]? = s.mu.slots[i]?)
      ∧ t.mu.generation = s.mu.generation + 1 ∧ t.mu.commit = { drain := none, last := .done }
      ∧ (∀ i, changedSlot t.mu i = false) ∧ configuration t = configuration s
      ∧ identities t = identities s
      ∧ (∀ i rest, changedSlots s.mu = i :: rest →
          t.log = takeNotice (s.mu.generation + 1) (.commitFinished i .done) s.log))
    ∧ ((∃ e ∈ s.ift.entries, inRanges (affectedRanges s.mu) e.line = true) →
      ∃ t, exec (.mapCommit tag []) s = .next (answered 0x24 tag .accepted bytes t)
        ∧ (let drain : CommitDrain :=
            { members := (changedSlots s.mu).map fun i =>
                { slot := i, body := (stageOf s.mu.staging i).body }
              stale := false, timer := s.hp.drainLimit }
           t.mu = { s.mu with commit := { s.mu.commit with drain := some drain } })
        ∧ t.ift.commitSpan = some
            { ranges := affectedRanges s.mu
              counted := (s.ift.entries.filter fun e => inRanges (affectedRanges s.mu) e.line).map Entry.slot }
        ∧ identities t = identities s ∧ configuration t = configuration s)

/-- The structural checks fail as their table says, in its order and by ascending slot, and a map that passes them
obeys the map laws (01_the_region_map.md sections 1.1 and 1.6, 04_staging_and_commit.md section 4.4,
10_the_management_link.md section 10.6.3). The checks, by code: 0 SPAN, the length is 0 or base + length
exceeds 131,072; 1 LANE_PAIR, the two legs name one lane; 2 CAPACITY, a leg leaves its lane's capacity; 3
LANE_STATE, a leg of a changed slot lies on an OFFLINE or RETIRED lane; 4 HOST_OVERLAP, the slot shares a host
granule with a lower valid slot; 5 LEG_OVERLAP, two legs of the two share a granule of a lane; 6 RESERVED, a
leg shares a granule with a job's reservation. No check fails exactly when none fails at any valid staging
slot: every body then has at least one granule inside the host span, its legs on different lanes within their
capacities, no granule shared with another or with a reservation, and no leg of a changed slot on an OFFLINE
or RETIRED lane. Otherwise the first check in this order that fails anywhere is reported with the lowest slot
that fails it and, as bytes, its detail: nothing for SPAN; the lane; the lowest other slot of a failing pair
(log entry 21), and for legs the lane; the lane and the job handle. Which leg or item of the one slot is named
where several fail alike is free (log entry 12). -/
def Obligations.StructuralChecksNameTheFirstFailure : Prop :=
  ∀ s : State,
    let staged := fun (i : Nat) (b : Body) => i < 64 ∧ (stageOf s.mu.staging i).body = some b
    let beyond := fun (b : Body) (leg : Leg) =>
      leg ∈ b.legs ∧ (s.lanes.get leg.lane).capacity < leg.base + b.length
    let down := fun (b : Body) (leg : Leg) => leg ∈ b.legs
      ∧ ((s.health.lanes.get leg.lane).state = .offline ∨ (s.health.lanes.get leg.lane).state = .retired)
    let shares := fun (b c : Body) (leg : Leg) =>
      leg ∈ b.legs ∧ ∃ other ∈ c.legs, leg.lane = other.lane
        ∧ overlap leg.base b.length other.base c.length = true
    let taken := fun (b : Body) (leg : Leg) (item : Item) => leg ∈ b.legs ∧ item ∈ reservations s.engine
      ∧ item.lane = leg.lane ∧ overlap item.start item.len leg.base b.length = true
    let meets := fun (check : Nat) (b c : Body) =>
      if check = 4 then overlap b.base b.length c.base c.length = true else ∃ leg, shares b c leg
    let fails := fun (check i : Nat) (b : Body) =>
      match check with
      | 0 => b.length = 0 ∨ 131072 < b.base + b.length
      | 1 => ∃ leg, b.legB = some leg ∧ b.legA.lane = leg.lane
      | 2 => ∃ leg, beyond b leg
      | 3 => (stageOf s.mu.staging i).body ≠ (descOf s.mu.slots i).map Descriptor.body ∧ ∃ leg, down b leg
      | 4 => ∃ k c, k < i ∧ staged k c ∧ meets 4 b c
      | 5 => ∃ k c, k < i ∧ staged k c ∧ meets 5 b c
      | 6 => ∃ leg item, taken b leg item
      | _ => False
    (structuralFailure s = none ↔ ∀ check i b, staged i b → ¬fails check i b)
    ∧ (∀ check i b, staged i b → fails check i b →
        (∀ m k c, m < check → staged k c → ¬fails m k c) → (∀ k c, k < i → staged k c → ¬fails check k c) →
        let reports := fun bytes : List Byte => ∃ f, structuralFailure s = some f
          ∧ failureDetail f = [BitVec.ofNat 8 check, BitVec.ofNat 8 i] ++ bytes
        let lane := fun n : Lane => BitVec.ofNat 8 (laneCode n)
        match check with
        | 0 => reports [0xFF, 0xFF, 0xFF]
        | 1 => reports [0xFF, lane b.legA.lane, 0xFF]
        | 2 => ∃ leg, beyond b leg ∧ reports [0xFF, lane leg.lane, 0xFF]
        | 3 => ∃ leg, down b leg ∧ reports [0xFF, lane leg.lane, 0xFF]
        | 6 => ∃ leg item h, taken b leg item ∧ item.owner = .job h
            ∧ reports [0xFF, lane leg.lane, BitVec.ofNat 8 h]
        | _ => ∀ k c, k < i → staged k c → meets check b c →
            (∀ m x, m < k → staged m x → ¬meets check b x) →
            (check = 4 → reports [BitVec.ofNat 8 k, 0xFF, 0xFF])
            ∧ (check = 5 → ∃ leg, shares b c leg ∧ reports [BitVec.ofNat 8 k, lane leg.lane, 0xFF]))

/-- LANE_CONFIG sets a lane's capacity and timeout when every test passes (03_lane_ports.md section 3.1). With
room in the FIFO: a payload that does not name a lane, a capacity of at most 131,072 and a timeout of at least
1 is answered BAD_ARGUMENT; outside OPEN RESETTING; a capacity of 0 on a lane that is not OFFLINE
BAD_ARGUMENT; a capacity that an occupancy item or a draining commit's leg on the lane exceeds LANE_IN_USE;
otherwise the lane takes both values and the command is answered OK. Nothing else changes. -/
def Obligations.LaneConfigTestsInOrder : Prop :=
  ∀ (tag : Byte) (payload : List Byte) (s : State), LinkReady s → payload.length ≤ 56 →
    let refused := fun status : Status =>
      exec (.laneConfig tag payload) s = .next (answered 0x30 tag status [] s)
    (parseLaneConfig payload = none → refused .badArgument)
    ∧ (∀ n capacity timeout, parseLaneConfig payload = some (n, capacity, timeout) →
        let cut := ∃ item ∈ occupancy s ++ commitItems s.mu, item.lane = n ∧ capacity < item.start + item.len
        let empties := capacity = 0 ∧ (s.health.lanes.get n).state ≠ .offline
        (capacity ≤ 131072 ∧ 1 ≤ timeout ∧ timeout ≤ 65535)
        ∧ (s.hp.seq ≠ .opened → refused .resetting)
        ∧ (s.hp.seq = .opened → empties → refused .badArgument)
        ∧ (s.hp.seq = .opened → ¬empties → cut → refused .laneInUse)
        ∧ (s.hp.seq = .opened → ¬empties → ¬cut →
            exec (.laneConfig tag payload) s = .next (answered 0x30 tag .ok []
              { s with lanes := s.lanes.modify n fun p =>
                  { p with capacity := capacity, timeout := timeout } })))

/-- HEALTH_CONFIG answers and sets the thresholds and the drain interval, and evaluates every lane
(08_lane_health_and_retirement.md sections 8.2 and 8.4). With room in the FIFO: without payload HEALTH_CONFIG
answers the three values in force; with six bytes it is answered BAD_ARGUMENT unless 1 ≤ suspect < retire ≤
4,095 and the interval is at least 1, and RESETTING outside OPEN; otherwise the monitor holds the three
values, the drain timer runs at the new interval, the command is answered OK with the values, every lane has
the state the evaluation gives it at its budget under the new thresholds, and no budget, error counter or
entry changes. -/
def Obligations.HealthConfigTakesItsValues : Prop :=
  ∀ (tag : Byte) (s : State), LinkReady s →
    exec (.healthConfig tag []) s = .next (answered 0x38 tag .ok
      (byte2 s.health.suspect ++ byte2 s.health.retire ++ byte2 s.health.interval) s)
    ∧ (∀ a b c d e f : Byte,
        let payload := [a, b, c, d, e, f]
        let suspect := a.toNat * 256 + b.toNat
        let retire := c.toNat * 256 + d.toNat
        let interval := e.toNat * 256 + f.toNat
        let valid := 1 ≤ suspect ∧ suspect < retire ∧ retire ≤ 4095 ∧ 1 ≤ interval
        (¬valid → exec (.healthConfig tag payload) s = .next (answered 0x38 tag .badArgument [] s))
        ∧ (valid → s.hp.seq ≠ .opened →
            exec (.healthConfig tag payload) s = .next (answered 0x38 tag .resetting [] s))
        ∧ (valid → s.hp.seq = .opened →
            ∃ t, exec (.healthConfig tag payload) s = .next (answered 0x38 tag .ok payload t)
              ∧ t.health.suspect = suspect ∧ t.health.retire = retire ∧ t.health.interval = interval
              ∧ t.health.drainTimer = some interval
              ∧ (∀ k : Lane, (t.health.lanes.get k).state =
                  evaluatedState suspect retire (budgetOf s k) (s.health.lanes.get k).state)
              ∧ (∀ k : Lane, budgetOf t k = budgetOf s k ∧ errorCounts t k = errorCounts s k)
              ∧ identities t = identities s))

/-- LANE_SET_OFFLINE, LANE_SET_ACTIVE and LANE_RESTORE change a lane's state when their tests pass
(08_lane_health_and_retirement.md sections 8.2 and 8.4). With room in the FIFO and in OPEN, for a lane named
by the payload. LANE_SET_OFFLINE: NOT_ACTIVE unless ACTIVE or SUSPECT; LANE_IN_USE when an occupancy item or a
draining commit's leg lies on it; LANE_BUSY when it holds a request; otherwise OFFLINE. LANE_SET_ACTIVE:
NOT_ACTIVE unless OFFLINE; BAD_ARGUMENT with capacity 0; otherwise ACTIVE with budget 0. LANE_RESTORE:
NOT_ACTIVE unless RETIRED; otherwise ACTIVE with budget 0. A change of state writes one LANE_STATE_CHANGED
record and posts one notice; nothing else changes. -/
def Obligations.LaneStateCommands : Prop :=
  ∀ (tag : Byte) (payload : List Byte) (n : Lane) (s : State), LinkReady s → parseLane payload = some n →
    s.hp.seq = .opened →
    let state := (s.health.lanes.get n).state
    let inUse := ∃ item ∈ occupancy s ++ commitItems s.mu, item.lane = n
    let idle := (s.lanes.get n).waiting = [] ∧ (s.lanes.get n).outstanding = []
    let becomes := fun h : LaneHealth => { s with
      health.lanes := s.health.lanes.set n h
      log := takeNotice s.mu.generation (.laneStateChanged n h.state)
        (takeRecord s.mu.generation { kind := .laneStateChanged, lane := some n } s.log) }
    let offline := exec (.laneSetOffline tag payload) s
    let active := exec (.laneSetActive tag payload) s
    let restore := exec (.laneRestore tag payload) s
    (state ≠ .active → state ≠ .suspect → offline = .next (answered 0x39 tag .notActive [] s))
    ∧ ((state = .active ∨ state = .suspect) →
        (inUse → offline = .next (answered 0x39 tag .laneInUse [] s))
        ∧ (¬inUse → ¬idle → offline = .next (answered 0x39 tag .laneBusy [] s))
        ∧ (¬inUse → idle → offline = .next (answered 0x39 tag .ok []
            (becomes { s.health.lanes.get n with state := .offline }))))
    ∧ (state ≠ .offline → active = .next (answered 0x3A tag .notActive [] s))
    ∧ (state = .offline → (s.lanes.get n).capacity = 0 →
        active = .next (answered 0x3A tag .badArgument [] s))
    ∧ (state = .offline → (s.lanes.get n).capacity ≠ 0 →
        active = .next (answered 0x3A tag .ok [] (becomes { budget := 0, state := .active })))
    ∧ (state ≠ .retired → restore = .next (answered 0x3B tag .notActive [] s))
    ∧ (state = .retired →
        restore = .next (answered 0x3B tag .ok [] (becomes { budget := 0, state := .active })))

/-- A job submission answers from its first failing test, and queues behind a running job
(05_jobs_and_the_copy_engine.md section 5.3). With room in the FIFO and in OPEN, for a payload that passes its
checks: JOB_FULL when no job slot is FREE; then NO_SUCH_ITEM when the region is not valid; REGION_BUSY when it
has a job or is in a draining commit set; for an audit NOT_MIRRORED when it is SINGLE; for a relocation
NO_CHANGE when the target equals the body's placement, and INVALID_TARGET with its detail when a later test
fails (which, TargetTestsFailInOrder says). Otherwise, while a job runs, the lowest FREE slot takes the QUEUED
job, the region's job field takes the handle, the handle joins the queue's tail, and the answer is OK with the
handle and block count. Nothing else changes. -/
def Obligations.JobSubmissionTestsAndQueue : Prop :=
  ∀ (tag : Byte) (payload : List Byte) (region : Nat) (s : State), LinkReady s → s.hp.seq = .opened →
    payload.length ≤ 56 →
    let queued := fun (h : Nat) (m : MapSlot) (d : Descriptor) (work : JobWork) => { s with
      engine := { s.engine with
        jobs := s.engine.jobs.set h (some
          { life := .queued, work := work, region := region, blockCount := 512 * d.body.length
            phase := none, cursor := 0 })
        queue := s.engine.queue ++ [h] }
      mu.slots := s.mu.slots.set region { m with desc := some { d with job := some h } } }
    let free := fun h : Nat => s.engine.jobs[h]? = some none ∧ ∀ k, k < h → s.engine.jobs[k]? ≠ some none
    let busy := fun d : Descriptor => d.job ≠ none ∨ inCommitSet s.mu region = true
    (∀ repair, parseAudit payload = some (region, repair) →
      let answers := fun (status : Status) (bytes : List Byte) (t : State) =>
        exec (.jobSubmitAudit tag payload) s = .next (answered 0x41 tag status bytes t)
      ((∀ j ∈ s.engine.jobs, j ≠ none) → answers .jobFull [] s)
      ∧ (∀ h, free h →
        (descOf s.mu.slots region = none → answers .noSuchItem [] s)
        ∧ (∀ m d, s.mu.slots[region]? = some m → m.desc = some d →
          (busy d → answers .regionBusy [] s)
          ∧ (¬busy d → d.body.legB = none → answers .notMirrored [] s)
          ∧ (¬busy d → d.body.legB ≠ none → s.engine.running ≠ none →
              answers .ok (byte1 h ++ byte4 (512 * d.body.length)) (queued h m d (.audit repair 0 0))))))
    ∧ (∀ target verify, parseRelocate payload = some (region, target, verify) →
      let answers := fun (status : Status) (bytes : List Byte) (t : State) =>
        exec (.jobSubmitRelocate tag payload) s = .next (answered 0x40 tag status bytes t)
      ((∀ j ∈ s.engine.jobs, j ≠ none) → answers .jobFull [] s)
      ∧ (∀ h, free h →
        (descOf s.mu.slots region = none → answers .noSuchItem [] s)
        ∧ (∀ m d, s.mu.slots[region]? = some m → m.desc = some d →
          let same := target.legA = d.body.legA ∧ target.legB = d.body.legB ∧ target.pref = d.body.pref
          (busy d → answers .regionBusy [] s)
          ∧ (¬busy d → same → answers .noChange [] s)
          ∧ (¬busy d → ¬same → ∀ detail, targetFailure target d s = some detail →
              answers .invalidTarget detail s)
          ∧ (¬busy d → ¬same → targetFailure target d s = none → s.engine.running ≠ none →
              ∃ keptA keptB,
                (keptA = true ↔ target.legA ∈ d.body.legs)
                ∧ (keptB = true ↔ ∃ leg ∈ target.legB.toList, leg ∈ d.body.legs)
                ∧ answers .ok
                    (byte1 h ++ byte1 (JobWork.relocate target keptA keptB verify).shadows.length
                      ++ byte4 (512 * d.body.length))
                    (queued h m d (.relocate target keptA keptB verify))))))

/-- The tests 6b to 6f of a relocation target fail as their table says, in its order, and the answer names a leg
that failed (01_the_region_map.md section 1.6, 04_staging_and_commit.md section 4.6,
05_jobs_and_the_copy_engine.md section 5.3, 10_the_management_link.md section 10.6.3). The tests, by code: 0
(6b), a MIRROR target has both legs on one lane; 1 (6c), a target leg overlaps a current leg on its lane
without being equal to it; 2 (6d), a shadow leg lies on an OFFLINE or RETIRED lane, or a leg of a MIRROR
target on a RETIRED lane; 3 (6e), a shadow leg leaves its lane's capacity; 4 (6f), a shadow leg shares a
granule of its lane with a leg of a valid slot, a reservation of a QUEUED or RUNNING job, or a leg of a
draining commit. A shadow leg is a target leg that equals no current leg. No test fails exactly when none
fails for any target leg. Otherwise the first that fails for some leg is reported: its code, a leg that failed
it (A as 0, B as 1), and for 6f the lane and the owner of an overlapping item (0 and the slot, or 1 and the
job handle), 0xFF elsewhere. Which leg or item is named where several fail alike is free (log entry 12). -/
def Obligations.TargetTestsFailInOrder : Prop :=
  ∀ (target : Target) (d : Descriptor) (s : State),
    let legs : List (Nat × Leg) := (0, target.legA) :: (target.legB.map fun b => (1, b)).toList
    let shadow := fun leg : Leg => leg ∉ d.body.legs
    let state := fun leg : Leg => (s.health.lanes.get leg.lane).state
    let item := fun (leg : Leg) (len : Nat) (owner : Owner) =>
      ({ lane := leg.lane, start := leg.base, len := len, owner := owner } : Item)
    let held := fun x : Item =>
      (∃ i e leg, descOf s.mu.slots i = some e ∧ leg ∈ e.body.legs ∧ x = item leg e.body.length (.slot i))
      ∨ (∃ h j leg, jobOf s.engine h = some j ∧ j.life.live = true ∧ leg ∈ j.work.shadows
          ∧ x = item leg (j.blockCount / 512) (.job h))
      ∨ (∃ c m b leg, s.mu.commit.drain = some c ∧ m ∈ c.members ∧ m.body = some b ∧ leg ∈ b.legs
          ∧ x = item leg b.length (.slot m.slot))
    let taken := fun (leg : Leg) (x : Item) => shadow leg ∧ held x ∧ x.lane = leg.lane
      ∧ overlap x.start x.len leg.base d.body.length = true
    let fails := fun (test : Nat) (leg : Leg) =>
      match test with
      | 0 => ∃ b, target.legB = some b ∧ target.legA.lane = b.lane
      | 1 => ∃ c ∈ d.body.legs, c.lane = leg.lane ∧ c ≠ leg
          ∧ overlap c.base d.body.length leg.base d.body.length = true
      | 2 => (shadow leg ∧ (state leg = .offline ∨ state leg = .retired))
          ∨ (target.legB ≠ none ∧ state leg = .retired)
      | 3 => shadow leg ∧ (s.lanes.get leg.lane).capacity < leg.base + d.body.length
      | 4 => ∃ x, taken leg x
      | _ => False
    (targetFailure target d s = none ↔ ∀ test, ∀ p ∈ legs, ¬fails test p.2)
    ∧ (∀ test, (∃ p ∈ legs, fails test p.2) → (∀ m, m < test → ∀ p ∈ legs, ¬fails m p.2) →
        (test < 4 → ∃ p ∈ legs, fails test p.2 ∧ targetFailure target d s
          = some [BitVec.ofNat 8 test, BitVec.ofNat 8 p.1, 0xFF, 0xFF, 0xFF])
        ∧ (test = 4 → ∃ p ∈ legs, ∃ x, taken p.2 x ∧ targetFailure target d s
          = some ([4, BitVec.ofNat 8 p.1, BitVec.ofNat 8 (laneCode x.lane)]
            ++ match x.owner with
              | .slot i => [0, BitVec.ofNat 8 i]
              | .job h => [1, BitVec.ofNat 8 h])))

/-- A submitted job starts in the same event when no job runs; without a shadow leg it starts in SWITCH and may
end there (01_the_region_map.md section 1.8, 05_jobs_and_the_copy_engine.md sections 5.3 and 5.4,
06_relocation.md sections 6.2 and 6.5, 07_mirror_audit.md section 7.1). With room in the FIFO, in OPEN, no
commit draining, no job running or queued: an audit of a MIRROR region of at least one granule, or a
relocation that passes its tests, is answered OK with the lowest FREE slot's handle, the number of shadow legs
for a relocation, and the block count, and starts in the same event in that slot with cursor 0 and no stop
request. With the table empty, an audit runs in SCAN and a relocation with a shadow leg in COPY: the block
lock names the region's block 0, its block step is in TRANSFER, the region's job field names it, and nothing
is queued. A relocation with no shadow leg (it drops a copy, swaps the legs or changes the read preference)
enters SWITCH at once, whatever the table holds, with nothing locked before (EntersSwitch): with an entry in
the region's host range the drain span counts those entries, the switch timer runs at the drain limit and
nothing is locked; with none the slot takes the target's legs and read preference, degraded is cleared, its
revision and the generation rise by one, and the job finishes DONE with its cursor at 0, the region's job
field clear and JOB_FINISHED posted, in the acceptance event; no other slot's body or revision changes. No
lane error is counted, the entries stay, and the configuration is unchanged. -/
def Obligations.SubmittedJobStartsWhenNoneRuns : Prop :=
  ∀ (tag : Byte) (payload : List Byte) (region h : Nat) (m : MapSlot) (d : Descriptor) (s : State),
    LinkReady s → s.hp.seq = .opened → payload.length ≤ 56 →
    s.mu.commit.drain = none → s.engine.running = none → s.engine.queue = [] →
    s.engine.jobs[h]? = some none → (∀ k, k < h → s.engine.jobs[k]? ≠ some none) →
    s.mu.slots[region]? = some m → m.desc = some d → d.job = none → 1 ≤ d.body.length →
    let record := fun (work : JobWork) (phase : JobPhase) =>
      ({ life := .running none, work := work, region := region, blockCount := 512 * d.body.length
         phase := some phase, cursor := 0 } : Job)
    let quiet := fun t : State =>
      (∀ k : Lane, errorCounts t k = errorCounts s k ∧ budgetOf t k = budgetOf s k)
      ∧ configuration t = configuration s ∧ identities t = identities s
    let started := fun (work : JobWork) (phase : JobPhase) (t : State) =>
      t.engine.running = some h ∧ t.engine.queue = [] ∧ jobOf t.engine h = some (record work phase)
      ∧ t.engine.lock = some { region := region, block := 0 }
      ∧ t.engine.blockStep.map BlockStep.stage = some .transfer
      ∧ (descOf t.mu.slots region).bind Descriptor.job = some h ∧ quiet t
    (∀ repair, s.ift.entries = [] → parseAudit payload = some (region, repair) → d.body.legB ≠ none →
      ∃ t, exec (.jobSubmitAudit tag payload) s = .next
          (answered 0x41 tag .ok (byte1 h ++ byte4 (512 * d.body.length)) t)
        ∧ started (.audit repair 0 0) .scan t)
    ∧ (∀ target verify, parseRelocate payload = some (region, target, verify) →
      target ≠ d.body.target → targetFailure target d s = none →
      let shadows := target.legs.filter fun leg => !d.body.legs.contains leg
      let work : JobWork := .relocate target (d.body.legs.contains target.legA)
        (target.legB.any fun leg => d.body.legs.contains leg) verify
      let bytes := byte1 h ++ byte1 shadows.length ++ byte4 (512 * d.body.length)
      let held : Descriptor := { d with job := some h }
      (s.ift.entries = [] → shadows ≠ [] → ∃ t, exec (.jobSubmitRelocate tag payload) s = .next
          (answered 0x40 tag .ok bytes t)
        ∧ started work .copy t)
      ∧ (shadows = [] → s.engine.lock = none → s.engine.blockStep = none →
        ∃ t, exec (.jobSubmitRelocate tag payload) s = .next (answered 0x40 tag .ok bytes t)
        ∧ EntersSwitch s t h (record work .switch) { m with desc := some held } held [] s.mu.generation s.log
            (NoneRuns s t)
        ∧ KeepsMap s t (fun n => n = region) ∧ quiet t))

/-- JOB_CANCEL and JOB_CLEAR act by the state of the job slot (05_jobs_and_the_copy_engine.md section 5.7). With
room in the FIFO and in OPEN, for a handle named by the payload. JOB_CLEAR: a FINISHED slot becomes FREE and
the answer is OK; any other is left and answered NOT_FINISHED. JOB_CANCEL: a FREE or FINISHED slot is answered
NOT_ACTIVE; the running job in SWITCH is answered TOO_LATE; the running job in another phase takes the stop
request CANCEL unless it has one, and the answer is ACCEPTED; a QUEUED job behind a running one leaves the
queue and finishes CANCELLED with its notice, the region's job field no longer names it, and the answer is OK.
Nothing else changes. -/
def Obligations.JobCancelAndClearBySlotState : Prop :=
  ∀ (tag : Byte) (payload : List Byte) (h : Nat) (s : State), LinkReady s → s.hp.seq = .opened →
    parseHandle payload = some h →
    let cancel := exec (.jobCancel tag payload) s
    let clear := exec (.jobClear tag payload) s
    (jobOf s.engine h = none → clear = .next (answered 0x44 tag .notFinished [] s)
      ∧ cancel = .next (answered 0x42 tag .notActive [] s))
    ∧ (∀ j, jobOf s.engine h = some j →
      (∀ o, j.life = .finished o →
        clear = .next (answered 0x44 tag .ok [] { s with engine.jobs := s.engine.jobs.set h none })
        ∧ cancel = .next (answered 0x42 tag .notActive [] s))
      ∧ (∀ stop, j.life = .running stop → clear = .next (answered 0x44 tag .notFinished [] s)
        ∧ (j.phase = some .switch → cancel = .next (answered 0x42 tag .tooLate [] s))
        ∧ (j.phase ≠ some .switch → s.engine.running = some h →
            (let stopped : Job := { j with life := .running (some (stop.getD .cancel)) }
             cancel = .next (answered 0x42 tag .accepted []
               { s with engine.jobs := s.engine.jobs.set h (some stopped) }))))
      ∧ (j.life = .queued → clear = .next (answered 0x44 tag .notFinished [] s)
        ∧ (∀ r, s.engine.running = some r → r ≠ h →
            ∃ slots, cancel = .next (answered 0x42 tag .ok []
                { s with
                  engine := { s.engine with
                    queue := s.engine.queue.erase h
                    jobs := s.engine.jobs.set h (some { j with life := .finished .cancelled }) }
                  mu.slots := slots
                  log := takeNotice s.mu.generation (.jobFinished h .cancelled) s.log })
              ∧ (descOf slots j.region).bind Descriptor.job ≠ some h
              ∧ (∀ i, (descOf slots i).map Descriptor.body = (descOf s.mu.slots i).map Descriptor.body
                  ∧ revisionOf slots i = revisionOf s.mu.slots i
                  ∧ (i ≠ j.region → slots[i]? = s.mu.slots[i]?)))))

/-- The outcomes of source reads, shadow writes and verify reads move their line of the block step
(03_lane_ports.md sections 3.3 and 3.4, 05_jobs_and_the_copy_engine.md section 5.5, 06_relocation.md sections
6.2, 6.3, 6.4 and 6.6, 08_lane_health_and_retirement.md section 8.1,
09_fault_records_notices_and_the_alert_line.md section 9.2). For a job in TRANSFER that does not stop, with
another engine request still open. COPY: a source read that answers OK leaves its data in the line and
presents a write of it on every shadow leg; a shadow write that answers OK is marked so. A request fails by an
SLVERR or DECERR answer (ERROR) or by the expiry of its response timer or of its credit-wait timer (TIMEOUT),
on a lane that stays ACTIVE. A source read that fails is presented again on the first leg of the descriptor
not tried yet, and with none left the line's source has failed, COPY_SOURCE_FAILED is recorded and the stop
request SOURCE_READ raised. A shadow write that fails is marked so, SHADOW_WRITE_FAILED recorded and
SHADOW_WRITE raised. VERIFY: a verify read that answers OK is compared with a source that has, and a source
read that answers OK with every verify read that has, in recorded order (log entry 30); a difference is
recorded as VERIFY_MISMATCH and raises it; a verify read that fails raises VERIFY_READ. Each failure is
recorded first as the lane error it is (LANE_READ_ERROR, LANE_WRITE_ERROR or LANE_TIMEOUT). A stop request
already recorded stays. The job keeps running with its lock, no other line moves, and the map and the entries
are as they were. -/
def Obligations.CopyAndVerifyRequestOutcomes : Prop :=
  ∀ (s : State) (lane : Lane) (part : EnginePart) (i h : Nat) (j : Job) (st : BlockStep) (l : LineState)
    (d : Descriptor) (stop : Option Stop),
    Transferring s h j st → st.lines[i]? = some l →
    1 < engineOpen s.lanes → descOf s.mu.slots j.region = some d → j.life = .running stop →
    let offset := 64 * st.block + i
    let record := fun (kind : FaultKind) (n : Lane) (line : Nat) (log : FaultLog) =>
      takeRecord s.mu.generation
        { kind := kind, lane := some n, region := some j.region
          hostLine := some (d.body.base * 32768 + offset), laneLine := some line, job := some h }
        log
    let raised := fun (reason : Reason) (n : Lane) (line : Nat) =>
      j.stopped stop (.failed reason (some { lane := n, line := line }))
    let side := fun (k : Nat) (x : SideState) => { l with sides := l.sides.set k x }
    let shadowLine := fun leg : Leg => leg.base * 32768 + offset
    (∀ number resp data o, (resp = .okay ∨ resp = .exokay) → EngineRequest s lane number o part i →
      let answers := StepAnswer (.laneResponse lane number resp data) s h st i
      (part = .source → j.phase = some .copy → l.sides.length = j.work.shadows.length →
        answers
          { l with data := some data, readA := .ok
                   sides := j.work.shadows.map fun _ => { state := .pending, data := none } }
          j s.log
          (j.work.shadows.mapIdx fun k leg =>
            (leg.lane, { kind := .write (BitVec.allOnes 64) data, line := shadowLine leg
                         requester := .engine (.shadowWrite k) i })))
      ∧ (∀ k, part = .shadowWrite k → answers (side k { state := .ok, data := none }) j s.log [])
      ∧ (part = .source → j.phase = some .verify →
          let differ := (j.work.shadows.zip l.sides).filterMap fun x =>
            x.2.data.bind fun copy => if data = copy then none else some x.1
          answers { l with data := some data, readA := .ok }
            (match differ with
              | [] => j
              | leg :: _ => raised .verifyMismatch leg.lane (shadowLine leg))
            (differ.foldl (fun log leg => record .verifyMismatch leg.lane (shadowLine leg) log) s.log) [])
      ∧ (∀ k leg, part = .verifyRead k → j.work.shadows[k]? = some leg →
          (l.readA ≠ .ok → answers (side k { state := .ok, data := some data }) j s.log [])
          ∧ (l.readA = .ok → l.data = some data →
              answers (side k { state := .ok, data := some data }) j s.log [])
          ∧ (∀ source, l.readA = .ok → l.data = some source → source ≠ data →
              answers (side k { state := .ok, data := some data })
                (raised .verifyMismatch leg.lane (shadowLine leg))
                (record .verifyMismatch leg.lane (shadowLine leg) s.log) [])))
    ∧ (∀ c req kind weight, EngineFailure c s lane part i req kind weight → StaysActive s lane weight →
      let error := takeRecord s.mu.generation
        { kind := kind, lane := some lane, region := some j.region, laneLine := some req.line
          job := some h }
        s.log
      let answers := StepAnswer c s h st i
      (part = .source →
        (∀ leg, d.body.legs.find? (fun x => !l.tried.contains x) = some leg →
          answers { l with tried := l.tried ++ [leg] } j error
            [(leg.lane, { kind := .read, line := shadowLine leg, requester := .engine .source i })])
        ∧ (d.body.legs.find? (fun x => !l.tried.contains x) = none →
            answers { l with readA := .failed } (raised .sourceRead lane req.line)
              (record .copySourceFailed lane req.line error) []))
      ∧ (∀ k, part = .verifyRead k →
          answers (side k { state := .failed, data := none }) (raised .verifyRead lane req.line) error [])
      ∧ (∀ k target keptA keptB verify, part = .shadowWrite k → j.work = .relocate target keptA keptB verify →
          answers (side k { state := .failed, data := none }) (raised .shadowWrite lane req.line)
            (record .shadowWriteFailed lane req.line error) []))

/-- The outcomes of an audit's reads and repair writes move their line of the block step (03_lane_ports.md
sections 3.3 and 3.4, 05_jobs_and_the_copy_engine.md section 5.5, 07_mirror_audit.md sections 7.1, 7.2, 7.3
and 7.7, 08_lane_health_and_retirement.md section 8.1, 09_fault_records_notices_and_the_alert_line.md section
9.2). For an audit in TRANSFER that does not stop, with another engine request still open. A leg A read that
answers OK leaves its data in the line; with no stop request and a leg B the READ of the line on leg B is
presented, and otherwise the line is finished. A leg B read that answers OK is compared with the line's data:
equal finishes the line; different is recorded as AUDIT_MISMATCH and counted (to 65,535 at most), and then,
with the repair option and no stop request, a write of the whole line as leg A had it is presented on leg B's
lane, and otherwise the line is finished. A repair write that answers OK is recorded as AUDIT_REPAIRED,
counted, and finishes the line; one that fails finishes it. A read of either leg that fails finishes the line
and raises LEG_READ with the lane and its line. A request fails by an SLVERR or DECERR answer (ERROR) or by
the expiry of its response timer or of its credit-wait timer (TIMEOUT), on a lane that stays ACTIVE; each
failure is recorded first as the lane error it is (LANE_READ_ERROR, LANE_WRITE_ERROR or LANE_TIMEOUT). A stop
request already recorded stays. The job keeps running with its lock, no other line moves, and the map and the
entries are as they were. -/
def Obligations.AuditRequestOutcomes : Prop :=
  ∀ (s : State) (lane : Lane) (part : EnginePart) (i h : Nat) (j : Job) (st : BlockStep) (l : LineState)
    (d : Descriptor) (stop : Option Stop) (repair : Bool) (mismatches repaired : Nat),
    Transferring s h j st → st.lines[i]? = some l →
    1 < engineOpen s.lanes → descOf s.mu.slots j.region = some d → j.life = .running stop →
    j.work = .audit repair mismatches repaired →
    let offset := 64 * st.block + i
    let more := fun n : Nat => if n < 65535 then n + 1 else n
    (∀ number resp data o, (resp = .okay ∨ resp = .exokay) → EngineRequest s lane number o part i →
      let record := fun kind : FaultKind => takeRecord s.mu.generation
        { kind := kind, lane := some lane, region := some j.region
          hostLine := some (d.body.base * 32768 + offset), laneLine := some o.req.line
          job := some h }
        s.log
      let answers := StepAnswer (.laneResponse lane number resp data) s h st i
      (part = .auditA →
        (∀ leg, stop = none → d.body.legB = some leg →
          answers { l with data := some data, readA := .ok, readB := .pending } j s.log
            [(leg.lane, { kind := .read, line := leg.base * 32768 + offset
                          requester := .engine .auditB i })])
        ∧ ((stop ≠ none ∨ d.body.legB = none) →
            answers { l with data := some data, readA := .ok, finished := true } j s.log []))
      ∧ (∀ source, part = .auditB → l.data = some source →
          (source = data →
            answers { l with readB := .ok, comparison := .equal, finished := true } j s.log [])
          ∧ (source ≠ data →
              let counted := { j with work := .audit repair (more mismatches) repaired }
              (repair = true → stop = none →
                answers { l with readB := .ok, comparison := .different, repair := .pending } counted
                  (record .auditMismatch)
                  [(lane, { kind := .write (BitVec.allOnes 64) source, line := o.req.line
                            requester := .engine .repair i })])
              ∧ ((repair = false ∨ stop ≠ none) →
                  answers { l with readB := .ok, comparison := .different, finished := true } counted
                    (record .auditMismatch) [])))
      ∧ (part = .repair →
          answers { l with repair := .ok, finished := true }
            { j with work := .audit repair mismatches (more repaired) } (record .auditRepaired) []))
    ∧ (∀ c req kind weight, EngineFailure c s lane part i req kind weight → StaysActive s lane weight →
      let error := takeRecord s.mu.generation
        { kind := kind, lane := some lane, region := some j.region, laneLine := some req.line
          job := some h }
        s.log
      let raised := j.stopped stop (.failed .legRead (some { lane := lane, line := req.line }))
      let answers := StepAnswer c s h st i
      (part = .auditA → answers { l with readA := .failed, finished := true } raised error [])
      ∧ (part = .auditB → answers { l with readB := .failed, finished := true } raised error [])
      ∧ (part = .repair → answers { l with repair := .failed, finished := true } j error []))

/-- The last outcome of a block step releases its lock, and the walk goes on, changes phase, enters SWITCH or ends
the job (01_the_region_map.md section 1.8, 05_jobs_and_the_copy_engine.md sections 5.4, 5.5 and 5.6,
06_relocation.md sections 6.2, 6.4 and 6.5, 07_mirror_audit.md sections 7.2, 7.3 and 7.4). For a job in
TRANSFER that does not stop, take an outcome of its only open engine request (LastOutcome: OK, with a
difference or without, several in recorded order by log entry 30, ERROR or TIMEOUT) after which every line of
the block is finished. With a stop request then recorded the job finishes with its outcome, its region's job
field is clear, and the next head starts. Otherwise the cursor rises by one, and: below the block count, the
next block is locked with its own block step; at the block count, a relocation with the verify option goes
from COPY to VERIFY at cursor 0 with block 0 locked; an audit finishes DONE and the next head starts; any
other relocation enters SWITCH. There (EntersSwitch), with an entry in the region's host range, nothing is
locked, the switch timer runs at the drain limit, and the drain span of that range counts those entries. With
none, completion is taken in the same event: with a kept leg lost the job finishes FAILED TARGET_LEG_LOST,
else with a MIRROR target on a RETIRED lane FAILED TARGET_RETIRED, both with nothing installed; else the slot
takes the target's legs and read preference, degraded is cleared, its revision and the generation rise by one
and the job finishes DONE; the next head then starts. Where a head starts, the queue is taken as QueueReady
says: a head without a shadow leg enters SWITCH likewise (NextRuns). Bodies and revisions of all other slots,
and the entries, are as they were; the log has taken the records of the outcome and JOB_FINISHED of each job
finished, and nothing else. An OK answer counts and weighs no lane error. -/
def Obligations.BlockStepEnds : Prop :=
  ∀ (c : Instr) (s : State) (i h : Nat) (j j' : Job) (st : BlockStep) (l l' : LineState) (m : MapSlot)
    (d : Descriptor) (phase : JobPhase) (log : FaultLog),
    Transferring s h j st → st.lines[i]? = some l → engineOpen s.lanes = 1 →
    s.mu.slots[j.region]? = some m → m.desc = some d → d.job = some h → j.phase = some phase →
    LastOutcome c s h j d st.block i l l' j' log →
    (∀ x ∈ st.lines.set i l', lineFinished phase x = true) →
    let queue := s.engine.queue
    let generation := s.mu.generation
    let ready := QueueReady s queue [h] [j.region]
    let runs := fun (job : Job) (block : Nat) (t : State) =>
      t.engine.running = some h ∧ t.engine.queue = queue ∧ jobOf t.engine h = some job
      ∧ t.engine.lock = some { region := j.region, block := block }
      ∧ t.engine.blockStep.map BlockStep.block = some block
      ∧ t.mu.generation = generation ∧ t.log = log ∧ KeepsMap s t fun _ => False
    let finishes := fun (job : Job) (outcome : JobOutcome) (t : State) =>
      jobOf t.engine h = some { job with life := .finished outcome }
      ∧ (descOf t.mu.slots j.region).bind Descriptor.job = none
      ∧ KeepsMap s t (SwitchHead s queue)
      ∧ NextRuns s t queue generation (takeNotice generation (.jobFinished h outcome.kind) log)
    ∃ t, exec c s = .next t ∧ identities t = identities s
      ∧ (∀ lane number resp data, c = .laneResponse lane number resp data → (resp = .okay ∨ resp = .exokay) →
          ∀ k : Lane, errorCounts t k = errorCounts s k ∧ budgetOf t k = budgetOf s k)
      ∧ (∀ stop, j'.life = .running (some stop) → ready → finishes j' stop.outcome t)
      ∧ (j'.life = .running none →
          let next : Job := { j' with cursor := j.cursor + 1 }
          (j.cursor + 1 < j.blockCount → runs next (j.cursor + 1) t)
          ∧ (j.cursor + 1 = j.blockCount →
              (phase = .scan → ready → finishes next .done t)
              ∧ (∀ target keptA keptB, phase = .copy → j.work = .relocate target keptA keptB true →
                  runs { j' with phase := some .verify, cursor := 0 } 0 t)
              ∧ (∀ target keptA keptB verify, j.work = .relocate target keptA keptB verify →
                  (phase = .verify ∨ (phase = .copy ∧ verify = false)) →
                  ((∃ e ∈ s.ift.entries, inRanges [d.body.range] e.line = true)
                    ∨ (ready ∧ ∀ k q, queue.head? = some k → jobOf s.engine k = some q → q.region ≠ j.region)) →
                  EntersSwitch s t h { next with phase := some .switch } m d queue generation log
                    (NextRuns s t queue)
                  ∧ KeepsMap s t fun n => n = j.region ∨ SwitchHead s queue n)))

/-- HELD, LINE_WAIT and PARKED entries go on when the drain ends, the older access is answered, or the block lock
is released (02_host_port_and_in_flight_table.md sections 2.2 and 2.3, 03_lane_ports.md section 3.4,
05_jobs_and_the_copy_engine.md section 5.6, 06_relocation.md sections 6.1 and 6.2). HELD. In a powered state
in OPEN with the lanes at rest, no commit stale and nothing queued, with one HELD entry in the table: the end
of its drain, by COMMIT_DRAIN_TIMEOUT, COMMIT_COMPLETION_TAKEN, SWITCH_TIMER_EXPIRY or
SWITCH_COMPLETION_TAKEN, leaves the state that the same event on the empty table leaves once HOST_ACCEPT has
then taken that access: its hold is cleared and it is decoded in full against the map after the event.
LINE_WAIT. When a READ or a WRITE of one leg is answered OKAY by its LANE_RESPONSE, the oldest LINE_WAIT entry
behind it on its line goes on with the lookup result it kept: a WRITE parks when its block is locked;
otherwise it is issued to its legs and shadow legs (R6, R32, R109). LINE_WAIT entries behind it that conflict
with it stay. PARKED. When a block step ends by the OK answer of its last open request, the one entry of the
table, a WRITE parked on the block, is decoded in full and issued: with no stop request and a block left to
its current legs and, in COPY and VERIFY, to every shadow leg of the job; with a stop request and nothing
queued to its current legs alone. -/
def Obligations.WaitingEntriesGoOn : Prop :=
  (∀ (s : State) (c : Instr) (txn : HostTxn) (hold : Hold) (sp : Span), s.porst = false → s.hp.seq = .opened →
    (∀ n : Lane, (s.lanes.get n).Settled) → (s.mu.commit.drain.any fun d => d.stale) = false →
    s.engine.queue = [] →
    txn.address % 64 = 0 → txn.size = 64 → txn.beats ≤ 1 →
    s.ift.entries = [{ newEntry 0 txn.id txn.address (txnKind txn) with phase := .held, hold := some hold }] →
    inRanges sp.ranges (txn.address / 64) = true →
    ((hold = .commit ∧ s.ift.commitSpan = some sp ∧ s.mu.commit.drain ≠ none
        ∧ (c = .commitDrainTimeout ∨ (c = .commitCompletionTaken ∧ sp.counted = [])))
      ∨ (hold = .switch ∧ s.ift.switchSpan = some sp ∧ (runningJob s.engine).isSome = true
        ∧ ((c = .switchTimerExpiry ∧ s.engine.switchTimer.isSome = true)
          ∨ (c = .switchCompletionTaken ∧ sp.counted = [])))) →
    ∃ t u, exec c { s with ift.entries := [] } = .next t ∧ exec c s = .next u ∧ exec (.hostAccept txn) t = .next u)
  ∧ (∀ (s : State) (lane : Lane) (number : Count16) (data : LineData) (o : Outstanding) (pos : LegPos)
      (e w : Entry) (rest : List Entry) (l : Lookup), s.porst = false → s.hp.seq = .opened →
    s.mu.commit.drain = none → (∀ n : Lane, (s.lanes.get n).Settled) → s.ift.entries = e :: w :: rest →
    (s.ift.entries.map Entry.slot).Nodup → e.code = none → e.phase = .issued →
    (s.lanes.get lane).outstanding.find? (fun x => x.number == number) = some o → o.timer.isSome = true →
    o.req.requester = .host e.slot (.current pos) →
    ((e.kind = .read ∧ e.fallback = false)
      ∨ ∃ mask bytes r d u, e.kind = .write mask bytes ∧ e.region = some r ∧ descOf s.mu.slots r = some d
        ∧ e.legs = [u] ∧ u.pos = pos ∧ u.leg ∈ d.body.legs ∧ e.shadows = []) →
    (s.engine.blockStep.any fun st => st.stage == .lockWait) = false →
    w.phase = .lineWait → w.line = e.line → w.code = none → w.lookup = some l →
    (w.kind = .read ∨ ∃ mask bytes, w.kind = .write mask bytes) →
    (∀ y ∈ rest, y.phase = .lineWait ∧ y.line = e.line ∧ y.code = none ∧ (w.isWrite = true ∨ y.isWrite = true)) →
    ∃ t e' w', exec (.laneResponse lane number .okay data) s = .next t
      ∧ t.ift.entries = e' :: w' :: rest ∧ e'.slot = e.slot ∧ e'.code = some .okay
      ∧ (w.isWrite = true → s.engine.lock = some { region := l.region, block := l.offset / 64 } →
          w' = { w with phase := .parked })
      ∧ ((w.isWrite = false ∨ s.engine.lock ≠ some { region := l.region, block := l.offset / 64 }) →
          Issued t w w' l
            (match runningJob s.engine with
              | none => []
              | some (_, j) =>
                if j.region = l.region ∧ s.engine.stopping = false
                    ∧ (j.phase = some .verify ∨ j.phase = some .switch
                      ∨ (j.phase = some .copy ∧ l.offset / 64 < j.cursor)) then j.work.shadows
                else [])))
  ∧ (∀ (s : State) (lane : Lane) (number : Count16) (resp : AxiResp) (data : LineData) (o : Outstanding)
      (part : EnginePart) (i h : Nat) (j : Job) (st : BlockStep) (line line' : LineState) (d : Descriptor)
      (phase : JobPhase) (w : Entry) (k l : Lookup) (mask : ByteMask) (bytes : LineData),
    Transferring s h j st → EngineRequest s lane number o part i → st.lines[i]? = some line →
    engineOpen s.lanes = 1 → descOf s.mu.slots j.region = some d → d.job = some h →
    (resp = .okay ∨ resp = .exokay) → j.phase = some phase → lastOutcome j part line data = some line' →
    (∀ x ∈ st.lines.set i line', lineFinished phase x = true) →
    s.engine.lock = some { region := j.region, block := j.cursor } →
    s.ift.entries = [w] → w.phase = .parked → w.code = none → w.kind = .write mask bytes →
    w.lookup = some k → k.region = j.region → k.offset / 64 = j.cursor →
    holdingSpan s.ift w.line = none → lookup s.mu.slots w.line = some l → l.region = j.region →
    l.offset / 64 = j.cursor → l.access = .readWrite →
    ∃ t, exec (.laneResponse lane number resp data) s = .next t
      ∧ (j.life = .running none → j.cursor + 1 < j.blockCount →
          ∃ w', t.ift.entries = [w'] ∧ Issued t w w' l (if phase = .scan then [] else j.work.shadows))
      ∧ (∀ stop, j.life = .running (some stop) → s.engine.queue = [] →
          ∃ w', t.ift.entries = [w'] ∧ Issued t w w' l []))

/-- FAULT_POP, NOTICE_POP and FAULT_RESET remove what they answer, and nothing else (R154, R156, R159). With room
in the FIFO, in every state of the reset sequence. FAULT_POP removes the head record and answers its 18 bytes
and the records left, or answers EMPTY with no payload on an empty ring and changes nothing. FAULT_RESET
empties the ring and clears the overflow count, keeping the next sequence number and the notices. NOTICE_POP
removes the head notice and answers its fields, the lost flag as it stood and the notices left, or answers
EMPTY with the flag; the flag is then clear and ALERT_N is asserted exactly when an enabled notice is left. A
NOTICE_POP with a payload is answered BAD_ARGUMENT and changes nothing. -/
def Obligations.PopsAndFaultReset : Prop :=
  ∀ (tag : Byte) (s : State), LinkReady s →
    (s.log.ring = [] → exec (.faultPop tag []) s = .next (answered 0x50 tag .empty [] s))
    ∧ (∀ r rest, s.log.ring = r :: rest → exec (.faultPop tag []) s = .next
        (answered 0x50 tag .ok (recordBytes r ++ byte1 rest.length) { s with log.ring := rest }))
    ∧ exec (.faultReset tag []) s = .next (answered 0x52 tag .ok []
        { s with log := { s.log with ring := [], overflow := 0 } })
    ∧ (s.log.notices = [] → exec (.noticePop tag []) s = .next
        (answered 0x53 tag .empty [if s.log.lost then 1 else 0]
          { s with log := { s.log with lost := false, alert := false } }))
    ∧ (∀ n rest, s.log.notices = n :: rest → exec (.noticePop tag []) s = .next
        (answered 0x53 tag .ok
          (noticeBytes n ++ [if s.log.lost then 1 else 0] ++ byte1 rest.length)
          { s with log := { s.log with
              notices := rest, lost := false
              alert := rest.any fun k => s.log.mask.getLsbD (noticeCode k.info) } }))
    ∧ (∀ b rest, (b :: rest).length ≤ 56 →
        exec (.noticePop tag (b :: rest)) s = .next (answered 0x53 tag .badArgument [] s))

/-- BRIDGE_RESET is accepted in OPEN and keeps the entries of the table (02_host_port_and_in_flight_table.md
section 2.6, 10_the_management_link.md section 10.4). With room in the FIFO. In OPEN, BRIDGE_RESET without
payload is answered ACCEPTED; afterwards no commit drains, nothing is queued, the same entries stand in the
table in the same order, no lane error has been counted or weighed, and the configuration is unchanged. With
one ISSUED entry and no job, the sequence is then in ENTRY_DRAIN with its timer at the drain limit and nothing
else has changed; with the bridge quiet, no job and no request, the whole sequence passes in the event:
RESET_DONE with value COMMAND is posted and the port is open. Outside OPEN it is answered RESETTING and
changes nothing. -/
def Obligations.BridgeResetKeepsTheEntries : Prop :=
  ∀ (tag : Byte) (s : State), LinkReady s →
    (s.hp.seq ≠ .opened → exec (.bridgeReset tag []) s = .next (answered 0x04 tag .resetting [] s))
    ∧ (s.hp.seq = .opened → ∃ t, exec (.bridgeReset tag []) s = .next (answered 0x04 tag .accepted [] t)
        ∧ t.mu.commit.drain = none ∧ t.engine.queue = [] ∧ identities t = identities s
        ∧ (∀ k : Lane, errorCounts t k = errorCounts s k ∧ budgetOf t k = budgetOf s k)
        ∧ configuration t = configuration s)
    ∧ (∀ e, LoneEntry s e → e.phase = .issued → s.engine.running = none → s.engine.queue = [] →
        exec (.bridgeReset tag []) s = .next (answered 0x04 tag .accepted []
          { s with hp := { s.hp with
              entryTimer := some s.hp.drainLimit, warmSeen := false, seq := .entryDrain } }))
    ∧ (Quiet s → s.srst = false → (∀ n : Lane, (s.lanes.get n).outstanding = []) →
        s.engine.running = none → s.engine.queue = [] →
        ∃ t, exec (.bridgeReset tag []) s = .next (answered 0x04 tag .accepted [] t)
          ∧ t.hp.seq = .opened ∧ t.hp.warmSeen = false ∧ t.hp.entryTimer = none
          ∧ t.log = takeNotice s.mu.generation (.resetDone false) s.log ∧ t.mu = s.mu
          ∧ t.engine = s.engine ∧ t.health = s.health)

/-- A reset taken in OPEN finishes the queued jobs RESET_ABORTED, stops the running one and abandons the commit,
with their notices (02_host_port_and_in_flight_table.md section 2.6, 04_staging_and_commit.md section 4.6,
05_jobs_and_the_copy_engine.md sections 5.6 and 5.8). For SRST_N_ASSERT in a powered state in OPEN with SRST_N
deasserted, and for BRIDGE_RESET in OPEN with room in the FIFO, in every state with the copy engine's laws
whose draining commit has a member: every QUEUED job has finished RESET_ABORTED, its region's job field names
it no more, and the queue is empty. A draining commit has ended RESET_ABORTED with its span closed; with none
draining the commit record is as it was; the generation, bodies and revisions of the active map are unchanged
either way. A running job finishes RESET_ABORTED in the event when it is in SWITCH, its span open, or has no
OUTSTANDING request: no job runs, nothing is locked, no block step, switch timer or stopping flag is left and,
in SWITCH, the span is closed. Otherwise it still runs and stops, its stop request is RESET whatever it was,
and none of its requests waits at a lane. The log has taken JOB_FINISHED for the queued jobs in queue order,
then for the running job if it finished, then COMMIT_FINISHED with the lowest slot of the set if a commit was
abandoned, and nothing else; under BRIDGE_RESET this is said for a table that is not empty, where RESET_DONE
does not follow in the event. -/
def Obligations.ResetEndsJobsAndCommit : Prop :=
  ∀ s : State, s.porst = false → s.hp.seq = .opened → s.engine.Wf →
    (∀ c, s.mu.commit.drain = some c → c.members ≠ []) →
    let finishes := fun j : Job => (j.phase = some .switch ∧ s.ift.switchSpan ≠ none)
      ∨ (j.phase ≠ some .switch ∧ ∀ n : Lane, ∀ o ∈ (s.lanes.get n).outstanding,
          o.req.fromEngine = true → o.timer = none)
    let told := fun last : List NoticeInfo =>
      (s.engine.queue.map fun k => NoticeInfo.jobFinished k .resetAborted) ++ last
        ++ (s.mu.commit.drain.bind fun c => c.members.head?).toList.map fun m =>
            NoticeInfo.commitFinished m.slot .resetAborted
    let logs := fun (last : List NoticeInfo) (t : State) =>
      t.log = (told last).foldl (fun log info => takeNotice s.mu.generation info log) s.log
    let ended := fun (t : State) (whole : Prop) =>
      t.engine.queue = []
      ∧ (∀ k q, k ∈ s.engine.queue → jobOf s.engine k = some q →
          jobOf t.engine k = some { q with life := .finished .resetAborted }
          ∧ (descOf t.mu.slots q.region).bind Descriptor.job ≠ some k)
      ∧ t.mu.commit = (if s.mu.commit.drain = none then s.mu.commit
          else { drain := none, last := .resetAborted })
      ∧ (s.mu.commit.drain ≠ none → t.ift.commitSpan = none)
      ∧ t.mu.generation = s.mu.generation
      ∧ (∀ i, (descOf t.mu.slots i).map Descriptor.body = (descOf s.mu.slots i).map Descriptor.body
          ∧ revisionOf t.mu.slots i = revisionOf s.mu.slots i)
      ∧ (s.engine.running = none → t.engine.running = none ∧ (whole → logs [] t))
      ∧ (∀ h j, runningJob s.engine = some (h, j) →
          (finishes j → jobOf t.engine h = some { j with life := .finished .resetAborted }
            ∧ (descOf t.mu.slots j.region).bind Descriptor.job ≠ some h
            ∧ t.engine.running = none ∧ t.engine.lock = none ∧ t.engine.blockStep = none
            ∧ t.engine.stopping = false ∧ t.engine.switchTimer = none
            ∧ (j.phase = some .switch → t.ift.switchSpan = none)
            ∧ (whole → logs [.jobFinished h .resetAborted] t))
          ∧ (j.phase ≠ some .switch → ¬finishes j →
            jobOf t.engine h = some { j with life := .running (some .reset) }
            ∧ t.engine.running = some h ∧ t.engine.stopping = true
            ∧ (∀ n : Lane, ∀ w ∈ (t.lanes.get n).waiting, w.req.fromEngine = false)
            ∧ (whole → logs [] t)))
    (s.srst = false → ∃ t, exec .srstNAssert s = .next t ∧ ended t True)
    ∧ (∀ tag, LinkReady s → ∃ t, exec (.bridgeReset tag []) s = .next (answered 0x04 tag .accepted [] t)
        ∧ ended t (s.ift.entries ≠ []))

/-- A wrong payload length is BAD_ARGUMENT, and a sequence in progress refuses every changing command
(10_the_management_link.md sections 10.2, 10.4 and 10.6.2). With room in the FIFO: every known command whose
payload length is none of its lengths in 10.6.2 is answered BAD_ARGUMENT with no payload. Outside OPEN, each
of the submission, cancel, clear, staging, commit, lane, health and reset commands whose payload passes its
test is answered RESETTING with no payload. Nothing but the link changes. That an unknown-command row whose
code is known is that command's frame is log entry 17. -/
def Obligations.RefusalsByLengthAndByReset : Prop :=
  (∀ (c : Instr) (code tag : Byte) (payload : List Byte) (s : State),
    frameOf c = some (code, tag, payload) → code ∈ knownCodes → payload.length ∉ payloadLengths code →
    payload.length ≤ 56 → LinkReady s → exec c s = .next (answered code tag .badArgument [] s))
  ∧ (∀ (tag : Byte) (payload : List Byte) (s : State), LinkReady s → s.hp.seq ≠ .opened →
    payload.length ≤ 56 →
    let resetting := fun (c : Instr) (code : Byte) => exec c s = .next (answered code tag .resetting [] s)
    resetting (.bridgeReset tag []) 0x04 ∧ resetting (.hostCountersClear tag []) 0x19
    ∧ resetting (.stageLoad tag []) 0x23 ∧ resetting (.mapCommit tag []) 0x24
    ∧ (parseStageWrite payload ≠ none → resetting (.stageWrite tag payload) 0x21)
    ∧ (parseStageRemove payload ≠ none → resetting (.stageRemove tag payload) 0x22)
    ∧ (parseLaneConfig payload ≠ none → resetting (.laneConfig tag payload) 0x30)
    ∧ (parseLaneSelect payload ≠ none → resetting (.laneCountersClear tag payload) 0x32)
    ∧ (parseHealth payload ≠ none → resetting (.healthConfig tag payload) 0x38)
    ∧ (parseLane payload ≠ none → resetting (.laneSetOffline tag payload) 0x39
        ∧ resetting (.laneSetActive tag payload) 0x3A ∧ resetting (.laneRestore tag payload) 0x3B)
    ∧ (parseRelocate payload ≠ none → resetting (.jobSubmitRelocate tag payload) 0x40)
    ∧ (parseAudit payload ≠ none → resetting (.jobSubmitAudit tag payload) 0x41)
    ∧ (parseHandle payload ≠ none → resetting (.jobCancel tag payload) 0x42
        ∧ resetting (.jobClear tag payload) 0x44))

/-- Every step keeps the fault log's law, ALERT_N among it, and the response FIFO's
(09_fault_records_notices_and_the_alert_line.md sections 9.1, 9.4 and 9.5, 10_the_management_link.md sections
10.1, 10.2, 10.3 and 10.4). From every state whose fault log holds at most 32 records, an overflow count of at
most 255 and at most 16 notices, and whose ALERT_N is asserted exactly when a notice of an enabled kind waits
or the lost flag is set, a step leads to such a state. From every state whose link holds at most 4 responses,
each of at most 56 payload bytes with the check code over its bytes, and counters of at most 4,294,967,295, a
step leads to such a state. -/
def Obligations.LogAndLinkLawsKeptByEveryStep : Prop :=
  (∀ s t : State, s.log.Wf → step s = .next t → t.log.Wf)
  ∧ (∀ s t : State, s.link.Wf → step s = .next t → t.link.Wf)

/-- Every step keeps 16 credits, the arbiter window and the reclaimed bound of every lane (03_lane_ports.md
sections 3.2, 3.3, 3.5 and 3.8). From every state in which each lane has at most 16 issued requests, fewer
than 16 contended grants in its window with at most as many engine grants, at most 65,520 reclaimed numbers
and saturating counters, a step leads to such a state. -/
def Obligations.LanePortLawKeptByEveryStep : Prop :=
  ∀ s t : State, lanesWf s.lanes → step s = .next t → lanesWf t.lanes

/-- The table keeps at most 48 entries in their own slots, joined only at its tail and left only by a response or
a reset (02_host_port_and_in_flight_table.md sections 2.1, 2.2, 2.4 and 2.6). From every state whose table
holds at most 48 entries in distinct slots 0 to 47, a step leads to such a state. For every command and state:
HOST_ACCEPT and MALFORMED_WRITE_BEAT leave the entries as they were or append one; RESPONSE_TAKEN leaves the
others in their order; SRST_N and PORST_N leave them as they were or discard all; every other command leaves
the same entries (slot, upstream ID, kind and host line) in the same order. -/
def Obligations.TableLawsKeptByEveryCommand : Prop :=
  (∀ s t : State, s.ift.Wf → step s = .next t → t.ift.Wf)
  ∧ (∀ (c : Instr) (s t : State), exec c s = .next t →
    match c with
    | .hostAccept _ => identities t = identities s ∨ ∃ x, identities t = identities s ++ [x]
    | .malformedWriteBeat _ => identities t = identities s ∨ ∃ x, identities t = identities s ++ [x]
    | .responseTaken _ => (identities t).Sublist (identities s)
    | .srstNAssert => identities t = identities s ∨ identities t = []
    | .porstNAssert => identities t = []
    | .porstNDeassert _ => identities t = identities s ∨ identities t = []
    | _ => identities t = identities s)

/-- Every step keeps settings in their ranges and the part's sizes (01_the_region_map.md section 1.1,
02_host_port_and_in_flight_table.md sections 2.5 and 2.6, 03_lane_ports.md sections 3.1 and 3.3,
04_staging_and_commit.md section 4.1, 05_jobs_and_the_copy_engine.md section 5.1,
08_lane_health_and_retirement.md sections 8.1 and 8.4). From every state whose budgets, thresholds, interval,
host counters, drain limit, lane capacities, timeouts and engine share are in their ranges, a step leads to
such a state; and a step keeps 64 active slots, 64 staging slots and 8 job slots. -/
def Obligations.SettingsAndSizesKeptByEveryStep : Prop :=
  (∀ s t : State, SettingsWf s → step s = .next t → SettingsWf t)
  ∧ (∀ s t : State, SizesWf s → step s = .next t → SizesWf t)

/-- After every step no MIRROR descriptor, and no leg of a draining commit, has a leg on a RETIRED lane
(01_the_region_map.md section 1.7, 04_staging_and_commit.md section 4.6, 08_lane_health_and_retirement.md
section 8.3). From every state with the part's sizes and the copy engine's and the job fields' laws, in which
no valid MIRROR descriptor has a leg on a RETIRED lane and no leg of a draining commit that is not stale lies
on one, a step leads to such a state: whatever retires a lane drops the legs and makes the commit stale in the
same event, and no commit, switch or lane command puts one there. -/
def Obligations.RetiredLanesCarryNoMirrorLegAfterAnyStep : Prop :=
  ∀ s t : State, SizesWf s → s.engine.Wf → JobFieldsWf s → RetiredClear s → step s = .next t →
    RetiredClear t

/-- Every step keeps the copy engine's handles, queue, cursor and lock, and the job fields of the map
(01_the_region_map.md section 1.9, 04_staging_and_commit.md sections 4.4 and 4.6,
05_jobs_and_the_copy_engine.md sections 5.1, 5.2, 5.4 and 5.6, 06_relocation.md section 6.2). From every state
with the part's sizes and no MIRROR or commit leg on a RETIRED lane, in which: the running handle names the
one RUNNING job slot and the queue lists exactly the QUEUED ones, each once; the running job's cursor is at
most its block count; a block step stands on the block at the running job's cursor, below its block count,
with that block locked, and nothing is locked without one; each QUEUED or RUNNING job's region is valid, its
job field names the job, and its length in blocks is the job's block count; a job field names a QUEUED or
RUNNING job of its region; and no member of a draining commit set has a job; a step leads to such a state. -/
def Obligations.CopyEngineLawsKeptByEveryStep : Prop :=
  ∀ s t : State, SizesWf s → RetiredClear s → s.engine.Wf → JobFieldsWf s → step s = .next t →
    t.engine.Wf ∧ JobFieldsWf t

/-- The configuration changes only by PORST_N and by the commands that set it (00_scope.md section 1.6,
02_host_port_and_in_flight_table.md section 2.6, 03_lane_ports.md sections 3.1, 3.3 and 3.9,
04_staging_and_commit.md section 4.1, 08_lane_health_and_retirement.md sections 8.4 and 8.5,
09_fault_records_notices_and_the_alert_line.md sections 9.5 and 9.6, 10_the_management_link.md section 10.2).
The drain limit, the engine share, the health thresholds and interval, the lane capacities and timeouts, the
alert mask and the staging map are changed by no command other than PORST_N, DRAIN_LIMIT_SET, ARBITER_CONFIG,
HEALTH_CONFIG, LANE_CONFIG, ALERT_MASK, STAGE_WRITE, STAGE_REMOVE and STAGE_LOAD, or by a frame row whose
bytes are the sound frame of one of these, or whose code is one of theirs (log entry 17). No host access, lane
event, reset by SRST_N or BRIDGE_RESET, commit, leg drop, switch or job changes any of them. -/
def Obligations.ConfigurationChangesOnlyByItsCommands : Prop :=
  ∀ (c : Instr) (s t : State), exec c s = .next t →
    let sets := fun code : Byte =>
      code ∈ ([0x05, 0x21, 0x22, 0x23, 0x30, 0x33, 0x38, 0x54] : List Byte)
    match c with
    | .porstNAssert => True
    | .porstNDeassert _ => True
    | .drainLimitSet _ _ => True
    | .arbiterConfig _ _ => True
    | .healthConfig _ _ => True
    | .laneConfig _ _ => True
    | .alertMask _ _ => True
    | .stageWrite _ _ => True
    | .stageRemove _ _ => True
    | .stageLoad _ _ => True
    | .discardedCommandFrame bytes extra =>
      (∀ code tag len payload hi lo, bytes = [code, tag, len] ++ payload ++ [hi, lo] →
        payload.length = len.toNat → len.toNat ≤ 56 → extra = 0 →
        hi.toNat * 256 + lo.toNat = (checkCode ([code, tag, len] ++ payload)).toNat → ¬sets code) →
      configuration t = configuration s
    | .unknownCommand code _ _ => ¬sets code → configuration t = configuration s
    | _ => configuration t = configuration s
end

