-- ==== Sys2Proof/Laws/State.lean ====
section
/-! SUPPORT. What each named update leaves alone, field by field, true by unfolding; and what the plain accessors read back after the updates. -/

namespace Sys2Proof.Machine

open Sys2Proof

/-! ### One lane of four -/

@[simp] theorem PerLane.get_set {α : Type} (p : PerLane α) (n m : Lane) (x : α) :
    (p.set n x).get m = if m = n then x else p.get m := by
  cases n <;> cases m <;> rfl

@[simp] theorem PerLane.get_modify {α : Type} (p : PerLane α) (n m : Lane) (f : α → α) :
    (p.modify n f).get m = if m = n then f (p.get n) else p.get m := by
  cases n <;> cases m <;> rfl

@[simp] theorem PerLane.get_map {α β : Type} (p : PerLane α) (f : α → β) (n : Lane) :
    (p.map f).get n = f (p.get n) := by
  cases n <;> rfl

theorem PerLane.all_iff {α : Type} (p : PerLane α) (f : α → Bool) :
    p.all f = true ↔ ∀ n : Lane, f (p.get n) = true := by
  simp only [PerLane.all, Bool.and_eq_true]
  constructor
  · rintro ⟨⟨⟨h0, h1⟩, h2⟩, h3⟩ n
    cases n <;> assumption
  · intro h
    exact ⟨⟨⟨h .l0, h .l1⟩, h .l2⟩, h .l3⟩

theorem PerLane.ext_get {α : Type} {p q : PerLane α} (h : ∀ n : Lane, p.get n = q.get n) : p = q := by
  have h0 := h .l0
  have h1 := h .l1
  have h2 := h .l2
  have h3 := h .l3
  cases p
  cases q
  simp_all [PerLane.get]

/-! ### writeRecord -/

@[simp] theorem writeRecord_porst (info : FaultInfo) (s : State) :
    (writeRecord info s).porst = s.porst := rfl

@[simp] theorem writeRecord_srst (info : FaultInfo) (s : State) :
    (writeRecord info s).srst = s.srst := rfl

@[simp] theorem writeRecord_strap (info : FaultInfo) (s : State) :
    (writeRecord info s).strap = s.strap := rfl

@[simp] theorem writeRecord_hp (info : FaultInfo) (s : State) :
    (writeRecord info s).hp = s.hp := rfl

@[simp] theorem writeRecord_ift (info : FaultInfo) (s : State) :
    (writeRecord info s).ift = s.ift := rfl

@[simp] theorem writeRecord_mu (info : FaultInfo) (s : State) :
    (writeRecord info s).mu = s.mu := rfl

@[simp] theorem writeRecord_lanes (info : FaultInfo) (s : State) :
    (writeRecord info s).lanes = s.lanes := rfl

@[simp] theorem writeRecord_engine (info : FaultInfo) (s : State) :
    (writeRecord info s).engine = s.engine := rfl

@[simp] theorem writeRecord_health (info : FaultInfo) (s : State) :
    (writeRecord info s).health = s.health := rfl

@[simp] theorem writeRecord_link (info : FaultInfo) (s : State) :
    (writeRecord info s).link = s.link := rfl

@[simp] theorem writeRecord_pending (info : FaultInfo) (s : State) :
    (writeRecord info s).pending = s.pending := rfl

/-! ### postNotice -/

@[simp] theorem postNotice_porst (info : NoticeInfo) (s : State) :
    (postNotice info s).porst = s.porst := rfl

@[simp] theorem postNotice_srst (info : NoticeInfo) (s : State) :
    (postNotice info s).srst = s.srst := rfl

@[simp] theorem postNotice_strap (info : NoticeInfo) (s : State) :
    (postNotice info s).strap = s.strap := rfl

@[simp] theorem postNotice_hp (info : NoticeInfo) (s : State) :
    (postNotice info s).hp = s.hp := rfl

@[simp] theorem postNotice_ift (info : NoticeInfo) (s : State) :
    (postNotice info s).ift = s.ift := rfl

@[simp] theorem postNotice_mu (info : NoticeInfo) (s : State) :
    (postNotice info s).mu = s.mu := rfl

@[simp] theorem postNotice_lanes (info : NoticeInfo) (s : State) :
    (postNotice info s).lanes = s.lanes := rfl

@[simp] theorem postNotice_engine (info : NoticeInfo) (s : State) :
    (postNotice info s).engine = s.engine := rfl

@[simp] theorem postNotice_health (info : NoticeInfo) (s : State) :
    (postNotice info s).health = s.health := rfl

@[simp] theorem postNotice_link (info : NoticeInfo) (s : State) :
    (postNotice info s).link = s.link := rfl

@[simp] theorem postNotice_pending (info : NoticeInfo) (s : State) :
    (postNotice info s).pending = s.pending := rfl

/-! ### setMapSlot -/

@[simp] theorem setMapSlot_porst (i : Nat) (m : MapSlot) (s : State) :
    (setMapSlot i m s).porst = s.porst := rfl

@[simp] theorem setMapSlot_srst (i : Nat) (m : MapSlot) (s : State) :
    (setMapSlot i m s).srst = s.srst := rfl

@[simp] theorem setMapSlot_strap (i : Nat) (m : MapSlot) (s : State) :
    (setMapSlot i m s).strap = s.strap := rfl

@[simp] theorem setMapSlot_hp (i : Nat) (m : MapSlot) (s : State) :
    (setMapSlot i m s).hp = s.hp := rfl

@[simp] theorem setMapSlot_ift (i : Nat) (m : MapSlot) (s : State) :
    (setMapSlot i m s).ift = s.ift := rfl

@[simp] theorem setMapSlot_lanes (i : Nat) (m : MapSlot) (s : State) :
    (setMapSlot i m s).lanes = s.lanes := rfl

@[simp] theorem setMapSlot_engine (i : Nat) (m : MapSlot) (s : State) :
    (setMapSlot i m s).engine = s.engine := rfl

@[simp] theorem setMapSlot_health (i : Nat) (m : MapSlot) (s : State) :
    (setMapSlot i m s).health = s.health := rfl

@[simp] theorem setMapSlot_log (i : Nat) (m : MapSlot) (s : State) :
    (setMapSlot i m s).log = s.log := rfl

@[simp] theorem setMapSlot_link (i : Nat) (m : MapSlot) (s : State) :
    (setMapSlot i m s).link = s.link := rfl

@[simp] theorem setMapSlot_pending (i : Nat) (m : MapSlot) (s : State) :
    (setMapSlot i m s).pending = s.pending := rfl

/-! ### setJob -/

@[simp] theorem setJob_porst (h : Nat) (j : Option Job) (s : State) :
    (setJob h j s).porst = s.porst := rfl

@[simp] theorem setJob_srst (h : Nat) (j : Option Job) (s : State) :
    (setJob h j s).srst = s.srst := rfl

@[simp] theorem setJob_strap (h : Nat) (j : Option Job) (s : State) :
    (setJob h j s).strap = s.strap := rfl

@[simp] theorem setJob_hp (h : Nat) (j : Option Job) (s : State) :
    (setJob h j s).hp = s.hp := rfl

@[simp] theorem setJob_ift (h : Nat) (j : Option Job) (s : State) :
    (setJob h j s).ift = s.ift := rfl

@[simp] theorem setJob_mu (h : Nat) (j : Option Job) (s : State) :
    (setJob h j s).mu = s.mu := rfl

@[simp] theorem setJob_lanes (h : Nat) (j : Option Job) (s : State) :
    (setJob h j s).lanes = s.lanes := rfl

@[simp] theorem setJob_health (h : Nat) (j : Option Job) (s : State) :
    (setJob h j s).health = s.health := rfl

@[simp] theorem setJob_log (h : Nat) (j : Option Job) (s : State) :
    (setJob h j s).log = s.log := rfl

@[simp] theorem setJob_link (h : Nat) (j : Option Job) (s : State) :
    (setJob h j s).link = s.link := rfl

@[simp] theorem setJob_pending (h : Nat) (j : Option Job) (s : State) :
    (setJob h j s).pending = s.pending := rfl

/-! ### modifyEntry -/

@[simp] theorem modifyEntry_porst (slot : Nat) (f : Entry → Entry) (s : State) :
    (modifyEntry slot f s).porst = s.porst := rfl

@[simp] theorem modifyEntry_srst (slot : Nat) (f : Entry → Entry) (s : State) :
    (modifyEntry slot f s).srst = s.srst := rfl

@[simp] theorem modifyEntry_strap (slot : Nat) (f : Entry → Entry) (s : State) :
    (modifyEntry slot f s).strap = s.strap := rfl

@[simp] theorem modifyEntry_hp (slot : Nat) (f : Entry → Entry) (s : State) :
    (modifyEntry slot f s).hp = s.hp := rfl

@[simp] theorem modifyEntry_mu (slot : Nat) (f : Entry → Entry) (s : State) :
    (modifyEntry slot f s).mu = s.mu := rfl

@[simp] theorem modifyEntry_lanes (slot : Nat) (f : Entry → Entry) (s : State) :
    (modifyEntry slot f s).lanes = s.lanes := rfl

@[simp] theorem modifyEntry_engine (slot : Nat) (f : Entry → Entry) (s : State) :
    (modifyEntry slot f s).engine = s.engine := rfl

@[simp] theorem modifyEntry_health (slot : Nat) (f : Entry → Entry) (s : State) :
    (modifyEntry slot f s).health = s.health := rfl

@[simp] theorem modifyEntry_log (slot : Nat) (f : Entry → Entry) (s : State) :
    (modifyEntry slot f s).log = s.log := rfl

@[simp] theorem modifyEntry_link (slot : Nat) (f : Entry → Entry) (s : State) :
    (modifyEntry slot f s).link = s.link := rfl

@[simp] theorem modifyEntry_pending (slot : Nat) (f : Entry → Entry) (s : State) :
    (modifyEntry slot f s).pending = s.pending := rfl

/-! ### setPhase -/

@[simp] theorem setPhase_porst (slot : Nat) (phase : Phase) (s : State) :
    (setPhase slot phase s).porst = s.porst := rfl

@[simp] theorem setPhase_srst (slot : Nat) (phase : Phase) (s : State) :
    (setPhase slot phase s).srst = s.srst := rfl

@[simp] theorem setPhase_strap (slot : Nat) (phase : Phase) (s : State) :
    (setPhase slot phase s).strap = s.strap := rfl

@[simp] theorem setPhase_hp (slot : Nat) (phase : Phase) (s : State) :
    (setPhase slot phase s).hp = s.hp := rfl

@[simp] theorem setPhase_mu (slot : Nat) (phase : Phase) (s : State) :
    (setPhase slot phase s).mu = s.mu := rfl

@[simp] theorem setPhase_lanes (slot : Nat) (phase : Phase) (s : State) :
    (setPhase slot phase s).lanes = s.lanes := rfl

@[simp] theorem setPhase_engine (slot : Nat) (phase : Phase) (s : State) :
    (setPhase slot phase s).engine = s.engine := rfl

@[simp] theorem setPhase_health (slot : Nat) (phase : Phase) (s : State) :
    (setPhase slot phase s).health = s.health := rfl

@[simp] theorem setPhase_log (slot : Nat) (phase : Phase) (s : State) :
    (setPhase slot phase s).log = s.log := rfl

@[simp] theorem setPhase_link (slot : Nat) (phase : Phase) (s : State) :
    (setPhase slot phase s).link = s.link := rfl

@[simp] theorem setPhase_pending (slot : Nat) (phase : Phase) (s : State) :
    (setPhase slot phase s).pending = s.pending := rfl

/-! ### modifyLane -/

@[simp] theorem modifyLane_porst (n : Lane) (f : LanePort → LanePort) (s : State) :
    (modifyLane n f s).porst = s.porst := rfl

@[simp] theorem modifyLane_srst (n : Lane) (f : LanePort → LanePort) (s : State) :
    (modifyLane n f s).srst = s.srst := rfl

@[simp] theorem modifyLane_strap (n : Lane) (f : LanePort → LanePort) (s : State) :
    (modifyLane n f s).strap = s.strap := rfl

@[simp] theorem modifyLane_hp (n : Lane) (f : LanePort → LanePort) (s : State) :
    (modifyLane n f s).hp = s.hp := rfl

@[simp] theorem modifyLane_ift (n : Lane) (f : LanePort → LanePort) (s : State) :
    (modifyLane n f s).ift = s.ift := rfl

@[simp] theorem modifyLane_mu (n : Lane) (f : LanePort → LanePort) (s : State) :
    (modifyLane n f s).mu = s.mu := rfl

@[simp] theorem modifyLane_engine (n : Lane) (f : LanePort → LanePort) (s : State) :
    (modifyLane n f s).engine = s.engine := rfl

@[simp] theorem modifyLane_health (n : Lane) (f : LanePort → LanePort) (s : State) :
    (modifyLane n f s).health = s.health := rfl

@[simp] theorem modifyLane_log (n : Lane) (f : LanePort → LanePort) (s : State) :
    (modifyLane n f s).log = s.log := rfl

@[simp] theorem modifyLane_link (n : Lane) (f : LanePort → LanePort) (s : State) :
    (modifyLane n f s).link = s.link := rfl

@[simp] theorem modifyLane_pending (n : Lane) (f : LanePort → LanePort) (s : State) :
    (modifyLane n f s).pending = s.pending := rfl

/-! ### present -/

@[simp] theorem present_porst (n : Lane) (reqs : List Request) (s : State) :
    (present n reqs s).porst = s.porst := rfl

@[simp] theorem present_srst (n : Lane) (reqs : List Request) (s : State) :
    (present n reqs s).srst = s.srst := rfl

@[simp] theorem present_strap (n : Lane) (reqs : List Request) (s : State) :
    (present n reqs s).strap = s.strap := rfl

@[simp] theorem present_hp (n : Lane) (reqs : List Request) (s : State) :
    (present n reqs s).hp = s.hp := rfl

@[simp] theorem present_ift (n : Lane) (reqs : List Request) (s : State) :
    (present n reqs s).ift = s.ift := rfl

@[simp] theorem present_mu (n : Lane) (reqs : List Request) (s : State) :
    (present n reqs s).mu = s.mu := rfl

@[simp] theorem present_engine (n : Lane) (reqs : List Request) (s : State) :
    (present n reqs s).engine = s.engine := rfl

@[simp] theorem present_health (n : Lane) (reqs : List Request) (s : State) :
    (present n reqs s).health = s.health := rfl

@[simp] theorem present_log (n : Lane) (reqs : List Request) (s : State) :
    (present n reqs s).log = s.log := rfl

@[simp] theorem present_link (n : Lane) (reqs : List Request) (s : State) :
    (present n reqs s).link = s.link := rfl

@[simp] theorem present_pending (n : Lane) (reqs : List Request) (s : State) :
    (present n reqs s).pending = s.pending := rfl

/-! ### withdraw -/

@[simp] theorem withdraw_porst (sel : Request → Bool) (s : State) :
    (withdraw sel s).porst = s.porst := rfl

@[simp] theorem withdraw_srst (sel : Request → Bool) (s : State) :
    (withdraw sel s).srst = s.srst := rfl

@[simp] theorem withdraw_strap (sel : Request → Bool) (s : State) :
    (withdraw sel s).strap = s.strap := rfl

@[simp] theorem withdraw_hp (sel : Request → Bool) (s : State) :
    (withdraw sel s).hp = s.hp := rfl

@[simp] theorem withdraw_ift (sel : Request → Bool) (s : State) :
    (withdraw sel s).ift = s.ift := rfl

@[simp] theorem withdraw_mu (sel : Request → Bool) (s : State) :
    (withdraw sel s).mu = s.mu := rfl

@[simp] theorem withdraw_engine (sel : Request → Bool) (s : State) :
    (withdraw sel s).engine = s.engine := rfl

@[simp] theorem withdraw_health (sel : Request → Bool) (s : State) :
    (withdraw sel s).health = s.health := rfl

@[simp] theorem withdraw_log (sel : Request → Bool) (s : State) :
    (withdraw sel s).log = s.log := rfl

@[simp] theorem withdraw_link (sel : Request → Bool) (s : State) :
    (withdraw sel s).link = s.link := rfl

@[simp] theorem withdraw_pending (sel : Request → Bool) (s : State) :
    (withdraw sel s).pending = s.pending := rfl

/-! ### orphan -/

@[simp] theorem orphan_porst (sel : Nat → Bool) (s : State) :
    (orphan sel s).porst = s.porst := rfl

@[simp] theorem orphan_srst (sel : Nat → Bool) (s : State) :
    (orphan sel s).srst = s.srst := rfl

@[simp] theorem orphan_strap (sel : Nat → Bool) (s : State) :
    (orphan sel s).strap = s.strap := rfl

@[simp] theorem orphan_hp (sel : Nat → Bool) (s : State) :
    (orphan sel s).hp = s.hp := rfl

@[simp] theorem orphan_ift (sel : Nat → Bool) (s : State) :
    (orphan sel s).ift = s.ift := rfl

@[simp] theorem orphan_engine (sel : Nat → Bool) (s : State) :
    (orphan sel s).engine = s.engine := rfl

@[simp] theorem orphan_health (sel : Nat → Bool) (s : State) :
    (orphan sel s).health = s.health := rfl

@[simp] theorem orphan_log (sel : Nat → Bool) (s : State) :
    (orphan sel s).log = s.log := rfl

@[simp] theorem orphan_link (sel : Nat → Bool) (s : State) :
    (orphan sel s).link = s.link := rfl

@[simp] theorem orphan_pending (sel : Nat → Bool) (s : State) :
    (orphan sel s).pending = s.pending := rfl

/-! ### removeEntry -/

@[simp] theorem removeEntry_porst (slot : Nat) (s : State) :
    (removeEntry slot s).porst = s.porst := rfl

@[simp] theorem removeEntry_srst (slot : Nat) (s : State) :
    (removeEntry slot s).srst = s.srst := rfl

@[simp] theorem removeEntry_strap (slot : Nat) (s : State) :
    (removeEntry slot s).strap = s.strap := rfl

@[simp] theorem removeEntry_hp (slot : Nat) (s : State) :
    (removeEntry slot s).hp = s.hp := rfl

@[simp] theorem removeEntry_engine (slot : Nat) (s : State) :
    (removeEntry slot s).engine = s.engine := rfl

@[simp] theorem removeEntry_health (slot : Nat) (s : State) :
    (removeEntry slot s).health = s.health := rfl

@[simp] theorem removeEntry_log (slot : Nat) (s : State) :
    (removeEntry slot s).log = s.log := rfl

@[simp] theorem removeEntry_link (slot : Nat) (s : State) :
    (removeEntry slot s).link = s.link := rfl

@[simp] theorem removeEntry_pending (slot : Nat) (s : State) :
    (removeEntry slot s).pending = s.pending := rfl

/-! ### setStep -/

@[simp] theorem setStep_porst (st : Option BlockStep) (s : State) :
    (setStep st s).porst = s.porst := rfl

@[simp] theorem setStep_srst (st : Option BlockStep) (s : State) :
    (setStep st s).srst = s.srst := rfl

@[simp] theorem setStep_strap (st : Option BlockStep) (s : State) :
    (setStep st s).strap = s.strap := rfl

@[simp] theorem setStep_hp (st : Option BlockStep) (s : State) :
    (setStep st s).hp = s.hp := rfl

@[simp] theorem setStep_ift (st : Option BlockStep) (s : State) :
    (setStep st s).ift = s.ift := rfl

@[simp] theorem setStep_mu (st : Option BlockStep) (s : State) :
    (setStep st s).mu = s.mu := rfl

@[simp] theorem setStep_lanes (st : Option BlockStep) (s : State) :
    (setStep st s).lanes = s.lanes := rfl

@[simp] theorem setStep_health (st : Option BlockStep) (s : State) :
    (setStep st s).health = s.health := rfl

@[simp] theorem setStep_log (st : Option BlockStep) (s : State) :
    (setStep st s).log = s.log := rfl

@[simp] theorem setStep_link (st : Option BlockStep) (s : State) :
    (setStep st s).link = s.link := rfl

@[simp] theorem setStep_pending (st : Option BlockStep) (s : State) :
    (setStep st s).pending = s.pending := rfl

/-! ### openCommit -/

@[simp] theorem openCommit_porst (s : State) :
    (openCommit s).porst = s.porst := rfl

@[simp] theorem openCommit_srst (s : State) :
    (openCommit s).srst = s.srst := rfl

@[simp] theorem openCommit_strap (s : State) :
    (openCommit s).strap = s.strap := rfl

@[simp] theorem openCommit_hp (s : State) :
    (openCommit s).hp = s.hp := rfl

@[simp] theorem openCommit_lanes (s : State) :
    (openCommit s).lanes = s.lanes := rfl

@[simp] theorem openCommit_engine (s : State) :
    (openCommit s).engine = s.engine := rfl

@[simp] theorem openCommit_health (s : State) :
    (openCommit s).health = s.health := rfl

@[simp] theorem openCommit_log (s : State) :
    (openCommit s).log = s.log := rfl

@[simp] theorem openCommit_link (s : State) :
    (openCommit s).link = s.link := rfl

@[simp] theorem openCommit_pending (s : State) :
    (openCommit s).pending = s.pending := rfl

/-! ### installCommit -/

@[simp] theorem installCommit_porst (members : List CommitMember) (s : State) :
    (installCommit members s).porst = s.porst := rfl

@[simp] theorem installCommit_srst (members : List CommitMember) (s : State) :
    (installCommit members s).srst = s.srst := rfl

@[simp] theorem installCommit_strap (members : List CommitMember) (s : State) :
    (installCommit members s).strap = s.strap := rfl

@[simp] theorem installCommit_hp (members : List CommitMember) (s : State) :
    (installCommit members s).hp = s.hp := rfl

@[simp] theorem installCommit_ift (members : List CommitMember) (s : State) :
    (installCommit members s).ift = s.ift := rfl

@[simp] theorem installCommit_lanes (members : List CommitMember) (s : State) :
    (installCommit members s).lanes = s.lanes := rfl

@[simp] theorem installCommit_engine (members : List CommitMember) (s : State) :
    (installCommit members s).engine = s.engine := rfl

@[simp] theorem installCommit_health (members : List CommitMember) (s : State) :
    (installCommit members s).health = s.health := rfl

@[simp] theorem installCommit_log (members : List CommitMember) (s : State) :
    (installCommit members s).log = s.log := rfl

@[simp] theorem installCommit_link (members : List CommitMember) (s : State) :
    (installCommit members s).link = s.link := rfl

@[simp] theorem installCommit_pending (members : List CommitMember) (s : State) :
    (installCommit members s).pending = s.pending := rfl

/-! ### markStale -/

@[simp] theorem markStale_porst (s : State) :
    (markStale s).porst = s.porst := rfl

@[simp] theorem markStale_srst (s : State) :
    (markStale s).srst = s.srst := rfl

@[simp] theorem markStale_strap (s : State) :
    (markStale s).strap = s.strap := rfl

@[simp] theorem markStale_hp (s : State) :
    (markStale s).hp = s.hp := rfl

@[simp] theorem markStale_ift (s : State) :
    (markStale s).ift = s.ift := rfl

@[simp] theorem markStale_lanes (s : State) :
    (markStale s).lanes = s.lanes := rfl

@[simp] theorem markStale_engine (s : State) :
    (markStale s).engine = s.engine := rfl

@[simp] theorem markStale_health (s : State) :
    (markStale s).health = s.health := rfl

@[simp] theorem markStale_log (s : State) :
    (markStale s).log = s.log := rfl

@[simp] theorem markStale_link (s : State) :
    (markStale s).link = s.link := rfl

@[simp] theorem markStale_pending (s : State) :
    (markStale s).pending = s.pending := rfl

/-! ### setLaneState -/

@[simp] theorem setLaneState_porst (lane : Lane) (st : LaneState) (s : State) :
    (setLaneState lane st s).porst = s.porst := rfl

@[simp] theorem setLaneState_srst (lane : Lane) (st : LaneState) (s : State) :
    (setLaneState lane st s).srst = s.srst := rfl

@[simp] theorem setLaneState_strap (lane : Lane) (st : LaneState) (s : State) :
    (setLaneState lane st s).strap = s.strap := rfl

@[simp] theorem setLaneState_hp (lane : Lane) (st : LaneState) (s : State) :
    (setLaneState lane st s).hp = s.hp := rfl

@[simp] theorem setLaneState_ift (lane : Lane) (st : LaneState) (s : State) :
    (setLaneState lane st s).ift = s.ift := rfl

@[simp] theorem setLaneState_mu (lane : Lane) (st : LaneState) (s : State) :
    (setLaneState lane st s).mu = s.mu := rfl

@[simp] theorem setLaneState_lanes (lane : Lane) (st : LaneState) (s : State) :
    (setLaneState lane st s).lanes = s.lanes := rfl

@[simp] theorem setLaneState_engine (lane : Lane) (st : LaneState) (s : State) :
    (setLaneState lane st s).engine = s.engine := rfl

@[simp] theorem setLaneState_link (lane : Lane) (st : LaneState) (s : State) :
    (setLaneState lane st s).link = s.link := rfl

@[simp] theorem setLaneState_pending (lane : Lane) (st : LaneState) (s : State) :
    (setLaneState lane st s).pending = s.pending := rfl

/-! ### grantAll -/

@[simp] theorem grantAll_porst (s : State) :
    (grantAll s).porst = s.porst := rfl

@[simp] theorem grantAll_srst (s : State) :
    (grantAll s).srst = s.srst := rfl

@[simp] theorem grantAll_strap (s : State) :
    (grantAll s).strap = s.strap := rfl

@[simp] theorem grantAll_hp (s : State) :
    (grantAll s).hp = s.hp := rfl

@[simp] theorem grantAll_ift (s : State) :
    (grantAll s).ift = s.ift := rfl

@[simp] theorem grantAll_mu (s : State) :
    (grantAll s).mu = s.mu := rfl

@[simp] theorem grantAll_engine (s : State) :
    (grantAll s).engine = s.engine := rfl

@[simp] theorem grantAll_health (s : State) :
    (grantAll s).health = s.health := rfl

@[simp] theorem grantAll_log (s : State) :
    (grantAll s).log = s.log := rfl

@[simp] theorem grantAll_link (s : State) :
    (grantAll s).link = s.link := rfl

@[simp] theorem grantAll_pending (s : State) :
    (grantAll s).pending = s.pending := rfl

/-! ### refreshPhases -/

@[simp] theorem refreshPhases_porst (s : State) :
    (refreshPhases s).porst = s.porst := rfl

@[simp] theorem refreshPhases_srst (s : State) :
    (refreshPhases s).srst = s.srst := rfl

@[simp] theorem refreshPhases_strap (s : State) :
    (refreshPhases s).strap = s.strap := rfl

@[simp] theorem refreshPhases_hp (s : State) :
    (refreshPhases s).hp = s.hp := rfl

@[simp] theorem refreshPhases_mu (s : State) :
    (refreshPhases s).mu = s.mu := rfl

@[simp] theorem refreshPhases_lanes (s : State) :
    (refreshPhases s).lanes = s.lanes := rfl

@[simp] theorem refreshPhases_engine (s : State) :
    (refreshPhases s).engine = s.engine := rfl

@[simp] theorem refreshPhases_health (s : State) :
    (refreshPhases s).health = s.health := rfl

@[simp] theorem refreshPhases_log (s : State) :
    (refreshPhases s).log = s.log := rfl

@[simp] theorem refreshPhases_link (s : State) :
    (refreshPhases s).link = s.link := rfl

@[simp] theorem refreshPhases_pending (s : State) :
    (refreshPhases s).pending = s.pending := rfl

/-! ### countLane -/

@[simp] theorem countLane_porst (lane : Lane) (f : LaneCounters → LaneCounters) (s : State) :
    (countLane lane f s).porst = s.porst := rfl

@[simp] theorem countLane_srst (lane : Lane) (f : LaneCounters → LaneCounters) (s : State) :
    (countLane lane f s).srst = s.srst := rfl

@[simp] theorem countLane_strap (lane : Lane) (f : LaneCounters → LaneCounters) (s : State) :
    (countLane lane f s).strap = s.strap := rfl

@[simp] theorem countLane_hp (lane : Lane) (f : LaneCounters → LaneCounters) (s : State) :
    (countLane lane f s).hp = s.hp := rfl

@[simp] theorem countLane_ift (lane : Lane) (f : LaneCounters → LaneCounters) (s : State) :
    (countLane lane f s).ift = s.ift := rfl

@[simp] theorem countLane_mu (lane : Lane) (f : LaneCounters → LaneCounters) (s : State) :
    (countLane lane f s).mu = s.mu := rfl

@[simp] theorem countLane_engine (lane : Lane) (f : LaneCounters → LaneCounters) (s : State) :
    (countLane lane f s).engine = s.engine := rfl

@[simp] theorem countLane_health (lane : Lane) (f : LaneCounters → LaneCounters) (s : State) :
    (countLane lane f s).health = s.health := rfl

@[simp] theorem countLane_log (lane : Lane) (f : LaneCounters → LaneCounters) (s : State) :
    (countLane lane f s).log = s.log := rfl

@[simp] theorem countLane_link (lane : Lane) (f : LaneCounters → LaneCounters) (s : State) :
    (countLane lane f s).link = s.link := rfl

@[simp] theorem countLane_pending (lane : Lane) (f : LaneCounters → LaneCounters) (s : State) :
    (countLane lane f s).pending = s.pending := rfl

/-! ### freeCredit -/

@[simp] theorem freeCredit_porst (lane : Lane) (o : Outstanding) (s : State) :
    (freeCredit lane o s).porst = s.porst := rfl

@[simp] theorem freeCredit_srst (lane : Lane) (o : Outstanding) (s : State) :
    (freeCredit lane o s).srst = s.srst := rfl

@[simp] theorem freeCredit_strap (lane : Lane) (o : Outstanding) (s : State) :
    (freeCredit lane o s).strap = s.strap := rfl

@[simp] theorem freeCredit_hp (lane : Lane) (o : Outstanding) (s : State) :
    (freeCredit lane o s).hp = s.hp := rfl

@[simp] theorem freeCredit_ift (lane : Lane) (o : Outstanding) (s : State) :
    (freeCredit lane o s).ift = s.ift := rfl

@[simp] theorem freeCredit_mu (lane : Lane) (o : Outstanding) (s : State) :
    (freeCredit lane o s).mu = s.mu := rfl

@[simp] theorem freeCredit_engine (lane : Lane) (o : Outstanding) (s : State) :
    (freeCredit lane o s).engine = s.engine := rfl

@[simp] theorem freeCredit_health (lane : Lane) (o : Outstanding) (s : State) :
    (freeCredit lane o s).health = s.health := rfl

@[simp] theorem freeCredit_log (lane : Lane) (o : Outstanding) (s : State) :
    (freeCredit lane o s).log = s.log := rfl

@[simp] theorem freeCredit_link (lane : Lane) (o : Outstanding) (s : State) :
    (freeCredit lane o s).link = s.link := rfl

@[simp] theorem freeCredit_pending (lane : Lane) (o : Outstanding) (s : State) :
    (freeCredit lane o s).pending = s.pending := rfl

/-! ### startQuiesce -/

@[simp] theorem startQuiesce_porst (s : State) :
    (startQuiesce s).porst = s.porst := rfl

@[simp] theorem startQuiesce_srst (s : State) :
    (startQuiesce s).srst = s.srst := rfl

@[simp] theorem startQuiesce_strap (s : State) :
    (startQuiesce s).strap = s.strap := rfl

@[simp] theorem startQuiesce_hp (s : State) :
    (startQuiesce s).hp = s.hp := rfl

@[simp] theorem startQuiesce_ift (s : State) :
    (startQuiesce s).ift = s.ift := rfl

@[simp] theorem startQuiesce_mu (s : State) :
    (startQuiesce s).mu = s.mu := rfl

@[simp] theorem startQuiesce_engine (s : State) :
    (startQuiesce s).engine = s.engine := rfl

@[simp] theorem startQuiesce_health (s : State) :
    (startQuiesce s).health = s.health := rfl

@[simp] theorem startQuiesce_log (s : State) :
    (startQuiesce s).log = s.log := rfl

@[simp] theorem startQuiesce_link (s : State) :
    (startQuiesce s).link = s.link := rfl

@[simp] theorem startQuiesce_pending (s : State) :
    (startQuiesce s).pending = s.pending := rfl

/-! ### completeQuiesces -/

@[simp] theorem completeQuiesces_porst (s : State) :
    (completeQuiesces s).porst = s.porst := rfl

@[simp] theorem completeQuiesces_srst (s : State) :
    (completeQuiesces s).srst = s.srst := rfl

@[simp] theorem completeQuiesces_strap (s : State) :
    (completeQuiesces s).strap = s.strap := rfl

@[simp] theorem completeQuiesces_hp (s : State) :
    (completeQuiesces s).hp = s.hp := rfl

@[simp] theorem completeQuiesces_ift (s : State) :
    (completeQuiesces s).ift = s.ift := rfl

@[simp] theorem completeQuiesces_mu (s : State) :
    (completeQuiesces s).mu = s.mu := rfl

@[simp] theorem completeQuiesces_engine (s : State) :
    (completeQuiesces s).engine = s.engine := rfl

@[simp] theorem completeQuiesces_health (s : State) :
    (completeQuiesces s).health = s.health := rfl

@[simp] theorem completeQuiesces_log (s : State) :
    (completeQuiesces s).log = s.log := rfl

@[simp] theorem completeQuiesces_link (s : State) :
    (completeQuiesces s).link = s.link := rfl

@[simp] theorem completeQuiesces_pending (s : State) :
    (completeQuiesces s).pending = s.pending := rfl

/-! ### endSequence -/

@[simp] theorem endSequence_porst (s : State) :
    (endSequence s).porst = s.porst := rfl

@[simp] theorem endSequence_srst (s : State) :
    (endSequence s).srst = s.srst := rfl

@[simp] theorem endSequence_strap (s : State) :
    (endSequence s).strap = s.strap := rfl

@[simp] theorem endSequence_ift (s : State) :
    (endSequence s).ift = s.ift := rfl

@[simp] theorem endSequence_mu (s : State) :
    (endSequence s).mu = s.mu := rfl

@[simp] theorem endSequence_lanes (s : State) :
    (endSequence s).lanes = s.lanes := rfl

@[simp] theorem endSequence_engine (s : State) :
    (endSequence s).engine = s.engine := rfl

@[simp] theorem endSequence_health (s : State) :
    (endSequence s).health = s.health := rfl

@[simp] theorem endSequence_link (s : State) :
    (endSequence s).link = s.link := rfl

@[simp] theorem endSequence_pending (s : State) :
    (endSequence s).pending = s.pending := rfl

/-! ### leaveEntryDrain -/

@[simp] theorem leaveEntryDrain_porst (s : State) :
    (leaveEntryDrain s).porst = s.porst := rfl

@[simp] theorem leaveEntryDrain_srst (s : State) :
    (leaveEntryDrain s).srst = s.srst := rfl

@[simp] theorem leaveEntryDrain_strap (s : State) :
    (leaveEntryDrain s).strap = s.strap := rfl

@[simp] theorem leaveEntryDrain_ift (s : State) :
    (leaveEntryDrain s).ift = s.ift := rfl

@[simp] theorem leaveEntryDrain_mu (s : State) :
    (leaveEntryDrain s).mu = s.mu := rfl

@[simp] theorem leaveEntryDrain_engine (s : State) :
    (leaveEntryDrain s).engine = s.engine := rfl

@[simp] theorem leaveEntryDrain_health (s : State) :
    (leaveEntryDrain s).health = s.health := rfl

@[simp] theorem leaveEntryDrain_log (s : State) :
    (leaveEntryDrain s).log = s.log := rfl

@[simp] theorem leaveEntryDrain_link (s : State) :
    (leaveEntryDrain s).link = s.link := rfl

@[simp] theorem leaveEntryDrain_pending (s : State) :
    (leaveEntryDrain s).pending = s.pending := rfl

/-! ### presentResponses -/

@[simp] theorem presentResponses_porst (s : State) :
    (presentResponses s).porst = s.porst := rfl

@[simp] theorem presentResponses_srst (s : State) :
    (presentResponses s).srst = s.srst := rfl

@[simp] theorem presentResponses_strap (s : State) :
    (presentResponses s).strap = s.strap := rfl

@[simp] theorem presentResponses_ift (s : State) :
    (presentResponses s).ift = s.ift := rfl

@[simp] theorem presentResponses_mu (s : State) :
    (presentResponses s).mu = s.mu := rfl

@[simp] theorem presentResponses_lanes (s : State) :
    (presentResponses s).lanes = s.lanes := rfl

@[simp] theorem presentResponses_engine (s : State) :
    (presentResponses s).engine = s.engine := rfl

@[simp] theorem presentResponses_health (s : State) :
    (presentResponses s).health = s.health := rfl

@[simp] theorem presentResponses_log (s : State) :
    (presentResponses s).log = s.log := rfl

@[simp] theorem presentResponses_link (s : State) :
    (presentResponses s).link = s.link := rfl

@[simp] theorem presentResponses_pending (s : State) :
    (presentResponses s).pending = s.pending := rfl

/-! ### discardEntries -/

@[simp] theorem discardEntries_porst (s : State) :
    (discardEntries s).porst = s.porst := rfl

@[simp] theorem discardEntries_srst (s : State) :
    (discardEntries s).srst = s.srst := rfl

@[simp] theorem discardEntries_strap (s : State) :
    (discardEntries s).strap = s.strap := rfl

@[simp] theorem discardEntries_engine (s : State) :
    (discardEntries s).engine = s.engine := rfl

@[simp] theorem discardEntries_health (s : State) :
    (discardEntries s).health = s.health := rfl

@[simp] theorem discardEntries_log (s : State) :
    (discardEntries s).log = s.log := rfl

@[simp] theorem discardEntries_link (s : State) :
    (discardEntries s).link = s.link := rfl

@[simp] theorem discardEntries_pending (s : State) :
    (discardEntries s).pending = s.pending := rfl

/-! ### setStage -/

@[simp] theorem setStage_porst (i : Nat) (st : StageSlot) (s : State) :
    (setStage i st s).porst = s.porst := rfl

@[simp] theorem setStage_srst (i : Nat) (st : StageSlot) (s : State) :
    (setStage i st s).srst = s.srst := rfl

@[simp] theorem setStage_strap (i : Nat) (st : StageSlot) (s : State) :
    (setStage i st s).strap = s.strap := rfl

@[simp] theorem setStage_hp (i : Nat) (st : StageSlot) (s : State) :
    (setStage i st s).hp = s.hp := rfl

@[simp] theorem setStage_ift (i : Nat) (st : StageSlot) (s : State) :
    (setStage i st s).ift = s.ift := rfl

@[simp] theorem setStage_lanes (i : Nat) (st : StageSlot) (s : State) :
    (setStage i st s).lanes = s.lanes := rfl

@[simp] theorem setStage_engine (i : Nat) (st : StageSlot) (s : State) :
    (setStage i st s).engine = s.engine := rfl

@[simp] theorem setStage_health (i : Nat) (st : StageSlot) (s : State) :
    (setStage i st s).health = s.health := rfl

@[simp] theorem setStage_log (i : Nat) (st : StageSlot) (s : State) :
    (setStage i st s).log = s.log := rfl

@[simp] theorem setStage_link (i : Nat) (st : StageSlot) (s : State) :
    (setStage i st s).link = s.link := rfl

@[simp] theorem setStage_pending (i : Nat) (st : StageSlot) (s : State) :
    (setStage i st s).pending = s.pending := rfl

/-! ### loadStaging -/

@[simp] theorem loadStaging_porst (s : State) :
    (loadStaging s).porst = s.porst := rfl

@[simp] theorem loadStaging_srst (s : State) :
    (loadStaging s).srst = s.srst := rfl

@[simp] theorem loadStaging_strap (s : State) :
    (loadStaging s).strap = s.strap := rfl

@[simp] theorem loadStaging_hp (s : State) :
    (loadStaging s).hp = s.hp := rfl

@[simp] theorem loadStaging_ift (s : State) :
    (loadStaging s).ift = s.ift := rfl

@[simp] theorem loadStaging_lanes (s : State) :
    (loadStaging s).lanes = s.lanes := rfl

@[simp] theorem loadStaging_engine (s : State) :
    (loadStaging s).engine = s.engine := rfl

@[simp] theorem loadStaging_health (s : State) :
    (loadStaging s).health = s.health := rfl

@[simp] theorem loadStaging_log (s : State) :
    (loadStaging s).log = s.log := rfl

@[simp] theorem loadStaging_link (s : State) :
    (loadStaging s).link = s.link := rfl

@[simp] theorem loadStaging_pending (s : State) :
    (loadStaging s).pending = s.pending := rfl

/-! ### clearHostCounters -/

@[simp] theorem clearHostCounters_porst (s : State) :
    (clearHostCounters s).porst = s.porst := rfl

@[simp] theorem clearHostCounters_srst (s : State) :
    (clearHostCounters s).srst = s.srst := rfl

@[simp] theorem clearHostCounters_strap (s : State) :
    (clearHostCounters s).strap = s.strap := rfl

@[simp] theorem clearHostCounters_ift (s : State) :
    (clearHostCounters s).ift = s.ift := rfl

@[simp] theorem clearHostCounters_mu (s : State) :
    (clearHostCounters s).mu = s.mu := rfl

@[simp] theorem clearHostCounters_lanes (s : State) :
    (clearHostCounters s).lanes = s.lanes := rfl

@[simp] theorem clearHostCounters_engine (s : State) :
    (clearHostCounters s).engine = s.engine := rfl

@[simp] theorem clearHostCounters_health (s : State) :
    (clearHostCounters s).health = s.health := rfl

@[simp] theorem clearHostCounters_log (s : State) :
    (clearHostCounters s).log = s.log := rfl

@[simp] theorem clearHostCounters_link (s : State) :
    (clearHostCounters s).link = s.link := rfl

@[simp] theorem clearHostCounters_pending (s : State) :
    (clearHostCounters s).pending = s.pending := rfl

/-! ### makeActive -/

@[simp] theorem makeActive_porst (lane : Lane) (s : State) :
    (makeActive lane s).porst = s.porst := rfl

@[simp] theorem makeActive_srst (lane : Lane) (s : State) :
    (makeActive lane s).srst = s.srst := rfl

@[simp] theorem makeActive_strap (lane : Lane) (s : State) :
    (makeActive lane s).strap = s.strap := rfl

@[simp] theorem makeActive_hp (lane : Lane) (s : State) :
    (makeActive lane s).hp = s.hp := rfl

@[simp] theorem makeActive_ift (lane : Lane) (s : State) :
    (makeActive lane s).ift = s.ift := rfl

@[simp] theorem makeActive_mu (lane : Lane) (s : State) :
    (makeActive lane s).mu = s.mu := rfl

@[simp] theorem makeActive_lanes (lane : Lane) (s : State) :
    (makeActive lane s).lanes = s.lanes := rfl

@[simp] theorem makeActive_engine (lane : Lane) (s : State) :
    (makeActive lane s).engine = s.engine := rfl

@[simp] theorem makeActive_link (lane : Lane) (s : State) :
    (makeActive lane s).link = s.link := rfl

@[simp] theorem makeActive_pending (lane : Lane) (s : State) :
    (makeActive lane s).pending = s.pending := rfl

/-! ### pushResponse -/

@[simp] theorem pushResponse_porst (r : Response) (s : State) :
    (pushResponse r s).porst = s.porst := rfl

@[simp] theorem pushResponse_srst (r : Response) (s : State) :
    (pushResponse r s).srst = s.srst := rfl

@[simp] theorem pushResponse_strap (r : Response) (s : State) :
    (pushResponse r s).strap = s.strap := rfl

@[simp] theorem pushResponse_hp (r : Response) (s : State) :
    (pushResponse r s).hp = s.hp := rfl

@[simp] theorem pushResponse_ift (r : Response) (s : State) :
    (pushResponse r s).ift = s.ift := rfl

@[simp] theorem pushResponse_mu (r : Response) (s : State) :
    (pushResponse r s).mu = s.mu := rfl

@[simp] theorem pushResponse_lanes (r : Response) (s : State) :
    (pushResponse r s).lanes = s.lanes := rfl

@[simp] theorem pushResponse_engine (r : Response) (s : State) :
    (pushResponse r s).engine = s.engine := rfl

@[simp] theorem pushResponse_health (r : Response) (s : State) :
    (pushResponse r s).health = s.health := rfl

@[simp] theorem pushResponse_log (r : Response) (s : State) :
    (pushResponse r s).log = s.log := rfl

@[simp] theorem pushResponse_pending (r : Response) (s : State) :
    (pushResponse r s).pending = s.pending := rfl

/-! ### framingError -/

@[simp] theorem framingError_porst (s : State) :
    (framingError s).porst = s.porst := rfl

@[simp] theorem framingError_srst (s : State) :
    (framingError s).srst = s.srst := rfl

@[simp] theorem framingError_strap (s : State) :
    (framingError s).strap = s.strap := rfl

@[simp] theorem framingError_hp (s : State) :
    (framingError s).hp = s.hp := rfl

@[simp] theorem framingError_ift (s : State) :
    (framingError s).ift = s.ift := rfl

@[simp] theorem framingError_mu (s : State) :
    (framingError s).mu = s.mu := rfl

@[simp] theorem framingError_lanes (s : State) :
    (framingError s).lanes = s.lanes := rfl

@[simp] theorem framingError_engine (s : State) :
    (framingError s).engine = s.engine := rfl

@[simp] theorem framingError_health (s : State) :
    (framingError s).health = s.health := rfl

@[simp] theorem framingError_log (s : State) :
    (framingError s).log = s.log := rfl

@[simp] theorem framingError_pending (s : State) :
    (framingError s).pending = s.pending := rfl

/-! ### checkError -/

@[simp] theorem checkError_porst (s : State) :
    (checkError s).porst = s.porst := rfl

@[simp] theorem checkError_srst (s : State) :
    (checkError s).srst = s.srst := rfl

@[simp] theorem checkError_strap (s : State) :
    (checkError s).strap = s.strap := rfl

@[simp] theorem checkError_hp (s : State) :
    (checkError s).hp = s.hp := rfl

@[simp] theorem checkError_ift (s : State) :
    (checkError s).ift = s.ift := rfl

@[simp] theorem checkError_mu (s : State) :
    (checkError s).mu = s.mu := rfl

@[simp] theorem checkError_lanes (s : State) :
    (checkError s).lanes = s.lanes := rfl

@[simp] theorem checkError_engine (s : State) :
    (checkError s).engine = s.engine := rfl

@[simp] theorem checkError_health (s : State) :
    (checkError s).health = s.health := rfl

@[simp] theorem checkError_log (s : State) :
    (checkError s).log = s.log := rfl

@[simp] theorem checkError_pending (s : State) :
    (checkError s).pending = s.pending := rfl

/-! ### overrun -/

@[simp] theorem overrun_porst (s : State) :
    (overrun s).porst = s.porst := rfl

@[simp] theorem overrun_srst (s : State) :
    (overrun s).srst = s.srst := rfl

@[simp] theorem overrun_strap (s : State) :
    (overrun s).strap = s.strap := rfl

@[simp] theorem overrun_hp (s : State) :
    (overrun s).hp = s.hp := rfl

@[simp] theorem overrun_ift (s : State) :
    (overrun s).ift = s.ift := rfl

@[simp] theorem overrun_mu (s : State) :
    (overrun s).mu = s.mu := rfl

@[simp] theorem overrun_lanes (s : State) :
    (overrun s).lanes = s.lanes := rfl

@[simp] theorem overrun_engine (s : State) :
    (overrun s).engine = s.engine := rfl

@[simp] theorem overrun_health (s : State) :
    (overrun s).health = s.health := rfl

@[simp] theorem overrun_log (s : State) :
    (overrun s).log = s.log := rfl

@[simp] theorem overrun_pending (s : State) :
    (overrun s).pending = s.pending := rfl

/-! ### shortEnd -/

@[simp] theorem shortEnd_porst (s : State) :
    (shortEnd s).porst = s.porst := rfl

@[simp] theorem shortEnd_srst (s : State) :
    (shortEnd s).srst = s.srst := rfl

@[simp] theorem shortEnd_strap (s : State) :
    (shortEnd s).strap = s.strap := rfl

@[simp] theorem shortEnd_hp (s : State) :
    (shortEnd s).hp = s.hp := rfl

@[simp] theorem shortEnd_ift (s : State) :
    (shortEnd s).ift = s.ift := rfl

@[simp] theorem shortEnd_mu (s : State) :
    (shortEnd s).mu = s.mu := rfl

@[simp] theorem shortEnd_lanes (s : State) :
    (shortEnd s).lanes = s.lanes := rfl

@[simp] theorem shortEnd_engine (s : State) :
    (shortEnd s).engine = s.engine := rfl

@[simp] theorem shortEnd_health (s : State) :
    (shortEnd s).health = s.health := rfl

@[simp] theorem shortEnd_log (s : State) :
    (shortEnd s).log = s.log := rfl

@[simp] theorem shortEnd_pending (s : State) :
    (shortEnd s).pending = s.pending := rfl

end Sys2Proof.Machine
end

