-- ==== Sys2Proof/Laws/Kept.lean ====
section
/-! SUPPORT. What every operation inside the bridge keeps: the pins, the link and the queue as they are, and the laws of Safety.lean. One lemma per operation; `Kept.refl` and `Kept.trans` chain them. -/

namespace Sys2Proof.Machine

open Sys2Proof

/-- What every operation inside an event keeps from the state before it to the state after it. -/
structure KeptLaws (s t : State) : Prop where
  porst : t.porst = s.porst
  srst : t.srst = s.srst
  strap : t.strap = s.strap
  link : t.link = s.link
  pending : t.pending = s.pending
  log : s.log.Wf → t.log.Wf
  lanes : lanesWf s.lanes → lanesWf t.lanes
  settings : SettingsWf s → SettingsWf t
  sizes : SizesWf s → SizesWf t
  known : allKnown s = true → allKnown t = true
  config : configuration t = configuration s

/-- `KeptLaws`, and no entry joins or leaves the table. -/
structure KeptTable (s t : State) : Prop extends KeptLaws s t where
  entries : identities t = identities s

/-- `KeptTable`, and no lane error is counted or weighed. -/
structure Kept (s t : State) : Prop extends KeptTable s t where
  errors : ∀ n : Lane, errorCounts t n = errorCounts s n
  budgets : ∀ n : Lane, budgetOf t n = budgetOf s n

theorem KeptLaws.refl (s : State) : KeptLaws s s :=
  ⟨rfl, rfl, rfl, rfl, rfl, id, id, id, id, id, rfl⟩

theorem KeptTable.refl (s : State) : KeptTable s s := ⟨KeptLaws.refl s, rfl⟩

theorem Kept.refl (s : State) : Kept s s := ⟨KeptTable.refl s, fun _ => rfl, fun _ => rfl⟩

theorem KeptLaws.trans {s t u : State} (h : KeptLaws s t) (k : KeptLaws t u) : KeptLaws s u :=
  ⟨k.porst.trans h.porst, k.srst.trans h.srst, k.strap.trans h.strap, k.link.trans h.link,
   k.pending.trans h.pending, k.log ∘ h.log, k.lanes ∘ h.lanes, k.settings ∘ h.settings,
   k.sizes ∘ h.sizes, k.known ∘ h.known, k.config.trans h.config⟩

theorem KeptTable.trans {s t u : State} (h : KeptTable s t) (k : KeptTable t u) : KeptTable s u :=
  ⟨h.toKeptLaws.trans k.toKeptLaws, k.entries.trans h.entries⟩

theorem Kept.trans {s t u : State} (h : Kept s t) (k : Kept t u) : Kept s u :=
  ⟨h.toKeptTable.trans k.toKeptTable, fun n => (k.errors n).trans (h.errors n),
   fun n => (k.budgets n).trans (h.budgets n)⟩

/-! ### Updates of one block -/

/-- An update of the fault log alone. -/
theorem Kept.ofLog {s : State} {l : FaultLog} (h : s.log.Wf → l.Wf) (k : l.mask = s.log.mask) :
    Kept s { s with log := l } :=
  ⟨⟨⟨rfl, rfl, rfl, rfl, rfl, h, id, id, id, id, by simp only [configuration, k]⟩, rfl⟩,
   fun _ => rfl, fun _ => rfl⟩

/-- An update of the table alone that no entry joins or leaves and that takes back no outcome. -/
theorem Kept.ofTable {s : State} {t : InFlight}
    (h : t.entries.map Entry.identity = s.ift.entries.map Entry.identity)
    (k : allKnown s = true → (t.entries.all fun e => !e.unanswered) = true) :
    Kept s { s with ift := t } :=
  ⟨⟨⟨rfl, rfl, rfl, rfl, rfl, id, id, id, id, k, rfl⟩, h⟩, fun _ => rfl, fun _ => rfl⟩

/-- An update of the map unit alone that keeps its size and its staging map. -/
theorem Kept.ofMap {s : State} {m : MapUnit} (h : m.slots.length = s.mu.slots.length)
    (k : m.staging = s.mu.staging) : Kept s { s with mu := m } :=
  ⟨⟨⟨rfl, rfl, rfl, rfl, rfl, id, id, id,
     fun z => ⟨h.trans z.1, by rw [k]; exact z.2.1, z.2.2⟩, id, by simp only [configuration, k]⟩, rfl⟩,
   fun _ => rfl, fun _ => rfl⟩

/-- An update of the lane ports alone that keeps their configuration. -/
theorem KeptTable.ofLanes {s : State} {l : PerLane LanePort}
    (h : ∀ n : Lane, (s.lanes.get n).Wf → (l.get n).Wf)
    (k : ∀ n : Lane, (l.get n).capacity = (s.lanes.get n).capacity
      ∧ (l.get n).timeout = (s.lanes.get n).timeout) : KeptTable s { s with lanes := l } := by
  have c : l.map LanePort.capacity = s.lanes.map LanePort.capacity :=
    PerLane.ext_get fun n => by simpa using (k n).1
  have d : l.map LanePort.timeout = s.lanes.map LanePort.timeout :=
    PerLane.ext_get fun n => by simpa using (k n).2
  refine ⟨⟨rfl, rfl, rfl, rfl, rfl, id, fun w n => h n (w n), fun z => ⟨z.1, z.2.1, fun n => ?_, z.2.2.2⟩,
    id, id, by simp only [configuration, c, d]⟩, rfl⟩
  have zn := z.2.2.1 n
  unfold LanePort.Configured at zn ⊢
  show (l.get n).capacity ≤ _ ∧ 1 ≤ (l.get n).timeout ∧ (l.get n).timeout ≤ _
  rw [(k n).1, (k n).2]
  exact zn

/-- An update of the lane ports alone that keeps their configuration and counts no error. -/
theorem Kept.ofLanes {s : State} {l : PerLane LanePort}
    (h : ∀ n : Lane, (s.lanes.get n).Wf → (l.get n).Wf)
    (k : ∀ n : Lane, (l.get n).capacity = (s.lanes.get n).capacity
      ∧ (l.get n).timeout = (s.lanes.get n).timeout)
    (e : ∀ n : Lane, errorCounts { s with lanes := l } n = errorCounts s n) :
    Kept s { s with lanes := l } :=
  ⟨KeptTable.ofLanes h k, e, fun _ => rfl⟩

/-- An update of the copy engine alone. -/
theorem Kept.ofEngine {s : State} {e : Engine} (h : e.share = s.engine.share)
    (k : e.jobs.length = s.engine.jobs.length) : Kept s { s with engine := e } :=
  ⟨⟨⟨rfl, rfl, rfl, rfl, rfl, id, id, fun z => ⟨z.1, z.2.1, z.2.2.1, by rw [h]; exact z.2.2.2⟩,
     fun z => ⟨z.1, z.2.1, k.trans z.2.2⟩, id, by simp only [configuration, h]⟩, rfl⟩,
   fun _ => rfl, fun _ => rfl⟩

/-- An update of the health monitor alone that keeps its settings. -/
theorem KeptTable.ofHealth {s : State} {g : Health} (h : s.health.Wf → g.Wf)
    (k : g.suspect = s.health.suspect ∧ g.retire = s.health.retire ∧ g.interval = s.health.interval) :
    KeptTable s { s with health := g } :=
  ⟨⟨rfl, rfl, rfl, rfl, rfl, id, id, fun z => ⟨h z.1, z.2⟩, id, id,
    by simp only [configuration, k.1, k.2.1, k.2.2]⟩, rfl⟩

/-- An update of the host port alone that keeps the drain limit. -/
theorem Kept.ofPort {s : State} {p : HostPort} (h : s.hp.Wf → p.Wf) (k : p.drainLimit = s.hp.drainLimit) :
    Kept s { s with hp := p } :=
  ⟨⟨⟨rfl, rfl, rfl, rfl, rfl, id, id, fun z => ⟨z.1, h z.2.1, z.2.2⟩, id, id,
     by simp only [configuration, k]⟩, rfl⟩, fun _ => rfl, fun _ => rfl⟩

/-! ### The fault log (R152, R158, R161) -/

theorem evaluateAlert_wf {log : FaultLog} (h : log.ring.length ≤ Config.ringSize)
    (k : log.overflow ≤ Config.overflowMax) (m : log.notices.length ≤ Config.noticeSize) :
    (evaluateAlert log).Wf :=
  ⟨h, k, m, rfl⟩

/-- Taking a notice keeps the log's laws whatever the line was. -/
theorem takeNotice_wf (g : Count16) (info : NoticeInfo) {log : FaultLog}
    (h : log.ring.length ≤ Config.ringSize) (k : log.overflow ≤ Config.overflowMax)
    (m : log.notices.length ≤ Config.noticeSize) : (takeNotice g info log).Wf := by
  unfold takeNotice
  split
  · exact evaluateAlert_wf h k (by simp only [List.length_append, List.length_singleton]; omega)
  · exact evaluateAlert_wf h k m

theorem takeRecord_wf (g : Count16) (info : FaultInfo) {log : FaultLog} (h : log.Wf) :
    (takeRecord g info log).Wf := by
  obtain ⟨h1, h2, h3, h4⟩ := h
  unfold takeRecord
  split
  · rename_i room
    have hl : ∀ r : FaultRecord, (log.ring ++ [r]).length ≤ Config.ringSize := fun r => by
      simp only [List.length_append, List.length_singleton]; omega
    split
    · exact takeNotice_wf _ _ (hl _) h2 h3
    · exact ⟨hl _, h2, h3, h4⟩
  · refine ⟨h1, ?_, h3, h4⟩
    simp only [bumpTo]
    split <;> omega

theorem takeNotice_mask (g : Count16) (info : NoticeInfo) (log : FaultLog) :
    (takeNotice g info log).mask = log.mask := by
  unfold takeNotice
  split <;> rfl

theorem takeRecord_mask (g : Count16) (info : FaultInfo) (log : FaultLog) :
    (takeRecord g info log).mask = log.mask := by
  unfold takeRecord
  split
  · dsimp only
    split
    · exact takeNotice_mask _ _ _
    · rfl
  · rfl

theorem kept_writeRecord (info : FaultInfo) (s : State) : Kept s (writeRecord info s) :=
  Kept.ofLog (takeRecord_wf _ _) (takeRecord_mask _ _ _)

theorem kept_postNotice (info : NoticeInfo) (s : State) : Kept s (postNotice info s) :=
  Kept.ofLog (fun h => takeNotice_wf _ _ h.1 h.2.1 h.2.2.1) (takeNotice_mask _ _ _)

/-! ### Map slots and jobs -/

theorem kept_setMapSlot (i : Nat) (m : MapSlot) (s : State) : Kept s (setMapSlot i m s) :=
  Kept.ofMap (by simp) rfl

theorem kept_setJobField (i : Nat) (h : Option Nat) (s : State) : Kept s (setJobField i h s) := by
  unfold setJobField
  split
  · exact Kept.refl s
  · exact kept_setMapSlot _ _ s

theorem kept_setJob (h : Nat) (j : Option Job) (s : State) : Kept s (setJob h j s) :=
  Kept.ofEngine rfl (by simp)

theorem kept_modifyRunning (f : Job → Job) (s : State) : Kept s (modifyRunning f s) := by
  unfold modifyRunning
  split
  · exact Kept.refl s
  · exact kept_setJob _ _ s

theorem kept_raiseStop (stop : Stop) (s : State) : Kept s (raiseStop stop s) := kept_modifyRunning _ s

theorem kept_raiseReset (s : State) : Kept s (raiseReset s) := kept_modifyRunning _ s

/-! ### Entries -/

/-- A change of entries keeps an entry when it keeps what an entry keeps, and takes back no outcome. -/
def KeepsEntry (f : Entry → Entry) : Prop :=
  ∀ e, (f e).identity = e.identity ∧ (e.unanswered = false → (f e).unanswered = false)

theorem identities_map {f : Entry → Entry} (h : KeepsEntry f) (entries : List Entry) :
    (entries.map f).map Entry.identity = entries.map Entry.identity := by
  simp only [List.map_map]
  exact List.map_congr_left fun e _ => (h e).1

theorem known_map {f : Entry → Entry} (h : KeepsEntry f) {entries : List Entry}
    (k : (entries.all fun e => !e.unanswered) = true) :
    ((entries.map f).all fun e => !e.unanswered) = true := by
  simp only [List.all_map, List.all_eq_true, Function.comp_apply, Bool.not_eq_true'] at k ⊢
  exact fun e m => (h e).2 (k e m)

theorem kept_mapEntries {f : Entry → Entry} (h : KeepsEntry f) (s : State) :
    Kept s { s with ift.entries := s.ift.entries.map f } :=
  Kept.ofTable (identities_map h _) (known_map h)

theorem kept_modifyEntry (slot : Nat) (f : Entry → Entry) (h : KeepsEntry f) (s : State) :
    Kept s (modifyEntry slot f s) := by
  refine kept_mapEntries (f := fun e => if e.slot == slot then f e else e) (fun e => ?_) s
  dsimp only
  split
  · exact h e
  · exact ⟨rfl, id⟩

theorem kept_setPhase (slot : Nat) (phase : Phase) (s : State) : Kept s (setPhase slot phase s) :=
  kept_modifyEntry slot (fun e => { e with phase := phase }) (fun _ => ⟨rfl, id⟩) s

/-! ### Lane ports -/

/-- A change of one lane port that keeps its laws and its configuration. -/
theorem keptTable_modifyLane {n : Lane} {f : LanePort → LanePort} (s : State)
    (h : (s.lanes.get n).Wf → (f (s.lanes.get n)).Wf)
    (k : ∀ p : LanePort, (f p).capacity = p.capacity ∧ (f p).timeout = p.timeout) :
    KeptTable s (modifyLane n f s) := by
  refine KeptTable.ofLanes (fun m w => ?_) (fun m => ?_)
  · rw [PerLane.get_modify]
    split
    · rename_i e
      subst e
      exact h w
    · exact w
  · rw [PerLane.get_modify]
    split
    · rename_i e
      subst e
      exact k _
    · exact ⟨rfl, rfl⟩

/-- A change of one lane port that keeps its laws and its configuration and counts no error. -/
theorem kept_modifyLane {n : Lane} {f : LanePort → LanePort} (s : State)
    (h : (s.lanes.get n).Wf → (f (s.lanes.get n)).Wf)
    (k : ∀ p : LanePort, (f p).capacity = p.capacity ∧ (f p).timeout = p.timeout)
    (c : ∀ p : LanePort, (f p).counters = p.counters) : Kept s (modifyLane n f s) := by
  refine ⟨keptTable_modifyLane s h k, fun m => ?_, fun _ => rfl⟩
  have : ((modifyLane n f s).lanes.get m).counters = (s.lanes.get m).counters := by
    show ((s.lanes.modify n f).get m).counters = _
    rw [PerLane.get_modify]
    split
    · rename_i e
      subst e
      exact c _
    · rfl
  simp only [errorCounts, this]

/-- A change of every lane port that keeps laws, configuration and error counts. -/
theorem kept_mapLanes {f : LanePort → LanePort} (s : State)
    (h : ∀ p : LanePort, p.Wf → (f p).Wf)
    (k : ∀ p : LanePort, (f p).capacity = p.capacity ∧ (f p).timeout = p.timeout)
    (c : ∀ p : LanePort, (f p).counters.readErrors = p.counters.readErrors
      ∧ (f p).counters.writeErrors = p.counters.writeErrors
      ∧ (f p).counters.timeouts = p.counters.timeouts
      ∧ (f p).counters.lateResponses = p.counters.lateResponses) :
    Kept s { s with lanes := s.lanes.map f } :=
  Kept.ofLanes (fun n w => by rw [PerLane.get_map]; exact h _ w)
    (fun n => by rw [PerLane.get_map]; exact k _)
    (fun n => by
      obtain ⟨h1, h2, h3, h4⟩ := c (s.lanes.get n)
      simp only [errorCounts, PerLane.get_map, h1, h2, h3, h4])

theorem kept_present (n : Lane) (reqs : List Request) (s : State) : Kept s (present n reqs s) :=
  kept_modifyLane s (fun w => w) (fun _ => ⟨rfl, rfl⟩) (fun _ => rfl)

theorem kept_withdraw (sel : Request → Bool) (s : State) : Kept s (withdraw sel s) :=
  kept_mapLanes s (fun _ w => w) (fun _ => ⟨rfl, rfl⟩) (fun _ => ⟨rfl, rfl, rfl, rfl⟩)

theorem kept_orphan (sel : Nat → Bool) (s : State) : Kept s (orphan sel s) :=
  (kept_mapLanes
      (f := fun p => { p with outstanding := p.outstanding.map fun o => { o with req := o.req.orphan sel } })
      s (fun p w => ⟨by simpa using w.1, w.2⟩) (fun _ => ⟨rfl, rfl⟩) (fun _ => ⟨rfl, rfl, rfl, rfl⟩)).trans
    (Kept.ofMap rfl rfl)

/-- An update of the table alone from which entries may leave. -/
theorem KeptLaws.ofTable {s : State} {t : InFlight}
    (k : allKnown s = true → (t.entries.all fun e => !e.unanswered) = true) :
    KeptLaws s { s with ift := t } :=
  ⟨rfl, rfl, rfl, rfl, rfl, id, id, id, id, k, rfl⟩

theorem keptLaws_removeEntry (slot : Nat) (s : State) : KeptLaws s (removeEntry slot s) := by
  unfold removeEntry
  refine KeptLaws.trans ?_ (kept_orphan _ _).toKeptLaws
  refine KeptLaws.ofTable fun k => ?_
  simp only [allKnown, List.all_eq_true] at k ⊢
  exact fun e m => k e (List.mem_of_mem_filter m)

/-! ### Block steps -/

theorem kept_setStep (st : Option BlockStep) (s : State) : Kept s (setStep st s) := Kept.ofEngine rfl rfl

theorem kept_presentVerifyReads (block : Nat) (legs : List Leg) :
    ∀ (i : Nat) (s : State), Kept s (presentVerifyReads block i legs s) := by
  induction legs with
  | nil => exact fun _ s => Kept.refl s
  | cons leg rest ih => exact fun i s => (kept_present _ _ s).trans (ih (i + 1) _)

theorem kept_enterTransfer (s : State) : Kept s (enterTransfer s) := by
  unfold enterTransfer
  split
  · split
    · exact Kept.refl s
    · split
      · exact (kept_setStep _ s).trans (kept_present _ _ _)
      · exact ((kept_setStep _ s).trans (kept_present _ _ _)).trans (kept_presentVerifyReads _ _ _ _)
      · exact (kept_setStep _ s).trans (kept_present _ _ _)
      · exact Kept.refl s
  · exact Kept.refl s

theorem kept_beginStep (s : State) : Kept s (beginStep s) := by
  unfold beginStep
  split
  · exact Kept.refl s
  · split
    · dsimp only
      split
      · refine Kept.trans ?_ (kept_enterTransfer _)
        exact Kept.ofEngine rfl rfl
      · exact Kept.ofEngine rfl rfl
    · exact Kept.refl s

theorem kept_writeWaitFalls (s : State) : Kept s (writeWaitFalls s) := by
  unfold writeWaitFalls
  split
  · exact Kept.refl s
  · dsimp only
    split
    · exact (kept_setStep _ s).trans (kept_enterTransfer _)
    · exact kept_setStep _ s

/-! ### The table at work -/

theorem bump_le {n : Nat} (h : n ≤ Config.counterMax) : bump n ≤ Config.counterMax := by
  unfold bump
  split <;> omega

theorem kept_presentLegs (e : Entry) (legs : List LegUse) : ∀ s : State, Kept s (presentLegs e legs s) := by
  induction legs with
  | nil => exact Kept.refl
  | cons u rest ih => exact fun s => (kept_present _ _ s).trans (ih _)

theorem kept_presentShadows (e : Entry) (legs : List ShadowUse) :
    ∀ (i : Nat) (s : State), Kept s (presentShadows e i legs s) := by
  induction legs with
  | nil => exact fun _ s => Kept.refl s
  | cons u rest ih => exact fun i s => (kept_present _ _ s).trans (ih (i + 1) _)

theorem kept_issueEntry (e : Entry) (l : Lookup) (s : State) : Kept s (issueEntry e l s) :=
  ((kept_modifyEntry _ _ (by exact fun _ => ⟨rfl, id⟩) s).trans (kept_presentLegs _ _ _)).trans
    (kept_presentShadows _ _ _ _)

theorem kept_continueDecode (slot : Nat) (s : State) : Kept s (continueDecode slot s) := by
  unfold continueDecode
  split
  · exact Kept.refl s
  · split
    · exact Kept.refl s
    · split
      · exact kept_setPhase _ _ s
      · split
        · exact kept_setPhase _ _ s
        · exact kept_issueEntry _ _ s

theorem kept_continueDecodes (slots : List Nat) : ∀ s : State, Kept s (continueDecodes slots s) := by
  induction slots with
  | nil => exact Kept.refl
  | cons n rest ih => exact fun s => (kept_continueDecode n s).trans (ih _)

theorem kept_becomeKnown (slot : Nat) (code : Code) (data : LineData) (s : State) :
    Kept s (becomeKnown slot code data s) := by
  unfold becomeKnown
  split
  · exact Kept.refl s
  · dsimp only
    split
    · exact ((kept_modifyEntry _ _ (by exact fun _ => ⟨rfl, fun _ => rfl⟩) s).trans
        (kept_continueDecodes _ _)).trans (kept_writeWaitFalls _)
    · exact (kept_modifyEntry _ _ (by exact fun _ => ⟨rfl, fun _ => rfl⟩) s).trans (kept_continueDecodes _ _)

theorem kept_fullDecode (slot : Nat) (s : State) : Kept s (fullDecode slot s) := by
  unfold fullDecode
  split
  · exact Kept.refl s
  · split
    · exact kept_modifyEntry _ _ (by exact fun _ => ⟨rfl, id⟩) s
    · split
      · refine ((Kept.ofPort (p := { s.hp with unmapped := bump s.hp.unmapped }) ?_ rfl).trans
          (kept_modifyEntry _ _ ?_ _)).trans (kept_becomeKnown _ _ _ _)
        · exact fun h => ⟨bump_le h.1, h.2⟩
        · exact fun _ => ⟨rfl, id⟩
      · dsimp only
        split
        · refine ((kept_modifyEntry _ _ ?_ s).trans (Kept.ofPort (p := { s.hp with readOnly := bump s.hp.readOnly }) ?_ rfl)).trans
            (kept_becomeKnown _ _ _ _)
          · exact fun _ => ⟨rfl, id⟩
          · exact fun h => ⟨h.1, h.2.1, bump_le h.2.2.1, h.2.2.2⟩
        · exact (kept_modifyEntry _ _ (by exact fun _ => ⟨rfl, id⟩) s).trans (kept_continueDecode _ _)

theorem kept_fullDecodes (slots : List Nat) : ∀ s : State, Kept s (fullDecodes slots s) := by
  induction slots with
  | nil => exact Kept.refl
  | cons n rest ih => exact fun s => (kept_fullDecode n s).trans (ih _)

theorem kept_releaseHeld (kind : Hold) (sp : Span) (s : State) : Kept s (releaseHeld kind sp s) :=
  kept_fullDecodes _ s

theorem kept_releaseLock (s : State) : Kept s (releaseLock s) := by
  unfold releaseLock
  split
  · exact kept_setStep _ s
  · refine Kept.trans ?_ (kept_fullDecodes _ _)
    exact Kept.ofEngine rfl rfl

end Sys2Proof.Machine
end

