-- ==== Sys2Proof/Laws/KeptMap.lean ====
section
/-! SUPPORT. What the map unit's and the health monitor's operations keep (chapters 1, 4 and 8). -/

namespace Sys2Proof.Machine

open Sys2Proof

/-! ### Commits (R80 to R87) -/

theorem kept_openCommit (s : State) : Kept s (openCommit s) := by
  unfold openCommit
  refine Kept.trans (t := { s with mu.commit.drain := some ⟨commitMembers s.mu, false, s.hp.drainLimit⟩ })
    ?_ ?_
  · exact Kept.ofMap rfl rfl
  · exact Kept.ofTable rfl id

/-- Installing a commit set keeps the number of slots. -/
theorem installMembers_length (members : List CommitMember) :
    ∀ slots : List MapSlot, (installMembers members slots).length = slots.length := by
  induction members with
  | nil => exact fun _ => rfl
  | cons m rest ih => exact fun slots => (ih _).trans (by simp [installMember])

theorem kept_installCommit (members : List CommitMember) (s : State) : Kept s (installCommit members s) :=
  Kept.ofMap (installMembers_length _ _) rfl

theorem kept_endCommit (result : CommitResult) (s : State) : Kept s (endCommit result s) := by
  unfold endCommit
  split
  · exact Kept.refl s
  · dsimp only
    refine Kept.trans ?_ (kept_postNotice _ _)
    have closed : Kept s { s with mu.commit := { drain := none, last := result }, ift.commitSpan := none } :=
      (Kept.ofMap (s := s) (m := { s.mu with commit := { drain := none, last := result } }) rfl rfl).trans
        (Kept.ofTable (t := { s.ift with commitSpan := none }) rfl id)
    split
    · exact closed
    · exact closed.trans (kept_releaseHeld _ _ _)

theorem kept_completeCommit (s : State) : Kept s (completeCommit s) := by
  unfold completeCommit
  split
  · exact Kept.refl s
  · split
    · exact Kept.refl s
    · exact (kept_installCommit _ s).trans (kept_endCommit _ _)

theorem kept_markStale (s : State) : Kept s (markStale s) := Kept.ofMap rfl rfl

theorem kept_closeStale (s : State) : Kept s (closeStale s) := by
  unfold closeStale
  split
  · exact kept_endCommit _ s
  · exact Kept.refl s

/-! ### Leg drops (R15, R17) -/

theorem kept_tellDrop (region : Nat) (leg : Leg) (s : State) : Kept s (tellDrop region leg s) := by
  unfold tellDrop
  split
  · exact Kept.refl s
  · split
    · split
      · split
        · exact kept_raiseStop _ s
        · exact Kept.refl s
      · exact kept_raiseStop _ s
    · exact Kept.refl s

theorem kept_takeDrop (region : Nat) (leg : Leg) (s : State) : Kept s (takeDrop region leg s) := by
  unfold takeDrop
  split
  · exact Kept.refl s
  · rename_i m d b _
    dsimp only
    have applied : Kept s { s with
        mu.slots := s.mu.slots.set region { desc := some (dropLeg leg d b), revision := m.revision + 1 }
        mu.generation := s.mu.generation + 1 } := Kept.ofMap (by simp) rfl
    have told := ((applied.trans (kept_writeRecord
        { kind := .legDropped, lane := some leg.lane, region := some region, job := d.job } _)).trans
        (kept_postNotice (.legDropped region leg.lane) _)).trans (kept_tellDrop region leg _)
    split
    · exact told.trans (kept_markStale _)
    · exact told

theorem kept_dropLane (lane : Lane) (slots : List Nat) : ∀ s : State, Kept s (dropLane lane slots s) := by
  induction slots with
  | nil => exact Kept.refl
  | cons i rest ih =>
    intro s
    unfold dropLane
    split
    · exact (kept_takeDrop _ _ s).trans (ih _)
    · exact ih s

/-! ### Switch installation (R18) -/

theorem kept_switchInstall (work : JobWork) (region : Nat) (s : State) :
    Kept s (switchInstall work region s).2 := by
  unfold switchInstall
  split
  · split
    · exact Kept.refl s
    · split
      · exact Kept.refl s
      · split
        · exact Kept.refl s
        · exact Kept.ofMap (by simp) rfl
  · exact Kept.refl s

/-! ### Health (R140 to R146) -/

/-- A change of one lane's budget and state that keeps the budget in range keeps the monitor's laws. -/
theorem Health.wf_modify {h : Health} {lane : Lane} {f : LaneHealth → LaneHealth} (w : h.Wf)
    (k : ∀ x : LaneHealth, x.budget ≤ Config.budgetMax → (f x).budget ≤ Config.budgetMax) :
    Health.Wf { h with lanes := h.lanes.modify lane f } := by
  refine ⟨fun n => ?_, w.2⟩
  show ((h.lanes.modify lane f).get n).budget ≤ _
  rw [PerLane.get_modify]
  split
  · rename_i e
    subst e
    exact k _ (w.1 _)
  · exact w.1 n

theorem keptTable_modifyHealth {lane : Lane} {f : LaneHealth → LaneHealth} (s : State)
    (k : ∀ x : LaneHealth, x.budget ≤ Config.budgetMax → (f x).budget ≤ Config.budgetMax) :
    KeptTable s { s with health.lanes := s.health.lanes.modify lane f } :=
  KeptTable.ofHealth (fun w => Health.wf_modify w k) ⟨rfl, rfl, rfl⟩

theorem kept_setLaneState (lane : Lane) (st : LaneState) (s : State) : Kept s (setLaneState lane st s) := by
  unfold setLaneState
  refine Kept.trans ?_ (kept_postNotice _ _)
  refine Kept.trans ?_ (kept_writeRecord _ _)
  refine ⟨keptTable_modifyHealth s fun _ h => h, fun _ => rfl, fun n => ?_⟩
  show ((s.health.lanes.modify lane _).get n).budget = _
  rw [PerLane.get_modify]
  split
  · rename_i e
    subst e
    rfl
  · rfl

theorem kept_tellRetired (lane : Lane) (s : State) : Kept s (tellRetired lane s) := by
  unfold tellRetired
  split
  · exact Kept.refl s
  · split
    · exact Kept.refl s
    · split
      · exact kept_raiseStop _ s
      · exact Kept.refl s

theorem kept_staleByLane (lane : Lane) (s : State) : Kept s (staleByLane lane s) := by
  unfold staleByLane
  split
  · exact kept_markStale s
  · exact Kept.refl s

theorem kept_retireLane (lane : Lane) (s : State) : Kept s (retireLane lane s) :=
  (((kept_setLaneState _ _ s).trans (kept_dropLane _ _ _)).trans (kept_staleByLane _ _)).trans
    (kept_tellRetired _ _)

theorem kept_evaluateLane (lane : Lane) (s : State) : Kept s (evaluateLane lane s) := by
  unfold evaluateLane
  dsimp only
  split
  · split
    · exact kept_retireLane _ s
    · split
      · exact kept_setLaneState _ _ s
      · exact Kept.refl s
  · split
    · exact kept_retireLane _ s
    · split
      · exact kept_setLaneState _ _ s
      · exact Kept.refl s
  · exact Kept.refl s
  · exact Kept.refl s

theorem kept_evaluateLanes (lanes : List Lane) : ∀ s : State, Kept s (evaluateLanes lanes s) := by
  induction lanes with
  | nil => exact Kept.refl
  | cons lane rest ih => exact fun s => (kept_evaluateLane lane s).trans (ih _)

/-- A weight raises one budget, to 4,095 at most, and counts no error (R140). -/
theorem addWeight_budgets (lane : Lane) (weight : Nat) (s : State) (n : Lane) :
    budgetOf (addWeight lane weight s) n
      = if n = lane then weighed weight (budgetOf s n) else budgetOf s n := by
  unfold addWeight
  rw [(kept_evaluateLane _ _).budgets]
  unfold budgetOf
  dsimp only
  rw [PerLane.get_modify]
  split
  · rename_i e
    subst e
    rfl
  · rfl

theorem addWeight_errors (lane : Lane) (weight : Nat) (s : State) (n : Lane) :
    errorCounts (addWeight lane weight s) n = errorCounts s n := by
  unfold addWeight
  rw [(kept_evaluateLane _ _).errors]
  rfl

theorem keptTable_addWeight (lane : Lane) (weight : Nat) (s : State) :
    KeptTable s (addWeight lane weight s) := by
  unfold addWeight
  refine KeptTable.trans ?_ (kept_evaluateLane _ _).toKeptTable
  exact keptTable_modifyHealth s fun _ _ => Nat.min_le_left _ _

theorem keptTable_healthTick (s : State) : KeptTable s (healthTick s) := by
  unfold healthTick
  refine KeptTable.trans ?_ (kept_evaluateLanes _ _).toKeptTable
  refine KeptTable.ofHealth (fun w => ⟨fun n => ?_, w.2⟩) ⟨rfl, rfl, rfl⟩
  show ((s.health.lanes.map fun h : LaneHealth => { h with budget := h.budget - 1 }).get n).budget ≤ _
  rw [PerLane.get_map]
  exact (Nat.sub_le _ _).trans (w.1 n)

end Sys2Proof.Machine
end

