-- ==== Sys2Proof/Laws/KeptEngine.lean ====
section
/-! SUPPORT. What the copy engine's operations keep (chapters 5 to 7). -/

namespace Sys2Proof.Machine

open Sys2Proof

/-! ### Finish, switch, start (R96 to R101, R122 to R125) -/

theorem kept_clearJobField (region h : Nat) (s : State) : Kept s (clearJobField region h s) := by
  unfold clearJobField
  split
  · exact kept_setJobField _ _ s
  · exact Kept.refl s

theorem Engine.release_share (e : Engine) (h : Nat) : (e.release h).share = e.share := by
  unfold Engine.release
  split <;> rfl

theorem Engine.release_jobs (e : Engine) (h : Nat) : (e.release h).jobs = e.jobs := by
  unfold Engine.release
  split <;> rfl

theorem kept_release (h : Nat) (s : State) : Kept s { s with engine := s.engine.release h } :=
  Kept.ofEngine (Engine.release_share _ _) (by rw [Engine.release_jobs])

theorem kept_finishJob (h : Nat) (outcome : JobOutcome) (s : State) : Kept s (finishJob h outcome s) := by
  unfold finishJob
  split
  · exact Kept.refl s
  · exact (((kept_setJob _ _ s).trans (kept_release _ _)).trans (kept_clearJobField _ _ _)).trans
      (kept_postNotice _ _)

theorem kept_openSwitch (s : State) : Kept s (openSwitch s) := by
  unfold openSwitch
  split
  · exact Kept.refl s
  · dsimp only
    refine Kept.trans ?_ (kept_setJob _ _ _)
    refine Kept.trans (t := { s with engine.switchTimer := some s.hp.drainLimit }) ?_ ?_
    · exact Kept.ofEngine rfl rfl
    · exact Kept.ofTable rfl id

theorem kept_switchDecide (j : Job) (s : State) : Kept s (switchDecide j s).2 := by
  unfold switchDecide
  split
  · exact Kept.refl s
  · exact kept_switchInstall _ _ s

theorem kept_enterRunning (h : Nat) (j : Job) (phase : JobPhase) (s : State) :
    Kept s (enterRunning h j phase s) := by
  unfold enterRunning
  refine Kept.trans ?_ (kept_setJob _ _ _)
  exact Kept.ofEngine rfl rfl

theorem kept_closeSwitch (s : State) : Kept s { s with ift.switchSpan := none } :=
  Kept.ofTable rfl id

theorem kept_setQueue (q : List Nat) (s : State) : Kept s { s with engine.queue := q } :=
  Kept.ofEngine rfl rfl

theorem kept_startQueue (n : Nat) : ∀ s : State, Kept s (startQueue n s) := by
  induction n with
  | zero => exact Kept.refl
  | succ n ih =>
    intro s
    unfold startQueue
    split
    · exact Kept.refl s
    · exact Kept.refl s
    · rename_i h rest _ _
      refine (kept_setQueue rest s).trans ?_
      dsimp only
      split
      · exact ih _
      · split
        · exact (kept_finishJob _ _ _).trans (ih _)
        · rename_i j _ _ _
          refine (kept_enterRunning h j (firstPhase j.work) _).trans ?_
          split
          · exact kept_beginStep _
          · exact kept_beginStep _
          · exact Kept.refl _
          · refine (kept_openSwitch _).trans ?_
            split
            · exact Kept.refl _
            · split
              · refine Kept.trans ?_ (kept_releaseHeld _ _ _)
                refine Kept.trans ?_ (ih _)
                refine Kept.trans ?_ (kept_finishJob _ _ _)
                exact (kept_switchDecide _ _).trans (kept_closeSwitch _)
              · exact Kept.refl _

theorem kept_startNext (s : State) : Kept s (startNext s) := kept_startQueue _ s

theorem kept_endSwitch (outcome : JobOutcome) (s : State) : Kept s (endSwitch outcome s) := by
  unfold endSwitch
  split
  · exact (((kept_closeSwitch s).trans (kept_finishJob _ _ _)).trans (kept_startNext _)).trans
      (kept_releaseHeld _ _ _)
  · exact Kept.refl s

theorem kept_completeSwitch (s : State) : Kept s (completeSwitch s) := by
  unfold completeSwitch
  split
  · exact Kept.refl s
  · exact (kept_switchDecide _ s).trans (kept_endSwitch _ _)

theorem kept_setStopping (b : Bool) (s : State) : Kept s { s with engine.stopping := b } :=
  Kept.ofEngine rfl rfl

theorem kept_stopFinish (s : State) : Kept s (stopFinish s) := by
  unfold stopFinish
  refine (kept_setStopping true s).trans ((kept_releaseLock _).trans ?_)
  dsimp only
  split
  · exact Kept.refl _
  · split
    · exact Kept.refl _
    · exact (kept_finishJob _ _ _).trans (kept_startNext _)

theorem kept_enterSwitch (s : State) : Kept s (enterSwitch s) := by
  unfold enterSwitch
  dsimp only
  split
  · exact (kept_openSwitch s).trans (kept_completeSwitch _)
  · exact kept_openSwitch s

/-! ### Block steps (R110 to R121, R131 to R136) -/

theorem kept_afterStep (s : State) : Kept s (afterStep s) := by
  unfold afterStep
  split
  · exact Kept.refl s
  · split
    · exact kept_beginStep s
    · split
      · exact (kept_setJob _ _ s).trans (kept_beginStep _)
      · exact kept_enterSwitch s
      · exact kept_enterSwitch s
      · exact (kept_finishJob _ _ s).trans (kept_startNext _)
      · exact Kept.refl s
      · exact Kept.refl s

theorem kept_stepEnd (s : State) : Kept s (stepEnd s) := by
  unfold stepEnd
  split
  · exact Kept.refl s
  · split
    · exact kept_stopFinish s
    · exact ((kept_setJob _ _ s).trans (kept_releaseLock _)).trans (kept_afterStep _)

theorem kept_engineAdvance (s : State) : Kept s (engineAdvance s) := by
  unfold engineAdvance
  split
  · split
    · exact kept_stopFinish s
    · split
      · exact kept_stepEnd s
      · exact Kept.refl s
  · exact Kept.refl s

theorem kept_modifyLine (i : Nat) (f : LineState → LineState) (s : State) : Kept s (modifyLine i f s) := by
  unfold modifyLine
  split
  · exact Kept.refl s
  · exact kept_setStep _ s

theorem kept_modifySide (i k : Nat) (side : SideState) (s : State) : Kept s (modifySide i k side s) :=
  kept_modifyLine _ _ s

theorem kept_engineRecord (kind : FaultKind) (h region : Nat) (hostLine : Option Nat) (lane : Lane)
    (line : Nat) (id : Option (Fin 16)) (s : State) :
    Kept s (engineRecord kind h region hostLine lane line id s) :=
  kept_writeRecord _ s

theorem kept_raiseFailure (reason : Reason) (lane : Lane) (line : Nat) (s : State) :
    Kept s (raiseFailure reason lane line s) :=
  kept_raiseStop _ s

theorem kept_shadowFailure (region : Nat) (hostLine : Option Nat) (lane : Lane) (line : Nat)
    (id : Option (Fin 16)) (s : State) : Kept s (shadowFailure region hostLine lane line id s) := by
  unfold shadowFailure
  split
  · exact Kept.refl s
  · split
    · exact Kept.refl s
    · split
      · exact (kept_engineRecord _ _ _ _ _ _ _ s).trans (kept_raiseFailure _ _ _ _)
      · exact Kept.refl s

theorem kept_presentCopies (i : Nat) (data : LineData) (legs : List Leg) :
    ∀ (k : Nat) (s : State), Kept s (presentCopies i data k legs s) := by
  induction legs with
  | nil => exact fun _ s => Kept.refl s
  | cons leg rest ih =>
    exact fun k s => ((kept_present _ _ s).trans (kept_modifySide _ _ _ _)).trans (ih (k + 1) _)

theorem kept_verifyCompare (h region i : Nat) (leg : Leg) (source copy : LineData) (s : State) :
    Kept s (verifyCompare h region i leg source copy s) := by
  unfold verifyCompare
  split
  · exact Kept.refl s
  · exact (kept_engineRecord _ _ _ _ _ _ _ s).trans (kept_raiseFailure _ _ _ _)

theorem kept_verifySides (h region i : Nat) (source : LineData) (legs : List Leg) :
    ∀ (sides : List SideState) (s : State), Kept s (verifySides h region i source legs sides s) := by
  induction legs with
  | nil => exact fun _ s => Kept.refl s
  | cons leg rest ih =>
    intro sides s
    cases sides with
    | nil => exact Kept.refl s
    | cons side more =>
      unfold verifySides
      split
      · exact (kept_verifyCompare _ _ _ _ _ _ s).trans (ih _ _)
      · exact ih _ s

theorem kept_sourceOk (h : Nat) (j : Job) (i : Nat) (data : LineData) (s : State) :
    Kept s (sourceOk h j i data s) := by
  unfold sourceOk
  split
  · exact Kept.refl s
  · refine (kept_modifyLine i (fun l => { l with data := some data, readA := .ok }) s).trans ?_
    dsimp only
    split
    · split
      · exact Kept.refl _
      · exact kept_presentCopies _ _ _ _ _
    · exact kept_verifySides _ _ _ _ _ _ _
    · exact Kept.refl _
    · exact Kept.refl _
    · exact Kept.refl _

theorem kept_sourceFailed (h : Nat) (j : Job) (i : Nat) (lane : Lane) (line : Nat) (s : State) :
    Kept s (sourceFailed h j i lane line s) := by
  unfold sourceFailed
  split
  · exact Kept.refl s
  · dsimp only
    split
    · split
      · exact Kept.refl s
      · exact (kept_modifyLine _ _ s).trans (kept_present _ _ _)
    · exact ((kept_modifyLine _ _ s).trans (kept_engineRecord _ _ _ _ _ _ _ _)).trans
        (kept_raiseFailure _ _ _ _)

theorem kept_verifyReadOk (h : Nat) (j : Job) (k i : Nat) (data : LineData) (s : State) :
    Kept s (verifyReadOk h j k i data s) := by
  unfold verifyReadOk
  split
  · refine (kept_modifySide i k { state := .ok, data := some data } s).trans ?_
    dsimp only
    split
    · exact kept_verifyCompare _ _ _ _ _ _ _
    · exact Kept.refl _
  · exact Kept.refl s

theorem kept_auditAOk (j : Job) (i : Nat) (data : LineData) (s : State) : Kept s (auditAOk j i data s) := by
  unfold auditAOk
  dsimp only
  split
  · exact (kept_modifyLine _ _ s).trans (kept_present _ _ _)
  · exact kept_modifyLine _ _ s

theorem kept_auditBOk (h : Nat) (j : Job) (i : Nat) (lane : Lane) (line : Nat) (data : LineData)
    (s : State) : Kept s (auditBOk h j i lane line data s) := by
  unfold auditBOk
  split
  · exact kept_modifyLine _ _ s
  · split
    · exact kept_modifyLine _ _ s
    · refine (kept_engineRecord .auditMismatch h j.region (stepHostLine j.region i s) lane line none s).trans
        ((kept_modifyRunning countMismatch _).trans ?_)
      dsimp only
      split
      · exact (kept_modifyLine _ _ _).trans (kept_present _ _ _)
      · exact kept_modifyLine _ _ _

theorem kept_repairOk (h : Nat) (j : Job) (i : Nat) (lane : Lane) (line : Nat) (s : State) :
    Kept s (repairOk h j i lane line s) :=
  ((kept_modifyLine _ _ s).trans (kept_engineRecord _ _ _ _ _ _ _ _)).trans (kept_modifyRunning _ _)

theorem kept_engineOk (h : Nat) (j : Job) (part : EnginePart) (i : Nat) (lane : Lane) (line : Nat)
    (data : LineData) (s : State) : Kept s (engineOk h j part i lane line data s) := by
  cases part with
  | source => exact kept_sourceOk _ _ _ _ s
  | shadowWrite k => exact kept_modifySide _ _ _ s
  | verifyRead k => exact kept_verifyReadOk _ _ _ _ _ s
  | auditA => exact kept_auditAOk _ _ _ s
  | auditB => exact kept_auditBOk _ _ _ _ _ _ s
  | repair => exact kept_repairOk _ _ _ _ _ s

theorem kept_engineFailed (h : Nat) (j : Job) (part : EnginePart) (i : Nat) (lane : Lane) (line : Nat)
    (s : State) : Kept s (engineFailed h j part i lane line s) := by
  cases part with
  | source => exact kept_sourceFailed _ _ _ _ _ s
  | shadowWrite k => exact (kept_modifySide _ _ _ s).trans (kept_shadowFailure _ _ _ _ _ _)
  | verifyRead k => exact (kept_modifySide _ _ _ s).trans (kept_raiseFailure _ _ _ _)
  | auditA => exact (kept_modifyLine _ _ s).trans (kept_raiseFailure _ _ _ _)
  | auditB => exact (kept_modifyLine _ _ s).trans (kept_raiseFailure _ _ _ _)
  | repair => exact kept_modifyLine _ _ s

theorem kept_tellEngine (part : EnginePart) (i : Nat) (lane : Lane) (line : Nat) (outcome : LaneOutcome)
    (data : LineData) (s : State) : Kept s (tellEngine part i lane line outcome data s) := by
  unfold tellEngine
  split
  · exact Kept.refl s
  · refine Kept.trans ?_ (kept_engineAdvance _)
    cases outcome with
    | ok => exact kept_engineOk _ _ _ _ _ _ _ s
    | error => exact kept_engineFailed _ _ _ _ _ _ s
    | timeout => exact kept_engineFailed _ _ _ _ _ _ s

/-! ### The reset signal (R106) -/

theorem kept_abortQueued (handles : List Nat) : ∀ s : State, Kept s (abortQueued handles s) := by
  induction handles with
  | nil => exact Kept.refl
  | cons h rest ih => exact fun s => (kept_finishJob _ _ s).trans (ih _)

theorem kept_abortRunning (s : State) : Kept s (abortRunning s) := by
  unfold abortRunning
  split
  · exact Kept.refl s
  · refine (kept_setStopping true s).trans ((kept_raiseReset _).trans ?_)
    dsimp only
    split
    · exact kept_endSwitch _ _
    · split
      · exact (kept_withdraw _ _).trans (kept_stopFinish _)
      · exact kept_withdraw _ _

theorem kept_resetJobs (s : State) : Kept s (resetJobs s) :=
  ((kept_setQueue [] s).trans (kept_abortQueued _ _)).trans (kept_abortRunning _)

end Sys2Proof.Machine
end

