-- ==== Sys2Proof/Laws/KeptLanes.lean ====
section
/-! SUPPORT. What the lane ports' operations and the close of an event keep (chapters 2 and 3). -/

namespace Sys2Proof.Machine

open Sys2Proof

/-! ### The arbiter (R52, R54) -/

theorem windowAfter_wf (engineWon : Bool) {p : LanePort} (w : p.Wf) : (windowAfter engineWon p).Wf := by
  obtain ⟨h1, h2, h3, h4, h5⟩ := w
  unfold windowAfter
  split
  · exact ⟨h1, Nat.zero_lt_succ _, Nat.le_refl _, h4, h5⟩
  · rename_i more
    refine ⟨h1, Nat.lt_of_not_le more, ?_, h4, h5⟩
    dsimp only
    split <;> omega

theorem windowAfter_outstanding (engineWon : Bool) (p : LanePort) :
    (windowAfter engineWon p).outstanding = p.outstanding := by
  unfold windowAfter
  split <;> rfl

/-- Issuing keeps a lane's laws while a credit is free. -/
theorem issueRequest_wf (w : Waiting) {p : LanePort} (h : p.Wf)
    (room : p.outstanding.length < Config.credits) : (issueRequest w p).Wf := by
  obtain ⟨-, h2, h3, h4, c1, c2, c3, c4, c5, c6⟩ := h
  unfold issueRequest
  refine ⟨by simp only [List.length_append, List.length_singleton]; omega, h2, h3, h4, ?_⟩
  dsimp only
  split
  · exact ⟨bump_le c1, c2, c3, c4, c5, c6⟩
  · exact ⟨c1, bump_le c2, c3, c4, c5, c6⟩

/-- What granting keeps of a lane: its configuration and its error counters. -/
structure GrantKeeps (p q : LanePort) : Prop where
  wf : p.Wf → q.Wf
  capacity : q.capacity = p.capacity
  timeout : q.timeout = p.timeout
  readErrors : q.counters.readErrors = p.counters.readErrors
  writeErrors : q.counters.writeErrors = p.counters.writeErrors
  timeouts : q.counters.timeouts = p.counters.timeouts
  lateResponses : q.counters.lateResponses = p.counters.lateResponses

theorem GrantKeeps.refl (p : LanePort) : GrantKeeps p p := ⟨id, rfl, rfl, rfl, rfl, rfl, rfl⟩

theorem GrantKeeps.trans {p q r : LanePort} (h : GrantKeeps p q) (k : GrantKeeps q r) : GrantKeeps p r :=
  ⟨k.wf ∘ h.wf, k.capacity.trans h.capacity, k.timeout.trans h.timeout, k.readErrors.trans h.readErrors,
   k.writeErrors.trans h.writeErrors, k.timeouts.trans h.timeouts, k.lateResponses.trans h.lateResponses⟩

theorem windowAfter_keeps (engineWon : Bool) (p : LanePort) : GrantKeeps p (windowAfter engineWon p) := by
  refine ⟨windowAfter_wf engineWon, ?_, ?_, ?_, ?_, ?_, ?_⟩ <;> (unfold windowAfter; split <;> rfl)

theorem issueRequest_keeps (w : Waiting) {p : LanePort} (room : p.outstanding.length < Config.credits) :
    GrantKeeps p (issueRequest w p) := by
  refine ⟨fun k => issueRequest_wf w k room, rfl, rfl, ?_, ?_, ?_, ?_⟩ <;>
    (unfold issueRequest; dsimp only; split <;> rfl)

theorem grantOne_keeps {entries : List Entry} {share : Nat} {p q : LanePort}
    (h : grantOne entries share p = some q) : GrantKeeps p q := by
  unfold grantOne at h
  split at h
  · rename_i room
    have side : ∀ (b : Bool) (w : Waiting), GrantKeeps p (issueRequest w (windowAfter b p)) := fun b w =>
      (windowAfter_keeps b p).trans (issueRequest_keeps w (by rw [windowAfter_outstanding]; exact room))
    split at h
    · cases h
    · cases h
      exact issueRequest_keeps _ room
    · cases h
      exact issueRequest_keeps _ room
    · split at h
      · cases h
        exact side true _
      · cases h
        exact side false _
  · cases h

theorem grantMany_keeps (entries : List Entry) (share n : Nat) : ∀ p : LanePort,
    GrantKeeps p (grantMany entries share n p) := by
  induction n with
  | zero => exact GrantKeeps.refl
  | succ n ih =>
    intro p
    unfold grantMany
    split
    · exact GrantKeeps.refl p
    · rename_i q hq
      exact (grantOne_keeps hq).trans (ih q)

theorem grantLane_keeps (entries : List Entry) (share : Nat) (p : LanePort) :
    GrantKeeps p (grantLane entries share p) :=
  grantMany_keeps _ _ _ p

theorem kept_grantAll (s : State) : Kept s (grantAll s) :=
  kept_mapLanes s (fun p => (grantLane_keeps _ _ p).wf)
    (fun p => ⟨(grantLane_keeps _ _ p).capacity, (grantLane_keeps _ _ p).timeout⟩)
    (fun p => ⟨(grantLane_keeps _ _ p).readErrors, (grantLane_keeps _ _ p).writeErrors,
      (grantLane_keeps _ _ p).timeouts, (grantLane_keeps _ _ p).lateResponses⟩)

theorem kept_refreshPhases (s : State) : Kept s (refreshPhases s) := by
  refine kept_mapEntries (f := fun e =>
    if e.phase = .issuing ∧ slotWaits s.lanes e.slot = false then { e with phase := .issued } else e)
    (fun e => ?_) s
  dsimp only
  split <;> exact ⟨rfl, id⟩

/-! ### Codes of host entries (R63 to R66) -/

theorem kept_recordRecovered (e : Entry) (s : State) : Kept s (recordRecovered e s) := by
  unfold recordRecovered
  split
  · exact Kept.refl s
  · exact kept_writeRecord _ s

theorem kept_presentFallback (e : Entry) (pos : LegPos) (leg : Leg) (s : State) :
    Kept s (presentFallback e pos leg s) := by
  unfold presentFallback
  exact (kept_modifyEntry _ _ (by exact fun _ => ⟨rfl, id⟩) s).trans (kept_present _ _ _)

theorem kept_formRead (e : Entry) (pos : LegPos) (outcome : LaneOutcome) (data : LineData) (s : State) :
    Kept s (formRead e pos outcome data s) := by
  have failed : Kept s (match fallbackLeg e pos s with
      | some leg => if e.fallback then becomeKnown e.slot .slverr 0 s else presentFallback e pos leg s
      | none => becomeKnown e.slot .slverr 0 s) := by
    split
    · split
      · exact kept_becomeKnown _ _ _ s
      · exact kept_presentFallback _ _ _ s
    · exact kept_becomeKnown _ _ _ s
  cases outcome with
  | ok =>
    refine Kept.trans ?_ (kept_becomeKnown _ _ _ _)
    split
    · exact kept_recordRecovered _ s
    · exact Kept.refl s
  | error => exact failed
  | timeout => exact failed

theorem kept_formWrite (e : Entry) (s : State) : Kept s (formWrite e s) := by
  unfold formWrite
  dsimp only
  split
  · exact kept_becomeKnown _ _ _ s
  · split
    · exact kept_becomeKnown _ _ _ s
    · split
      · exact Kept.ofMap rfl rfl
      · exact kept_becomeKnown _ _ _ s

theorem kept_formCode (e : Entry) (part : HostPart) (outcome : LaneOutcome) (data : LineData) (s : State) :
    Kept s (formCode e part outcome data s) := by
  unfold formCode
  split
  · exact kept_formRead _ _ _ _ s
  · exact Kept.refl s
  · split
    · exact kept_formWrite _ s
    · exact Kept.refl s

theorem recordOutcome_keeps (part : HostPart) (outcome : LaneOutcome) :
    KeepsEntry (recordOutcome part outcome) := by
  cases part <;> exact fun _ => ⟨rfl, id⟩

theorem kept_tellHost (slot : Nat) (part : HostPart) (lane : Lane) (line : Nat) (outcome : LaneOutcome)
    (data : LineData) (s : State) : Kept s (tellHost slot part lane line outcome data s) := by
  unfold tellHost
  split
  · exact Kept.refl s
  · split
    · refine (kept_modifyEntry slot (recordOutcome part outcome) (recordOutcome_keeps part outcome) s).trans ?_
      refine Kept.trans ?_ (kept_formCode _ _ _ _ _)
      split
      · exact Kept.refl _
      · split
        · exact kept_shadowFailure _ _ _ _ _ _
        · exact Kept.refl _
    · exact Kept.refl s

theorem kept_tellRequester (lane : Lane) (r : Request) (outcome : LaneOutcome) (data : LineData)
    (s : State) : Kept s (tellRequester lane r outcome data s) := by
  unfold tellRequester
  split
  · exact kept_tellHost _ _ _ _ _ _ s
  · exact kept_tellEngine _ _ _ _ _ _ s
  · exact Kept.refl s

/-! ### Lane errors and responses (R57 to R61) -/

theorem keptTable_countLane (lane : Lane) (f : LaneCounters → LaneCounters) (s : State)
    (h : ∀ c : LaneCounters, c.Wf → (f c).Wf) : KeptTable s (countLane lane f s) :=
  keptTable_modifyLane s (fun w => ⟨w.1, w.2.1, w.2.2.1, w.2.2.2.1, h _ w.2.2.2.2⟩)
    (fun _ => ⟨rfl, rfl⟩)

theorem countLane_errors (lane : Lane) (f : LaneCounters → LaneCounters) (s : State) (n : Lane) :
    errorCounts (countLane lane f s) n
      = if n = lane then
          { readErrors := (f (s.lanes.get n).counters).readErrors
            writeErrors := (f (s.lanes.get n).counters).writeErrors
            timeouts := (f (s.lanes.get n).counters).timeouts
            lateResponses := (f (s.lanes.get n).counters).lateResponses }
        else errorCounts s n := by
  have : (countLane lane f s).lanes.get n
      = if n = lane then { s.lanes.get lane with counters := f (s.lanes.get lane).counters }
        else s.lanes.get n := PerLane.get_modify _ _ _ _
  unfold errorCounts
  rw [this]
  split
  · rename_i e
    subst e
    rfl
  · rfl

/-- What a lane error does to counters and budgets, whoever its requester is (R61, R140): one counter of one
lane rises, and one budget rises by the weight. -/
structure Counts (lane : Lane) (up : ErrorCounts → ErrorCounts) (weight : Nat) (s t : State) : Prop extends
    KeptTable s t where
  errors : ∀ n : Lane, errorCounts t n = if n = lane then up (errorCounts s n) else errorCounts s n
  budgets : ∀ n : Lane, budgetOf t n = if n = lane then weighed weight (budgetOf s n) else budgetOf s n

theorem Counts.after {lane : Lane} {up : ErrorCounts → ErrorCounts} {weight : Nat} {s t u : State}
    (h : Counts lane up weight s t) (k : Kept t u) : Counts lane up weight s u :=
  ⟨h.toKeptTable.trans k.toKeptTable, fun n => (k.errors n).trans (h.errors n),
   fun n => (k.budgets n).trans (h.budgets n)⟩

theorem Counts.before {lane : Lane} {up : ErrorCounts → ErrorCounts} {weight : Nat} {s t u : State}
    (h : Kept s t) (k : Counts lane up weight t u) : Counts lane up weight s u :=
  ⟨h.toKeptTable.trans k.toKeptTable, fun n => by rw [k.errors, h.errors],
   fun n => by rw [k.budgets, h.budgets]⟩

/-- A counter, a record and a weight, in the order of R61. -/
theorem counts_of (lane : Lane) (f : LaneCounters → LaneCounters) (up : ErrorCounts → ErrorCounts)
    (weight : Nat) (info : State → FaultInfo) (s : State) (h : ∀ c : LaneCounters, c.Wf → (f c).Wf)
    (k : ∀ c : LaneCounters,
      up { readErrors := c.readErrors, writeErrors := c.writeErrors, timeouts := c.timeouts
           lateResponses := c.lateResponses }
        = { readErrors := (f c).readErrors, writeErrors := (f c).writeErrors, timeouts := (f c).timeouts
            lateResponses := (f c).lateResponses }) :
    Counts lane up weight s
      (addWeight lane weight (writeRecord (info (countLane lane f s)) (countLane lane f s))) := by
  refine ⟨((keptTable_countLane lane f s h).trans (kept_writeRecord _ _).toKeptTable).trans
    (keptTable_addWeight _ _ _), fun n => ?_, fun n => ?_⟩
  · rw [addWeight_errors, (kept_writeRecord _ _).errors, countLane_errors]
    split
    · exact (k _).symm
    · rfl
  · rw [addWeight_budgets, (kept_writeRecord _ _).budgets]
    rfl

/-- What a read or write error counts. -/
def errorUp (kind : ReqKind) (c : ErrorCounts) : ErrorCounts :=
  match kind with
  | .read => { c with readErrors := bump c.readErrors }
  | .write _ _ => { c with writeErrors := bump c.writeErrors }

/-- What a read or write error weighs. -/
def errorWeight (kind : ReqKind) : Nat :=
  match kind with
  | .read => Config.weightRead
  | .write _ _ => Config.weightWrite

/-- What a timeout counts. -/
def timeoutUp (c : ErrorCounts) : ErrorCounts := { c with timeouts := bump c.timeouts }

/-- What a late response counts. -/
def lateUp (c : ErrorCounts) : ErrorCounts := { c with lateResponses := bump c.lateResponses }

theorem laneError_counts (lane : Lane) (r : Request) (s : State) :
    Counts lane (errorUp r.kind) (errorWeight r.kind) s (laneError lane r s) := by
  unfold laneError
  split
  · rename_i e
    rw [e]
    exact (counts_of lane (fun c => { c with readErrors := bump c.readErrors }) _ _
      (errorRecord .laneReadError lane r) s (fun c w => ⟨w.1, w.2.1, bump_le w.2.2.1, w.2.2.2⟩)
      (fun _ => rfl)).after (kept_tellRequester _ _ _ _ _)
  · rename_i e
    rw [e]
    exact (counts_of lane (fun c => { c with writeErrors := bump c.writeErrors }) _ _
      (errorRecord .laneWriteError lane r) s
      (fun c w => ⟨w.1, w.2.1, w.2.2.1, bump_le w.2.2.2.1, w.2.2.2.2⟩)
      (fun _ => rfl)).after (kept_tellRequester _ _ _ _ _)

theorem laneTimeout_counts (lane : Lane) (r : Request) (s : State) :
    Counts lane timeoutUp Config.weightTimeout s (laneTimeout lane r s) := by
  unfold laneTimeout
  exact (counts_of lane (fun c => { c with timeouts := bump c.timeouts }) _ _
    (errorRecord .laneTimeout lane r) s
    (fun c w => ⟨w.1, w.2.1, w.2.2.1, w.2.2.2.1, bump_le w.2.2.2.2.1, w.2.2.2.2.2⟩)
    (fun _ => rfl)).after (kept_tellRequester _ _ _ _ _)

theorem lateResponse_counts (lane : Lane) (line : Option Nat) (s : State) :
    Counts lane lateUp Config.weightLate s (lateResponse lane line s) := by
  unfold lateResponse
  refine Counts.after ?_ (kept_writeRecord _ _)
  have hc : ∀ c : LaneCounters, c.Wf →
      LaneCounters.Wf { c with lateResponses := bump c.lateResponses } := fun c w =>
    ⟨w.1, w.2.1, w.2.2.1, w.2.2.2.1, w.2.2.2.2.1, bump_le w.2.2.2.2.2⟩
  refine ⟨(keptTable_countLane lane _ s hc).trans (keptTable_addWeight _ _ _), fun n => ?_, fun n => ?_⟩
  · rw [addWeight_errors, countLane_errors]
    rfl
  · rw [addWeight_budgets]
    rfl

theorem kept_freeCredit (lane : Lane) (o : Outstanding) (s : State) : Kept s (freeCredit lane o s) :=
  kept_modifyLane s
    (fun w => ⟨(List.erase_sublist (a := o) (l := (s.lanes.get lane).outstanding)).length_le.trans w.1, w.2⟩)
    (fun _ => ⟨rfl, rfl⟩) (fun _ => rfl)

theorem kept_forgetReclaimed (lane : Lane) (r : Reclaimed) (s : State) :
    Kept s (modifyLane lane (fun p => { p with reclaimed := p.reclaimed.erase r }) s) :=
  kept_modifyLane s
    (fun w => ⟨w.1, w.2.1, w.2.2.1,
      (List.erase_sublist (a := r) (l := (s.lanes.get lane).reclaimed)).length_le.trans w.2.2.2.1,
      w.2.2.2.2⟩)
    (fun _ => ⟨rfl, rfl⟩) (fun _ => rfl)

theorem keptTable_takeResponse (lane : Lane) (number : Count16) (resp : AxiResp) (data : LineData)
    (s : State) : KeptTable s (takeResponse lane number resp data s) := by
  unfold takeResponse
  dsimp only
  split
  · rename_i o _
    refine (kept_freeCredit lane o s).toKeptTable.trans ?_
    split
    · split
      · exact (kept_tellRequester _ _ _ _ _).toKeptTable
      · exact (laneError_counts _ _ _).toKeptTable
    · exact (lateResponse_counts _ _ _).toKeptTable
  · split
    · exact (kept_forgetReclaimed _ _ _).toKeptTable.trans (lateResponse_counts _ _ _).toKeptTable
    · exact (lateResponse_counts _ _ s).toKeptTable

theorem keptTable_expireWait (lane : Lane) (place : Nat) (s : State) :
    KeptTable s (expireWait lane place s) := by
  unfold expireWait
  split
  · exact KeptTable.refl s
  · refine KeptTable.trans ?_ (laneTimeout_counts _ _ _).toKeptTable
    exact keptTable_modifyLane s (fun w => w) (fun _ => ⟨rfl, rfl⟩)

theorem kept_markTimedOut (lane : Lane) (number : Count16) (s : State) :
    Kept s (modifyLane lane (fun p =>
      { p with
        outstanding := p.outstanding.map fun x =>
          if x.number = number then { x with timer := none } else x }) s) :=
  kept_modifyLane s (fun w => ⟨by simpa using w.1, w.2⟩) (fun _ => ⟨rfl, rfl⟩) (fun _ => rfl)

theorem keptTable_expireResponse (lane : Lane) (number : Count16) (s : State) :
    KeptTable s (expireResponse lane number s) := by
  unfold expireResponse
  split
  · exact KeptTable.refl s
  · exact (kept_markTimedOut _ _ s).toKeptTable.trans (laneTimeout_counts _ _ _).toKeptTable

/-! ### Quiesce (R62) -/

theorem kept_startQuiesce (s : State) : Kept s (startQuiesce s) :=
  kept_mapLanes s (fun p w => by split <;> exact w) (fun p => by split <;> exact ⟨rfl, rfl⟩)
    (fun p => by split <;> exact ⟨rfl, rfl, rfl, rfl⟩)

theorem quiesceDone_wf {p : LanePort} (w : p.Wf) : (quiesceDone p).Wf :=
  ⟨w.1, Nat.zero_lt_succ _, Nat.le_refl _, w.2.2.2⟩

theorem kept_completeQuiesces (s : State) : Kept s (completeQuiesces s) :=
  kept_mapLanes s
    (fun p w => by
      split
      · exact quiesceDone_wf w
      · exact w)
    (fun p => by split <;> exact ⟨rfl, rfl⟩) (fun p => by split <;> exact ⟨rfl, rfl, rfl, rfl⟩)

/-- With the bound of R62 kept and at most 16 requests issued, the reclaimed list keeps its bound. -/
theorem joinReclaimed_length {p : LanePort} (h : p.outstanding.length ≤ Config.credits)
    (k : p.reclaimed.length ≤ Config.reclaimedMax) : (joinReclaimed p).length ≤ Config.reclaimedMax := by
  unfold joinReclaimed
  simp only [Config.credits, Config.reclaimedMax] at *
  split <;> simp only [List.length_append, List.length_map, List.length_drop] <;> omega

/-- The issued requests of a lane join its reclaimed list. -/
theorem kept_joinReclaimed (lane : Lane) (s : State) :
    Kept s (modifyLane lane (fun p => { p with reclaimed := joinReclaimed p }) s) :=
  kept_modifyLane s (fun w => ⟨w.1, w.2.1, w.2.2.1, joinReclaimed_length w.1 w.2.2.2.1, w.2.2.2.2⟩)
    (fun _ => ⟨rfl, rfl⟩) (fun _ => rfl)

/-- The oldest issued request leaves a lane. -/
theorem kept_dropIssued (lane : Lane) (o : Outstanding) (rest : List Outstanding) (s : State)
    (h : (s.lanes.get lane).outstanding = o :: rest) :
    Kept s (modifyLane lane (fun p => { p with outstanding := rest }) s) := by
  refine kept_modifyLane s (fun w => ⟨?_, w.2⟩) (fun _ => ⟨rfl, rfl⟩) (fun _ => rfl)
  have h1 := w.1
  rw [h, List.length_cons] at h1
  exact Nat.le_of_succ_le h1

theorem keptTable_reclaimIssued (lane : Lane) (n : Nat) :
    ∀ s : State, KeptTable s (reclaimIssued lane n s) := by
  induction n with
  | zero => exact KeptTable.refl
  | succ n ih =>
    intro s
    unfold reclaimIssued
    split
    · exact KeptTable.refl s
    · rename_i o rest hs
      dsimp only
      refine KeptTable.trans ?_ (ih _)
      refine (kept_dropIssued lane o rest s hs).toKeptTable.trans ?_
      split
      · exact (laneTimeout_counts _ _ _).toKeptTable
      · exact KeptTable.refl _

theorem kept_withdrawWaiting (lane : Lane) (n : Nat) : ∀ s : State, Kept s (withdrawWaiting lane n s) := by
  induction n with
  | zero => exact Kept.refl
  | succ n ih =>
    intro s
    unfold withdrawWaiting
    split
    · exact Kept.refl s
    · refine Kept.trans ?_ (ih _)
      refine Kept.trans ?_ (kept_tellRequester _ _ _ _ _)
      exact kept_modifyLane s (fun w => w) (fun _ => ⟨rfl, rfl⟩) (fun _ => rfl)

theorem keptTable_expireQuiesce (lane : Lane) (s : State) : KeptTable s (expireQuiesce lane s) := by
  unfold expireQuiesce
  dsimp only
  refine KeptTable.trans (t := withdrawWaiting lane (s.lanes.get lane).waiting.length
    (reclaimIssued lane (s.lanes.get lane).outstanding.length
      (modifyLane lane (fun p => { p with reclaimed := joinReclaimed p }) s))) ?_ ?_
  · exact ((kept_joinReclaimed lane s).toKeptTable.trans (keptTable_reclaimIssued _ _ _)).trans
      (kept_withdrawWaiting _ _ _).toKeptTable
  · exact keptTable_modifyLane _ (fun w => quiesceDone_wf w) (fun _ => ⟨rfl, rfl⟩)

/-! ### The close of an event (R43, R44) -/

theorem kept_setPort {s : State} {p : HostPort} (h : p.unmapped = s.hp.unmapped)
    (k : p.malformed = s.hp.malformed) (m : p.readOnly = s.hp.readOnly) (n : p.drainLimit = s.hp.drainLimit) :
    Kept s { s with hp := p } :=
  Kept.ofPort (fun w => by
    unfold HostPort.Wf
    rw [h, k, m, n]
    exact w) n

theorem keptLaws_setPort {s : State} {p : HostPort} (h : p.unmapped = s.hp.unmapped)
    (k : p.malformed = s.hp.malformed) (m : p.readOnly = s.hp.readOnly) (n : p.drainLimit = s.hp.drainLimit) :
    KeptLaws s { s with hp := p } :=
  (kept_setPort h k m n).toKeptLaws

theorem kept_leaveEntryDrain (s : State) : Kept s (leaveEntryDrain s) := by
  unfold leaveEntryDrain
  refine Kept.trans ?_ (kept_startQuiesce _)
  exact kept_setPort rfl rfl rfl rfl

theorem kept_endSequence (s : State) : Kept s (endSequence s) := by
  unfold endSequence
  refine (kept_postNotice (.resetDone s.hp.warmSeen) s).trans ?_
  exact kept_setPort rfl rfl rfl rfl

theorem kept_drainStep (s : State) : Kept s (drainStep s) := by
  unfold drainStep
  split
  · exact kept_leaveEntryDrain s
  · exact Kept.refl s

theorem kept_quiesceStep (s : State) : Kept s (quiesceStep s) := by
  unfold quiesceStep
  split
  · split
    · exact kept_setPort rfl rfl rfl rfl
    · exact kept_endSequence s
  · exact Kept.refl s

theorem kept_holdStep (s : State) : Kept s (holdStep s) := by
  unfold holdStep
  split
  · exact kept_endSequence s
  · exact Kept.refl s

theorem kept_advanceSequence (s : State) : Kept s (advanceSequence s) :=
  (((kept_drainStep s).trans (kept_completeQuiesces _)).trans (kept_quiesceStep _)).trans (kept_holdStep _)

theorem kept_presentResponses (s : State) : Kept s (presentResponses s) := kept_setPort rfl rfl rfl rfl

theorem kept_settle (s : State) : Kept s (settle s) :=
  ((((kept_closeStale s).trans (kept_grantAll _)).trans (kept_refreshPhases _)).trans
    (kept_advanceSequence _)).trans (kept_presentResponses _)

/-! ### Resets and drains (R15, R41, R43, R45, R124) -/

theorem keptLaws_discardEntries (s : State) : KeptLaws s (discardEntries s) := by
  unfold discardEntries
  refine KeptLaws.trans ?_ (kept_orphan _ _).toKeptLaws
  refine KeptLaws.trans ?_ (kept_withdraw _ _).toKeptLaws
  refine KeptLaws.trans
    (t := { s with hp := { s.hp with readChan := none, writeChan := none, writeBeats := 0 } }) ?_ ?_
  · exact keptLaws_setPort rfl rfl rfl rfl
  · exact KeptLaws.ofTable fun _ => rfl

theorem keptLaws_warmReset (s : State) : KeptLaws s (warmReset s) := by
  unfold warmReset
  refine (keptLaws_discardEntries s).trans ?_
  refine (((kept_resetJobs _).trans (kept_endCommit .resetAborted _)).trans
    (kept_startQuiesce _)).toKeptLaws.trans ?_
  exact keptLaws_setPort rfl rfl rfl rfl

theorem keptLaws_warmOverlap (s : State) : KeptLaws s (warmOverlap s) := by
  unfold warmOverlap
  refine (keptLaws_discardEntries s).trans ?_
  dsimp only
  split
  · refine KeptLaws.trans ?_ (kept_leaveEntryDrain _).toKeptLaws
    exact keptLaws_setPort rfl rfl rfl rfl
  · exact keptLaws_setPort rfl rfl rfl rfl

theorem kept_commandReset (s : State) : Kept s (commandReset s) := by
  unfold commandReset
  refine ((kept_resetJobs s).trans (kept_endCommit .resetAborted _)).trans ?_
  exact kept_setPort rfl rfl rfl rfl

theorem kept_answerDrop (applied : Bool) (slot : Option Nat) (s : State) :
    Kept s (answerDrop applied slot s) := by
  unfold answerDrop
  split
  · exact Kept.refl s
  · split
    · dsimp only
      split <;> exact kept_becomeKnown _ _ _ s
    · exact Kept.refl s

theorem kept_takeRequest (place : Nat) (s : State) : Kept s (takeRequest place s) := by
  unfold takeRequest
  split
  · exact Kept.refl s
  · dsimp only
    refine Kept.trans ?_ (kept_answerDrop _ _ _)
    refine Kept.trans ?_ (kept_closeStale _)
    refine Kept.trans ?_ (kept_takeDrop _ _ _)
    exact Kept.ofMap rfl rfl

theorem kept_waitFalls (n : Nat) : ∀ s : State, Kept s (waitFalls n s) := by
  induction n with
  | zero => exact Kept.refl
  | succ n ih => exact fun s => (kept_writeWaitFalls s).trans (ih _)

theorem cutOff_keeps : KeepsEntry cutOff := by
  intro e
  unfold cutOff
  split
  · exact ⟨rfl, fun _ => rfl⟩
  · exact ⟨rfl, id⟩

theorem kept_expireEntryDrain (s : State) : Kept s (expireEntryDrain s) := by
  unfold expireEntryDrain
  dsimp only
  refine Kept.trans ?_ (kept_leaveEntryDrain _)
  refine Kept.trans ?_ (kept_waitFalls _ _)
  refine Kept.trans ?_ (kept_withdraw _ _)
  refine (kept_mapEntries cutOff_keeps s).trans ?_
  exact Kept.ofMap rfl rfl

theorem kept_expireSwitch (s : State) : Kept s (expireSwitch s) := by
  unfold expireSwitch
  split
  · exact kept_endSwitch _ s
  · exact Kept.refl s

/-! ### Responses taken (R35) -/

theorem keptLaws_takeResponseOf (channel : Dir) (s : State) : KeptLaws s (takeResponseOf channel s) := by
  unfold takeResponseOf
  split
  · exact KeptLaws.refl s
  · refine KeptLaws.trans ?_ (keptLaws_removeEntry _ _)
    cases channel <;> exact keptLaws_setPort rfl rfl rfl rfl

end Sys2Proof.Machine
end

