-- ==== Sys2Proof/Laws/Decoded.lean ====
section
/-! SUPPORT. What decoding, issuing, outcomes becoming known and releases leave alone (chapter 2, section 6.2): everything but the entries, the wait lists, two host counters, the block lock and the block step. And the close of an event in a quiet state. -/

namespace Sys2Proof.Machine

open Sys2Proof

/-- What the table's operations leave of a state. -/
structure Decoded (s t : State) : Prop where
  mu : t.mu = s.mu
  health : t.health = s.health
  log : t.log = s.log
  hp : { t.hp with unmapped := s.hp.unmapped, readOnly := s.hp.readOnly } = s.hp
  commitSpan : t.ift.commitSpan = s.ift.commitSpan
  switchSpan : t.ift.switchSpan = s.ift.switchSpan
  engine : { t.engine with lock := s.engine.lock, blockStep := s.engine.blockStep } = s.engine
  lanes : ∀ n : Lane, { t.lanes.get n with waiting := (s.lanes.get n).waiting } = s.lanes.get n

theorem Decoded.refl (s : State) : Decoded s s := ⟨rfl, rfl, rfl, rfl, rfl, rfl, rfl, fun _ => rfl⟩

theorem HostPort.patch_trans {a b c : HostPort}
    (h : { b with unmapped := a.unmapped, readOnly := a.readOnly } = a)
    (k : { c with unmapped := b.unmapped, readOnly := b.readOnly } = b) :
    { c with unmapped := a.unmapped, readOnly := a.readOnly } = a := by
  cases a; cases b; cases c
  simp only [HostPort.mk.injEq] at h k ⊢
  simp_all

theorem Engine.patch_trans {a b c : Engine}
    (h : { b with lock := a.lock, blockStep := a.blockStep } = a)
    (k : { c with lock := b.lock, blockStep := b.blockStep } = b) :
    { c with lock := a.lock, blockStep := a.blockStep } = a := by
  cases a; cases b; cases c
  simp only [Engine.mk.injEq] at h k ⊢
  simp_all

theorem LanePort.patch_trans {a b c : LanePort} (h : { b with waiting := a.waiting } = a)
    (k : { c with waiting := b.waiting } = b) : { c with waiting := a.waiting } = a := by
  cases a; cases b; cases c
  simp only [LanePort.mk.injEq] at h k ⊢
  simp_all

theorem Decoded.trans {s t u : State} (h : Decoded s t) (k : Decoded t u) : Decoded s u :=
  ⟨k.mu.trans h.mu, k.health.trans h.health, k.log.trans h.log, HostPort.patch_trans h.hp k.hp,
   k.commitSpan.trans h.commitSpan, k.switchSpan.trans h.switchSpan, Engine.patch_trans h.engine k.engine,
   fun n => LanePort.patch_trans (h.lanes n) (k.lanes n)⟩

/-! ### One update -/

theorem decoded_modifyEntry (slot : Nat) (f : Entry → Entry) (s : State) :
    Decoded s (modifyEntry slot f s) :=
  ⟨rfl, rfl, rfl, rfl, rfl, rfl, rfl, fun _ => rfl⟩

theorem decoded_setStep (st : Option BlockStep) (s : State) : Decoded s (setStep st s) :=
  ⟨rfl, rfl, rfl, rfl, rfl, rfl, rfl, fun _ => rfl⟩

theorem decoded_present (n : Lane) (reqs : List Request) (s : State) : Decoded s (present n reqs s) := by
  refine ⟨rfl, rfl, rfl, rfl, rfl, rfl, rfl, fun m => ?_⟩
  show { (s.lanes.modify n _).get m with waiting := (s.lanes.get m).waiting } = _
  rw [PerLane.get_modify]
  split
  · rename_i e
    subst e
    rfl
  · rfl

theorem decoded_presentVerifyReads (block : Nat) (legs : List Leg) :
    ∀ (i : Nat) (s : State), Decoded s (presentVerifyReads block i legs s) := by
  induction legs with
  | nil => exact fun _ s => Decoded.refl s
  | cons leg rest ih => exact fun i s => (decoded_present _ _ s).trans (ih (i + 1) _)

theorem decoded_enterTransfer (s : State) : Decoded s (enterTransfer s) := by
  unfold enterTransfer
  split
  · split
    · exact Decoded.refl s
    · split
      · exact (decoded_setStep _ s).trans (decoded_present _ _ _)
      · exact ((decoded_setStep _ s).trans (decoded_present _ _ _)).trans (decoded_presentVerifyReads _ _ _ _)
      · exact (decoded_setStep _ s).trans (decoded_present _ _ _)
      · exact Decoded.refl s
  · exact Decoded.refl s

theorem decoded_beginStep (s : State) : Decoded s (beginStep s) := by
  unfold beginStep
  split
  · exact Decoded.refl s
  · split
    · dsimp only
      split
      · refine Decoded.trans ?_ (decoded_enterTransfer _)
        exact ⟨rfl, rfl, rfl, rfl, rfl, rfl, rfl, fun _ => rfl⟩
      · exact ⟨rfl, rfl, rfl, rfl, rfl, rfl, rfl, fun _ => rfl⟩
    · exact Decoded.refl s

theorem decoded_writeWaitFalls (s : State) : Decoded s (writeWaitFalls s) := by
  unfold writeWaitFalls
  split
  · exact Decoded.refl s
  · dsimp only
    split
    · exact (decoded_setStep _ s).trans (decoded_enterTransfer _)
    · exact decoded_setStep _ s

/-! ### Decodes -/

theorem decoded_presentLegs (e : Entry) (legs : List LegUse) :
    ∀ s : State, Decoded s (presentLegs e legs s) := by
  induction legs with
  | nil => exact Decoded.refl
  | cons u rest ih => exact fun s => (decoded_present _ _ s).trans (ih _)

theorem decoded_presentShadows (e : Entry) (legs : List ShadowUse) :
    ∀ (i : Nat) (s : State), Decoded s (presentShadows e i legs s) := by
  induction legs with
  | nil => exact fun _ s => Decoded.refl s
  | cons u rest ih => exact fun i s => (decoded_present _ _ s).trans (ih (i + 1) _)

theorem decoded_issueEntry (e : Entry) (l : Lookup) (s : State) : Decoded s (issueEntry e l s) :=
  ((decoded_modifyEntry _ _ s).trans (decoded_presentLegs _ _ _)).trans (decoded_presentShadows _ _ _ _)

theorem decoded_continueDecode (slot : Nat) (s : State) : Decoded s (continueDecode slot s) := by
  unfold continueDecode
  split
  · exact Decoded.refl s
  · split
    · exact Decoded.refl s
    · split
      · exact decoded_modifyEntry _ _ s
      · split
        · exact decoded_modifyEntry _ _ s
        · exact decoded_issueEntry _ _ s

theorem decoded_continueDecodes (slots : List Nat) : ∀ s : State, Decoded s (continueDecodes slots s) := by
  induction slots with
  | nil => exact Decoded.refl
  | cons n rest ih => exact fun s => (decoded_continueDecode n s).trans (ih _)

theorem decoded_becomeKnown (slot : Nat) (code : Code) (data : LineData) (s : State) :
    Decoded s (becomeKnown slot code data s) := by
  unfold becomeKnown
  split
  · exact Decoded.refl s
  · dsimp only
    split
    · exact ((decoded_modifyEntry _ _ s).trans (decoded_continueDecodes _ _)).trans (decoded_writeWaitFalls _)
    · exact (decoded_modifyEntry _ _ s).trans (decoded_continueDecodes _ _)

theorem decoded_fullDecode (slot : Nat) (s : State) : Decoded s (fullDecode slot s) := by
  unfold fullDecode
  split
  · exact Decoded.refl s
  · split
    · exact decoded_modifyEntry _ _ s
    · split
      · refine Decoded.trans ?_ (decoded_becomeKnown _ _ _ _)
        refine Decoded.trans ?_ (decoded_modifyEntry _ _ _)
        exact ⟨rfl, rfl, rfl, rfl, rfl, rfl, rfl, fun _ => rfl⟩
      · dsimp only
        split
        · refine Decoded.trans ?_ (decoded_becomeKnown _ _ _ _)
          exact ⟨rfl, rfl, rfl, rfl, rfl, rfl, rfl, fun _ => rfl⟩
        · exact (decoded_modifyEntry _ _ s).trans (decoded_continueDecode _ _)

theorem decoded_fullDecodes (slots : List Nat) : ∀ s : State, Decoded s (fullDecodes slots s) := by
  induction slots with
  | nil => exact Decoded.refl
  | cons n rest ih => exact fun s => (decoded_fullDecode n s).trans (ih _)

theorem decoded_releaseHeld (kind : Hold) (sp : Span) (s : State) : Decoded s (releaseHeld kind sp s) :=
  decoded_fullDecodes _ s

theorem decoded_releaseLock (s : State) : Decoded s (releaseLock s) := by
  unfold releaseLock
  split
  · exact decoded_setStep _ s
  · refine Decoded.trans ?_ (decoded_fullDecodes _ _)
    exact ⟨rfl, rfl, rfl, rfl, rfl, rfl, rfl, fun _ => rfl⟩

/-! ### The close of an event -/

/-- The close of an event leaves the map unit, the copy engine and the health monitor alone when no draining
commit is stale. -/
theorem settle_blocks {s : State} (h : (s.mu.commit.drain.any fun d => d.stale) = false) :
    (settle s).mu = s.mu ∧ (settle s).engine = s.engine ∧ (settle s).health = s.health := by
  have hs : closeStale s = s := by
    unfold closeStale
    rw [h]
    rfl
  have hd : ∀ t : State, (drainStep t).mu = t.mu ∧ (drainStep t).engine = t.engine
      ∧ (drainStep t).health = t.health := fun t => by
    unfold drainStep
    split <;> exact ⟨rfl, rfl, rfl⟩
  have hq : ∀ t : State, (quiesceStep t).mu = t.mu ∧ (quiesceStep t).engine = t.engine
      ∧ (quiesceStep t).health = t.health := fun t => by
    unfold quiesceStep
    split
    · split <;> exact ⟨rfl, rfl, rfl⟩
    · exact ⟨rfl, rfl, rfl⟩
  have hh : ∀ t : State, (holdStep t).mu = t.mu ∧ (holdStep t).engine = t.engine
      ∧ (holdStep t).health = t.health := fun t => by
    unfold holdStep
    split <;> exact ⟨rfl, rfl, rfl⟩
  unfold settle
  rw [hs]
  obtain ⟨d1, d2, d3⟩ := hd (refreshPhases (grantAll s))
  obtain ⟨q1, q2, q3⟩ := hq (completeQuiesces (drainStep (refreshPhases (grantAll s))))
  obtain ⟨h1, h2, h3⟩ := hh (quiesceStep (completeQuiesces (drainStep (refreshPhases (grantAll s)))))
  exact ⟨h1.trans (q1.trans d1), h2.trans (q2.trans d2), h3.trans (q3.trans d3)⟩

/-- A lane at rest is granted nothing. -/
theorem grantLane_rest (entries : List Entry) (share : Nat) {p : LanePort} (h : p.waiting = []) :
    grantLane entries share p = p := by
  unfold grantLane
  rw [h]
  rfl

/-- In a quiet state an event leaves nothing to its close. -/
theorem settle_quiet {s : State} (h : Quiet s) : settle s = s := by
  obtain ⟨-, h1, h2, h3, h4⟩ := h
  have c1 : closeStale s = s := by
    unfold closeStale
    rw [h3]
    rfl
  have c2 : grantAll s = s := by
    have : s.lanes.map (grantLane s.ift.entries s.engine.share) = s.lanes :=
      PerLane.ext_get fun n => by rw [PerLane.get_map, grantLane_rest _ _ (h4 n).1]
    unfold grantAll
    rw [this]
  have c3 : refreshPhases s = s := by
    unfold refreshPhases
    rw [h2]
    simp only [List.map_nil]
    rw [← h2]
  have c4 : completeQuiesces s = s := by
    have : (s.lanes.map fun p => if p.quiesce.isSome && p.idle then quiesceDone p else p) = s.lanes :=
      PerLane.ext_get fun n => by
        rw [PerLane.get_map, (h4 n).2]
        rfl
    unfold completeQuiesces
    rw [this]
  have c5 : drainStep s = s := by
    unfold drainStep
    rw [h1]
    simp
  have c6 : quiesceStep s = s := by
    unfold quiesceStep
    rw [h1]
    simp
  have c7 : holdStep s = s := by
    unfold holdStep
    rw [h1]
    simp
  have c8 : presentResponses s = s := by
    unfold presentResponses nextResponse
    rw [h2]
    simp
  unfold settle advanceSequence
  rw [c1, c2, c3, c5, c4, c6, c7, c8]

end Sys2Proof.Machine
end

