-- ==== Sys2Proof/Laws/Close.lean ====
section
/-! SUPPORT. The close of an event while the port is open: grants, phases and presented responses are all it does (R35, R52, R54). -/

namespace Sys2Proof.Machine

open Sys2Proof

theorem windowAfter_quiesce (b : Bool) (p : LanePort) : (windowAfter b p).quiesce = p.quiesce := by
  unfold windowAfter
  split <;> rfl

theorem grantOne_quiesce {entries : List Entry} {share : Nat} {p q : LanePort}
    (h : grantOne entries share p = some q) : q.quiesce = p.quiesce := by
  unfold grantOne at h
  split at h
  · split at h
    · cases h
    · cases h
      rfl
    · cases h
      rfl
    · split at h
      · cases h
        exact windowAfter_quiesce true p
      · cases h
        exact windowAfter_quiesce false p
  · cases h

theorem grantMany_quiesce (entries : List Entry) (share n : Nat) :
    ∀ p : LanePort, (grantMany entries share n p).quiesce = p.quiesce := by
  induction n with
  | zero => exact fun _ => rfl
  | succ n ih =>
    intro p
    unfold grantMany
    split
    · rfl
    · rename_i q hq
      exact (ih q).trans (grantOne_quiesce hq)

theorem grantLane_quiesce (entries : List Entry) (share : Nat) (p : LanePort) :
    (grantLane entries share p).quiesce = p.quiesce :=
  grantMany_quiesce _ _ _ p

/-- With the port open, no commit stale and no lane quiescing, an event closes with grants, phases and
presented responses. -/
theorem settle_opened {s : State} (o : s.hp.seq = .opened)
    (d : (s.mu.commit.drain.any fun d => d.stale) = false)
    (q : ∀ n : Lane, (s.lanes.get n).quiesce = none) :
    settle s = presentResponses (refreshPhases (grantAll s)) := by
  have c1 : closeStale s = s := by
    unfold closeStale
    rw [d]
    rfl
  have o2 : (refreshPhases (grantAll s)).hp.seq = .opened := o
  have c2 : drainStep (refreshPhases (grantAll s)) = refreshPhases (grantAll s) := by
    unfold drainStep
    rw [o2]
    simp
  have c3 : completeQuiesces (refreshPhases (grantAll s)) = refreshPhases (grantAll s) := by
    have : ((refreshPhases (grantAll s)).lanes.map fun p =>
        if p.quiesce.isSome && p.idle then quiesceDone p else p) = (refreshPhases (grantAll s)).lanes :=
      PerLane.ext_get fun n => by
        have e : ((refreshPhases (grantAll s)).lanes.get n).quiesce = none := by
          show ((s.lanes.map (grantLane s.ift.entries s.engine.share)).get n).quiesce = none
          rw [PerLane.get_map, grantLane_quiesce, q]
        rw [PerLane.get_map, e]
        rfl
    unfold completeQuiesces
    rw [this]
  have c4 : quiesceStep (refreshPhases (grantAll s)) = refreshPhases (grantAll s) := by
    unfold quiesceStep
    rw [o2]
    simp
  have c5 : holdStep (refreshPhases (grantAll s)) = refreshPhases (grantAll s) := by
    unfold holdStep
    rw [o2]
    simp
  unfold settle advanceSequence
  rw [c1, c2, c3, c4, c5]

/-- Lanes at rest are granted nothing. -/
theorem grantAll_rest {s : State} (h : ∀ n : Lane, (s.lanes.get n).waiting = []) : grantAll s = s := by
  have : s.lanes.map (grantLane s.ift.entries s.engine.share) = s.lanes :=
    PerLane.ext_get fun n => by rw [PerLane.get_map, grantLane_rest _ _ (h n)]
  unfold grantAll
  rw [this]

/-- Entries that issue nothing keep their phases. -/
theorem refreshPhases_rest {s : State} (h : ∀ e ∈ s.ift.entries, e.phase ≠ .issuing) :
    refreshPhases s = s := by
  have : (s.ift.entries.map fun e =>
      if e.phase = .issuing ∧ slotWaits s.lanes e.slot = false then { e with phase := .issued } else e)
      = s.ift.entries := by
    conv => rhs; rw [← List.map_id s.ift.entries]
    exact List.map_congr_left fun e he => if_neg fun c => h e he c.1
  unfold refreshPhases
  rw [this]

/-- A request that waits alone on a lane with a credit free is granted. -/
theorem grantLane_one (entries : List Entry) (share : Nat) {p : LanePort} {w : Waiting}
    (h : p.waiting = [w]) (room : p.outstanding.length < Config.credits) :
    grantLane entries share p = issueRequest w p := by
  have one : grantOne entries share p = some (issueRequest w p) := by
    unfold grantOne nextHost nextEngine
    rw [if_pos room, h]
    cases k : w.req.fromEngine <;> simp [k, leastPlace]
  unfold grantLane
  rw [h]
  simp [grantMany, one]

/-- With no credit free nothing is granted. -/
theorem grantLane_full (entries : List Entry) (share : Nat) {p : LanePort}
    (full : Config.credits ≤ p.outstanding.length) : grantLane entries share p = p := by
  have none : grantOne entries share p = none := by
    unfold grantOne
    rw [if_neg (Nat.not_lt.mpr full)]
  unfold grantLane
  cases h : p.waiting.length with
  | zero => rfl
  | succ n => simp [grantMany, none]

/-- A table of one answered entry: its channel presents it, unless it presents another. -/
theorem presentResponses_lone {s : State} {e : Entry} (h : s.ift.entries = [e]) (k : e.unanswered = false) :
    presentResponses s = answering e s := by
  have n : nextResponse s.ift.entries e.dir = some e.slot := by
    unfold nextResponse eligible idOrder
    rw [h]
    simp [k]
  have m : ∀ d, d ≠ e.dir → nextResponse s.ift.entries d = none := by
    intro d hd
    unfold nextResponse
    rw [h]
    simp [Ne.symm hd]
  unfold presentResponses answering
  rw [← h]
  cases hd : e.dir
  · rw [hd] at n m
    rw [n, m .write (by decide)]
    cases s.hp
    simp
  · rw [hd] at n m
    rw [n, m .read (by decide)]
    cases s.hp
    simp

/-- A table of one entry without a code presents nothing new. -/
theorem presentResponses_none {s : State} {e : Entry} (h : s.ift.entries = [e]) (k : e.unanswered = true) :
    presentResponses s = s := by
  have n : ∀ d, nextResponse s.ift.entries d = none := by
    intro d
    unfold nextResponse eligible
    rw [h]
    simp [k]
  unfold presentResponses
  rw [n, n]
  simp

/-- An answered entry alone in the table, with nothing else in progress: the event closes with its response
presented. -/
theorem settle_lone {s : State} {e : Entry} (o : s.hp.seq = .opened) (d : s.mu.commit.drain = none)
    (q : ∀ n : Lane, (s.lanes.get n).Settled) (h : s.ift.entries = [e]) (k : e.unanswered = false)
    (ph : e.phase ≠ .issuing) : settle s = answering e s := by
  rw [settle_opened o (by rw [d]; rfl) (fun n => (q n).2), grantAll_rest (fun n => (q n).1),
    refreshPhases_rest (by rw [h]; simpa using ph), presentResponses_lone h k]

/-- The next number does not look at the wait list. -/
theorem freshFrom_waiting (p : LanePort) (ws : List Waiting) (k : Nat) :
    ∀ n : Count16, freshFrom { p with waiting := ws } k n = freshFrom p k n := by
  induction k with
  | zero => exact fun _ => rfl
  | succ k ih =>
    intro n
    unfold freshFrom
    rw [ih]
    rfl

theorem freshNumber_waiting (p : LanePort) (ws : List Waiting) :
    freshNumber { p with waiting := ws } = freshNumber p :=
  freshFrom_waiting p ws _ _

/-! ### Responses as presented (R25, R33) -/

@[simp] theorem readBeats_length (code : Code) (data : LineData) (n : Nat) :
    (readBeats code data n).length = n := by
  induction n with
  | zero => rfl
  | succ n ih => simp [readBeats, ih]

/-- Every beat carries the code and the data, and only the last is marked. -/
theorem readBeats_getElem? (code : Code) (data : LineData) :
    ∀ (n i : Nat), i < n →
      (readBeats code data n)[i]? = some { code := code, data := data, last := decide (i + 1 = n) }
  | 0, _, h => absurd h (Nat.not_lt_zero _)
  | n + 1, 0, _ => by cases n <;> rfl
  | n + 1, i + 1, h => by
    rw [readBeats, List.getElem?_cons_succ, readBeats_getElem? code data n i (Nat.lt_of_succ_lt_succ h)]
    simp

/-- A channel presents the response of the entry in its slot. -/
theorem presentedResponse_of {channel : Dir} {s : State} {slot : Nat} {e : Entry}
    (h : presented channel s = some slot) (k : entryAt s.ift.entries slot = some e) :
    presentedResponse channel s = e.response := by
  unfold presentedResponse
  rw [h, Option.bind_some, k, Option.bind_some]

end Sys2Proof.Machine
end

