-- ==== Sys2Proof/Laws/Frames.lean ====
section
/-! SUPPORT. The bits on MISO (R163, R167); what a command frame does once its handler's reply is known (R165, R166). -/

namespace Sys2Proof.Machine

open Sys2Proof

/-! ### The bits on MISO -/

@[simp] theorem bitsOf_nil : bitsOf [] = [] := rfl

@[simp] theorem bitsOf_cons (b : Byte) (rest : List Byte) :
    bitsOf (b :: rest) = (List.range 8).map b.getMsbD ++ bitsOf rest := rfl

@[simp] theorem bitsOf_length (bytes : List Byte) : (bitsOf bytes).length = 8 * bytes.length := by
  induction bytes with
  | nil => rfl
  | cons b rest ih => simp [ih]; omega

/-- Bit k of shifted bytes is bit k mod 8 of byte k / 8, from the most significant; past their end it is 0. -/
theorem bitsOf_getD (bytes : List Byte) (k : Nat) :
    ((bitsOf bytes)[k]?).getD false = ((bytes[k / 8]?).getD 0x00).getMsbD (k % 8) := by
  induction bytes generalizing k with
  | nil => simp
  | cons b rest ih =>
    by_cases h : k < 8
    · have hd : k / 8 = 0 := by omega
      have hm : k % 8 = k := by omega
      rw [bitsOf_cons, List.getElem?_append_left (by simpa using h), hd, hm]
      simp [h]
    · have hd : k / 8 = (k - 8) / 8 + 1 := by omega
      have hm : k % 8 = (k - 8) % 8 := by omega
      rw [bitsOf_cons, List.getElem?_append_right (by simpa using h), hd, hm]
      simpa using ih (k - 8)

/-- Under the marker MISO carries 0. -/
@[simp] theorem misoBit_marker (l : Link) {i : Nat} (h : i < 8) : l.misoBit i = false := if_pos h

/-- A link whose latest frame drove no response has carried 0 throughout. -/
@[simp] theorem misoBit_silent {l : Link} (h : l.miso = []) (i : Nat) : l.misoBit i = false := by
  simp [Link.misoBit, h]

/-- The bits of MISO's byte i are those of the frame from bit 8 i on. -/
theorem misoByte_getMsbD (l : Link) (i : Nat) {j : Nat} (h : j < 8) :
    (l.misoByte i).getMsbD j = l.misoBit (8 * i + j) := by
  unfold Link.misoByte
  rw [BitVec.getMsbD_ofBoolListBE]
  rcases j with _ | _ | _ | _ | _ | _ | _ | _ | j <;> first | rfl | omega

/-- The state at the end of a frame in COMMAND: MISO drove 0x00. -/
abbrev State.heard (s : State) : State := { s with link := { s.link with framing := .command, miso := [] } }

/-- The state in which a handler runs. -/
abbrev State.listening (s : State) : State := { s with link := { s.link with framing := .idle, miso := [] } }

/-- A command frame is its end in COMMAND. -/
theorem commandFrame_eq (code tag : Byte) (payload : List Byte) (body : Handler) (s : State) :
    commandFrame code tag payload body s = whilePowered (fun s => frameEnd code tag payload body s.heard) s := rfl

/-- A sound frame with room in the FIFO is carried out. -/
theorem commandFrame_ready {s : State} (h : LinkReady s) {payload : List Byte} (k : payload.length ≤ 56)
    (code tag : Byte) (body : Handler) :
    commandFrame code tag payload body s = .next (carryOut code tag payload body s.heard) := by
  rw [commandFrame_eq]
  unfold whilePowered frameEnd
  dsimp only
  rw [h.1, if_neg (show ¬Config.payloadMax < payload.length from Nat.not_lt.mpr k),
    if_neg (show ¬Config.fifoSize ≤ s.heard.link.fifo.length from Nat.not_le.mpr h.2)]
  rfl

/-- A reply that leaves the link idle becomes an answer. -/
theorem carryOut_answered {s t : State} {code tag : Byte} {payload bytes : List Byte} {body : Handler}
    {status : Status} (h : body payload s.listening = (status, bytes, t)) (k : t.link = s.listening.link) :
    carryOut code tag payload body s.heard = answered code tag status bytes t := by
  unfold carryOut pushResponse answered
  dsimp only at h k ⊢
  rw [h]
  dsimp only
  rw [k]

/-- A frame whose handler's reply is known. -/
theorem commandFrame_reply {s t : State} {code tag : Byte} {payload bytes : List Byte} {body : Handler}
    {status : Status} (r : LinkReady s) (n : payload.length ≤ 56)
    (h : body payload s.listening = (status, bytes, t)) (k : t.link = s.listening.link) :
    commandFrame code tag payload body s = .next (answered code tag status bytes t) := by
  rw [commandFrame_ready r n, carryOut_answered h k]

/-- A refusal: the answer alone. -/
theorem commandFrame_refused {s : State} {code tag : Byte} {payload bytes : List Byte} {body : Handler}
    {status : Status} (r : LinkReady s) (n : payload.length ≤ 56)
    (h : body payload s.listening = (status, bytes, s.listening)) :
    commandFrame code tag payload body s = .next (answered code tag status bytes s) :=
  commandFrame_reply (t := s.listening) r n h rfl

theorem commandFrame_overrun {s : State} (h : s.porst = false) {payload : List Byte}
    (k : payload.length ≤ 56) (full : 4 ≤ s.link.fifo.length) (code tag : Byte) (body : Handler) :
    commandFrame code tag payload body s = .next (overrun s.heard) := by
  rw [commandFrame_eq]
  unfold whilePowered frameEnd
  dsimp only
  rw [h, if_neg (show ¬Config.payloadMax < payload.length from Nat.not_lt.mpr k),
    if_pos (show Config.fifoSize ≤ s.heard.link.fifo.length from full)]
  rfl

@[simp] theorem noPayload_nil (f : State → Reply) (s : State) : noPayload f [] s = f s := rfl

@[simp] theorem noPayload_cons (f : State → Reply) (b : Byte) (rest : List Byte) (s : State) :
    noPayload f (b :: rest) s = (.badArgument, [], s) := rfl

theorem inOpen_opened {f : State → Reply} {s : State} (h : s.hp.seq = .opened) : inOpen f s = f s := by
  unfold inOpen isOpen
  rw [h]
  rfl

theorem inOpen_resetting {f : State → Reply} {s : State} (h : s.hp.seq ≠ .opened) :
    inOpen f s = (.resetting, [], s) := by
  unfold inOpen isOpen refuse
  rw [if_neg (by simpa using h)]

theorem parsed_some {α : Type} {parse : List Byte → Option α} {f : α → State → Reply}
    {payload : List Byte} {a : α} (h : parse payload = some a) (s : State) :
    parsed parse f payload s = f a s := by
  unfold parsed
  rw [h]

theorem parsed_none {α : Type} {parse : List Byte → Option α} {f : α → State → Reply}
    {payload : List Byte} (h : parse payload = none) (s : State) :
    parsed parse f payload s = (.badArgument, [], s) := by
  unfold parsed refuse
  rw [h]

end Sys2Proof.Machine
end

