-- ==== Sys2Proof/Laws/Grants.lean ====
section
/-! SUPPORT. What grants do to the requests of a lane: none is lost, and the requests of one entry are taken in their order (R51 to R55); and what the close of an event leaves alone while the port is open. -/

namespace Sys2Proof.Machine

open Sys2Proof

/-! ### No request is lost -/

theorem issueRequest_has {p : LanePort} {w : Waiting} {r : Request} (h : p.Has r) (m : w ∈ p.waiting) :
    (issueRequest w p).Has r := by
  rcases h with ⟨v, hv, rfl⟩ | ⟨o, ho, k⟩
  · by_cases e : v = w
    · subst e
      exact .inr ⟨_, List.mem_append_right _ (List.mem_singleton_self _), rfl, rfl⟩
    · exact .inl ⟨v, (List.mem_erase_of_ne e).mpr hv, rfl⟩
  · exact .inr ⟨o, List.mem_append_left _ ho, k⟩

theorem windowAfter_fields (b : Bool) (p : LanePort) :
    (windowAfter b p).waiting = p.waiting ∧ (windowAfter b p).outstanding = p.outstanding := by
  unfold windowAfter
  split <;> exact ⟨rfl, rfl⟩

theorem windowAfter_has {b : Bool} {p : LanePort} {r : Request} (h : p.Has r) : (windowAfter b p).Has r := by
  obtain ⟨e1, e2⟩ := windowAfter_fields b p
  unfold LanePort.Has
  rw [e1, e2]
  exact h

theorem leastPlace_mem (entries : List Entry) (rest : List Waiting) :
    ∀ best : Waiting, leastPlace entries best rest ∈ best :: rest := by
  induction rest with
  | nil => exact fun _ => List.mem_cons_self ..
  | cons w rest ih =>
    intro best
    unfold leastPlace
    have := ih (if placeBefore (hostPlace entries w.req) (hostPlace entries best.req) then w else best)
    rcases List.mem_cons.mp this with e | m
    · rw [e]
      split
      · exact List.mem_cons_of_mem _ (List.mem_cons_self ..)
      · exact List.mem_cons_self ..
    · exact List.mem_cons_of_mem _ (List.mem_cons_of_mem _ m)

theorem nextHost_mem {entries : List Entry} {p : LanePort} {w : Waiting} (h : nextHost entries p = some w) :
    w ∈ p.waiting := by
  unfold nextHost at h
  split at h
  · cases h
  · rename_i v rest f
    cases h
    have := leastPlace_mem entries rest v
    rw [← f] at this
    exact (List.mem_filter.mp this).1

/-- What one grant does: it issues a request that waits, in the lane as its window stands or as it is after a
contended grant. -/
theorem grantOne_some {entries : List Entry} {share : Nat} {p q : LanePort}
    (h : grantOne entries share p = some q) : p.outstanding.length < Config.credits
      ∧ ∃ w ∈ p.waiting, q = issueRequest w p ∨ ∃ b, q = issueRequest w (windowAfter b p) := by
  unfold grantOne at h
  split at h
  · rename_i room
    refine ⟨room, ?_⟩
    split at h
    · cases h
    · rename_i w hw _
      cases h
      exact ⟨w, nextHost_mem hw, .inl rfl⟩
    · rename_i w _ hw
      cases h
      exact ⟨w, List.mem_of_find?_eq_some hw, .inl rfl⟩
    · rename_i host engine hh he
      split at h
      · cases h
        exact ⟨engine, List.mem_of_find?_eq_some he, .inr ⟨true, rfl⟩⟩
      · cases h
        exact ⟨host, nextHost_mem hh, .inr ⟨false, rfl⟩⟩
  · cases h

theorem grantMany_has (entries : List Entry) (share n : Nat) (r : Request) :
    ∀ p : LanePort, p.Has r → (grantMany entries share n p).Has r := by
  induction n with
  | zero => exact fun _ h => h
  | succ n ih =>
    intro p h
    unfold grantMany
    split
    · exact h
    · rename_i q hq
      refine ih q ?_
      obtain ⟨-, w, m, e | ⟨b, e⟩⟩ := grantOne_some hq
      · rw [e]
        exact issueRequest_has h m
      · rw [e]
        exact issueRequest_has (windowAfter_has h) (by rw [(windowAfter_fields b p).1]; exact m)

theorem grantLane_has {entries : List Entry} {share : Nat} {p : LanePort} {r : Request} (h : p.Has r) :
    (grantLane entries share p).Has r :=
  grantMany_has _ _ _ _ p h

/-! ### The requests of one entry are taken in their order -/

/-- Host-side places in rising order: the first is the least. -/
theorem leastPlace_first {entries : List Entry} {best : Waiting} {rest : List Waiting}
    (h : ∀ w ∈ rest, placeBefore (hostPlace entries w.req) (hostPlace entries best.req) = false) :
    leastPlace entries best rest = best := by
  induction rest with
  | nil => rfl
  | cons w rest ih =>
    unfold leastPlace
    rw [h w (List.mem_cons_self ..)]
    exact ih fun v m => h v (List.mem_cons_of_mem _ m)

/-- The waiting requests of one lane as an entry presents them. -/
abbrev queued (p : LanePort) (reqs : List Request) : List Waiting :=
  reqs.map fun r => { req := r, timer := p.timeout }

/-- Issuing a request is taking it while a credit is free. -/
theorem taking_issue (p : LanePort) (r : Request) (room : p.outstanding.length < Config.credits) :
    ({ issueRequest { req := r, timer := p.timeout } p with waiting := [] } : LanePort)
      = LanePort.taking { p with waiting := [] } r := by
  have e : freshNumber { p with waiting := [] } = freshNumber p := freshNumber_waiting p []
  unfold LanePort.taking
  rw [if_pos (show ({ p with waiting := [] } : LanePort).outstanding.length < Config.credits from room), e]
  rfl

/-- Waiting host-side requests in the order of R55 are taken one after another. -/
theorem grantMany_taking (entries : List Entry) (share : Nat) (reqs : List Request) :
    ∀ (n : Nat) (p : LanePort), reqs.length ≤ n → p.waiting = queued p reqs →
      (∀ r ∈ reqs, r.fromEngine = false) →
      reqs.Pairwise (fun a b => placeBefore (hostPlace entries b) (hostPlace entries a) = false) →
      grantMany entries share n p = reqs.foldl LanePort.taking { p with waiting := [] } := by
  induction reqs with
  | nil =>
    intro n p _ hw _ _
    have e : ({ p with waiting := [] } : LanePort) = p := by
      cases p
      simp only [queued, List.map_nil] at hw
      simp [hw]
    rw [List.foldl_nil, e]
    cases n with
    | zero => rfl
    | succ n =>
      unfold grantMany grantOne nextHost nextEngine
      rw [hw]
      split
      · rfl
      · rename_i q hq
        split at hq
        · cases hq
        · cases hq
  | cons r rest ih =>
    intro n p hn hw hf hp
    obtain ⟨hp1, hp2⟩ := List.pairwise_cons.mp hp
    cases n with
    | zero => simp at hn
    | succ n =>
      rw [List.foldl_cons]
      by_cases room : p.outstanding.length < Config.credits
      · have host : nextHost entries p = some { req := r, timer := p.timeout } := by
          unfold nextHost
          have f : p.waiting.filter (fun w => !w.req.fromEngine) = p.waiting := by
            rw [List.filter_eq_self]
            intro w m
            rw [hw] at m
            obtain ⟨x, mx, rfl⟩ := List.mem_map.mp m
            simp [hf x mx]
          rw [f, hw]
          show some (leastPlace entries _ (queued p rest)) = _
          rw [leastPlace_first]
          intro w m
          obtain ⟨x, mx, rfl⟩ := List.mem_map.mp m
          exact hp1 x mx
        have engine : nextEngine p = none := by
          unfold nextEngine
          rw [List.find?_eq_none, hw]
          intro w m
          obtain ⟨x, mx, rfl⟩ := List.mem_map.mp m
          simp [hf x mx]
        have one : grantOne entries share p = some (issueRequest { req := r, timer := p.timeout } p) := by
          unfold grantOne
          rw [if_pos room, host, engine]
        unfold grantMany
        rw [one]
        dsimp only
        have tail : (issueRequest { req := r, timer := p.timeout } p).waiting = queued p rest := by
          show p.waiting.erase _ = _
          rw [hw]
          exact List.erase_cons_head ..
        rw [ih n (issueRequest { req := r, timer := p.timeout } p) (by simpa using hn) tail
          (fun x m => hf x (List.mem_cons_of_mem _ m)) hp2]
        rw [taking_issue p r room]
      · have stuck : ∀ (xs : List Request) (q : LanePort), ¬ q.outstanding.length < Config.credits →
            xs.foldl LanePort.taking q = { q with waiting := q.waiting ++ queued q xs } := by
          intro xs
          induction xs with
          | nil =>
            intro q _
            cases q
            simp
          | cons x xs ih2 =>
            intro q full
            rw [List.foldl_cons, ih2]
            · unfold LanePort.taking
              rw [if_neg full]
              simp
            · unfold LanePort.taking
              rw [if_neg full]
              exact full
        have all : grantMany entries share (n + 1) p = p := by
          unfold grantMany grantOne
          rw [if_neg room]
        rw [all, ← List.foldl_cons]
        refine Eq.trans ?_ (stuck (r :: rest) { p with waiting := [] } room).symm
        cases p
        simp only [List.nil_append]
        simp only at hw
        exact congrArg (fun ws => LanePort.mk _ _ ws _ _ _ _ _ _ _) hw

theorem grantLane_taking {entries : List Entry} {share : Nat} {p : LanePort} {reqs : List Request}
    (hw : p.waiting = queued p reqs) (hf : ∀ r ∈ reqs, r.fromEngine = false)
    (hp : reqs.Pairwise (fun a b => placeBefore (hostPlace entries b) (hostPlace entries a) = false)) :
    grantLane entries share p = reqs.foldl LanePort.taking { p with waiting := [] } :=
  grantMany_taking entries share reqs _ p (by rw [hw]; simp) hw hf hp

/-! ### The close of an event with the port open -/

/-- What the close of an event leaves alone while the port is open and no draining commit is stale. -/
structure ClosedOpen (s t : State) : Prop where
  mu : t.mu = s.mu
  engine : t.engine = s.engine
  health : t.health = s.health
  log : t.log = s.log
  spans : t.ift.commitSpan = s.ift.commitSpan ∧ t.ift.switchSpan = s.ift.switchSpan
  lanes : ∀ (n : Lane) (r : Request), (s.lanes.get n).Has r → (t.lanes.get n).Has r

theorem settle_open {s : State} (o : s.hp.seq = .opened)
    (d : (s.mu.commit.drain.any fun d => d.stale) = false) : ClosedOpen s (settle s) := by
  have c1 : closeStale s = s := by
    unfold closeStale
    rw [d]
    rfl
  generalize hu : refreshPhases (grantAll s) = u
  have o2 : u.hp.seq = .opened := by
    rw [← hu]
    exact o
  have c2 : drainStep u = u := by
    unfold drainStep
    rw [o2]
    simp
  have o3 : (completeQuiesces u).hp.seq = .opened := o2
  have c4 : quiesceStep (completeQuiesces u) = completeQuiesces u := by
    unfold quiesceStep
    rw [o3]
    simp
  have c5 : holdStep (completeQuiesces u) = completeQuiesces u := by
    unfold holdStep
    rw [o3]
    simp
  have e : settle s = presentResponses (completeQuiesces u) := by
    unfold settle advanceSequence
    rw [c1, hu, c2, c4, c5]
  rw [e, ← hu]
  refine ⟨rfl, rfl, rfl, rfl, ⟨rfl, rfl⟩, fun n r h => ?_⟩
  show (((s.lanes.map (grantLane s.ift.entries s.engine.share)).map fun p =>
    if p.quiesce.isSome && p.idle then quiesceDone p else p).get n).Has r
  rw [PerLane.get_map, PerLane.get_map]
  have k := grantLane_has (entries := s.ift.entries) (share := s.engine.share) h
  split
  · exact k
  · exact k

end Sys2Proof.Machine
end

