-- ==== Sys2Proof/Laws/Sound.lean ====
section
/-! SUPPORT. The laws of jobs and of RETIRED lanes (R17, R19, R90, R91), as every operation keeps them: what an operation must leave the same (`Same`), what the laws say while a handle has left the queue and its slot has not left QUEUED (`SoundBut`), and the operations that leave it the same. -/

namespace Sys2Proof.Machine

open Sys2Proof

/-! ### Slots after an update -/

theorem descOf_set (slots : List MapSlot) (i k : Nat) (m : MapSlot) :
    descOf (slots.set i m) k = if k = i ∧ i < slots.length then m.desc else descOf slots k := by
  unfold descOf
  rw [List.getElem?_set]
  by_cases h : i = k
  · subst h
    by_cases l : i < slots.length
    · simp [l]
    · simp [l]
  · simp [h, Ne.symm h]

theorem jobOf_set (e : Engine) (h k : Nat) (x : Option Job) :
    jobOf { e with jobs := e.jobs.set h x } k
      = if k = h ∧ h < e.jobs.length then x else jobOf e k := by
  unfold jobOf
  rw [List.getElem?_set]
  by_cases n : h = k
  · subst n
    by_cases l : h < e.jobs.length
    · simp [l]
    · simp [l]
  · simp [n, Ne.symm n]

theorem jobOf_lt {e : Engine} {h : Nat} {j : Job} (k : jobOf e h = some j) : h < e.jobs.length := by
  unfold jobOf at k
  cases l : e.jobs[h]? with
  | none => rw [l] at k; cases k
  | some x => exact (List.getElem?_eq_some_iff.mp l).1

theorem descOf_lt {slots : List MapSlot} {i : Nat} {d : Descriptor} (k : descOf slots i = some d) :
    i < slots.length := by
  unfold descOf at k
  cases l : slots[i]? with
  | none => rw [l] at k; cases k
  | some x => exact (List.getElem?_eq_some_iff.mp l).1

theorem runningJob_eq {e : Engine} {h : Nat} {j : Job} :
    runningJob e = some (h, j) ↔ e.running = some h ∧ jobOf e h = some j := by
  unfold runningJob
  constructor
  · intro k
    obtain ⟨a, ha, k⟩ := Option.bind_eq_some_iff.mp k
    obtain ⟨b, hb, k⟩ := Option.map_eq_some_iff.mp k
    cases k
    exact ⟨ha, hb⟩
  · rintro ⟨a, b⟩
    rw [a, Option.bind_some, b, Option.map_some]

/-- A job is live when it is QUEUED or RUNNING. -/
theorem live_iff (j : Job) : j.life.live = (j.isQueued || j.isRunning) := by
  unfold JobLife.live Job.isQueued Job.isRunning
  cases j.life <;> rfl

/-! ### What an operation leaves the same -/

/-- What the laws read of a job record. -/
def Job.standing (j : Job) : Bool × Bool × Nat × Nat × Nat :=
  (j.isQueued, j.isRunning, j.region, j.cursor, j.blockCount)

/-- What most operations leave of the copy engine. -/
structure EngineSame (e f : Engine) : Prop where
  running : f.running = e.running
  queue : f.queue = e.queue
  lock : f.lock = e.lock
  block : f.blockStep.map BlockStep.block = e.blockStep.map BlockStep.block
  jobs : ∀ h : Nat, (jobOf f h).map Job.standing = (jobOf e h).map Job.standing

/-- What most operations leave of a state. -/
structure Same (s t : State) : Prop where
  slots : t.mu.slots = s.mu.slots
  commit : t.mu.commit = s.mu.commit
  states : ∀ n : Lane, (t.health.lanes.get n).state = (s.health.lanes.get n).state
  engine : EngineSame s.engine t.engine

theorem EngineSame.refl (e : Engine) : EngineSame e e := ⟨rfl, rfl, rfl, rfl, fun _ => rfl⟩

theorem EngineSame.trans {e f g : Engine} (h : EngineSame e f) (k : EngineSame f g) : EngineSame e g :=
  ⟨k.running.trans h.running, k.queue.trans h.queue, k.lock.trans h.lock, k.block.trans h.block,
   fun n => (k.jobs n).trans (h.jobs n)⟩

theorem Same.refl (s : State) : Same s s := ⟨rfl, rfl, fun _ => rfl, EngineSame.refl _⟩

theorem Same.trans {s t u : State} (h : Same s t) (k : Same t u) : Same s u :=
  ⟨k.slots.trans h.slots, k.commit.trans h.commit, fun n => (k.states n).trans (h.states n),
   h.engine.trans k.engine⟩

/-- An operation that leaves the map unit, the lane states and the copy engine alone. -/
theorem Same.of {s t : State} (m : t.mu = s.mu) (h : t.health = s.health) (e : t.engine = s.engine) :
    Same s t :=
  ⟨by rw [m], by rw [m], fun n => by rw [h], by rw [e]; exact EngineSame.refl _⟩

theorem EngineSame.job {e f : Engine} (k : EngineSame e f) {h : Nat} {j : Job} (x : jobOf f h = some j) :
    ∃ i, jobOf e h = some i ∧ i.isQueued = j.isQueued ∧ i.isRunning = j.isRunning ∧ i.region = j.region
      ∧ i.cursor = j.cursor ∧ i.blockCount = j.blockCount := by
  have y := k.jobs h
  rw [x, Option.map_some] at y
  obtain ⟨i, hi, e⟩ := Option.map_eq_some_iff.mp y.symm
  simp only [Job.standing, Prod.mk.injEq] at e
  exact ⟨i, hi, e⟩

theorem EngineSame.symm {e f : Engine} (k : EngineSame e f) : EngineSame f e :=
  ⟨k.running.symm, k.queue.symm, k.lock.symm, k.block.symm, fun h => (k.jobs h).symm⟩

theorem EngineSame.anyQueued {e f : Engine} (k : EngineSame e f) (h : Nat) :
    (jobOf f h).any Job.isQueued = (jobOf e h).any Job.isQueued := by
  have y := congrArg (Option.any fun x : Bool × Bool × Nat × Nat × Nat => x.1) (k.jobs h)
  simpa [Option.any_map, Function.comp_def, Job.standing] using y

theorem EngineSame.anyRunning {e f : Engine} (k : EngineSame e f) (h : Nat) :
    (jobOf f h).any Job.isRunning = (jobOf e h).any Job.isRunning := by
  have y := congrArg (Option.any fun x : Bool × Bool × Nat × Nat × Nat => x.2.1) (k.jobs h)
  simpa [Option.any_map, Function.comp_def, Job.standing] using y

/-! ### The laws while some handles have left the queue -/

/-- The copy engine's laws while the slots that W selects are QUEUED and have left the queue. -/
def EngineBut (W : Nat → Prop) (e : Engine) : Prop :=
  (∀ h : Nat, e.running = some h ↔ (jobOf e h).any Job.isRunning = true)
    ∧ (∀ (h : Nat) (j : Job), runningJob e = some (h, j) → j.cursor ≤ j.blockCount)
    ∧ e.queue.Nodup
    ∧ (∀ h : Nat, (h ∈ e.queue ∨ W h) ↔ (jobOf e h).any Job.isQueued = true)
    ∧ (∀ h : Nat, W h → h ∉ e.queue)
    ∧ match e.blockStep with
      | none => e.lock = none
      | some st => ∃ h j, runningJob e = some (h, j) ∧ j.cursor < j.blockCount ∧ st.block = j.cursor
          ∧ e.lock = some { region := j.region, block := j.cursor }

/-- Every law of jobs and of RETIRED lanes, while the slots that W selects are QUEUED and have left the
queue. -/
structure SoundBut (W : Nat → Prop) (s : State) : Prop where
  size : s.mu.slots.length = Config.mapSlots
  clear : RetiredClear s
  engine : EngineBut W s.engine
  fields : JobFieldsWf s

/-- No handle. -/
def noHandle : Nat → Prop := fun _ => False

/-- Every law of jobs and of RETIRED lanes. -/
abbrev Sound (s : State) : Prop := SoundBut noHandle s

theorem engineBut_none (e : Engine) : EngineBut noHandle e ↔ e.Wf := by
  unfold EngineBut Engine.Wf noHandle
  constructor
  · rintro ⟨a, b, c, d, -, f⟩
    exact ⟨a, b, c, fun h => by simpa using d h, f⟩
  · rintro ⟨a, b, c, d, f⟩
    exact ⟨a, b, c, fun h => by simpa using d h, fun _ k => k.elim, f⟩

theorem sound_iff (s : State) :
    Sound s ↔ s.mu.slots.length = Config.mapSlots ∧ RetiredClear s ∧ s.engine.Wf ∧ JobFieldsWf s :=
  ⟨fun h => ⟨h.size, h.clear, (engineBut_none _).mp h.engine, h.fields⟩,
   fun h => ⟨h.1, h.2.1, (engineBut_none _).mpr h.2.2.1, h.2.2.2⟩⟩

theorem EngineSame.runningJob {e f : Engine} (k : EngineSame e f) {h : Nat} {j : Job}
    (x : runningJob f = some (h, j)) :
    ∃ i, Machine.runningJob e = some (h, i) ∧ i.region = j.region ∧ i.cursor = j.cursor
      ∧ i.blockCount = j.blockCount := by
  obtain ⟨a, b⟩ := runningJob_eq.mp x
  obtain ⟨i, hi, -, -, r, c, n⟩ := k.job b
  exact ⟨i, runningJob_eq.mpr ⟨k.running ▸ a, hi⟩, r, c, n⟩

theorem EngineSame.keeps {W : Nat → Prop} {e f : Engine} (k : EngineSame e f) (h : EngineBut W e) :
    EngineBut W f := by
  obtain ⟨h1, h2, h3, h4, h5, h6⟩ := h
  refine ⟨fun n => ?_, fun n j x => ?_, k.queue ▸ h3, fun n => ?_, fun n w => k.queue ▸ h5 n w, ?_⟩
  · rw [k.running, k.anyRunning]
    exact h1 n
  · obtain ⟨i, hi, -, c, b⟩ := k.runningJob x
    rw [← c, ← b]
    exact h2 n i hi
  · rw [k.queue, k.anyQueued]
    exact h4 n
  · have b := k.block
    cases x : f.blockStep with
    | none =>
      rw [x] at b
      cases y : e.blockStep with
      | none =>
        rw [y] at h6
        exact k.lock.trans h6
      | some st =>
        rw [y] at b
        cases b
    | some st =>
      rw [x] at b
      cases y : e.blockStep with
      | none =>
        rw [y] at b
        cases b
      | some su =>
        rw [y] at b h6
        simp only [Option.map_some, Option.some.injEq] at b
        obtain ⟨h, j, r, c, d, l⟩ := h6
        obtain ⟨i, hi, p, q, m⟩ := k.symm.runningJob r
        exact ⟨h, i, hi, by rw [q, m]; exact c, by rw [q, b]; exact d, by rw [p, q, k.lock]; exact l⟩

theorem Same.clear {s t : State} (k : Same s t) (h : RetiredClear s) : RetiredClear t := by
  refine ⟨fun i d x b leg m => ?_, fun c x z m y b w leg l => ?_⟩
  · rw [k.states]
    exact h.1 i d (k.slots ▸ x) b leg m
  · rw [k.states]
    exact h.2 c (k.commit ▸ x) z m y b w leg l

/-- The job fields read of the copy engine only what `EngineSame` leaves. -/
theorem JobFieldsWf.of {s t : State} (m : t.mu.slots = s.mu.slots) (c : t.mu.commit = s.mu.commit)
    (k : EngineSame s.engine t.engine) (h : JobFieldsWf s) : JobFieldsWf t := by
  obtain ⟨h1, h2, h3⟩ := h
  refine ⟨fun n j x l => ?_, fun i n d x y => ?_, fun z x y w => ?_⟩
  · obtain ⟨i, hi, q, r, p, -, b⟩ := k.job x
    rw [live_iff, ← q, ← r, ← live_iff] at l
    rw [m, ← p, ← b]
    exact h1 n i hi l
  · obtain ⟨j, hj, l, r⟩ := h2 i n d (m ▸ x) y
    obtain ⟨i', hi, q, r', p, -, -⟩ := k.symm.job hj
    refine ⟨i', hi, ?_, p.trans r⟩
    rw [live_iff, q, r', ← live_iff]
    exact l
  · rw [m]
    exact h3 z (c ▸ x) y w

theorem Same.sound {W : Nat → Prop} {s t : State} (k : Same s t) (h : SoundBut W s) : SoundBut W t :=
  ⟨by rw [k.slots]; exact h.size, k.clear h.clear, k.engine.keeps h.engine,
   h.fields.of k.slots k.commit k.engine⟩

/-! ### Operations that leave it the same -/

theorem same_writeRecord (info : FaultInfo) (s : State) : Same s (writeRecord info s) :=
  Same.of rfl rfl rfl

theorem same_postNotice (info : NoticeInfo) (s : State) : Same s (postNotice info s) := Same.of rfl rfl rfl

theorem same_modifyEntry (slot : Nat) (f : Entry → Entry) (s : State) : Same s (modifyEntry slot f s) :=
  Same.of rfl rfl rfl

theorem same_present (n : Lane) (reqs : List Request) (s : State) : Same s (present n reqs s) :=
  Same.of rfl rfl rfl

theorem same_modifyLane (n : Lane) (f : LanePort → LanePort) (s : State) : Same s (modifyLane n f s) :=
  Same.of rfl rfl rfl

theorem same_withdraw (sel : Request → Bool) (s : State) : Same s (withdraw sel s) := Same.of rfl rfl rfl

theorem same_orphan (sel : Nat → Bool) (s : State) : Same s (orphan sel s) :=
  ⟨rfl, rfl, fun _ => rfl, EngineSame.refl _⟩

theorem same_removeEntry (slot : Nat) (s : State) : Same s (removeEntry slot s) := by
  unfold removeEntry
  refine Same.trans ?_ (same_orphan _ _)
  exact Same.of rfl rfl rfl

/-- A change of the running job's record that keeps what the laws read of it. -/
theorem same_modifyRunning {f : Job → Job} (k : ∀ j : Job, (f j).standing = j.standing) (s : State) :
    Same s (modifyRunning f s) := by
  unfold modifyRunning
  split
  · exact Same.refl s
  · rename_i h j x
    refine ⟨rfl, rfl, fun _ => rfl, rfl, rfl, rfl, rfl, fun n => ?_⟩
    show (jobOf { s.engine with jobs := s.engine.jobs.set h (some (f j)) } n).map _ = _
    rw [jobOf_set]
    split
    · rename_i c
      rw [c.1, (runningJob_eq.mp x).2, Option.map_some, Option.map_some, k]
    · rfl

theorem same_raiseStop (stop : Stop) (s : State) : Same s (raiseStop stop s) :=
  same_modifyRunning (fun j => by
    obtain ⟨life, _, _, _, _, _⟩ := j
    cases life with
    | queued => rfl
    | finished o => rfl
    | running r => cases r <;> rfl) s

theorem same_raiseReset (s : State) : Same s (raiseReset s) :=
  same_modifyRunning (fun j => by
    obtain ⟨life, _, _, _, _, _⟩ := j
    cases life <;> rfl) s

theorem same_setStep {st su : BlockStep} (s : State) (h : s.engine.blockStep = some st)
    (k : su.block = st.block) : Same s (setStep (some su) s) :=
  ⟨rfl, rfl, fun _ => rfl, rfl, rfl, rfl, by
    show some su.block = _
    rw [h, Option.map_some, k], fun _ => rfl⟩

theorem same_presentVerifyReads (block : Nat) (legs : List Leg) :
    ∀ (i : Nat) (s : State), Same s (presentVerifyReads block i legs s) := by
  induction legs with
  | nil => exact fun _ s => Same.refl s
  | cons leg rest ih => exact fun i s => (same_present _ _ s).trans (ih (i + 1) _)

theorem same_enterTransfer (s : State) : Same s (enterTransfer s) := by
  unfold enterTransfer
  split
  · rename_i st _ k
    split
    · exact Same.refl s
    · split
      · refine Same.trans ?_ (same_present _ _ _)
        exact same_setStep s k rfl
      · refine Same.trans ?_ (same_presentVerifyReads _ _ _ _)
        refine Same.trans ?_ (same_present _ _ _)
        exact same_setStep s k rfl
      · refine Same.trans ?_ (same_present _ _ _)
        exact same_setStep s k rfl
      · exact Same.refl s
  · exact Same.refl s

theorem same_writeWaitFalls (s : State) : Same s (writeWaitFalls s) := by
  unfold writeWaitFalls
  split
  · exact Same.refl s
  · rename_i st k
    dsimp only
    split
    · refine Same.trans ?_ (same_enterTransfer _)
      exact same_setStep s k rfl
    · exact same_setStep s k rfl

theorem same_presentLegs (e : Entry) (legs : List LegUse) : ∀ s : State, Same s (presentLegs e legs s) := by
  induction legs with
  | nil => exact Same.refl
  | cons u rest ih => exact fun s => (same_present _ _ s).trans (ih _)

theorem same_presentShadows (e : Entry) (legs : List ShadowUse) :
    ∀ (i : Nat) (s : State), Same s (presentShadows e i legs s) := by
  induction legs with
  | nil => exact fun _ s => Same.refl s
  | cons u rest ih => exact fun i s => (same_present _ _ s).trans (ih (i + 1) _)

theorem same_issueEntry (e : Entry) (l : Lookup) (s : State) : Same s (issueEntry e l s) :=
  ((same_modifyEntry _ _ s).trans (same_presentLegs _ _ _)).trans (same_presentShadows _ _ _ _)

theorem same_continueDecode (slot : Nat) (s : State) : Same s (continueDecode slot s) := by
  unfold continueDecode
  split
  · exact Same.refl s
  · split
    · exact Same.refl s
    · split
      · exact same_modifyEntry _ _ s
      · split
        · exact same_modifyEntry _ _ s
        · exact same_issueEntry _ _ s

theorem same_continueDecodes (slots : List Nat) : ∀ s : State, Same s (continueDecodes slots s) := by
  induction slots with
  | nil => exact Same.refl
  | cons n rest ih => exact fun s => (same_continueDecode n s).trans (ih _)

theorem same_becomeKnown (slot : Nat) (code : Code) (data : LineData) (s : State) :
    Same s (becomeKnown slot code data s) := by
  unfold becomeKnown
  split
  · exact Same.refl s
  · dsimp only
    split
    · exact ((same_modifyEntry _ _ s).trans (same_continueDecodes _ _)).trans (same_writeWaitFalls _)
    · exact (same_modifyEntry _ _ s).trans (same_continueDecodes _ _)

theorem same_fullDecode (slot : Nat) (s : State) : Same s (fullDecode slot s) := by
  unfold fullDecode
  split
  · exact Same.refl s
  · split
    · exact same_modifyEntry _ _ s
    · split
      · refine Same.trans ?_ (same_becomeKnown _ _ _ _)
        exact Same.of rfl rfl rfl
      · dsimp only
        split
        · refine Same.trans ?_ (same_becomeKnown _ _ _ _)
          exact Same.of rfl rfl rfl
        · exact (same_modifyEntry _ _ s).trans (same_continueDecode _ _)

theorem same_fullDecodes (slots : List Nat) : ∀ s : State, Same s (fullDecodes slots s) := by
  induction slots with
  | nil => exact Same.refl
  | cons n rest ih => exact fun s => (same_fullDecode n s).trans (ih _)

theorem same_releaseHeld (kind : Hold) (sp : Span) (s : State) : Same s (releaseHeld kind sp s) :=
  same_fullDecodes _ s

end Sys2Proof.Machine
end

