-- ==== Sys2Proof/Laws/SoundMap.lean ====
section
/-! SUPPORT. The laws of jobs and of RETIRED lanes, as the map unit's and the health monitor's operations keep them (R15, R17, R18, R80 to R87, R142 to R146). -/

namespace Sys2Proof.Machine

open Sys2Proof

/-! ### MIRROR legs and commit legs, by what they avoid -/

/-- Every leg of a valid MIRROR descriptor satisfies a predicate of its slot and itself. -/
def MirrorLegs (P : Nat → Leg → Prop) (s : State) : Prop :=
  ∀ (i : Nat) (d : Descriptor), descOf s.mu.slots i = some d → d.body.legB ≠ none → ∀ leg ∈ d.body.legs, P i leg

/-- Every leg of a draining commit that is not stale satisfies a predicate. -/
def CommitLegs (Q : Leg → Prop) (s : State) : Prop :=
  ∀ c : CommitDrain, s.mu.commit.drain = some c → c.stale = false → ∀ m ∈ c.members, ∀ b : Body,
    m.body = some b → ∀ leg ∈ b.legs, Q leg

theorem retiredClear_iff (s : State) : RetiredClear s ↔
    MirrorLegs (fun _ leg => (s.health.lanes.get leg.lane).state ≠ .retired) s
      ∧ CommitLegs (fun leg => (s.health.lanes.get leg.lane).state ≠ .retired) s :=
  Iff.rfl

/-! ### A slot's new descriptor -/

/-- A valid slot takes a descriptor with the same job and length. -/
theorem JobFieldsWf.setSlot {s : State} {i : Nat} {m : MapSlot} {d d' : Descriptor} {r g : Count16}
    (hm : s.mu.slots[i]? = some m) (hd : m.desc = some d) (hj : d'.job = d.job)
    (hl : d'.body.length = d.body.length) (h : JobFieldsWf s) :
    JobFieldsWf { s with
      mu.slots := s.mu.slots.set i { desc := some d', revision := r }, mu.generation := g } := by
  have lt : i < s.mu.slots.length := (List.getElem?_eq_some_iff.mp hm).1
  have old : descOf s.mu.slots i = some d := by
    unfold descOf
    rw [hm, Option.bind_some, hd]
  obtain ⟨h1, h2, h3⟩ := h
  refine ⟨fun n j x l => ?_, fun k n e x y => ?_, fun c x y w => ?_⟩
  · obtain ⟨e, he, ej, el⟩ := h1 n j x l
    show ∃ d'', descOf (s.mu.slots.set i _) j.region = some d'' ∧ _
    rw [descOf_set]
    split
    · rename_i c
      rw [c.1, old] at he
      cases he
      exact ⟨d', rfl, hj.trans ej, by rw [hl]; exact el⟩
    · exact ⟨e, he, ej, el⟩
  · have x' : descOf (s.mu.slots.set i _) k = some e := x
    rw [descOf_set] at x'
    split at x'
    · rename_i c
      cases x'
      rw [c.1]
      exact h2 i n d old (hj ▸ y)
    · exact h2 k n e x' y
  · have z := h3 c x y w
    show (descOf (s.mu.slots.set i _) y.slot).bind Descriptor.job = none
    rw [descOf_set]
    split
    · rename_i e
      rw [e.1, old] at z
      exact hj.trans z
    · exact z

theorem MirrorLegs.setSlot {P : Nat → Leg → Prop} {s : State} {i : Nat} {d' : Descriptor} {r g : Count16}
    (hc : d'.body.legB ≠ none → ∀ leg ∈ d'.body.legs, P i leg) (h : MirrorLegs P s) :
    MirrorLegs P { s with
      mu.slots := s.mu.slots.set i { desc := some d', revision := r }, mu.generation := g } := by
  intro k e x
  have x' : descOf (s.mu.slots.set i _) k = some e := x
  rw [descOf_set] at x'
  split at x'
  · rename_i c
    cases x'
    rw [c.1]
    exact hc
  · exact h k e x'

/-! ### Leg drops (R15) -/

/-- What the map unit applies: a valid MIRROR slot and one of its two legs. -/
theorem dropTarget_some {slots : List MapSlot} {region : Nat} {leg : Leg} {m : MapSlot} {d : Descriptor}
    {b : Leg} (h : dropTarget slots region leg = some (m, d, b)) :
    slots[region]? = some m ∧ m.desc = some d ∧ d.body.legB = some b ∧ (leg = d.body.legA ∨ leg = b) := by
  unfold dropTarget at h
  split at h
  · cases h
  · rename_i m' hm
    split at h
    · cases h
    · rename_i d' hd
      split at h
      · cases h
      · rename_i b' hb
        split at h
        · rename_i c
          cases h
          exact ⟨hm, hd, hb, c⟩
        · cases h

/-- All that taking a leg drop can do (R15): nothing, or the dropped slot with its revision and the generation
raised, the record, the notice, a stop request told, a commit marked stale. -/
theorem takeDrop_cases (region : Nat) (leg : Leg) (s : State) :
    (dropTarget s.mu.slots region leg = none ∧ takeDrop region leg s = s)
    ∨ ∃ m d b, dropTarget s.mu.slots region leg = some (m, d, b)
      ∧ (takeDrop region leg s).mu.slots
          = s.mu.slots.set region { desc := some (dropLeg leg d b), revision := m.revision + 1 }
      ∧ (takeDrop region leg s).mu.generation = s.mu.generation + 1
      ∧ (takeDrop region leg s).mu.commit =
          (if inCommitSet s.mu region then
            { s.mu.commit with drain := s.mu.commit.drain.map fun c => { c with stale := true } }
           else s.mu.commit)
      ∧ (takeDrop region leg s).health = s.health
      ∧ EngineSame s.engine (takeDrop region leg s).engine := by
  unfold takeDrop
  cases h : dropTarget s.mu.slots region leg with
  | none => exact .inl ⟨rfl, rfl⟩
  | some x =>
    obtain ⟨m, d, b⟩ := x
    refine .inr ⟨m, d, b, rfl, ?_⟩
    dsimp only
    have told : ∀ t : State, (tellDrop region leg t).mu = t.mu ∧ (tellDrop region leg t).health = t.health
        ∧ EngineSame t.engine (tellDrop region leg t).engine := fun t => by
      have raise : ∀ stop, (raiseStop stop t).mu = t.mu ∧ (raiseStop stop t).health = t.health
          ∧ EngineSame t.engine (raiseStop stop t).engine := fun stop => by
        refine ⟨?_, ?_, (same_raiseStop stop t).engine⟩
        · unfold raiseStop modifyRunning
          split <;> rfl
        · unfold raiseStop modifyRunning
          split <;> rfl
      unfold tellDrop
      split
      · exact ⟨rfl, rfl, EngineSame.refl _⟩
      · split
        · split
          · split
            · exact raise _
            · exact ⟨rfl, rfl, EngineSame.refl _⟩
          · exact raise _
        · exact ⟨rfl, rfl, EngineSame.refl _⟩
    generalize ht : postNotice (.legDropped region leg.lane) (writeRecord
      { kind := .legDropped, lane := some leg.lane, region := some region, job := d.job }
      { s with
        mu.slots := s.mu.slots.set region { desc := some (dropLeg leg d b), revision := m.revision + 1 }
        mu.generation := s.mu.generation + 1 }) = t
    have e1 : t.mu = { s.mu with
        slots := s.mu.slots.set region { desc := some (dropLeg leg d b), revision := m.revision + 1 }
        generation := s.mu.generation + 1 } := by rw [← ht]; rfl
    have e2 : t.health = s.health := by rw [← ht]; rfl
    have e3 : t.engine = s.engine := by rw [← ht]; rfl
    obtain ⟨k1, k2, k3⟩ := told t
    rw [e2] at k2
    rw [e3] at k3
    have c : inCommitSet (tellDrop region leg t).mu region = inCommitSet s.mu region := by
      rw [k1, e1]
      rfl
    rw [c]
    split
    · refine ⟨?_, ?_, ?_, k2, k3⟩
      · show (tellDrop region leg t).mu.slots = _
        rw [k1, e1]
      · show (tellDrop region leg t).mu.generation = _
        rw [k1, e1]
      · unfold markStale
        rw [k1, e1]
    · refine ⟨?_, ?_, ?_, k2, k3⟩ <;> rw [k1, e1]

/-- The laws but the one of RETIRED lanes. -/
structure JobsBut (W : Nat → Prop) (s : State) : Prop where
  size : s.mu.slots.length = Config.mapSlots
  engine : EngineBut W s.engine
  fields : JobFieldsWf s

theorem SoundBut.jobs {W : Nat → Prop} {s : State} (h : SoundBut W s) : JobsBut W s :=
  ⟨h.size, h.engine, h.fields⟩

theorem JobsBut.sound {W : Nat → Prop} {s : State} (h : JobsBut W s) (k : RetiredClear s) : SoundBut W s :=
  ⟨h.size, k, h.engine, h.fields⟩

theorem Same.jobs {W : Nat → Prop} {s t : State} (k : Same s t) (h : JobsBut W s) : JobsBut W t :=
  ⟨by rw [k.slots]; exact h.size, k.engine.keeps h.engine, h.fields.of k.slots k.commit k.engine⟩

/-- Marking a draining commit stale keeps the job fields. -/
theorem JobFieldsWf.stale {s t : State} (m : t.mu.slots = s.mu.slots)
    (c : t.mu.commit = { s.mu.commit with
      drain := s.mu.commit.drain.map fun c => { c with stale := true } })
    (k : EngineSame s.engine t.engine) (h : JobFieldsWf s) : JobFieldsWf t := by
  have w : JobFieldsWf { s with mu := { s.mu with commit := t.mu.commit } } := by
    refine ⟨h.1, h.2.1, fun z x y w => ?_⟩
    have x' : t.mu.commit.drain = some z := x
    rw [c] at x'
    obtain ⟨z', hz, rfl⟩ := Option.map_eq_some_iff.mp x'
    exact h.2.2 z' hz y w
  refine JobFieldsWf.of (t := t) ?_ ?_ ?_ w
  exacts [m, rfl, k]

theorem takeDrop_jobs {W : Nat → Prop} (region : Nat) (leg : Leg) {s : State} (h : JobsBut W s) :
    JobsBut W (takeDrop region leg s) := by
  rcases takeDrop_cases region leg s with ⟨-, e⟩ | ⟨m, d, b, ht, e1, e2, e3, -, e5⟩
  · rw [e]
    exact h
  · obtain ⟨hm, hd, -, -⟩ := dropTarget_some ht
    have w := h.fields.setSlot (r := m.revision + 1) (g := s.mu.generation + 1) (d' := dropLeg leg d b)
      hm hd rfl rfl
    refine ⟨by rw [e1, List.length_set]; exact h.size, e5.keeps h.engine, ?_⟩
    split at e3
    · refine JobFieldsWf.stale (t := takeDrop region leg s) ?_ ?_ ?_ w
      exacts [e1, e3, e5]
    · refine JobFieldsWf.of (t := takeDrop region leg s) ?_ ?_ ?_ w
      exacts [e1, e3, e5]

theorem takeDrop_mirror {P : Nat → Leg → Prop} (region : Nat) (leg : Leg) {s : State} (h : MirrorLegs P s) :
    MirrorLegs P (takeDrop region leg s) := by
  rcases takeDrop_cases region leg s with ⟨-, e⟩ | ⟨m, d, b, ht, e1, -⟩
  · rw [e]
    exact h
  · intro k c
    rw [e1]
    exact (h.setSlot (i := region) (r := m.revision + 1) (g := s.mu.generation) (d' := dropLeg leg d b)
      fun x => (x rfl).elim) k c

theorem takeDrop_commit {Q : Leg → Prop} (region : Nat) (leg : Leg) {s : State} (h : CommitLegs Q s) :
    CommitLegs Q (takeDrop region leg s) := by
  rcases takeDrop_cases region leg s with ⟨-, e⟩ | ⟨m, d, b, ht, e1, -, e3, -⟩
  · rw [e]
    exact h
  · intro c x
    rw [e3] at x
    split at x
    · obtain ⟨c', -, rfl⟩ := Option.map_eq_some_iff.mp x
      exact fun y => by cases y
    · exact h c x

theorem takeDrop_health (region : Nat) (leg : Leg) (s : State) :
    (takeDrop region leg s).health = s.health := by
  rcases takeDrop_cases region leg s with ⟨-, e⟩ | ⟨m, d, b, ht, e1, -, -, e4, -⟩
  · rw [e]
  · exact e4

theorem sound_takeDrop {W : Nat → Prop} (region : Nat) (leg : Leg) {s : State} (h : SoundBut W s) :
    SoundBut W (takeDrop region leg s) :=
  (takeDrop_jobs region leg h.jobs).sound (by
    rw [retiredClear_iff, takeDrop_health]
    exact ⟨takeDrop_mirror region leg h.clear.1, takeDrop_commit region leg h.clear.2⟩)

/-- Every MIRROR leg on a lane is dropped from the slots of a list (R17). -/
theorem dropLane_avoids (lane : Lane) (slots : List Nat) :
    ∀ s : State, MirrorLegs (fun i leg => leg.lane = lane → i ∈ slots) s →
      MirrorLegs (fun _ leg => leg.lane ≠ lane) (dropLane lane slots s) := by
  induction slots with
  | nil => exact fun s h k c x y leg m e => by simpa using h k c x y leg m e
  | cons i rest ih =>
    intro s h
    unfold dropLane
    split
    · rename_i leg hl
      refine ih _ ?_
      unfold mirrorLegOn at hl
      split at hl
      · cases hl
      · rename_i d hd
        split at hl
        · rename_i hb
          have target : dropTarget s.mu.slots i leg ≠ none := by
            have mem := List.mem_of_find?_eq_some hl
            unfold descOf at hd
            obtain ⟨m, hm, hm2⟩ := Option.bind_eq_some_iff.mp hd
            obtain ⟨b, hb⟩ := Option.isSome_iff_exists.mp hb
            unfold dropTarget
            rw [hm]
            dsimp only
            rw [hm2]
            dsimp only
            rw [hb]
            dsimp only
            have : leg = d.body.legA ∨ leg = b := by
              simpa [Body.legs, legList, hb] using mem
            rw [if_pos this]
            exact fun e => by cases e
          rcases takeDrop_cases i leg s with ⟨e, -⟩ | ⟨m, d', b, ht, e1, -⟩
          · exact (target e).elim
          · intro k c x y leg' m' e
            have q := takeDrop_mirror i leg h k c x y leg' m' e
            rcases List.mem_cons.mp q with r | r
            · subst r
              rw [e1, descOf_set] at x
              obtain ⟨hm, -⟩ := dropTarget_some ht
              rw [if_pos ⟨rfl, (List.getElem?_eq_some_iff.mp hm).1⟩] at x
              cases x
              exact (y rfl).elim
            · exact r
        · cases hl
    · rename_i hl
      refine ih _ fun k c x y leg m e => ?_
      rcases List.mem_cons.mp (h k c x y leg m e) with r | r
      · subst r
        unfold mirrorLegOn at hl
        rw [x] at hl
        dsimp only at hl
        rw [if_pos (Option.isSome_iff_ne_none.mpr y)] at hl
        exact absurd e (by simpa using List.find?_eq_none.mp hl leg m)
      · exact r

/-- What dropping every MIRROR leg of a lane keeps. -/
theorem dropLane_keeps {W : Nat → Prop} {P : Nat → Leg → Prop} {Q : Leg → Prop} (lane : Lane)
    (slots : List Nat) : ∀ s : State, JobsBut W s → MirrorLegs P s → CommitLegs Q s →
      JobsBut W (dropLane lane slots s) ∧ MirrorLegs P (dropLane lane slots s)
        ∧ CommitLegs Q (dropLane lane slots s) ∧ (dropLane lane slots s).health = s.health := by
  induction slots with
  | nil => exact fun s h k l => ⟨h, k, l, rfl⟩
  | cons i rest ih =>
    intro s h k l
    unfold dropLane
    split
    · rename_i leg _
      obtain ⟨a, b, c, d⟩ := ih _ (takeDrop_jobs i leg h) (takeDrop_mirror i leg k) (takeDrop_commit i leg l)
      exact ⟨a, b, c, d.trans (takeDrop_health _ _ _)⟩
    · exact ih s h k l

/-! ### Health (R142 to R146) -/

theorem setLaneState_states (lane : Lane) (st : LaneState) (s : State) (n : Lane) :
    ((setLaneState lane st s).health.lanes.get n).state
      = if n = lane then st else (s.health.lanes.get n).state := by
  show ((s.health.lanes.modify lane fun h => { h with state := st }).get n).state = _
  rw [PerLane.get_modify]
  split
  · rfl
  · rfl

theorem setLaneState_jobs {W : Nat → Prop} (lane : Lane) (st : LaneState) {s : State} (h : JobsBut W s) :
    JobsBut W (setLaneState lane st s) :=
  ⟨h.size, h.engine, h.fields.of (s := s) rfl rfl (EngineSame.refl _)⟩

/-- A lane that does not become RETIRED. -/
theorem sound_setLaneState {W : Nat → Prop} (lane : Lane) {st : LaneState} (k : st ≠ .retired) {s : State}
    (h : SoundBut W s) : SoundBut W (setLaneState lane st s) := by
  refine (setLaneState_jobs lane st h.jobs).sound ⟨fun i d x y leg m => ?_, fun c x y m z b w leg l => ?_⟩
  · rw [setLaneState_states]
    split
    · exact k
    · exact h.clear.1 i d x y leg m
  · rw [setLaneState_states]
    split
    · exact k
    · exact h.clear.2 c x y m z b w leg l

theorem same_tellRetired (lane : Lane) (s : State) : Same s (tellRetired lane s) := by
  unfold tellRetired
  split
  · exact Same.refl s
  · split
    · exact Same.refl s
    · split
      · exact same_raiseStop _ s
      · exact Same.refl s

/-- After R144 step 2 a draining commit that is not stale has no leg on the retired lane. -/
theorem staleByLane_avoids (lane : Lane) (s : State) :
    CommitLegs (fun leg => leg.lane ≠ lane) (staleByLane lane s) := by
  unfold staleByLane
  split
  · intro c x
    obtain ⟨c', -, rfl⟩ := Option.map_eq_some_iff.mp (show s.mu.commit.drain.map _ = some c from x)
    exact fun y => by cases y
  · rename_i none
    intro c x _ m hm b hb leg hl e
    apply none
    rw [List.any_eq_true]
    refine ⟨{ lane := leg.lane, start := leg.base, len := b.length, owner := .slot m.slot }, ?_, by simpa using e⟩
    unfold commitItems
    rw [x]
    dsimp only
    rw [List.mem_flatMap]
    refine ⟨m, hm, ?_⟩
    rw [hb]
    exact List.mem_map.mpr ⟨leg, hl, rfl⟩

theorem staleByLane_jobs {W : Nat → Prop} (lane : Lane) {s : State} (h : JobsBut W s) :
    JobsBut W (staleByLane lane s) := by
  unfold staleByLane
  split
  · exact ⟨h.size, h.engine, JobFieldsWf.stale (s := s) (t := markStale s) rfl rfl (EngineSame.refl _) h.fields⟩
  · exact h

theorem staleByLane_slots (lane : Lane) (s : State) :
    (staleByLane lane s).mu.slots = s.mu.slots ∧ (staleByLane lane s).health = s.health := by
  unfold staleByLane
  split <;> exact ⟨rfl, rfl⟩

theorem staleByLane_commit {Q : Leg → Prop} (lane : Lane) {s : State} (h : CommitLegs Q s) :
    CommitLegs Q (staleByLane lane s) := by
  unfold staleByLane
  split
  · intro c x
    obtain ⟨c', -, rfl⟩ := Option.map_eq_some_iff.mp (show s.mu.commit.drain.map _ = some c from x)
    exact fun y => by cases y
  · exact h

/-- Retirement keeps every law (R17, R144). -/
theorem sound_retireLane {W : Nat → Prop} (lane : Lane) {s : State} (h : SoundBut W s) :
    SoundBut W (retireLane lane s) := by
  have first : MirrorLegs (fun i leg => leg.lane = lane → i ∈ slotNumbers) (setLaneState lane .retired s) :=
    fun i d x _ _ _ _ => by
      have lt : i < s.mu.slots.length := descOf_lt x
      rw [h.size] at lt
      exact List.mem_range.mpr lt
  obtain ⟨a, b, c, d⟩ := dropLane_keeps lane slotNumbers (setLaneState lane .retired s)
    (setLaneState_jobs lane .retired h.jobs)
    (P := fun _ leg => (s.health.lanes.get leg.lane).state ≠ .retired)
    (Q := fun leg => (s.health.lanes.get leg.lane).state ≠ .retired) h.clear.1 h.clear.2
  have avoid := dropLane_avoids lane slotNumbers _ first
  unfold retireLane
  generalize dropLane lane slotNumbers (setLaneState lane .retired s) = t at a b c d avoid ⊢
  obtain ⟨e1, e2⟩ := staleByLane_slots lane t
  refine (same_tellRetired lane (staleByLane lane t)).sound ((staleByLane_jobs lane a).sound ⟨?_, ?_⟩)
  · intro i e x y leg m
    rw [e1] at x
    rw [e2, d, setLaneState_states, if_neg (avoid i e x y leg m)]
    exact b i e x y leg m
  · intro z x y m w b' hb leg l
    rw [e2, d, setLaneState_states, if_neg (staleByLane_avoids lane t z x y m w b' hb leg l)]
    exact staleByLane_commit lane c z x y m w b' hb leg l

theorem sound_evaluateLane {W : Nat → Prop} (lane : Lane) {s : State} (h : SoundBut W s) :
    SoundBut W (evaluateLane lane s) := by
  unfold evaluateLane
  dsimp only
  split
  · split
    · exact sound_retireLane lane h
    · split
      · exact sound_setLaneState lane (by decide) h
      · exact h
  · split
    · exact sound_retireLane lane h
    · split
      · exact sound_setLaneState lane (by decide) h
      · exact h
  · exact h
  · exact h

theorem sound_evaluateLanes {W : Nat → Prop} (lanes : List Lane) :
    ∀ s : State, SoundBut W s → SoundBut W (evaluateLanes lanes s) := by
  induction lanes with
  | nil => exact fun _ h => h
  | cons lane rest ih => exact fun s h => ih _ (sound_evaluateLane lane h)

/-- A change of the health monitor that keeps the lane states. -/
theorem same_health {s : State} {g : Health}
    (k : ∀ n : Lane, (g.lanes.get n).state = (s.health.lanes.get n).state) : Same s { s with health := g } :=
  ⟨rfl, rfl, k, EngineSame.refl _⟩

theorem same_budget (lane : Lane) (f : Nat → Nat) (s : State) :
    Same s { s with health.lanes := s.health.lanes.modify lane fun h => { h with budget := f h.budget } } :=
  same_health fun n => by
    show ((s.health.lanes.modify lane _).get n).state = _
    rw [PerLane.get_modify]
    split
    · rename_i e
      subst e
      rfl
    · rfl

theorem sound_addWeight {W : Nat → Prop} (lane : Lane) (weight : Nat) {s : State} (h : SoundBut W s) :
    SoundBut W (addWeight lane weight s) :=
  sound_evaluateLane lane ((same_budget lane (fun b => min Config.budgetMax (b + weight)) s).sound h)

theorem sound_healthTick {W : Nat → Prop} {s : State} (h : SoundBut W s) : SoundBut W (healthTick s) := by
  refine sound_evaluateLanes _ _ (Same.sound (s := s) (same_health fun n => ?_) h)
  show ((s.health.lanes.map fun h : LaneHealth => { h with budget := h.budget - 1 }).get n).state = _
  rw [PerLane.get_map]

/-! ### Commits (R80 to R87) -/

/-- Ending a commit leaves the slots and the copy engine's standing. -/
theorem sound_endCommit {W : Nat → Prop} (result : CommitResult) {s : State} (h : SoundBut W s) :
    SoundBut W (endCommit result s) := by
  unfold endCommit
  split
  · exact h
  · dsimp only
    refine (same_postNotice _ _).sound ?_
    have closed : SoundBut W { s with mu.commit := { drain := none, last := result }, ift.commitSpan := none } :=
      ⟨h.size, ⟨h.clear.1, fun _ x => by cases x⟩, h.engine,
        ⟨h.fields.1, h.fields.2.1, fun _ x => by cases x⟩⟩
    split
    · exact closed
    · exact (same_releaseHeld _ _ _).sound closed

theorem sound_closeStale {W : Nat → Prop} {s : State} (h : SoundBut W s) : SoundBut W (closeStale s) := by
  unfold closeStale
  split
  · exact sound_endCommit _ h
  · exact h

/-- What installing a commit set whose members have no job gives each slot (R84). -/
theorem installMembers_desc (members : List CommitMember) :
    ∀ slots : List MapSlot, (∀ m ∈ members, (descOf slots m.slot).bind Descriptor.job = none) →
      ∀ i : Nat, descOf (installMembers members slots) i = descOf slots i
        ∨ ∃ m ∈ members, m.slot = i ∧ descOf (installMembers members slots) i
            = m.body.map fun b => { body := b, degraded := false, job := none } := by
  induction members with
  | nil => exact fun _ _ _ => .inl rfl
  | cons m rest ih =>
    intro slots free i
    have at_m : ∀ k : Nat, descOf (installMember m slots) k
        = if k = m.slot ∧ m.slot < slots.length then
            m.body.map fun b => { body := b, degraded := false, job := none }
          else descOf slots k := fun k => by
      unfold installMember
      rw [descOf_set]
      split
      · rw [free m (List.mem_cons_self ..)]
      · rfl
    have free' : ∀ x ∈ rest, (descOf (installMember m slots) x.slot).bind Descriptor.job = none := fun x hx => by
      rw [at_m]
      split
      · cases m.body <;> rfl
      · exact free x (List.mem_cons_of_mem _ hx)
    rcases ih (installMember m slots) free' i with e | ⟨x, hx, hs, e⟩
    · rw [at_m] at e
      split at e
      · rename_i c
        exact .inr ⟨m, List.mem_cons_self .., c.1.symm, e⟩
      · exact .inl e
    · exact .inr ⟨x, List.mem_cons_of_mem _ hx, hs, e⟩

theorem sound_installCommit {W : Nat → Prop} {s : State} {c : CommitDrain} (d : s.mu.commit.drain = some c)
    (live : c.stale = false) (h : SoundBut W s) : SoundBut W (installCommit c.members s) := by
  have free := h.fields.2.2 c d
  have desc := installMembers_desc c.members s.mu.slots free
  refine ⟨(installMembers_length _ _).trans h.size, ⟨fun i e x y leg m => ?_, h.clear.2⟩, h.engine,
    fun n j x l => ?_, fun i n e x y => ?_, fun z x m hm => ?_⟩
  · have x' : descOf (installMembers c.members s.mu.slots) i = some e := x
    rcases desc i with k | ⟨m', hm', -, k⟩
    · exact h.clear.1 i e (k ▸ x') y leg m
    · rw [k] at x'
      obtain ⟨b, hb, rfl⟩ := Option.map_eq_some_iff.mp x'
      exact h.clear.2 c d live m' hm' b hb leg m
  · obtain ⟨e, he, ej, el⟩ := h.fields.1 n j x l
    refine ⟨e, ?_, ej, el⟩
    rcases desc j.region with k | ⟨m', hm', hs, -⟩
    · exact k.trans he
    · have := free m' hm'
      rw [hs, he] at this
      exact absurd (show e.job = none from this) (by rw [ej]; exact fun q => by cases q)
  · have x' : descOf (installMembers c.members s.mu.slots) i = some e := x
    rcases desc i with k | ⟨m', -, -, k⟩
    · exact h.fields.2.1 i n e (k ▸ x') y
    · rw [k] at x'
      obtain ⟨b, -, rfl⟩ := Option.map_eq_some_iff.mp x'
      cases y
  · have e : z = c := Option.some.inj ((show s.mu.commit.drain = some z from x).symm.trans d)
    subst e
    show (descOf (installMembers z.members s.mu.slots) m.slot).bind Descriptor.job = none
    rcases desc m.slot with k | ⟨m', -, -, k⟩
    · rw [k]
      exact free m hm
    · rw [k]
      cases m'.body <;> rfl

theorem sound_completeCommit {W : Nat → Prop} {s : State} (h : SoundBut W s) :
    SoundBut W (completeCommit s) := by
  unfold completeCommit
  split
  · exact h
  · rename_i c hc
    split
    · exact h
    · rename_i live
      exact sound_endCommit _ (sound_installCommit hc (by simpa using live) h)

/-! ### Validation (R78, R79) -/

theorem pickOne_none {α : Type} {site : Nat} {xs : List α} (h : pickOne site xs = none) : xs = [] := by
  unfold pickOne at h
  split at h
  · rfl
  · cases h
  · rename_i x y rest
    rw [List.getElem?_eq_none_iff] at h
    have : Config.choice site (rest.length + 2) % (rest.length + 2) < rest.length + 2 :=
      Nat.mod_lt _ (by omega)
    simp only [List.length_cons] at h
    omega

theorem firstFailure_none {check : Nat × Body → Option MapFailure} {bodies : List (Nat × Body)}
    (h : firstFailure check bodies = none) : ∀ p ∈ bodies, check p = none := by
  induction bodies with
  | nil => exact fun _ m => by cases m
  | cons q rest ih =>
    unfold firstFailure at h
    split at h
    · cases h
    · rename_i hq
      intro p m
      rcases List.mem_cons.mp m with e | e
      · exact e ▸ hq
      · exact ih h p e

theorem orElse_none {α : Type} {a b : Option α} (h : (a <|> b) = none) : a = none ∧ b = none := by
  cases a with
  | none => exact ⟨rfl, h⟩
  | some x => cases h

/-- A staging map that passes the structural checks has no changed leg on an OFFLINE or RETIRED lane (R78). -/
theorem structural_lanes {s : State} (h : structuralFailure s = none) {i : Nat} {b : Body}
    (hi : i ∈ changedSlots s.mu) (hb : (stageOf s.mu.staging i).body = some b) :
    ∀ leg ∈ b.legs, (s.health.lanes.get leg.lane).state ≠ .retired := by
  unfold structuralFailure at h
  dsimp only at h
  have check := firstFailure_none
    (orElse_none (orElse_none (orElse_none (orElse_none h).2).2).2).1
  obtain ⟨lt, ch⟩ := List.mem_filter.mp hi
  have mem : (i, b) ∈ stagedBodies s.mu := by
    unfold stagedBodies
    rw [List.mem_filterMap]
    exact ⟨i, lt, by rw [hb]; rfl⟩
  have none := check (i, b) mem
  unfold checkLaneState at none
  rw [if_pos ch, Option.map_eq_none_iff] at none
  have empty := pickOne_none none
  intro leg m e
  unfold lanesWhere at empty
  rw [List.map_eq_nil_iff, List.filter_eq_nil_iff] at empty
  exact empty leg m (by simp [e])

theorem sound_openCommit {W : Nat → Prop} {s : State} (v : structuralFailure s = none)
    (b : busySlot s.mu = none) (h : SoundBut W s) : SoundBut W (openCommit s) := by
  refine ⟨h.size, ⟨h.clear.1, fun c x _ m hm b' hb leg l => ?_⟩, h.engine, h.fields.1, h.fields.2.1,
    fun c x m hm => ?_⟩
  · cases x
    obtain ⟨i, hi, rfl⟩ := List.mem_map.mp hm
    exact structural_lanes v hi hb leg l
  · cases x
    obtain ⟨i, hi, rfl⟩ := List.mem_map.mp hm
    unfold busySlot at b
    rw [List.head?_eq_none_iff, List.filterMap_eq_nil_iff] at b
    exact Option.map_eq_none_iff.mp (b i hi)

/-! ### Switch installation (R18) -/

theorem sound_switchInstall {W : Nat → Prop} (work : JobWork) (region : Nat) {s : State}
    (h : SoundBut W s) : SoundBut W (switchInstall work region s).2 := by
  unfold switchInstall
  split
  · rename_i t keptA keptB verify m hm
    split
    · exact h
    · rename_i d hd
      split
      · exact h
      · split
        · exact h
        · rename_i lanes
          refine ⟨by simpa using h.size, ⟨MirrorLegs.setSlot (s := s) (i := region) ?_ h.clear.1, h.clear.2⟩,
            h.engine, h.fields.setSlot hm hd rfl rfl⟩
          intro y leg m' e
          apply lanes
          rw [Bool.and_eq_true, List.any_eq_true]
          exact ⟨Option.isSome_iff_ne_none.mpr y, leg, m', by simpa using e⟩
  · exact h

end Sys2Proof.Machine
end

