-- ==== Sys2Proof/Laws/SoundEngine.lean ====
section
/-! SUPPORT. The laws of jobs and of RETIRED lanes, as the copy engine's operations keep them (R91 to R106, R110 to R136). -/

namespace Sys2Proof.Machine

open Sys2Proof

theorem EngineBut.congr {W V : Nat → Prop} {e : Engine} (k : ∀ x, W x ↔ V x) (h : EngineBut W e) :
    EngineBut V e := by
  have : W = V := funext fun x => propext (k x)
  exact this ▸ h

theorem SoundBut.congr {W V : Nat → Prop} {s : State} (k : ∀ x, W x ↔ V x) (h : SoundBut W s) :
    SoundBut V s :=
  ⟨h.size, h.clear, h.engine.congr k, h.fields⟩

/-- The laws read no lane, no pin, no log and no entry. -/
theorem SoundBut.of {W : Nat → Prop} {s t : State} (m : t.mu = s.mu) (h : t.health = s.health)
    (e : t.engine = s.engine) (k : SoundBut W s) : SoundBut W t :=
  (Same.of m h e).sound k

/-- The copy engine's laws but the one of the block step. -/
def EngineLoose (W : Nat → Prop) (e : Engine) : Prop :=
  (∀ h : Nat, e.running = some h ↔ (jobOf e h).any Job.isRunning = true)
    ∧ (∀ (h : Nat) (j : Job), runningJob e = some (h, j) → j.cursor ≤ j.blockCount)
    ∧ e.queue.Nodup
    ∧ (∀ h : Nat, (h ∈ e.queue ∨ W h) ↔ (jobOf e h).any Job.isQueued = true)
    ∧ (∀ h : Nat, W h → h ∉ e.queue)

theorem EngineBut.loose {W : Nat → Prop} {e : Engine} (h : EngineBut W e) : EngineLoose W e :=
  ⟨h.1, h.2.1, h.2.2.1, h.2.2.2.1, h.2.2.2.2.1⟩

theorem EngineLoose.noStep {W : Nat → Prop} {e : Engine} (h : EngineLoose W e) (l : e.lock = none)
    (b : e.blockStep = none) : EngineBut W e :=
  ⟨h.1, h.2.1, h.2.2.1, h.2.2.2.1, h.2.2.2.2, by rw [b]; exact l⟩

/-- A running job is in no queue. -/
theorem EngineLoose.running_free {W : Nat → Prop} {e : Engine} (h : EngineLoose W e) {n : Nat}
    (r : e.running = some n) : n ∉ e.queue ∧ ¬W n := by
  have q := (h.1 n).mp r
  have z : ¬(jobOf e n).any Job.isQueued = true := by
    cases x : jobOf e n with
    | none => exact fun y => by cases y
    | some j =>
      rw [x] at q
      intro y
      simp only [Option.any_some] at q y
      unfold Job.isRunning at q
      unfold Job.isQueued at y
      cases l : j.life <;> rw [l] at q y <;> contradiction
  have w := fun c => z ((h.2.2.2.1 n).mp c)
  exact ⟨fun c => w (.inl c), fun c => w (.inr c)⟩

/-- A running job without a block step, or below its block count with one. -/
theorem EngineBut.below {W : Nat → Prop} {e : Engine} (h : EngineBut W e) {n : Nat} {j : Job}
    (r : runningJob e = some (n, j)) (b : e.blockStep ≠ none) : j.cursor < j.blockCount := by
  have q := h.2.2.2.2.2
  cases x : e.blockStep with
  | none => exact (b x).elim
  | some st =>
    rw [x] at q
    obtain ⟨m, i, ri, c, -, -⟩ := q
    rw [r] at ri
    cases ri
    exact c

/-! ### One job record -/

/-- A live job's record changes and stays live, with its region and block count. -/
theorem JobFieldsWf.setJob {s t : State} {h : Nat} {j j' : Job} (x : jobOf s.engine h = some j)
    (live : j'.life.live = j.life.live) (region : j'.region = j.region)
    (blocks : j'.blockCount = j.blockCount) (m : t.mu.slots = s.mu.slots) (c : t.mu.commit = s.mu.commit)
    (k : ∀ n : Nat, jobOf t.engine n = if n = h then some j' else jobOf s.engine n) (w : JobFieldsWf s) :
    JobFieldsWf t := by
  refine ⟨fun n i y l => ?_, fun i n d y z => ?_, fun z y q l => ?_⟩
  · rw [k] at y
    rw [m]
    split at y
    · rename_i e
      cases y
      rw [region, blocks, e]
      exact w.1 h j x (live ▸ l)
    · exact w.1 n i y l
  · rw [m] at y
    obtain ⟨i', hi, l, r⟩ := w.2.1 i n d y z
    rw [k]
    split
    · rename_i e
      rw [e, x] at hi
      cases hi
      exact ⟨j', rfl, live.trans l, region.trans r⟩
    · exact ⟨i', hi, l, r⟩
  · rw [m]
    exact w.2.2 z (c ▸ y) q l

theorem jobOf_setJob {s : State} {h : Nat} {j : Job} (x : jobOf s.engine h = some j) (j' : Option Job)
    (n : Nat) : jobOf (setJob h j' s).engine n = if n = h then j' else jobOf s.engine n := by
  show jobOf { s.engine with jobs := s.engine.jobs.set h j' } n = _
  rw [jobOf_set]
  simp [jobOf_lt x]

/-- The running job's record changes, and it stays RUNNING with its cursor in range. -/
theorem EngineLoose.setRunning {W : Nat → Prop} {s : State} {h : Nat} {j j' : Job}
    (r : runningJob s.engine = some (h, j)) (run : j'.isRunning = true) (c : j'.cursor ≤ j'.blockCount)
    (w : EngineLoose W s.engine) : EngineLoose W (setJob h (some j') s).engine := by
  obtain ⟨r1, r2⟩ := runningJob_eq.mp r
  have k := jobOf_setJob r2 (some j')
  obtain ⟨h1, h2, h3, h4, h5⟩ := w
  have q : j'.isQueued = false := by
    unfold Job.isRunning at run
    unfold Job.isQueued
    cases l : j'.life with
    | queued =>
      rw [l] at run
      cases run
    | running _ => rfl
    | finished _ => rfl
  refine ⟨fun n => ?_, fun n i y => ?_, h3, fun n => ?_, h5⟩
  · rw [k]
    split
    · rename_i e
      subst e
      exact ⟨fun _ => run, fun _ => r1⟩
    · exact h1 n
  · obtain ⟨y1, y2⟩ := runningJob_eq.mp y
    rw [k] at y2
    split at y2
    · cases y2
      exact c
    · exact h2 n i (runningJob_eq.mpr ⟨y1, y2⟩)
  · rw [k]
    split
    · rename_i e
      subst e
      have free := EngineLoose.running_free ⟨h1, h2, h3, h4, h5⟩ r1
      show n ∈ s.engine.queue ∨ W n ↔ _
      simp [q, free.1, free.2]
    · exact h4 n

/-! ### Block steps begin and locks are released (R110) -/

theorem sound_beginStep {W : Nat → Prop} {s : State} (h : SoundBut W s) : SoundBut W (beginStep s) := by
  unfold beginStep
  split
  · exact h
  · rename_i n j r
    split
    · rename_i c
      obtain ⟨h1, h2, h3, h4, h5, -⟩ := h.engine
      dsimp only
      have w : ∀ wait : Nat, SoundBut W { s with
          engine := { s.engine with
            lock := some { region := j.region, block := j.cursor }
            blockStep := some
              { block := j.cursor, stage := .lockWait, writeWait := wait
                lines := List.replicate Config.blockLines (freshLine j.work.shadows.length) } } } :=
        fun wait => ⟨h.size, h.clear, ⟨h1, h2, h3, h4, h5, n, j, r, c, rfl, rfl⟩, h.fields⟩
      split
      · exact (same_enterTransfer _).sound (w _)
      · exact w _
    · exact h

/-- Releasing the lock ends the block step, and the rest of the laws are enough for all of them after it. -/
theorem sound_releaseLock {W : Nat → Prop} {s : State} (size : s.mu.slots.length = Config.mapSlots)
    (clear : RetiredClear s) (loose : EngineLoose W s.engine) (fields : JobFieldsWf s) :
    SoundBut W (releaseLock s) ∧ (releaseLock s).engine.blockStep = none := by
  unfold releaseLock
  split
  · rename_i l
    exact ⟨⟨size, clear, EngineLoose.noStep (e := { s.engine with blockStep := none }) loose l rfl, fields⟩, rfl⟩
  · rename_i lock l
    have w : SoundBut W { s with engine := { s.engine with lock := none, blockStep := none } } :=
      ⟨size, clear,
        EngineLoose.noStep (e := { s.engine with lock := none, blockStep := none }) loose rfl rfl, fields⟩
    have k := same_fullDecodes (parkedOn s.ift.entries lock)
      { s with engine := { s.engine with lock := none, blockStep := none } }
    exact ⟨k.sound w, Option.map_eq_none_iff.mp k.engine.block⟩

theorem SoundBut.release {W : Nat → Prop} {s : State} (h : SoundBut W s) :
    SoundBut W (releaseLock s) ∧ (releaseLock s).engine.blockStep = none :=
  sound_releaseLock h.size h.clear h.engine.loose h.fields

/-! ### Finish (R101) -/

theorem setJobField_desc (i k : Nat) (h : Option Nat) (s : State) :
    descOf (setJobField i h s).mu.slots k
      = if k = i then (descOf s.mu.slots i).map fun d => { d with job := h } else descOf s.mu.slots k := by
  unfold setJobField
  split
  · rename_i n
    split
    · rename_i e
      subst e
      unfold descOf
      rw [n]
      rfl
    · rfl
  · rename_i m hm
    have lt : i < s.mu.slots.length := (List.getElem?_eq_some_iff.mp hm).1
    show descOf (s.mu.slots.set i _) k = _
    rw [descOf_set]
    by_cases e : k = i
    · subst e
      rw [if_pos ⟨rfl, lt⟩, if_pos rfl]
      unfold descOf
      rw [hm]
      rfl
    · rw [if_neg (fun c => e c.1), if_neg e]

theorem setJobField_rest (i : Nat) (h : Option Nat) (s : State) :
    (setJobField i h s).mu.commit = s.mu.commit ∧ (setJobField i h s).health = s.health
      ∧ (setJobField i h s).engine = s.engine
      ∧ (setJobField i h s).mu.slots.length = s.mu.slots.length := by
  unfold setJobField
  split
  · exact ⟨rfl, rfl, rfl, rfl⟩
  · exact ⟨rfl, rfl, rfl, by simp [setMapSlot]⟩

/-- A job field changes no leg. -/
theorem clear_setJobField (i : Nat) (h : Option Nat) {s : State} (k : RetiredClear s) :
    RetiredClear (setJobField i h s) := by
  obtain ⟨c, l, -, -⟩ := setJobField_rest i h s
  refine ⟨fun n d x y leg m => ?_, fun z x => ?_⟩
  · rw [l]
    rw [setJobField_desc] at x
    split at x
    · obtain ⟨e, he, rfl⟩ := Option.map_eq_some_iff.mp x
      exact k.1 i e he y leg m
    · exact k.1 n d x y leg m
  · rw [l]
    rw [c] at x
    exact k.2 z x

/-- What finishing does to the copy engine. -/
theorem finishJob_engine (h : Nat) (outcome : JobOutcome) (s : State) :
    (finishJob h outcome s).engine =
      match jobOf s.engine h with
      | none => s.engine
      | some j =>
        Engine.release { s.engine with
          jobs := s.engine.jobs.set h (some { j with life := .finished outcome }) } h := by
  unfold finishJob
  cases jobOf s.engine h with
  | none => rfl
  | some j =>
    dsimp only
    show (clearJobField j.region h _).engine = _
    unfold clearJobField
    split
    · exact (setJobField_rest _ _ _).2.2.1
    · rfl

theorem sound_finishJob {W : Nat → Prop} (h : Nat) (outcome : JobOutcome) {s : State} (k : SoundBut W s)
    (free : h ∉ s.engine.queue) : SoundBut (fun x => W x ∧ x ≠ h) (finishJob h outcome s) := by
  cases x : jobOf s.engine h with
  | none =>
    have e : finishJob h outcome s = s := by
      unfold finishJob
      rw [x]
    rw [e]
    refine k.congr fun n => ⟨fun w => ⟨w, fun c => ?_⟩, And.left⟩
    subst c
    have := (k.engine.2.2.2.1 n).mp (.inr w)
    rw [x] at this
    cases this
  | some j =>
    obtain ⟨h1, h2, h3, h4, h5, h6⟩ := k.engine
    have done : ∀ n : Nat, jobOf { s.engine with
        jobs := s.engine.jobs.set h (some { j with life := .finished outcome }) } n
          = if n = h then some { j with life := .finished outcome } else jobOf s.engine n :=
      jobOf_setJob x (some { j with life := .finished outcome })
    have queued : ∀ n : Nat, (n ∈ s.engine.queue ∨ (W n ∧ n ≠ h)) ↔
        (if n = h then some { j with life := .finished outcome } else jobOf s.engine n).any
          Job.isQueued = true := fun n => by
      split
      · rename_i e
        subst e
        simp [free, Job.isQueued]
      · rename_i e
        simp [e, h4 n]
    have eng : EngineBut (fun n => W n ∧ n ≠ h) (finishJob h outcome s).engine := by
      rw [finishJob_engine, x]
      dsimp only
      unfold Engine.release
      split
      · rename_i r
        have r : s.engine.running = some h := r
        refine ⟨fun n => ⟨fun c => (by cases c), fun c => ?_⟩, fun n i y => ?_, h3, fun n => ?_,
          fun n w => h5 n w.1, rfl⟩
        · have c : (jobOf { s.engine with
            jobs := s.engine.jobs.set h (some { j with life := .finished outcome }) } n).any _ = true := c
          rw [done] at c
          split at c
          · cases c
          · rename_i e
            have := (h1 n).mpr c
            rw [r] at this
            exact absurd (Option.some.inj this).symm e
        · cases (runningJob_eq.mp y).1
        · show _ ↔ (jobOf { s.engine with
            jobs := s.engine.jobs.set h (some { j with life := .finished outcome }) } n).any _ = true
          rw [done]
          exact queued n
      · rename_i r
        have r : s.engine.running ≠ some h := r
        have same : runningJob { s.engine with
            jobs := s.engine.jobs.set h (some { j with life := .finished outcome }) }
            = runningJob s.engine := by
          unfold runningJob
          show s.engine.running.bind _ = _
          cases y : s.engine.running with
          | none => rfl
          | some n =>
            rw [Option.bind_some, Option.bind_some, done, if_neg]
            intro e
            exact r (by rw [y, e])
        refine ⟨fun n => ?_, fun n i y => ?_, h3, fun n => ?_, fun n w => h5 n w.1, ?_⟩
        · rw [done]
          split
          · rename_i e
            subst e
            exact ⟨fun c => (r c).elim, fun c => by cases c⟩
          · exact h1 n
        · rw [same] at y
          exact h2 n i y
        · rw [done]
          exact queued n
        · rw [same]
          exact h6
    have rest : ∃ t : State, finishJob h outcome s
          = postNotice (.jobFinished h outcome.kind) (clearJobField j.region h t)
        ∧ t.mu = s.mu ∧ t.health = s.health := by
      unfold finishJob
      rw [x]
      exact ⟨_, rfl, rfl, rfl⟩
    obtain ⟨t, e, tm, th⟩ := rest
    have desc : ∀ n : Nat, descOf (finishJob h outcome s).mu.slots n
        = if n = j.region ∧ (descOf s.mu.slots j.region).bind Descriptor.job = some h then
            (descOf s.mu.slots j.region).map fun d => { d with job := none }
          else descOf s.mu.slots n := fun n => by
      rw [e]
      show descOf (clearJobField j.region h t).mu.slots n = _
      unfold clearJobField
      rw [tm]
      split
      · rename_i c
        rw [setJobField_desc, tm]
        simp only [c, and_true]
      · rename_i c
        rw [tm, if_neg fun q => c q.2]
    have jobs : ∀ n : Nat, jobOf (finishJob h outcome s).engine n
        = if n = h then some { j with life := .finished outcome } else jobOf s.engine n := fun n => by
      rw [finishJob_engine, x, ← done]
      dsimp only
      unfold Engine.release
      split <;> rfl
    have commit : (finishJob h outcome s).mu.commit = s.mu.commit := by
      rw [e]
      show (clearJobField j.region h t).mu.commit = _
      unfold clearJobField
      split
      · rw [(setJobField_rest _ _ _).1, tm]
      · rw [tm]
    refine ⟨?_, ?_, eng, fun n i y l => ?_, fun i n d y z => ?_, fun z y m q => ?_⟩
    · rw [e]
      show (clearJobField j.region h t).mu.slots.length = _
      unfold clearJobField
      split
      · rw [(setJobField_rest _ _ _).2.2.2, tm]
        exact k.size
      · rw [tm]
        exact k.size
    · rw [e]
      show RetiredClear (postNotice _ (clearJobField j.region h t))
      have c : RetiredClear t := (Same.of (s := s) (t := { t with engine := s.engine }) tm th rfl).clear k.clear
      refine (same_postNotice _ _).clear ?_
      unfold clearJobField
      split
      · exact clear_setJobField _ _ c
      · exact c
    · rw [jobs] at y
      split at y
      · cases y
        cases l
      · rename_i ne
        obtain ⟨d, hd, dj, dl⟩ := k.fields.1 n i y l
        refine ⟨d, ?_, dj, dl⟩
        rw [desc]
        split
        · rename_i c
          rw [← c.1, hd] at c
          exact absurd (Option.some.inj (dj.symm.trans c.2)) ne
        · exact hd
    · rw [desc] at y
      split at y
      · obtain ⟨d', -, rfl⟩ := Option.map_eq_some_iff.mp y
        cases z
      · rename_i c
        obtain ⟨i', hi, l, r⟩ := k.fields.2.1 i n d y z
        refine ⟨i', ?_, l, r⟩
        rw [jobs, if_neg]
        · exact hi
        · intro e'
          rw [e', x] at hi
          cases hi
          exact c ⟨r.symm, by rw [r, y]; exact e' ▸ z⟩
    · rw [commit] at y
      rw [desc]
      split
      · cases descOf s.mu.slots j.region <;> rfl
      · exact k.fields.2.2 z y m q

/-- The running job finishes. -/
theorem sound_finishRunning {W : Nat → Prop} {h : Nat} (outcome : JobOutcome) {s : State} (k : SoundBut W s)
    (r : s.engine.running = some h) : SoundBut W (finishJob h outcome s) := by
  obtain ⟨f, w⟩ := k.engine.loose.running_free r
  exact (sound_finishJob h outcome k f).congr fun n => ⟨And.left, fun c => ⟨c, by rintro rfl; exact w c⟩⟩

/-! ### Start and switch (R96, R97, R122 to R124) -/

theorem sound_enterRunning {W : Nat → Prop} {h : Nat} {j : Job} (phase : JobPhase) {s : State}
    (k : SoundBut W s) (w : W h) (x : jobOf s.engine h = some j) (r : s.engine.running = none) :
    SoundBut (fun n => W n ∧ n ≠ h) (enterRunning h j phase s) := by
  obtain ⟨h1, h2, h3, h4, h5, h6⟩ := k.engine
  have jobs : ∀ n : Nat, jobOf (enterRunning h j phase s).engine n
      = if n = h then some { j with life := .running none, phase := some phase, cursor := 0 }
        else jobOf s.engine n :=
    jobOf_setJob (s := { s with engine := { s.engine with running := some h, stopping := false } }) x _
  have none : s.engine.blockStep = none := by
    cases y : s.engine.blockStep with
    | none => rfl
    | some st =>
      rw [y] at h6
      obtain ⟨n, i, q, -⟩ := h6
      have q := (runningJob_eq.mp q).1
      rw [r] at q
      cases q
  have lock : s.engine.lock = .none := by
    rw [none] at h6
    exact h6
  have queued := (h4 h).mp (.inr w)
  rw [x, Option.any_some] at queued
  have loose : EngineLoose (fun n => W n ∧ n ≠ h) (enterRunning h j phase s).engine := by
    refine ⟨fun n => ?_, fun n i y => ?_, h3, fun n => ?_, fun n v => h5 n v.1⟩
    · rw [jobs]
      split
      · rename_i e
        subst e
        exact ⟨fun _ => rfl, fun _ => rfl⟩
      · rename_i e
        refine ⟨fun c => absurd (Option.some.inj c).symm e, fun c => ?_⟩
        have := (h1 n).mpr c
        rw [r] at this
        cases this
    · obtain ⟨y1, y2⟩ := runningJob_eq.mp y
      rw [jobs] at y2
      cases y1
      rw [if_pos rfl] at y2
      cases y2
      exact Nat.zero_le _
    · rw [jobs]
      split
      · rename_i e
        subst e
        have free : n ∉ (enterRunning n j phase s).engine.queue := h5 n w
        simp [free, Job.isQueued]
      · rename_i e
        show n ∈ s.engine.queue ∨ _ ↔ _
        simp [e, h4 n]
  refine ⟨k.size, (Same.of (s := s) (t := { enterRunning h j phase s with engine := s.engine }) rfl rfl rfl).clear
    k.clear, loose.noStep lock none, ?_⟩
  refine JobFieldsWf.setJob (s := s) (t := enterRunning h j phase s)
    (j' := { j with life := .running .none, phase := some phase, cursor := 0 }) x ?_ rfl rfl rfl rfl jobs k.fields
  rw [live_iff j, queued]
  rfl

theorem same_openSwitch (s : State) : Same s (openSwitch s) := by
  unfold openSwitch
  split
  · exact Same.refl s
  · rename_i h j r
    refine ⟨rfl, rfl, fun _ => rfl, rfl, rfl, rfl, rfl, fun n => ?_⟩
    have e := jobOf_setJob (s := { s with
      ift.switchSpan := some (openSpan ((descOf s.mu.slots j.region).map fun d => d.body.range).toList
        s.ift.entries)
      engine.switchTimer := some s.hp.drainLimit }) (runningJob_eq.mp r).2
      (some { j with phase := some .switch }) n
    dsimp only
    rw [e]
    split
    · rename_i c
      rw [c, (runningJob_eq.mp r).2]
      rfl
    · rfl

theorem sound_switchDecide {W : Nat → Prop} (j : Job) {s : State} (h : SoundBut W s) :
    SoundBut W (switchDecide j s).2 := by
  unfold switchDecide
  split
  · exact h
  · exact sound_switchInstall _ _ h

theorem switchDecide_engine (j : Job) (s : State) : (switchDecide j s).2.engine = s.engine := by
  unfold switchDecide
  split
  · rfl
  · unfold switchInstall
    split
    · split
      · rfl
      · split
        · rfl
        · split <;> rfl
    · rfl

theorem sound_closeSwitch {W : Nat → Prop} {s : State} (h : SoundBut W s) :
    SoundBut W { s with ift.switchSpan := none } :=
  SoundBut.of (s := s) rfl rfl rfl h

/-- The head leaves the queue (R96). -/
theorem sound_dequeue {s : State} {h : Nat} {rest : List Nat} (q : s.engine.queue = h :: rest)
    (k : Sound s) : SoundBut (fun n => n = h) { s with engine.queue := rest } := by
  obtain ⟨h1, h2, h3, h4, h5, h6⟩ := k.engine
  rw [q] at h3 h4
  obtain ⟨n1, n2⟩ := List.nodup_cons.mp h3
  refine ⟨k.size, k.clear, ⟨h1, h2, n2, fun n => ?_, fun n e => e ▸ n1, h6⟩, k.fields⟩
  rw [show (jobOf ({ s with engine.queue := rest } : State).engine n) = jobOf s.engine n from rfl, ← h4 n]
  simp only [noHandle, or_false, List.mem_cons]
  exact Or.comm

theorem sound_startQueue (n : Nat) : ∀ s : State, Sound s → Sound (startQueue n s) := by
  induction n with
  | zero => exact fun _ h => h
  | succ n ih =>
    intro s k
    unfold startQueue
    split
    · exact k
    · exact k
    · rename_i h rest run queue
      have d := sound_dequeue queue k
      dsimp only
      split
      · rename_i x
        have := (d.engine.2.2.2.1 h).mp (.inr rfl)
        rw [x] at this
        cases this
      · rename_i j x
        have gone : ∀ m : Nat, (m = h ∧ m ≠ h) ↔ noHandle m := fun m => ⟨fun c => c.2 c.1, False.elim⟩
        split
        · exact ih _ ((sound_finishJob h _ d (d.engine.2.2.2.2.1 h rfl)).congr gone)
        · have e := (sound_enterRunning (firstPhase j.work) d rfl x run).congr gone
          split
          · exact sound_beginStep e
          · exact sound_beginStep e
          · exact e
          · have o := (same_openSwitch _).sound e
            split
            · exact o
            · split
              · refine (same_releaseHeld _ _ _).sound (ih _ ?_)
                refine sound_finishRunning _ (sound_closeSwitch (sound_switchDecide _ o)) ?_
                show (switchDecide _ _).2.engine.running = some h
                rw [switchDecide_engine]
                exact (same_openSwitch _).engine.running
              · exact o

theorem sound_startNext {s : State} (k : Sound s) : Sound (startNext s) := sound_startQueue _ s k

theorem sound_endSwitch (outcome : JobOutcome) {s : State} (k : Sound s) : Sound (endSwitch outcome s) := by
  unfold endSwitch
  split
  · rename_i r _
    exact (same_releaseHeld _ _ _).sound (sound_startNext
      (sound_finishRunning _ (sound_closeSwitch k) (runningJob_eq.mp r).1))
  · exact k

theorem sound_completeSwitch {s : State} (k : Sound s) : Sound (completeSwitch s) := by
  unfold completeSwitch
  split
  · exact k
  · exact sound_endSwitch _ (sound_switchDecide _ k)

theorem sound_stopping {W : Nat → Prop} {s : State} (b : Bool) (k : SoundBut W s) :
    SoundBut W { s with engine.stopping := b } :=
  Same.sound (s := s) ⟨rfl, rfl, fun _ => rfl, rfl, rfl, rfl, rfl, fun _ => rfl⟩ k

theorem sound_stopFinish {s : State} (k : Sound s) : Sound (stopFinish s) := by
  unfold stopFinish
  have r := (sound_stopping true k).release.1
  dsimp only
  split
  · exact r
  · rename_i j x
    split
    · exact r
    · exact sound_startNext (sound_finishRunning _ r (runningJob_eq.mp x).1)

theorem sound_enterSwitch {s : State} (k : Sound s) : Sound (enterSwitch s) := by
  unfold enterSwitch
  dsimp only
  split
  · exact sound_completeSwitch ((same_openSwitch s).sound k)
  · exact (same_openSwitch s).sound k

/-! ### Block steps end (R114, R121, R136) -/

theorem sound_afterStep {s : State} (k : Sound s) (b : s.engine.blockStep = none) : Sound (afterStep s) := by
  unfold afterStep
  split
  · exact k
  · rename_i h j r
    split
    · exact sound_beginStep k
    · split
      · refine sound_beginStep ?_
        have run : j.isRunning = true := by
          have := (k.engine.1 h).mp (runningJob_eq.mp r).1
          rwa [(runningJob_eq.mp r).2] at this
        have lock : s.engine.lock = none := by
          have := k.engine.2.2.2.2.2
          rw [b] at this
          exact this
        exact ⟨k.size, (Same.of (s := s) (t := { s with log := s.log }) rfl rfl rfl).clear k.clear,
          (EngineLoose.setRunning (j' := { j with phase := some .verify, cursor := 0 }) r run
            (Nat.zero_le _) k.engine.loose).noStep lock b,
          JobFieldsWf.setJob (s := s) (j' := { j with phase := some .verify, cursor := 0 })
            (runningJob_eq.mp r).2 rfl rfl rfl rfl rfl
            (jobOf_setJob (runningJob_eq.mp r).2 _) k.fields⟩
      · exact sound_enterSwitch k
      · exact sound_enterSwitch k
      · exact sound_startNext (sound_finishRunning _ k (runningJob_eq.mp r).1)
      · exact k
      · exact k

theorem sound_stepEnd {s : State} (k : Sound s) (b : s.engine.blockStep ≠ none) : Sound (stepEnd s) := by
  unfold stepEnd
  split
  · exact k
  · rename_i h j r
    split
    · exact sound_stopFinish k
    · have run : j.isRunning = true := by
        have := (k.engine.1 h).mp (runningJob_eq.mp r).1
        rwa [(runningJob_eq.mp r).2] at this
      have below := k.engine.below r b
      have loose := EngineLoose.setRunning (j' := { j with cursor := j.cursor + 1 }) r run below k.engine.loose
      have fields : JobFieldsWf (setJob h (some { j with cursor := j.cursor + 1 }) s) :=
        JobFieldsWf.setJob (s := s) (j' := { j with cursor := j.cursor + 1 })
          (runningJob_eq.mp r).2 rfl rfl rfl rfl rfl
          (jobOf_setJob (runningJob_eq.mp r).2 _) k.fields
      obtain ⟨p, q⟩ := sound_releaseLock (s := setJob h (some { j with cursor := j.cursor + 1 }) s) k.size
        k.clear loose fields
      exact sound_afterStep p q

theorem sound_engineAdvance {s : State} (k : Sound s) : Sound (engineAdvance s) := by
  unfold engineAdvance
  split
  · split
    · exact sound_stopFinish k
    · split
      · rename_i o
        refine sound_stepEnd k fun b => ?_
        unfold stepOver at o
        rw [b] at o
        split at o
        · rename_i q
          cases q
        · cases o
      · exact k
  · exact k

/-! ### Outcomes of engine requests (R112 to R135) -/

theorem same_modifyLine (i : Nat) (f : LineState → LineState) (s : State) : Same s (modifyLine i f s) := by
  unfold modifyLine
  split
  · exact Same.refl s
  · rename_i k
    exact same_setStep s k rfl

theorem same_modifySide (i k : Nat) (side : SideState) (s : State) : Same s (modifySide i k side s) :=
  same_modifyLine _ _ s

theorem same_engineRecord (kind : FaultKind) (h region : Nat) (hostLine : Option Nat) (lane : Lane)
    (line : Nat) (id : Option (Fin 16)) (s : State) :
    Same s (engineRecord kind h region hostLine lane line id s) :=
  same_writeRecord _ s

theorem same_raiseFailure (reason : Reason) (lane : Lane) (line : Nat) (s : State) :
    Same s (raiseFailure reason lane line s) :=
  same_raiseStop _ s

theorem same_shadowFailure (region : Nat) (hostLine : Option Nat) (lane : Lane) (line : Nat)
    (id : Option (Fin 16)) (s : State) : Same s (shadowFailure region hostLine lane line id s) := by
  unfold shadowFailure
  split
  · exact Same.refl s
  · split
    · exact Same.refl s
    · split
      · exact (same_engineRecord _ _ _ _ _ _ _ s).trans (same_raiseFailure _ _ _ _)
      · exact Same.refl s

theorem same_presentCopies (i : Nat) (data : LineData) (legs : List Leg) :
    ∀ (k : Nat) (s : State), Same s (presentCopies i data k legs s) := by
  induction legs with
  | nil => exact fun _ s => Same.refl s
  | cons leg rest ih =>
    exact fun k s => ((same_present _ _ s).trans (same_modifySide _ _ _ _)).trans (ih (k + 1) _)

theorem same_verifyCompare (h region i : Nat) (leg : Leg) (source copy : LineData) (s : State) :
    Same s (verifyCompare h region i leg source copy s) := by
  unfold verifyCompare
  split
  · exact Same.refl s
  · exact (same_engineRecord _ _ _ _ _ _ _ s).trans (same_raiseFailure _ _ _ _)

theorem same_verifySides (h region i : Nat) (source : LineData) (legs : List Leg) :
    ∀ (sides : List SideState) (s : State), Same s (verifySides h region i source legs sides s) := by
  induction legs with
  | nil => exact fun _ s => Same.refl s
  | cons leg rest ih =>
    intro sides s
    cases sides with
    | nil => exact Same.refl s
    | cons side more =>
      unfold verifySides
      split
      · exact (same_verifyCompare _ _ _ _ _ _ s).trans (ih _ _)
      · exact ih _ s

theorem same_sourceOk (h : Nat) (j : Job) (i : Nat) (data : LineData) (s : State) :
    Same s (sourceOk h j i data s) := by
  unfold sourceOk
  split
  · exact Same.refl s
  · refine (same_modifyLine i (fun l => { l with data := some data, readA := .ok }) s).trans ?_
    dsimp only
    split
    · split
      · exact Same.refl _
      · exact same_presentCopies _ _ _ _ _
    · exact same_verifySides _ _ _ _ _ _ _
    · exact Same.refl _
    · exact Same.refl _
    · exact Same.refl _

theorem same_sourceFailed (h : Nat) (j : Job) (i : Nat) (lane : Lane) (line : Nat) (s : State) :
    Same s (sourceFailed h j i lane line s) := by
  unfold sourceFailed
  split
  · exact Same.refl s
  · dsimp only
    split
    · split
      · exact Same.refl s
      · exact (same_modifyLine _ _ s).trans (same_present _ _ _)
    · exact ((same_modifyLine _ _ s).trans (same_engineRecord _ _ _ _ _ _ _ _)).trans
        (same_raiseFailure _ _ _ _)

theorem same_verifyReadOk (h : Nat) (j : Job) (k i : Nat) (data : LineData) (s : State) :
    Same s (verifyReadOk h j k i data s) := by
  unfold verifyReadOk
  split
  · refine (same_modifySide i k { state := .ok, data := some data } s).trans ?_
    dsimp only
    split
    · exact same_verifyCompare _ _ _ _ _ _ _
    · exact Same.refl _
  · exact Same.refl s

theorem same_auditAOk (j : Job) (i : Nat) (data : LineData) (s : State) : Same s (auditAOk j i data s) := by
  unfold auditAOk
  dsimp only
  split
  · exact (same_modifyLine _ _ s).trans (same_present _ _ _)
  · exact same_modifyLine _ _ s

theorem countMismatch_standing (j : Job) : (countMismatch j).standing = j.standing := by
  unfold countMismatch
  split <;> rfl

theorem countRepaired_standing (j : Job) : (countRepaired j).standing = j.standing := by
  unfold countRepaired
  split <;> rfl

theorem same_auditBOk (h : Nat) (j : Job) (i : Nat) (lane : Lane) (line : Nat) (data : LineData)
    (s : State) : Same s (auditBOk h j i lane line data s) := by
  unfold auditBOk
  split
  · exact same_modifyLine _ _ s
  · split
    · exact same_modifyLine _ _ s
    · refine (same_engineRecord .auditMismatch h j.region (stepHostLine j.region i s) lane line none s).trans
        ((same_modifyRunning countMismatch_standing _).trans ?_)
      dsimp only
      split
      · exact (same_modifyLine _ _ _).trans (same_present _ _ _)
      · exact same_modifyLine _ _ _

theorem same_repairOk (h : Nat) (j : Job) (i : Nat) (lane : Lane) (line : Nat) (s : State) :
    Same s (repairOk h j i lane line s) :=
  ((same_modifyLine _ _ s).trans (same_engineRecord _ _ _ _ _ _ _ _)).trans
    (same_modifyRunning countRepaired_standing _)

theorem same_engineOk (h : Nat) (j : Job) (part : EnginePart) (i : Nat) (lane : Lane) (line : Nat)
    (data : LineData) (s : State) : Same s (engineOk h j part i lane line data s) := by
  cases part with
  | source => exact same_sourceOk _ _ _ _ s
  | shadowWrite k => exact same_modifySide _ _ _ s
  | verifyRead k => exact same_verifyReadOk _ _ _ _ _ s
  | auditA => exact same_auditAOk _ _ _ s
  | auditB => exact same_auditBOk _ _ _ _ _ _ s
  | repair => exact same_repairOk _ _ _ _ _ s

theorem same_engineFailed (h : Nat) (j : Job) (part : EnginePart) (i : Nat) (lane : Lane) (line : Nat)
    (s : State) : Same s (engineFailed h j part i lane line s) := by
  cases part with
  | source => exact same_sourceFailed _ _ _ _ _ s
  | shadowWrite k => exact (same_modifySide _ _ _ s).trans (same_shadowFailure _ _ _ _ _ _)
  | verifyRead k => exact (same_modifySide _ _ _ s).trans (same_raiseFailure _ _ _ _)
  | auditA => exact (same_modifyLine _ _ s).trans (same_raiseFailure _ _ _ _)
  | auditB => exact (same_modifyLine _ _ s).trans (same_raiseFailure _ _ _ _)
  | repair => exact same_modifyLine _ _ s

theorem sound_tellEngine (part : EnginePart) (i : Nat) (lane : Lane) (line : Nat) (outcome : LaneOutcome)
    (data : LineData) {s : State} (k : Sound s) : Sound (tellEngine part i lane line outcome data s) := by
  unfold tellEngine
  split
  · exact k
  · refine sound_engineAdvance ?_
    cases outcome with
    | ok => exact (same_engineOk _ _ _ _ _ _ _ s).sound k
    | error => exact (same_engineFailed _ _ _ _ _ _ s).sound k
    | timeout => exact (same_engineFailed _ _ _ _ _ _ s).sound k

/-! ### The reset signal (R106) -/

theorem finishJob_queue (h : Nat) (outcome : JobOutcome) (s : State) :
    (finishJob h outcome s).engine.queue = s.engine.queue := by
  rw [finishJob_engine]
  split
  · rfl
  · unfold Engine.release
    split <;> rfl

theorem sound_abortQueued (handles : List Nat) :
    ∀ s : State, s.engine.queue = [] → SoundBut (fun n => n ∈ handles) s → handles.Nodup →
      Sound (abortQueued handles s) := by
  induction handles with
  | nil => exact fun s _ k _ => k.congr fun n => by simp [noHandle]
  | cons h rest ih =>
    intro s q k d
    obtain ⟨d1, d2⟩ := List.nodup_cons.mp d
    refine ih _ ((finishJob_queue _ _ _).trans q) ?_ d2
    refine (sound_finishJob h .resetAborted k (by rw [q]; simp)).congr fun n => ?_
    constructor
    · rintro ⟨c, e⟩
      exact (List.mem_cons.mp c).resolve_left e
    · exact fun c => ⟨List.mem_cons_of_mem _ c, fun e => d1 (e ▸ c)⟩

theorem sound_abortRunning {s : State} (k : Sound s) : Sound (abortRunning s) := by
  unfold abortRunning
  split
  · exact k
  · have r := (same_raiseReset _).sound (sound_stopping true k)
    dsimp only
    split
    · exact sound_endSwitch _ r
    · split
      · exact sound_stopFinish ((same_withdraw _ _).sound r)
      · exact (same_withdraw _ _).sound r

theorem sound_resetJobs {s : State} (k : Sound s) : Sound (resetJobs s) := by
  unfold resetJobs
  refine sound_abortRunning (sound_abortQueued _ _ rfl ?_ k.engine.2.2.1)
  obtain ⟨h1, h2, h3, h4, h5, h6⟩ := k.engine
  refine ⟨k.size, k.clear, ⟨h1, h2, List.nodup_nil, fun n => ?_, fun n c => by simp, h6⟩, k.fields⟩
  show (n ∈ [] ∨ n ∈ s.engine.queue) ↔ (jobOf s.engine n).any Job.isQueued = true
  rw [← h4 n]
  simp [noHandle]

end Sys2Proof.Machine
end

