-- ==== Sys2Proof/Laws/SoundLanes.lean ====
section
/-! SUPPORT. The laws of jobs and of RETIRED lanes, as the lane ports, the close of an event and the events keep them (R41 to R46, R52 to R66, R84 to R87, R122 to R124). -/

namespace Sys2Proof.Machine

open Sys2Proof

/-! ### Codes of host entries (R63 to R66) -/

theorem same_recordRecovered (e : Entry) (s : State) : Same s (recordRecovered e s) := by
  unfold recordRecovered
  split
  · exact Same.refl s
  · exact same_writeRecord _ s

theorem same_presentFallback (e : Entry) (pos : LegPos) (leg : Leg) (s : State) :
    Same s (presentFallback e pos leg s) :=
  (same_modifyEntry _ _ s).trans (same_present _ _ _)

theorem same_formRead (e : Entry) (pos : LegPos) (outcome : LaneOutcome) (data : LineData) (s : State) :
    Same s (formRead e pos outcome data s) := by
  unfold formRead
  split
  · split
    · exact (same_recordRecovered e s).trans (same_becomeKnown _ _ _ _)
    · exact same_becomeKnown _ _ _ s
  · split
    · split
      · exact same_becomeKnown _ _ _ s
      · exact same_presentFallback _ _ _ s
    · exact same_becomeKnown _ _ _ s

theorem same_formWrite (e : Entry) (s : State) : Same s (formWrite e s) := by
  unfold formWrite
  dsimp only
  split
  · exact same_becomeKnown _ _ _ s
  · split
    · exact same_becomeKnown _ _ _ s
    · split
      · exact ⟨rfl, rfl, fun _ => rfl, EngineSame.refl _⟩
      · exact same_becomeKnown _ _ _ s

theorem same_formCode (e : Entry) (part : HostPart) (outcome : LaneOutcome) (data : LineData) (s : State) :
    Same s (formCode e part outcome data s) := by
  unfold formCode
  split
  · exact same_formRead _ _ _ _ s
  · exact Same.refl s
  · split
    · exact same_formWrite _ s
    · exact Same.refl s

theorem same_tellHost (slot : Nat) (part : HostPart) (lane : Lane) (line : Nat) (outcome : LaneOutcome)
    (data : LineData) (s : State) : Same s (tellHost slot part lane line outcome data s) := by
  unfold tellHost
  split
  · exact Same.refl s
  · split
    · refine (same_modifyEntry slot (recordOutcome part outcome) s).trans ?_
      dsimp only
      split
      · exact same_formCode _ _ _ _ _
      · split
        · exact (same_shadowFailure _ _ _ _ _ _).trans (same_formCode _ _ _ _ _)
        · exact same_formCode _ _ _ _ _
    · exact Same.refl s

theorem sound_tellRequester (lane : Lane) (r : Request) (outcome : LaneOutcome) (data : LineData) {s : State}
    (k : Sound s) : Sound (tellRequester lane r outcome data s) := by
  unfold tellRequester
  split
  · exact (same_tellHost _ _ _ _ _ _ s).sound k
  · exact sound_tellEngine _ _ _ _ _ _ k
  · exact k

/-! ### Lane errors and responses (R57 to R62) -/

theorem same_countLane (lane : Lane) (f : LaneCounters → LaneCounters) (s : State) :
    Same s (countLane lane f s) :=
  same_modifyLane _ _ s

/-- A lane error of any kind: a count, a record, a weight, and the requester (R61). -/
theorem sound_reported (lane : Lane) (r : Request) (f : LaneCounters → LaneCounters)
    (info : State → FaultInfo) (weight : Nat) (outcome : LaneOutcome) {s : State} (k : Sound s) :
    Sound (tellRequester lane r outcome 0
      (addWeight lane weight (writeRecord (info (countLane lane f s)) (countLane lane f s)))) :=
  sound_tellRequester _ _ _ _ (sound_addWeight _ _
    (((same_countLane lane f s).trans (same_writeRecord _ _)).sound k))

theorem sound_laneError (lane : Lane) (r : Request) {s : State} (k : Sound s) :
    Sound (laneError lane r s) := by
  unfold laneError
  split
  · exact sound_reported lane r (fun c => { c with readErrors := bump c.readErrors })
      (errorRecord .laneReadError lane r) _ _ k
  · exact sound_reported lane r (fun c => { c with writeErrors := bump c.writeErrors })
      (errorRecord .laneWriteError lane r) _ _ k

theorem sound_laneTimeout (lane : Lane) (r : Request) {s : State} (k : Sound s) :
    Sound (laneTimeout lane r s) :=
  sound_reported lane r (fun c => { c with timeouts := bump c.timeouts })
    (errorRecord .laneTimeout lane r) _ _ k

theorem sound_lateResponse (lane : Lane) (line : Option Nat) {s : State} (k : Sound s) :
    Sound (lateResponse lane line s) :=
  (same_writeRecord _ _).sound (sound_addWeight _ _ ((same_countLane _ _ s).sound k))

theorem sound_takeResponse (lane : Lane) (number : Count16) (resp : AxiResp) (data : LineData) {s : State}
    (k : Sound s) : Sound (takeResponse lane number resp data s) := by
  unfold takeResponse
  dsimp only
  split
  · rename_i o _
    have f : Sound (freeCredit lane o s) := (same_modifyLane _ _ s).sound k
    split
    · split
      · exact sound_tellRequester _ _ _ _ f
      · exact sound_laneError _ _ f
    · exact sound_lateResponse _ _ f
  · split
    · exact sound_lateResponse _ _ ((same_modifyLane _ _ s).sound k)
    · exact sound_lateResponse _ _ k

theorem sound_expireWait (lane : Lane) (place : Nat) {s : State} (k : Sound s) :
    Sound (expireWait lane place s) := by
  unfold expireWait
  split
  · exact k
  · exact sound_laneTimeout _ _ ((same_modifyLane _ _ s).sound k)

theorem sound_expireResponse (lane : Lane) (number : Count16) {s : State} (k : Sound s) :
    Sound (expireResponse lane number s) := by
  unfold expireResponse
  split
  · exact k
  · exact sound_laneTimeout _ _ ((same_modifyLane _ _ s).sound k)

theorem sound_reclaimIssued (lane : Lane) (n : Nat) :
    ∀ s : State, Sound s → Sound (reclaimIssued lane n s) := by
  induction n with
  | zero => exact fun _ k => k
  | succ n ih =>
    intro s k
    unfold reclaimIssued
    split
    · exact k
    · dsimp only
      refine ih _ ?_
      split
      · exact sound_laneTimeout _ _ ((same_modifyLane _ _ s).sound k)
      · exact (same_modifyLane _ _ s).sound k

theorem sound_withdrawWaiting (lane : Lane) (n : Nat) :
    ∀ s : State, Sound s → Sound (withdrawWaiting lane n s) := by
  induction n with
  | zero => exact fun _ k => k
  | succ n ih =>
    intro s k
    unfold withdrawWaiting
    split
    · exact k
    · exact ih _ (sound_tellRequester _ _ _ _ ((same_modifyLane _ _ s).sound k))

theorem sound_expireQuiesce (lane : Lane) {s : State} (k : Sound s) : Sound (expireQuiesce lane s) :=
  (same_modifyLane _ _ _).sound (sound_withdrawWaiting _ _ _
    (sound_reclaimIssued _ _ _ ((same_modifyLane _ _ s).sound k)))

/-! ### The close of an event -/

theorem same_leaveEntryDrain (s : State) : Same s (leaveEntryDrain s) := Same.of rfl rfl rfl

theorem same_endSequence (s : State) : Same s (endSequence s) := by
  refine (same_postNotice (.resetDone s.hp.warmSeen) s).trans ?_
  exact Same.of rfl rfl rfl

theorem same_advanceSequence (s : State) : Same s (advanceSequence s) := by
  have d : Same s (drainStep s) := by
    unfold drainStep
    split
    · exact same_leaveEntryDrain s
    · exact Same.refl s
  have q : ∀ t : State, Same t (quiesceStep t) := fun t => by
    unfold quiesceStep
    split
    · split
      · exact Same.of rfl rfl rfl
      · exact same_endSequence t
    · exact Same.refl t
  have h : ∀ t : State, Same t (holdStep t) := fun t => by
    unfold holdStep
    split
    · exact same_endSequence t
    · exact Same.refl t
  have c : Same (drainStep s) (completeQuiesces (drainStep s)) := Same.of rfl rfl rfl
  exact ((d.trans c).trans (q _)).trans (h _)

theorem sound_settle {s : State} (k : Sound s) : Sound (settle s) := by
  have g : Same (closeStale s) (refreshPhases (grantAll (closeStale s))) := Same.of rfl rfl rfl
  have p : ∀ t : State, Same t (presentResponses t) := fun t => Same.of rfl rfl rfl
  exact ((g.trans (same_advanceSequence _)).trans (p _)).sound (sound_closeStale k)

theorem sound_tick {s : State} (k : Sound s) : Sound (tick s) := by
  unfold tick
  split
  · exact k
  · refine ⟨k.size, ⟨k.clear.1, fun c x => ?_⟩,
      EngineSame.keeps (e := s.engine) ⟨rfl, rfl, rfl, rfl, fun _ => rfl⟩ k.engine,
      k.fields.1, k.fields.2.1, fun c x => ?_⟩
    · obtain ⟨c', hc, rfl⟩ := Option.map_eq_some_iff.mp (show s.mu.commit.drain.map _ = some c from x)
      exact k.clear.2 c' hc
    · obtain ⟨c', hc, rfl⟩ := Option.map_eq_some_iff.mp (show s.mu.commit.drain.map _ = some c from x)
      exact k.fields.2.2 c' hc

/-! ### Resets (R41 to R46) -/

theorem same_discardEntries (s : State) : Same s (discardEntries s) := by
  unfold discardEntries
  refine Same.trans ?_ (same_orphan _ _)
  refine Same.trans ?_ (same_withdraw _ _)
  exact Same.of rfl rfl rfl

theorem sound_warmReset {s : State} (k : Sound s) : Sound (warmReset s) := by
  have a : Sound (abandonCommit (resetJobs (discardEntries s))) :=
    sound_endCommit _ (sound_resetJobs ((same_discardEntries s).sound k))
  exact SoundBut.of (s := abandonCommit (resetJobs (discardEntries s))) rfl rfl rfl a

theorem same_warmOverlap (s : State) : Same s (warmOverlap s) := by
  unfold warmOverlap
  have w : Same s { discardEntries s with hp := { (discardEntries s).hp with warmSeen := true } } :=
    (same_discardEntries s).trans (Same.of rfl rfl rfl)
  dsimp only
  split
  · exact w.trans (same_leaveEntryDrain _)
  · exact w

theorem sound_commandReset {s : State} (k : Sound s) : Sound (commandReset s) := by
  have a : Sound (endCommit .resetAborted (resetJobs s)) := sound_endCommit _ (sound_resetJobs k)
  exact SoundBut.of (s := endCommit .resetAborted (resetJobs s)) rfl rfl rfl a

/-- The power-on map and jobs keep the laws, whatever the lanes' states. -/
theorem sound_powerOn (strap : BitVec 3) : Sound (powerOn strap) := by
  have mirror : ∀ (i : Nat) (d : Descriptor), descOf (bringUpSlots strap) i = some d →
      d.body.legB = none ∧ d.job = none := by
    intro i d x
    cases i with
    | zero =>
      obtain ⟨b, hb, rfl⟩ := Option.map_eq_some_iff.mp
        (show (bringUpBody strap).map (fun b => ({ body := b, degraded := false, job := none } : Descriptor))
          = some d from x)
      refine ⟨?_, rfl⟩
      unfold bringUpBody at hb
      split at hb
      · cases hb
        rfl
      · cases hb
    | succ i =>
      have x : ((List.replicate 63 ({ desc := none, revision := 0 } : MapSlot))[i]?).bind MapSlot.desc
          = some d := x
      rw [List.getElem?_replicate] at x
      split at x <;> cases x
  have nojob : ∀ h : Nat, jobOf (powerOn strap).engine h = none := fun h => by
    show ((List.replicate 8 (none : Option Job))[h]?).bind id = none
    rw [List.getElem?_replicate]
    split <;> rfl
  refine ⟨by simp [powerOn, bringUpSlots, Config.mapSlots], ⟨fun i d x y => (y (mirror i d x).1).elim,
    fun _ x => by cases x⟩, ⟨fun h => ?_, fun h j r => ?_, List.nodup_nil, fun h => ?_, fun _ w => w.elim, rfl⟩,
    fun h j x => ?_, fun i h d x y => ?_, fun _ x => by cases x⟩
  · rw [nojob]
    exact ⟨fun c => (by cases c), fun c => (by cases c)⟩
  · cases (runningJob_eq.mp r).1
  · rw [nojob]
    exact ⟨fun c => (by rcases c with c | c; cases c; exact c.elim), fun c => (by cases c)⟩
  · rw [nojob] at x
    cases x
  · rw [(mirror i d x).2] at y
    cases y

theorem sound_porstState (s : State) : Sound (porstState s) := by
  refine SoundBut.of (s := { powerOn s.strap with health := { (powerOn s.strap).health with drainTimer := none } })
    rfl rfl rfl ?_
  exact (same_health (g := { (powerOn s.strap).health with drainTimer := none }) fun _ => rfl).sound
    (sound_powerOn s.strap)

theorem sound_powerUp (pins : ResetPins) (s : State) : Sound (powerUp pins s) := by
  unfold powerUp
  dsimp only
  split <;> exact SoundBut.of (s := powerOn pins.strap) rfl rfl rfl (sound_powerOn pins.strap)

/-! ### Host events and drains -/

theorem same_acceptGood (e : Entry) (s : State) : Same s (acceptGood e s) := by
  unfold acceptGood
  refine Same.trans ?_ (same_fullDecode _ _)
  exact Same.of rfl rfl rfl

theorem sound_acceptTxn (t : HostTxn) {s : State} (k : Sound s) : Sound (acceptTxn t s) := by
  unfold acceptTxn
  split
  · dsimp only
    refine sound_settle ?_
    split
    · refine SoundBut.of (s := s) ?_ ?_ ?_ k
      all_goals
        unfold acceptBad finishBeats
        split
        · rfl
        · split <;> rfl
    · exact (same_acceptGood _ s).sound k
  · exact k

theorem sound_takeBeat (b : WriteBurst) {s : State} (k : Sound s) : Sound (takeBeat b s) := by
  unfold takeBeat
  split
  · split
    · exact k
    · split
      · exact SoundBut.of (s := s) rfl rfl rfl k
      · exact sound_settle (SoundBut.of (s := s) rfl rfl rfl k)
  · exact k

theorem same_takeResponseOf (channel : Dir) (s : State) : Same s (takeResponseOf channel s) := by
  unfold takeResponseOf
  split
  · exact Same.refl s
  · refine Same.trans ?_ (same_removeEntry _ _)
    cases channel <;> exact Same.of rfl rfl rfl

theorem same_answerDrop (applied : Bool) (slot : Option Nat) (s : State) :
    Same s (answerDrop applied slot s) := by
  unfold answerDrop
  split
  · exact Same.refl s
  · split
    · dsimp only
      split <;> exact same_becomeKnown _ _ _ s
    · exact Same.refl s

theorem sound_takeRequest (place : Nat) {s : State} (k : Sound s) : Sound (takeRequest place s) := by
  unfold takeRequest
  split
  · exact k
  · refine (same_answerDrop _ _ _).sound (sound_closeStale (sound_takeDrop _ _ ?_))
    exact Same.sound (s := s) ⟨rfl, rfl, fun _ => rfl, EngineSame.refl _⟩ k

theorem same_waitFalls (n : Nat) : ∀ s : State, Same s (waitFalls n s) := by
  induction n with
  | zero => exact Same.refl
  | succ n ih => exact fun s => (same_writeWaitFalls s).trans (ih _)

theorem same_expireEntryDrain (s : State) : Same s (expireEntryDrain s) := by
  unfold expireEntryDrain
  dsimp only
  refine Same.trans ?_ (same_leaveEntryDrain _)
  refine Same.trans ?_ (same_waitFalls _ _)
  refine Same.trans ?_ (same_withdraw _ _)
  exact ⟨rfl, rfl, fun _ => rfl, EngineSame.refl _⟩

theorem sound_expireSwitch {s : State} (k : Sound s) : Sound (expireSwitch s) := by
  unfold expireSwitch
  split
  · exact sound_endSwitch _ k
  · exact k

/-! ### Commands -/

theorem sound_startIfIdle {s : State} (k : Sound s) : Sound (startIfIdle s) := by
  unfold startIfIdle
  split
  · exact sound_settle (sound_startNext k)
  · exact k

/-- A job is queued on a free region, in a FREE slot (R94, R95). -/
theorem sound_queueJob {h region : Nat} {d : Descriptor} (work : JobWork) {s : State}
    (lt : h < s.engine.jobs.length) (free : jobOf s.engine h = none)
    (hd : descOf s.mu.slots region = some d) (nojob : d.job = none)
    (out : inCommitSet s.mu region = false) (k : Sound s) : Sound (queueJob h region d work s) := by
  generalize hj : ({ life := .queued, work := work, region := region
                     blockCount := Config.granuleBlocks * d.body.length, phase := none, cursor := 0 } : Job) = job
  have jobs : ∀ n : Nat, jobOf (queueJob h region d work s).engine n
      = if n = h then some job else jobOf s.engine n := fun n => by
    show jobOf (setJobField region (some h) (setJob h (some _) s)).engine n = _
    rw [(setJobField_rest _ _ _).2.2.1, hj]
    show jobOf { s.engine with jobs := s.engine.jobs.set h (some job) } n = _
    rw [jobOf_set]
    simp [lt]
  have queue : (queueJob h region d work s).engine.queue = s.engine.queue ++ [h] := by
    show (setJobField region (some h) (setJob h (some _) s)).engine.queue ++ [h] = _
    rw [(setJobField_rest _ _ _).2.2.1]
    rfl
  have running : (queueJob h region d work s).engine.running = s.engine.running := by
    show (setJobField region (some h) (setJob h (some _) s)).engine.running = _
    rw [(setJobField_rest _ _ _).2.2.1]
    rfl
  have step : (queueJob h region d work s).engine.blockStep = s.engine.blockStep := by
    show (setJobField region (some h) (setJob h (some _) s)).engine.blockStep = _
    rw [(setJobField_rest _ _ _).2.2.1]
    rfl
  have lock : (queueJob h region d work s).engine.lock = s.engine.lock := by
    show (setJobField region (some h) (setJob h (some _) s)).engine.lock = _
    rw [(setJobField_rest _ _ _).2.2.1]
    rfl
  have desc : ∀ n : Nat, descOf (queueJob h region d work s).mu.slots n
      = if n = region then some { d with job := some h } else descOf s.mu.slots n := fun n => by
    show descOf (setJobField region (some h) (setJob h (some _) s)).mu.slots n = _
    rw [setJobField_desc]
    show (if n = region then (descOf s.mu.slots region).map _ else descOf s.mu.slots n) = _
    rw [hd]
    rfl
  have commit : (queueJob h region d work s).mu.commit = s.mu.commit := by
    show (setJobField region (some h) (setJob h (some _) s)).mu.commit = _
    rw [(setJobField_rest _ _ _).1]
    rfl
  have health : (queueJob h region d work s).health = s.health := by
    show (setJobField region (some h) (setJob h (some _) s)).health = _
    rw [(setJobField_rest _ _ _).2.1]
    rfl
  have q : job.isQueued = true := by rw [← hj]; rfl
  have r : job.isRunning = false := by rw [← hj]; rfl
  obtain ⟨h1, h2, h3, h4, h5, h6⟩ := k.engine
  have nrun : s.engine.running ≠ some h := fun c => by
    have := (h1 h).mp c
    rw [free] at this
    cases this
  have nq : h ∉ s.engine.queue := fun c => by
    have := (h4 h).mp (.inl c)
    rw [free] at this
    cases this
  have same : ∀ (n : Nat) (j : Job), runningJob (queueJob h region d work s).engine = some (n, j)
      ↔ runningJob s.engine = some (n, j) := fun n j => by
    rw [runningJob_eq, runningJob_eq, running, jobs]
    constructor
    · rintro ⟨a, b⟩
      rw [if_neg (fun e : n = h => nrun (e ▸ a))] at b
      exact ⟨a, b⟩
    · rintro ⟨a, b⟩
      rw [if_neg (fun e : n = h => nrun (e ▸ a))]
      exact ⟨a, b⟩
  refine ⟨?_, ⟨fun i e x y leg m => ?_, fun c x => ?_⟩, ⟨fun n => ?_, fun n j x => ?_, ?_, fun n => ?_,
    fun _ w => w.elim, ?_⟩, fun n j x l => ?_, fun i n e x y => ?_, fun c x m hm => ?_⟩
  · show (setJobField region (some h) (setJob h (some _) s)).mu.slots.length = _
    rw [(setJobField_rest _ _ _).2.2.2]
    exact k.size
  · rw [health]
    rw [desc] at x
    split at x
    · cases x
      exact k.clear.1 region d hd y leg m
    · exact k.clear.1 i e x y leg m
  · rw [health]
    rw [commit] at x
    exact k.clear.2 c x
  · rw [running, jobs]
    split
    · rename_i e
      subst e
      exact ⟨fun c => (nrun c).elim, fun c => by rw [Option.any_some, r] at c; cases c⟩
    · exact h1 n
  · exact h2 n j ((same n j).mp x)
  · rw [queue]
    exact List.nodup_append.mpr ⟨h3, List.nodup_singleton h, fun a ha b hb e => by
      rw [List.mem_singleton.mp hb] at e
      exact nq (e ▸ ha)⟩
  · rw [queue, jobs]
    split
    · rename_i e
      subst e
      simp [q]
    · rename_i e
      rw [← h4 n]
      simp [e]
  · rw [step]
    cases b : s.engine.blockStep with
    | none =>
      rw [b] at h6
      exact lock.trans h6
    | some st =>
      rw [b] at h6
      obtain ⟨n, j, x, y⟩ := h6
      exact ⟨n, j, (same n j).mpr x, y.1, y.2.1, lock.trans y.2.2⟩
  · rw [jobs] at x
    split at x
    · rename_i e
      cases x
      subst e
      refine ⟨{ d with job := some n }, ?_, rfl, ?_⟩
      · rw [desc, if_pos (by rw [← hj])]
      · rw [← hj]
    · rename_i e
      obtain ⟨d', hd', dj, dl⟩ := k.fields.1 n j x l
      refine ⟨d', ?_, dj, dl⟩
      rw [desc, if_neg]
      · exact hd'
      · intro c
        rw [c, hd] at hd'
        cases hd'
        rw [nojob] at dj
        cases dj
  · rw [desc] at x
    split at x
    · rename_i e'
      cases x
      cases y
      exact ⟨job, by rw [jobs, if_pos rfl], by rw [← hj]; rfl, by rw [← hj, e']⟩
    · obtain ⟨j, hj', l, g⟩ := k.fields.2.1 i n e x y
      refine ⟨j, ?_, l, g⟩
      rw [jobs, if_neg]
      · exact hj'
      · intro c
        rw [c, free] at hj'
        cases hj'
  · rw [commit] at x
    rw [desc]
    split
    · rename_i e
      unfold inCommitSet at out
      rw [x] at out
      have : c.members.any (fun m => m.slot == region) = true :=
        List.any_eq_true.mpr ⟨m, hm, by simpa using e⟩
      simp_all
    · exact k.fields.2.2 c x m hm

/-- A QUEUED job leaves the queue (R103). -/
theorem sound_leaveQueue {h : Nat} {s : State} (q : (jobOf s.engine h).any Job.isQueued = true)
    (k : Sound s) : SoundBut (fun n => n = h) { s with engine.queue := s.engine.queue.erase h } := by
  obtain ⟨h1, h2, h3, h4, h5, h6⟩ := k.engine
  refine ⟨k.size, k.clear, ⟨h1, h2, h3.erase h, fun n => ?_, fun n e => ?_, h6⟩, k.fields⟩
  · show (n ∈ s.engine.queue.erase h ∨ n = h) ↔ (jobOf s.engine n).any Job.isQueued = true
    rw [h3.mem_erase_iff]
    have := h4 n
    simp only [noHandle, or_false] at this
    by_cases e : n = h
    · subst e
      simp [q]
    · simp [e, this]
  · subst e
    show n ∉ s.engine.queue.erase n
    rw [h3.mem_erase_iff]
    exact fun c => c.1 rfl

theorem sound_cancelQueued {h : Nat} {s : State} (q : (jobOf s.engine h).any Job.isQueued = true)
    (k : Sound s) : Sound (cancelQueued h s) := by
  have l := sound_leaveQueue q k
  exact sound_startIfIdle ((sound_finishJob h .cancelled l (l.engine.2.2.2.2.1 h rfl)).congr
    fun n => ⟨fun c => c.2 c.1, False.elim⟩)

/-- A FINISHED slot becomes FREE (R105). -/
theorem sound_clearJob {h : Nat} {j : Job} {s : State} (x : jobOf s.engine h = some j)
    (f : j.life.live = false) (k : Sound s) : Sound (setJob h none s) := by
  have jobs := jobOf_setJob x (none : Option Job)
  obtain ⟨h1, h2, h3, h4, h5, h6⟩ := k.engine
  have l := live_iff j
  rw [f] at l
  have q : j.isQueued = false ∧ j.isRunning = false := by
    exact Bool.or_eq_false_iff.mp l.symm
  have nrun : s.engine.running ≠ some h := fun c => by
    have := (h1 h).mp c
    rw [x, Option.any_some, q.2] at this
    cases this
  have nq : h ∉ s.engine.queue := fun c => by
    have := (h4 h).mp (.inl c)
    rw [x, Option.any_some, q.1] at this
    cases this
  have same : ∀ (n : Nat) (i : Job), runningJob (setJob h none s).engine = some (n, i)
      ↔ runningJob s.engine = some (n, i) := fun n i => by
    rw [runningJob_eq, runningJob_eq, jobs]
    show s.engine.running = some n ∧ _ ↔ _
    constructor
    · rintro ⟨a, b⟩
      rw [if_neg (fun e : n = h => nrun (e ▸ a))] at b
      exact ⟨a, b⟩
    · rintro ⟨a, b⟩
      rw [if_neg (fun e : n = h => nrun (e ▸ a))]
      exact ⟨a, b⟩
  refine ⟨k.size, k.clear, ⟨fun n => ?_, fun n i y => h2 n i ((same n i).mp y), h3, fun n => ?_,
    fun _ w => w.elim, ?_⟩, fun n i y l => ?_, fun i n d y z => ?_, k.fields.2.2⟩
  · rw [jobs]
    show s.engine.running = some n ↔ _
    split
    · rename_i e
      subst e
      exact ⟨fun c => (nrun c).elim, fun c => (by cases c)⟩
    · exact h1 n
  · rw [jobs]
    show n ∈ s.engine.queue ∨ _ ↔ _
    split
    · rename_i e
      subst e
      simp [nq, noHandle]
    · exact h4 n
  · show match s.engine.blockStep with
      | none => s.engine.lock = none
      | some st => _
    cases b : s.engine.blockStep with
    | none =>
      rw [b] at h6
      exact h6
    | some st =>
      rw [b] at h6
      obtain ⟨n, i, y, z⟩ := h6
      exact ⟨n, i, (same n i).mpr y, z⟩
  · rw [jobs] at y
    split at y
    · cases y
    · exact k.fields.1 n i y l
  · obtain ⟨i', hi, l', r⟩ := k.fields.2.1 i n d y z
    refine ⟨i', ?_, l', r⟩
    rw [jobs, if_neg]
    · exact hi
    · intro c
      rw [c, x] at hi
      cases hi
      rw [f] at l'
      cases l'

theorem sound_acceptCommit {s : State} (v : structuralFailure s = none) (b : busySlot s.mu = none)
    (k : Sound s) : Sound (acceptCommit s) := by
  unfold acceptCommit
  dsimp only
  refine sound_settle ?_
  split
  · exact sound_completeCommit (sound_openCommit v b k)
  · exact sound_openCommit v b k

theorem sound_makeActive (lane : Lane) {s : State} (k : Sound s) : Sound (makeActive lane s) :=
  sound_setLaneState lane (by decide) ((same_budget lane (fun _ => 0) s).sound k)

theorem sound_setHealth (suspect retire interval : Nat) {s : State} (k : Sound s) :
    Sound (setHealth suspect retire interval s) :=
  sound_evaluateLanes _ _ (Same.sound (s := s) (same_health fun _ => rfl) k)

end Sys2Proof.Machine
end

