-- ==== Sys2Proof/Laws/Health.lean ====
section
/-! SUPPORT. What leaves the health monitor alone, and what an evaluation does to it: an outcome told to a requester and the close of an event change no budget and no lane state (R140 to R142). -/

namespace Sys2Proof.Machine

open Sys2Proof

/-! ### The copy engine -/

@[simp] theorem health_modifyRunning (f : Job → Job) (s : State) : (modifyRunning f s).health = s.health := by
  unfold modifyRunning
  split <;> rfl

@[simp] theorem health_raiseStop (stop : Stop) (s : State) : (raiseStop stop s).health = s.health :=
  health_modifyRunning _ s

@[simp] theorem health_beginStep (s : State) : (beginStep s).health = s.health := (decoded_beginStep s).health

@[simp] theorem health_releaseLock (s : State) : (releaseLock s).health = s.health :=
  (decoded_releaseLock s).health

@[simp] theorem health_releaseHeld (kind : Hold) (sp : Span) (s : State) :
    (releaseHeld kind sp s).health = s.health :=
  (decoded_releaseHeld kind sp s).health

@[simp] theorem health_becomeKnown (slot : Nat) (code : Code) (data : LineData) (s : State) :
    (becomeKnown slot code data s).health = s.health :=
  (decoded_becomeKnown slot code data s).health

@[simp] theorem health_finishJob (h : Nat) (outcome : JobOutcome) (s : State) :
    (finishJob h outcome s).health = s.health := by
  unfold finishJob
  split
  · rfl
  · dsimp only
    show (clearJobField _ h _).health = _
    unfold clearJobField
    split
    · exact (setJobField_rest _ _ _).2.1
    · rfl

@[simp] theorem health_openSwitch (s : State) : (openSwitch s).health = s.health := by
  unfold openSwitch
  split <;> rfl

@[simp] theorem health_switchDecide (j : Job) (s : State) : (switchDecide j s).2.health = s.health := by
  unfold switchDecide
  split
  · rfl
  · unfold switchInstall
    split
    · split
      · rfl
      · split
        · rfl
        · split <;> rfl
    · rfl

@[simp] theorem health_startQueue (n : Nat) : ∀ s : State, (startQueue n s).health = s.health := by
  induction n with
  | zero => exact fun _ => rfl
  | succ n ih =>
    intro s
    unfold startQueue
    split
    · rfl
    · rfl
    · dsimp only
      split
      · exact ih _
      · split
        · rw [ih, health_finishJob]
        · split
          · rw [health_beginStep]
            rfl
          · rw [health_beginStep]
            rfl
          · rfl
          · split
            · rw [health_openSwitch]
              rfl
            · split
              · rw [health_releaseHeld, ih, health_finishJob]
                show (switchDecide _ _).2.health = _
                rw [health_switchDecide, health_openSwitch]
                rfl
              · rw [health_openSwitch]
                rfl

@[simp] theorem health_startNext (s : State) : (startNext s).health = s.health := health_startQueue _ s

@[simp] theorem health_endSwitch (outcome : JobOutcome) (s : State) :
    (endSwitch outcome s).health = s.health := by
  unfold endSwitch
  split
  · rw [health_releaseHeld, health_startNext, health_finishJob]
  · rfl

@[simp] theorem health_completeSwitch (s : State) : (completeSwitch s).health = s.health := by
  unfold completeSwitch
  split
  · rfl
  · rw [health_endSwitch, health_switchDecide]

@[simp] theorem health_stopFinish (s : State) : (stopFinish s).health = s.health := by
  unfold stopFinish
  dsimp only
  split
  · rw [health_releaseLock]
  · split
    · rw [health_releaseLock]
    · rw [health_startNext, health_finishJob, health_releaseLock]

@[simp] theorem health_enterSwitch (s : State) : (enterSwitch s).health = s.health := by
  unfold enterSwitch
  dsimp only
  split
  · rw [health_completeSwitch, health_openSwitch]
  · rw [health_openSwitch]

@[simp] theorem health_afterStep (s : State) : (afterStep s).health = s.health := by
  unfold afterStep
  split
  · rfl
  · split
    · rw [health_beginStep]
    · split
      · rw [health_beginStep]
        rfl
      · rw [health_enterSwitch]
      · rw [health_enterSwitch]
      · rw [health_startNext, health_finishJob]
      · rfl
      · rfl

@[simp] theorem health_engineAdvance (s : State) : (engineAdvance s).health = s.health := by
  unfold engineAdvance
  split
  · split
    · rw [health_stopFinish]
    · split
      · unfold stepEnd
        split
        · rfl
        · split
          · rw [health_stopFinish]
          · rw [health_afterStep, health_releaseLock]
            rfl
      · rfl
  · rfl

/-! ### Outcomes -/

theorem health_modifyLine (i : Nat) (f : LineState → LineState) (s : State) :
    (modifyLine i f s).health = s.health := by
  unfold modifyLine
  split <;> rfl

theorem health_presentCopies (i : Nat) (data : LineData) (legs : List Leg) :
    ∀ (k : Nat) (s : State), (presentCopies i data k legs s).health = s.health := by
  induction legs with
  | nil => exact fun _ _ => rfl
  | cons leg rest ih =>
    intro k s
    unfold presentCopies
    rw [ih]
    exact health_modifyLine _ _ _

theorem health_verifyCompare (h region i : Nat) (leg : Leg) (source copy : LineData) (s : State) :
    (verifyCompare h region i leg source copy s).health = s.health := by
  unfold verifyCompare
  split
  · rfl
  · exact health_raiseStop _ _

theorem health_verifySides (h region i : Nat) (source : LineData) (legs : List Leg) :
    ∀ (sides : List SideState) (s : State), (verifySides h region i source legs sides s).health = s.health := by
  induction legs with
  | nil => exact fun _ _ => rfl
  | cons leg rest ih =>
    intro sides s
    cases sides with
    | nil => rfl
    | cons side more =>
      unfold verifySides
      rw [ih]
      split
      · exact health_verifyCompare _ _ _ _ _ _ _
      · rfl

theorem health_shadowFailure (region : Nat) (hostLine : Option Nat) (lane : Lane) (line : Nat)
    (id : Option (Fin 16)) (s : State) : (shadowFailure region hostLine lane line id s).health = s.health := by
  unfold shadowFailure
  split
  · rfl
  · split
    · rfl
    · split
      · exact health_raiseStop _ _
      · rfl

theorem health_engineOk (h : Nat) (j : Job) (part : EnginePart) (i : Nat) (lane : Lane) (line : Nat)
    (data : LineData) (s : State) : (engineOk h j part i lane line data s).health = s.health := by
  cases part with
  | source =>
    show (sourceOk h j i data s).health = _
    unfold sourceOk
    split
    · rfl
    · dsimp only
      split
      · split
        · exact health_modifyLine _ _ _
        · rw [health_presentCopies, health_modifyLine]
      · rw [health_verifySides, health_modifyLine]
      · exact health_modifyLine _ _ _
      · exact health_modifyLine _ _ _
      · exact health_modifyLine _ _ _
  | shadowWrite k => exact health_modifyLine _ _ _
  | verifyRead k =>
    show (verifyReadOk h j k i data s).health = _
    unfold verifyReadOk
    split
    · dsimp only
      split
      · rw [health_verifyCompare]
        exact health_modifyLine _ _ _
      · exact health_modifyLine _ _ _
    · rfl
  | auditA =>
    show (auditAOk j i data s).health = _
    unfold auditAOk
    dsimp only
    split
    · exact health_modifyLine _ _ _
    · exact health_modifyLine _ _ _
  | auditB =>
    show (auditBOk h j i lane line data s).health = _
    unfold auditBOk
    split
    · exact health_modifyLine _ _ _
    · split
      · exact health_modifyLine _ _ _
      · dsimp only
        split
        · show (modifyLine _ _ _).health = _
          rw [health_modifyLine, health_modifyRunning]
          rfl
        · rw [health_modifyLine, health_modifyRunning]
          rfl
  | repair =>
    show (repairOk h j i lane line s).health = _
    unfold repairOk
    rw [health_modifyRunning]
    exact health_modifyLine _ _ _

theorem health_engineFailed (h : Nat) (j : Job) (part : EnginePart) (i : Nat) (lane : Lane) (line : Nat)
    (s : State) : (engineFailed h j part i lane line s).health = s.health := by
  cases part with
  | source =>
    show (sourceFailed h j i lane line s).health = _
    unfold sourceFailed
    split
    · rfl
    · dsimp only
      split
      · split
        · rfl
        · exact health_modifyLine _ _ _
      · unfold raiseFailure
        rw [health_raiseStop]
        exact health_modifyLine _ _ _
  | shadowWrite k =>
    show (shadowFailure _ _ _ _ _ _).health = _
    rw [health_shadowFailure]
    exact health_modifyLine _ _ _
  | verifyRead k => exact (health_raiseStop _ _).trans (health_modifyLine _ _ _)
  | auditA => exact (health_raiseStop _ _).trans (health_modifyLine _ _ _)
  | auditB => exact (health_raiseStop _ _).trans (health_modifyLine _ _ _)
  | repair => exact health_modifyLine _ _ _

@[simp] theorem health_tellEngine (part : EnginePart) (i : Nat) (lane : Lane) (line : Nat)
    (outcome : LaneOutcome) (data : LineData) (s : State) :
    (tellEngine part i lane line outcome data s).health = s.health := by
  unfold tellEngine
  split
  · rfl
  · rw [health_engineAdvance]
    cases outcome with
    | ok => exact health_engineOk _ _ _ _ _ _ _ _
    | error => exact health_engineFailed _ _ _ _ _ _ _
    | timeout => exact health_engineFailed _ _ _ _ _ _ _

theorem health_formRead (e : Entry) (pos : LegPos) (outcome : LaneOutcome) (data : LineData) (s : State) :
    (formRead e pos outcome data s).health = s.health := by
  unfold formRead
  split
  · rw [health_becomeKnown]
    split
    · unfold recordRecovered
      split <;> rfl
    · rfl
  · split
    · split
      · rw [health_becomeKnown]
      · rfl
    · rw [health_becomeKnown]

theorem health_formWrite (e : Entry) (s : State) : (formWrite e s).health = s.health := by
  unfold formWrite
  dsimp only
  split
  · rw [health_becomeKnown]
  · split
    · rw [health_becomeKnown]
    · split
      · rfl
      · rw [health_becomeKnown]

theorem health_formCode (e : Entry) (part : HostPart) (outcome : LaneOutcome) (data : LineData) (s : State) :
    (formCode e part outcome data s).health = s.health := by
  unfold formCode
  split
  · exact health_formRead _ _ _ _ _
  · rfl
  · split
    · exact health_formWrite _ _
    · rfl

@[simp] theorem health_tellHost (slot : Nat) (part : HostPart) (lane : Lane) (line : Nat)
    (outcome : LaneOutcome) (data : LineData) (s : State) :
    (tellHost slot part lane line outcome data s).health = s.health := by
  unfold tellHost
  split
  · rfl
  · split
    · dsimp only
      rw [health_formCode]
      split
      · rfl
      · split
        · rw [health_shadowFailure]
          rfl
        · rfl
    · rfl

/-- An outcome told to its requester changes nothing at the health monitor. -/
@[simp] theorem health_tellRequester (lane : Lane) (r : Request) (outcome : LaneOutcome) (data : LineData)
    (s : State) : (tellRequester lane r outcome data s).health = s.health := by
  unfold tellRequester
  split
  · exact health_tellHost _ _ _ _ _ _ _
  · exact health_tellEngine _ _ _ _ _ _ _
  · rfl

/-! ### The close of an event -/

@[simp] theorem health_endCommit (result : CommitResult) (s : State) :
    (endCommit result s).health = s.health := by
  unfold endCommit
  split
  · rfl
  · dsimp only
    cases s.ift.commitSpan with
    | none => rfl
    | some sp => exact health_releaseHeld _ _ _

/-- The close of an event changes nothing at the health monitor. -/
@[simp] theorem health_settle (s : State) : (settle s).health = s.health := by
  have c : (closeStale s).health = s.health := by
    unfold closeStale
    split
    · exact health_endCommit _ _
    · rfl
  have d : ∀ t : State, (drainStep t).health = t.health := fun t => by
    unfold drainStep
    split <;> rfl
  have q : ∀ t : State, (quiesceStep t).health = t.health := fun t => by
    unfold quiesceStep
    split
    · split <;> rfl
    · rfl
  have h : ∀ t : State, (holdStep t).health = t.health := fun t => by
    unfold holdStep
    split <;> rfl
  show (holdStep _).health = _
  rw [h, q]
  show (drainStep _).health = _
  rw [d]
  exact c

/-! ### Evaluations (R142) -/

/-- A retirement touches no other lane's state and no budget. -/
theorem health_retireLane (lane : Lane) (s : State) :
    (retireLane lane s).health = (setLaneState lane .retired s).health := by
  have t : ∀ u : State, (tellRetired lane u).health = u.health := fun u => by
    unfold tellRetired
    split
    · rfl
    · split
      · rfl
      · split
        · exact health_raiseStop _ _
        · rfl
  have d : ∀ (slots : List Nat) (u : State), (dropLane lane slots u).health = u.health := fun slots => by
    induction slots with
    | nil => exact fun _ => rfl
    | cons i rest ih =>
      intro u
      unfold dropLane
      rw [ih]
      split
      · exact takeDrop_health _ _ _
      · rfl
  unfold retireLane
  rw [t, (staleByLane_slots _ _).2, d]

/-- What an evaluation leaves of the health monitor: the lane's state alone changes. -/
theorem health_evaluateLane (lane : Lane) (s : State) :
    (evaluateLane lane s).health = { s.health with
      lanes := s.health.lanes.modify lane fun h => { h with
        state := evaluatedState s.health.suspect s.health.retire h.budget h.state } } := by
  have same : ∀ st : LaneState, (s.health.lanes.get lane).state = st →
      evaluatedState s.health.suspect s.health.retire (s.health.lanes.get lane).budget
        (s.health.lanes.get lane).state = st →
      s.health = { s.health with
        lanes := s.health.lanes.modify lane fun h => { h with
          state := evaluatedState s.health.suspect s.health.retire h.budget h.state } } := fun st a b => by
    have : s.health.lanes.modify lane (fun h => { h with
        state := evaluatedState s.health.suspect s.health.retire h.budget h.state }) = s.health.lanes :=
      PerLane.ext_get fun n => by
        rw [PerLane.get_modify]
        split
        · rename_i e
          subst e
          rw [b, ← a]
        · rfl
    rw [this]
  have set : ∀ st : LaneState, evaluatedState s.health.suspect s.health.retire
      (s.health.lanes.get lane).budget (s.health.lanes.get lane).state = st →
      (setLaneState lane st s).health = { s.health with
        lanes := s.health.lanes.modify lane fun h => { h with
          state := evaluatedState s.health.suspect s.health.retire h.budget h.state } } := fun st b => by
    show ({ s.health with lanes := s.health.lanes.modify lane fun h => { h with state := st } } : Health) = _
    have : s.health.lanes.modify lane (fun h => { h with state := st })
        = s.health.lanes.modify lane fun h => { h with
          state := evaluatedState s.health.suspect s.health.retire h.budget h.state } :=
      PerLane.ext_get fun n => by
        rw [PerLane.get_modify, PerLane.get_modify]
        split
        · rename_i e
          subst e
          rw [b]
        · rfl
    rw [this]
  unfold evaluateLane
  dsimp only
  cases k : (s.health.lanes.get lane).state with
  | active =>
    dsimp only
    split
    · rename_i c
      rw [health_retireLane]
      exact set _ (by rw [k]; simp [evaluatedState, c])
    · rename_i c
      split
      · rename_i d
        exact set _ (by rw [k]; simp [evaluatedState, c, d])
      · rename_i d
        exact same _ k (by rw [k]; simp [evaluatedState, c, d])
  | suspect =>
    dsimp only
    split
    · rename_i c
      rw [health_retireLane]
      exact set _ (by rw [k]; simp [evaluatedState, c])
    · rename_i c
      split
      · rename_i d
        exact set _ (by rw [k]; simp [evaluatedState, c, d])
      · rename_i d
        exact same _ k (by rw [k]; simp [evaluatedState, c, d])
  | retired => exact same _ k (by rw [k]; rfl)
  | offline => exact same _ k (by rw [k]; rfl)

end Sys2Proof.Machine
end

