-- ==== Sys2Proof/Laws/Steps.lean ====
section
/-! SUPPORT. What the outcome of one engine request does to a state in TRANSFER: the requests left open, the line changed, the shadow writes presented, and the answer of the whole command. -/

namespace Sys2Proof.Machine

open Sys2Proof

/-! ### Engine requests without an outcome -/

theorem engineOpen_mono {a b : PerLane LanePort}
    (h : ∀ n : Lane, (a.get n).engineOpen ≤ (b.get n).engineOpen) : engineOpen a ≤ engineOpen b := by
  have h0 := h .l0
  have h1 := h .l1
  have h2 := h .l2
  have h3 := h .l3
  unfold engineOpen
  simp only [PerLane.get] at *
  omega

/-- Presenting requests never lowers the number of engine requests without an outcome. -/
theorem engineOpen_present (n : Lane) (reqs : List Request) (s : State) :
    engineOpen s.lanes ≤ engineOpen (present n reqs s).lanes := by
  refine engineOpen_mono fun m => ?_
  show _ ≤ ((s.lanes.modify n _).get m).engineOpen
  rw [PerLane.get_modify]
  split
  · rename_i e
    subst e
    unfold LanePort.engineOpen
    simp only [List.filter_append, List.length_append]
    omega
  · exact Nat.le_refl _

theorem length_filter_erase {α : Type} [DecidableEq α] (p : α → Bool) {l : List α} {a : α} (m : a ∈ l)
    (h : p a = true) : ((l.erase a).filter p).length + 1 = (l.filter p).length := by
  have e := ((List.perm_cons_erase m).filter p).length_eq
  rw [List.filter_cons_of_pos h] at e
  simp at e
  omega

/-- The outcome of an OUTSTANDING engine request leaves one engine request fewer without an outcome. -/
theorem engineOpen_free {lane : Lane} {o : Outstanding} {s : State}
    (m : o ∈ (s.lanes.get lane).outstanding) (r : o.timer.isSome = true) (e : o.req.fromEngine = true) :
    engineOpen (freeCredit lane o s).lanes + 1 = engineOpen s.lanes := by
  have key : (s.lanes.get lane).engineOpen
      = ({ s.lanes.get lane with
            outstanding := (s.lanes.get lane).outstanding.erase o } : LanePort).engineOpen + 1 := by
    unfold LanePort.engineOpen
    have := length_filter_erase (fun o : Outstanding => o.running && o.req.fromEngine) m
      (by simp [Outstanding.running, r, e])
    simp only
    omega
  unfold freeCredit modifyLane PerLane.modify engineOpen
  cases lane <;> simp only [PerLane.get, PerLane.set] at * <;> omega

/-- With an engine request still open, a block step does not end. -/
theorem engineAdvance_open {s : State} (h : engineOpen s.lanes ≠ 0) : engineAdvance s = s := by
  unfold engineAdvance
  rw [if_neg h]

/-! ### The command -/

/-- A LANE_RESPONSE to an engine request frees its credit, tells the engine (through the lane error for a
failure), and closes the event. -/
theorem exec_engine {s : State} {h : Nat} {j : Job} {st : BlockStep} {lane : Lane} {number : Count16}
    {o : Outstanding} {part : EnginePart} {i : Nat} (resp : AxiResp) (data : LineData)
    (a : Transferring s h j st) (b : EngineRequest s lane number o part i) :
    exec (.laneResponse lane number resp data) s = .next (settle
      (if respondsOk resp then tellEngine part i lane o.req.line .ok data (freeCredit lane o s)
       else laneError lane o.req (freeCredit lane o s))) := by
  show event true _ s = _
  unfold event
  rw [a.1]
  simp only [Bool.not_false, Bool.true_and, if_true]
  unfold takeResponse
  dsimp only
  rw [b.1]
  dsimp only
  have r : o.running = true := b.2.1
  rw [if_pos r]
  congr 2
  split
  · unfold tellRequester
    rw [b.2.2]
  · rfl

/-- A command whose effect before the close leaves the line, the job, the log and the requests as asked
answers so. -/
theorem stepAnswer_of {c : Instr} {s u : State} {h : Nat} {st : BlockStep} {i : Nat} {l : LineState} {j : Job}
    {log : FaultLog} {asked : List (Lane × Request)} (e : exec c s = .next (settle u))
    (o : u.hp.seq = .opened) (d : (u.mu.commit.drain.any fun d => d.stale) = false)
    (h1 : u.engine.blockStep = some { st with lines := st.lines.set i l })
    (h2 : jobOf u.engine h = some j) (h3 : u.engine.running = some h) (h4 : u.engine.lock = s.engine.lock)
    (h5 : u.log = log) (h6 : u.mu = s.mu) (h7 : identities u = identities s)
    (h8 : ∀ q ∈ asked, (u.lanes.get q.1).Has q.2) : StepAnswer c s h st i l j log asked := by
  obtain ⟨k1, k2, _, k4, _, k6⟩ := settle_open o d
  exact ⟨_, e, by rw [k2, h1], by rw [k2, h2], by rw [k2, h3], by rw [k2, h4], by rw [k4, h5],
    by rw [k1, h6], (kept_settle u).entries.trans h7, fun q m => k6 _ _ (h8 q m)⟩

/-! ### Lines of the block step -/

theorem modify_eq_set {α : Type} {l : List α} {i : Nat} {a : α} (h : l[i]? = some a) (f : α → α) :
    l.modify i f = l.set i (f a) := by
  apply List.ext_getElem?
  intro n
  rw [List.getElem?_modify, List.getElem?_set]
  by_cases e : i = n
  · subst e
    rw [h]
    simp
    exact (List.getElem?_eq_some_iff.mp h).1
  · simp [e]

/-- Changing a line sets it, and nothing else of the state. -/
theorem modifyLine_line {s : State} {st : BlockStep} {i : Nat} {l : LineState}
    (h : s.engine.blockStep = some st) (k : st.lines[i]? = some l) (f : LineState → LineState) :
    modifyLine i f s = setStep (some { st with lines := st.lines.set i (f l) }) s := by
  unfold modifyLine
  rw [h, ← modify_eq_set k]

theorem lineState_eq {s : State} {st : BlockStep} {i : Nat} {l : LineState}
    (h : s.engine.blockStep = some st) (k : st.lines[i]? = some l) : lineState s i = some l := by
  unfold lineState
  rw [h]
  exact k

theorem set_same {α : Type} {l : List α} {i : Nat} {a : α} (h : l[i]? = some a) : l.set i a = l := by
  apply List.ext_getElem?
  intro n
  rw [List.getElem?_set]
  split
  · rename_i e
    subst e
    rw [h, if_pos (List.getElem?_eq_some_iff.mp h).1]
  · rfl

/-- A lane that is presented a request has it, and keeps what it had. -/
theorem present_has (n : Lane) (r : Request) (s : State) :
    ((present n [r] s).lanes.get n).Has r
      ∧ ∀ (m : Lane) (q : Request), (s.lanes.get m).Has q → ((present n [r] s).lanes.get m).Has q := by
  constructor
  · show ((s.lanes.modify n _).get n).Has _
    rw [PerLane.get_modify, if_pos rfl]
    exact .inl ⟨_, List.mem_append_right _ (List.mem_singleton_self _), rfl⟩
  · intro m q x
    show ((s.lanes.modify n _).get m).Has _
    rw [PerLane.get_modify]
    split
    · rename_i e
      subst e
      rcases x with ⟨w, a, b⟩ | y
      · exact .inl ⟨w, List.mem_append_left _ a, b⟩
      · exact .inr y
    · exact x

/-- Everything that presenting the shadow writes of a line does: from the k-th side on each is pending, each
leg's lane has its write, and no engine request has left. -/
theorem presentCopies_spec (i : Nat) (data : LineData) (legs : List Leg) :
    ∀ (k : Nat) (s : State) (st : BlockStep) (l : LineState), s.engine.blockStep = some st →
      st.lines[i]? = some l → k + legs.length = l.sides.length →
      let t := presentCopies i data k legs s
      t.engine = { s.engine with blockStep := some { st with lines := st.lines.set i { l with
          sides := l.sides.take k ++ legs.map fun _ => { state := .pending, data := none } } } }
      ∧ t.log = s.log ∧ t.mu = s.mu ∧ t.ift = s.ift ∧ t.hp = s.hp
      ∧ engineOpen s.lanes ≤ engineOpen t.lanes
      ∧ (∀ n r, (s.lanes.get n).Has r → (t.lanes.get n).Has r)
      ∧ ∀ m leg, legs[m]? = some leg → (t.lanes.get leg.lane).Has
          { kind := wholeLine data, line := leg.base * 32768 + (64 * st.block + i)
            requester := .engine (.shadowWrite (k + m)) i } := by
  induction legs with
  | nil =>
    intro k s st l h1 h2 h3
    refine ⟨?_, rfl, rfl, rfl, rfl, Nat.le_refl _, fun _ _ x => x, fun m leg x => by cases x⟩
    have w : l.sides.take k = l.sides := List.take_of_length_le (by simp at h3; omega)
    show s.engine = _
    simp only [List.map_nil, List.append_nil, w]
    rw [show ({ l with sides := l.sides } : LineState) = l from rfl, set_same h2]
    cases e : s.engine
    rw [e] at h1
    simp at h1
    simp [h1]
  | cons leg rest ih =>
    intro k s st l h1 h2 h3
    unfold presentCopies
    have lt : i < st.lines.length := (List.getElem?_eq_some_iff.mp h2).1
    have b : stepBlock s = st.block := by
      unfold stepBlock
      rw [h1]
      rfl
    generalize hr : ({ kind := wholeLine data, line := laneLine leg (offsetIn (stepBlock s) i)
                       requester := .engine (.shadowWrite k) i } : Request) = r
    have v : modifySide i k { state := .pending, data := none } (present leg.lane [r] s)
        = setStep (some { st with lines := st.lines.set i { l with
            sides := l.sides.set k { state := .pending, data := none } } }) (present leg.lane [r] s) :=
      modifyLine_line (show (present leg.lane [r] s).engine.blockStep = some st from h1) h2 _
    rw [v]
    obtain ⟨e1, e2, e3, e4, e5, e6, e7, e8⟩ := ih (k + 1)
      (setStep (some { st with lines := st.lines.set i { l with
        sides := l.sides.set k { state := .pending, data := none } } }) (present leg.lane [r] s))
      { st with lines := st.lines.set i { l with sides := l.sides.set k { state := .pending, data := none } } }
      { l with sides := l.sides.set k { state := .pending, data := none } } rfl (by simp [lt])
      (by simp at h3 ⊢; omega)
    refine ⟨?_, e2, e3, e4, e5, Nat.le_trans (engineOpen_present _ _ s) e6,
      fun n q x => e7 n q ((present_has leg.lane r s).2 n q x), ?_⟩
    · rw [e1]
      have lk : k < l.sides.length := by
        simp only [List.length_cons] at h3
        omega
      have w : (l.sides.set k { state := .pending, data := none }).take (k + 1)
            ++ rest.map (fun _ => ({ state := .pending, data := none } : SideState))
          = l.sides.take k ++ (leg :: rest).map (fun _ => ({ state := .pending, data := none } : SideState)) := by
        rw [List.take_add_one, List.take_set_of_le (Nat.le_refl k), List.getElem?_set_self lk]
        simp
      show ({ s.engine with blockStep := _ } : Engine) = _
      simp only [List.set_set]
      rw [w]
    · intro m other x
      cases m with
      | zero =>
        cases x
        have y := e7 leg.lane r (present_has leg.lane r s).1
        have z : r = { kind := wholeLine data, line := leg.base * 32768 + (64 * st.block + i)
                       requester := .engine (.shadowWrite k) i } := by
          rw [← hr, b]
          rfl
        rw [z] at y ⊢
        exact y
      | succ m =>
        have y := e8 m other x
        rw [show k + 1 + m = k + (m + 1) by omega] at y
        exact y

/-! ### The last outcome of a line -/

/-- The OK answers of `lastOutcome` are last outcomes: they change no job record and no log. -/
theorem LastOutcome.of_ok {s : State} {lane : Lane} {number : Count16} {resp : AxiResp} {data : LineData}
    {o : Outstanding} {part : EnginePart} {h block i : Nat} {j : Job} {d : Descriptor} {l l' : LineState}
    (r : resp = .okay ∨ resp = .exokay) (e : EngineRequest s lane number o part i)
    (w : j.phase = some .scan → ∃ repair mismatches repaired, j.work = .audit repair mismatches repaired)
    (k : lastOutcome j part l data = some l') :
    LastOutcome (.laneResponse lane number resp data) s h j d block i l l' j s.log := by
  refine .inl ⟨lane, number, resp, data, o, part, rfl, r, e, ?_⟩
  unfold lastOutcome at k
  split at k
  · rename_i p
    cases k
    exact ⟨p, rfl, rfl, rfl⟩
  · rename_i n p
    split at k
    · rename_i c
      cases k
      exact ⟨_, p, List.getElem?_eq_getElem c.2.2, rfl, .inl ⟨fun _ => c.2.1, rfl, rfl⟩⟩
    · cases k
  · rename_i p
    split at k
    · rename_i c
      cases k
      obtain ⟨a, b, n, q⟩ := w p
      exact ⟨_, a, b, n, p, c, q, .inl ⟨rfl, rfl, rfl, rfl⟩⟩
    · cases k
  · cases k

end Sys2Proof.Machine
end

