-- ==== Sys2Proof/Tests/Slice0.lean ====
section
/-! SUPPORT. Tests: the well-formedness smoke, single events of the spec's worked sequences, and a witness for the hypotheses of each statement. -/

namespace Sys2Proof.Tests

open Sys2Proof Sys2Proof.Machine

set_option Elab.async false

/-! ### Small states -/

/-- The state after a command. -/
def after (c : Instr) (s : State) : State :=
  match exec c s with
  | .next t => t
  | .fault _ => s
  | .refused _ => s

/-- The payload of the newest response. -/
def answer (s : State) : Option (Status × List Byte) :=
  s.link.fifo.getLast?.map fun r => (r.status, r.payload)

/-- The reset state: strap 0, L0 ACTIVE with 4,096 granules, slot 0 the bring-up region. -/
def ready : State := State.reset

/-- The host port closed, in HOLD. -/
def closed : State := { ready with hp := { ready.hp with seq := .hold } }

/-- PORST_N asserted. -/
def held : State := { ready with porst := true }

/-- A full response FIFO. -/
def fullLink : State :=
  { ready with link := { ready.link with fifo := List.replicate 4 (mkResponse 0x51 0 .ok []) } }

/-- A body on two legs. -/
def pair (base length : Nat) (a b : Leg) (pref : ReadPref) : Body :=
  { base := base, length := length, legA := a, legB := some b, pref := pref, access := .readWrite }

/-- A body on one leg. -/
def single (base length : Nat) (a : Leg) (access : Access) : Body :=
  { base := base, length := length, legA := a, legB := none, pref := .aFirst, access := access }

/-- A state with one more map slot. -/
def withSlot (i : Nat) (b : Body) (revision : Count16) (s : State) : State :=
  setMapSlot i { desc := some { body := b, degraded := false, job := none }, revision := revision } s

/-- A state with one more staging slot. -/
def withStage (i : Nat) (b : Option Body) (revision : Count16) (s : State) : State :=
  setStage i { body := b, basedOn := revision } s

/-- All four lanes ACTIVE with the largest capacity, and an empty map. -/
def empty : State :=
  let p := powerOn 6
  let lane : LaneHealth := { budget := 0, state := .active }
  { p with
    lanes := p.lanes.map fun _ => powerOnLane 131072
    health := { p.health with lanes := { l0 := lane, l1 := lane, l2 := lane, l3 := lane } } }

/-- 01 section 1.2.1: slot 3, granules 100 to 103, on L1 base 0 and L2 base 2,000, SPLIT, revision 7. -/
def mapped : State :=
  withSlot 3 (pair 100 4 { lane := .l1, base := 0 } { lane := .l2, base := 2000 } .split) 7
    { empty with mu.generation := 41 }

/-- One granule on L0 and L1, A_FIRST. -/
def mirror : State :=
  withSlot 0 (pair 0 1 { lane := .l0, base := 0 } { lane := .l1, base := 0 } .aFirst) 0 empty

/-- A read of a host line. -/
def readOf (line : Nat) : HostTxn := { id := 3, address := line * 64, size := 64, beats := 1, kind := .read }

/-- A write of a host line. -/
def writeOf (line : Nat) : HostTxn :=
  { id := 3, address := line * 64, size := 64, beats := 1, kind := .write (BitVec.allOnes 64) 7 }

/-- A read that waits for its answer, on the bring-up region and on the mirror; a write on the bring-up
region. -/
def reading : State := after (.hostAccept (readOf 0)) ready
def readingMirror : State := after (.hostAccept (readOf 0)) mirror
def writing : State := after (.hostAccept (writeOf 0)) ready

/-- The only entry of a table. -/
def firstEntry (s : State) : Entry := (s.ift.entries.head?).getD (newEntry 0 0 0 .read)

/-- The oldest issued request of a lane. -/
def firstIssued (n : Lane) (s : State) : Outstanding :=
  ((s.lanes.get n).outstanding.head?).getD
    { req := { kind := .read, line := 0, requester := .gone }, number := 0, timer := none }

/-- The result of a lookup. -/
def found (s : State) (line : Nat) : Lookup :=
  (lookup s.mu.slots line).getD
    { region := 0, offset := 0, legA := { lane := .l0, base := 0 }, legB := none, pref := .aFirst
      access := .readWrite, revision := 0 }

/-- The descriptor of slot 0. -/
def slot0 (s : State) : Descriptor :=
  (descOf s.mu.slots 0).getD
    { body := single 0 0 { lane := .l0, base := 0 } .readWrite, degraded := false, job := none }

/-! ### Well-formedness: each check refuses an ill-formed command -/

theorem test_wf_host_beats : (Instr.hostAccept { readOf 0 with beats := 0 }).wellFormed = false := by decide
theorem test_wf_host_beats_high :
    (Instr.hostAccept { readOf 0 with beats := 257 }).wellFormed = false := by decide
theorem test_wf_beat_of_single :
    (Instr.malformedWriteBeat { id := 0, address := 0, size := 64, beats := 1 }).wellFormed = false := by decide
theorem test_wf_beat_high :
    (Instr.malformedWriteBeat { id := 0, address := 0, size := 64, beats := 257 }).wellFormed = false := by
  decide
theorem test_wf_ignore_command_marker : (Instr.ignoreFrame 0xC3).wellFormed = false := by decide
theorem test_wf_ignore_fetch_marker : (Instr.ignoreFrame 0x3C).wellFormed = false := by decide
theorem test_wf_unknown_is_known : (Instr.unknownCommand 0x01 0 []).wellFormed = false := by decide
theorem test_wf_unknown_payload :
    (Instr.unknownCommand 0xFF 0 (List.replicate 57 0)).wellFormed = false := by decide
theorem test_wf_extra_bits : (Instr.discardedCommandFrame [] 8).wellFormed = false := by decide
theorem test_wf_payload : (Instr.identify 0 (List.replicate 57 0)).wellFormed = false := by decide
theorem test_wf_accepts : (Instr.stageWrite 0 (List.replicate 56 0)).wellFormed = true := by decide

/-- No row of the table gives bits, so no word spells a command. -/
theorem test_no_word_spells_a_command : decodeTableWord 8 0x01 = none := by decide

/-! ### Single events; the expected values stand in the spec -/

/-- 10 section 10.1: the check code over the nine digits. -/
theorem test_check_code : checkCode [0x31, 0x32, 0x33, 0x34, 0x35, 0x36, 0x37, 0x38, 0x39] = 0x29B1#16 := by
  decide +kernel

/-- 01 section 1.2.1: host byte address 210,375,232 lies in slot 3 at line offset 10,313, block 161, and SPLIT
puts leg B first. -/
theorem test_lookup_worked :
    (lookup mapped.mu.slots 3287113).map (fun l => (l.region, l.offset, l.block, firstPos l))
      = some (3, 10313, 161, .b) := by decide +kernel

/-- 01 section 1.2.1: its lane line on L2 base 2,000 is 65,546,313. -/
theorem test_read_goes_to_leg_b :
    ((after (.hostAccept (readOf 3287113)) mapped).lanes.l2.outstanding.map fun o => o.req.line)
      = [65546313] := by decide +kernel

/-- R25: a read whose address is not aligned gets SLVERR at once and is counted. -/
theorem test_malformed_read :
    let t := after (.hostAccept { readOf 0 with address := 8 }) ready
    (t.hp.malformed, t.hp.readChan, t.ift.entries.map Entry.code) = (1, some 0, [some .slverr]) := by
  decide +kernel

/-- R25: a malformed read of three beats is answered with three beats of SLVERR and zeros, the last one marked. -/
theorem test_malformed_read_beats :
    presentedResponse .read (after (.hostAccept { readOf 0 with beats := 3 }) ready)
      = some (.read (readOf 0).id
        [{ code := .slverr, data := 0, last := false }, { code := .slverr, data := 0, last := false },
         { code := .slverr, data := 0, last := true }]) := by decide +kernel

/-- R27: the first line after the bring-up region is unmapped: DECERR. -/
theorem test_unmapped_read :
    let t := after (.hostAccept (readOf 134217728)) ready
    (t.hp.unmapped, t.ift.entries.map Entry.code) = (1, [some .decerr]) := by decide +kernel

/-- R27: its last line is mapped. -/
theorem test_mapped_read :
    ((after (.hostAccept (readOf 134217727)) ready).ift.entries.map Entry.phase) = [.issued] := by
  decide +kernel

/-- R58: an OKAY answer reaches the host with its data. -/
theorem test_read_answered :
    let t := after (.laneResponse .l0 0 .okay 0xAB) reading
    (t.ift.entries.map fun e => (e.code, e.data)) = [(some .okay, 0xAB#512)] := by decide +kernel

/-- R35: the response taken frees the slot. -/
theorem test_response_taken :
    (after (.responseTaken .read) (after (.laneResponse .l0 0 .okay 0xAB) reading)).ift.entries = [] := by
  decide +kernel

/-- 03 section 3.4.1: a read that times out on leg A counts 256 on its lane and is tried on leg B. -/
theorem test_timeout_falls_back :
    let t := after (.responseTimeout .l0 0) readingMirror
    (t.lanes.l0.counters.timeouts, t.health.lanes.l0.budget, t.lanes.l1.outstanding.length) = (1, 256, 1) := by
  decide +kernel

/-- 03 section 3.4.1: the late answer is counted, weighs 32 and frees the credit. -/
theorem test_late_response :
    let t := after (.laneResponse .l0 0 .okay 0) (after (.responseTimeout .l0 0) readingMirror)
    (t.lanes.l0.counters.lateResponses, t.health.lanes.l0.budget, t.lanes.l0.outstanding.length)
      = (1, 288, 0) := by decide +kernel

/-- 01 section 1.12.1: the drop of leg B leaves slot 3 SINGLE on L1, degraded, at revision 8, generation 42. -/
theorem test_leg_drop_worked :
    let s : State := { mapped with
      mu.drops := [{ region := 3, leg := { lane := .l2, base := 2000 }, slot := none }] }
    let t := after (.legDropRequest 0) s
    (t.mu.slots[3]?, t.mu.generation) =
      (some { desc := some { body := single 100 4 { lane := .l1, base := 0 } .readWrite
                             degraded := true, job := none }
              revision := 8 }, 42#16) := by decide +kernel

/-- 02 section 2.4.1 step 3: the commit's span counts the one write in it. -/
theorem test_commit_span_counts :
    let b := single 200 4 { lane := .l1, base := 0 }
    let s := withStage 4 (some (b .readOnly)) 5 (withSlot 4 (b .readWrite) 5 empty)
    let t := after (.mapCommit 1 []) (after (.hostAccept (writeOf 6553700)) s)
    t.ift.commitSpan = some { ranges := [{ base := 200, length := 4 }, { base := 200, length := 4 }]
                              counted := [0] } := by decide +kernel

/-- 02 section 2.4.1 step 3: it is answered ACCEPTED with one slot and four granules. -/
theorem test_commit_answer :
    let b := single 200 4 { lane := .l1, base := 0 }
    let s := withStage 4 (some (b .readOnly)) 5 (withSlot 4 (b .readWrite) 5 empty)
    answer (after (.mapCommit 1 []) (after (.hostAccept (writeOf 6553700)) s))
      = some (.accepted, [1, 0, 0, 0, 4]) := by decide +kernel

/-- 08 section 8.6 steps 1 to 3: 2,900 and 256 make 3,156, and the lane is RETIRED. -/
theorem test_retirement_worked :
    let s : State := { reading with
      health.lanes := reading.health.lanes.set .l0 { budget := 2900, state := .suspect } }
    (after (.responseTimeout .l0 0) s).health.lanes.l0 = { budget := 3156, state := .retired } := by
  decide +kernel

/-- 05 section 5.9 step 1: OK with handle 0, one shadow leg and 1,024 blocks. -/
theorem test_relocate_worked :
    answer (after (.jobSubmitRelocate 1 [5, 0, 2, 0, 0, 40, 0xFF, 0, 0, 0, 0, 0])
      (withSlot 5 (single 0 2 { lane := .l0, base := 20 } .readWrite) 0 empty))
      = some (.ok, [0, 1, 0, 0, 4, 0]) := by decide +kernel

/-- 07 section 7.8: an audit of one granule has 512 blocks, and starts in SCAN. -/
theorem test_audit_starts :
    let t := after (.jobSubmitAudit 1 [0, 1]) mirror
    (answer t, (jobOf t.engine 0).map Job.phase) = (some (.ok, [0, 0, 0, 2, 0]), some (some .scan)) := by
  decide +kernel

/-- 10 section 10.3.1 step 3: ten bytes of a longer response leave it at the head. -/
theorem test_fetch_cut_short :
    (after (.fetchFrame 80) (after (.identify 0x21 []) ready)).link.fifo.length = 1 := by decide +kernel

/-- 10 section 10.3.1 step 10: a sound frame on a full FIFO counts one overrun. -/
theorem test_overrun :
    (after (.faultPop 0x27 []) fullLink).link.overruns = 1 := by decide +kernel

/-- 09 section 9.7 step 3: the record that fills the ring posts FAULT_RING_FULL with its number. -/
theorem test_ring_full :
    let record : FaultRecord := { seq := 400, generation := 90, info := { kind := .auditMismatch } }
    let log : FaultLog := { ready.log with ring := List.replicate 31 record, nextSeq := 431 }
    let t := takeRecord 90 { kind := .auditRepaired } log
    (t.ring.length, t.nextSeq, t.notices, t.alert)
      = (32, 432#16, [{ info := .faultRingFull 431, generation := 90 }], true) := by decide +kernel

/-- R169: IDENTIFY reports 4420, revision 1. -/
theorem test_identify :
    (answer (after (.identify 0 []) ready)).map (fun a => a.2.take 3) = some [0x11, 0x44, 0x01] := by
  decide +kernel

/-- R20: strap 5 gives L0 131,072 granules, strap 6 none. -/
theorem test_strap :
    ((after (.porstNDeassert ⟨5, true⟩) held).lanes.l0.capacity,
      (after (.porstNDeassert ⟨6, true⟩) held).lanes.l0.capacity) = (131072, 0) := by decide +kernel

/-- R163, R173: with CS_N low at the deassertion the link is in no state until CS_N has risen; a frame then runs. -/
theorem test_cs_low_at_deassert :
    let s := after (.porstNDeassert ⟨0, false⟩) held
    (s.link.framing, (after (.ignoreFrame 0) s).link.framingErrors) = (.unframed, 1) := by decide +kernel

/-- R163: in a command frame MISO carries 0x00, whatever the fetch before it drove. -/
theorem test_command_frame_drives_zero :
    let s := after (.fetchFrame 80) (after (.identify 0x21 []) ready)
    (s.link.misoByte 1, (after (.identify 0x22 []) s).link.misoByte 1) = (0x96, 0x00) := by decide +kernel

/-- R163, R167: a fetch of 12 bits drives 1001 0110 (0x96) and then 0101, the first four bits of FAULT_POP's code
0x50; the bit after those stands on MISO after the last fall of SCLK. -/
theorem test_fetch_partial_byte :
    let l := (after (.fetchFrame 12) (after (.faultPop 0x27 []) ready)).link
    ((List.range 13).map (fun k => l.misoBit (8 + k)), l.fifo.length)
      = ([true, false, false, true, false, true, true, false, false, true, false, true, false], 1) := by
  decide +kernel

/-- R141: a drain tick lowers a budget above 0 by one. -/
theorem test_drain_tick :
    let s : State := { ready with health.lanes := ready.health.lanes.set .l0 { budget := 9, state := .active } }
    (after .drainTick s).health.lanes.l0.budget = 8 := by decide +kernel

/-! ### Witnesses: states and operands that meet the hypotheses of each statement, clause by clause -/

theorem test_ready_link : LinkReady ready := ⟨rfl, by decide⟩

theorem test_closed_link : LinkReady closed ∧ closed.hp.seq ≠ .opened := ⟨⟨rfl, by decide⟩, by decide⟩

theorem test_rest (s : State) (h : s.lanes = ready.lanes) : ∀ n : Lane, (s.lanes.get n).Settled := by
  intro n
  rw [h]
  cases n <;> exact ⟨rfl, rfl⟩

theorem test_ready_quiet : Quiet ready := ⟨rfl, rfl, rfl, rfl, test_rest ready rfl⟩

theorem test_mirror_quiet : Quiet mirror :=
  ⟨rfl, rfl, rfl, rfl, fun n => by cases n <;> exact ⟨rfl, rfl⟩⟩

theorem test_witness_EmptyQueueLetsAMicrosecondPass :
    ready.pending = [] ∧ ready.porst = false ∧ held.pending = [] ∧ held.porst = true := by decide

theorem test_witness_EveryCommandCompletesAndKeepsPinsAndQueue :
    (∀ v, Instr.drainTick ≠ .porstNDeassert v) ∧ Instr.drainTick ≠ .porstNAssert
      ∧ Instr.drainTick ≠ .srstNAssert ∧ Instr.drainTick ≠ .srstNDeassert :=
  ⟨fun _ h => (by cases h), by decide, by decide, by decide⟩

theorem test_witness_PorstDeassertLatchesTheStrap :
    held.porst = true ∧ held.srst = false ∧ { held with srst := true }.porst = true
      ∧ { held with srst := true }.srst = true := by decide

theorem test_witness_SrstEmptiesTheTableAndEndsHold :
    let s : State := { closed with srst := true }
    let k : State := { s with ift := reading.ift }
    (reading.porst = false ∧ reading.srst = false ∧ reading.hp.seq = .opened)
    ∧ (s.porst = false ∧ s.srst = true ∧ s.hp.seq = .hold ∧ s.ift.entries = [] ∧ s.mu.commit.drain = none
      ∧ ∀ n : Lane, (s.lanes.get n).Settled)
    ∧ (k.porst = false ∧ k.srst = true ∧ k.hp.seq = .hold ∧ k.ift.entries ≠ [] ∧ k.mu.commit.drain = none) :=
  ⟨by decide +kernel, ⟨rfl, rfl, rfl, rfl, rfl, test_rest _ rfl⟩, rfl, rfl, rfl, by decide +kernel, rfl⟩

/-- Entries in the slots 0 to n - 1. -/
def entriesBelow (n : Nat) : List Entry := (List.range n).map fun i => newEntry i 0 0 .read

theorem test_full_table : ({ ready with ift.entries := entriesBelow 48 } : State).ift.Wf :=
  ⟨by decide, by decide +kernel, by decide +kernel⟩

theorem test_witness_HostAcceptTakesTheLowestFreeSlotOrNothing :
    let f : State := { ready with ift.entries := entriesBelow 48 }
    let s : State := { ready with ift.entries := entriesBelow 47 }
    (closed.porst = false ∧ closed.hp.seq ≠ .opened ∧ f.porst = false ∧ f.ift.Wf ∧ f.ift.entries.length = 48)
    ∧ (ready.porst = false ∧ ready.hp.seq = .opened ∧ (∀ e ∈ ready.ift.entries, e.slot ≠ 0)
      ∧ ∀ m, m < 0 → ∃ e ∈ ready.ift.entries, e.slot = m)
    ∧ (s.porst = false ∧ s.hp.seq = .opened ∧ (∀ e ∈ s.ift.entries, e.slot ≠ 47)
      ∧ ∀ m, m < 47 → ∃ e ∈ s.ift.entries, e.slot = m) :=
  ⟨⟨rfl, by decide, rfl, test_full_table, by decide⟩, ⟨rfl, rfl, by decide, by omega⟩, rfl, rfl,
   by decide +kernel, by decide +kernel⟩

/-- The bring-up region, READ_ONLY. -/
def sealed : State := withSlot 0 (single 0 4096 { lane := .l0, base := 0 } .readOnly) 0 ready

theorem test_witness_AccessesAnsweredWithoutALane :
    Quiet ready ∧ Quiet sealed
      ∧ (readOf 0).address % 64 = 0 ∧ { readOf 0 with address := 63 }.address % 64 ≠ 0
      ∧ { readOf 0 with size := 63 }.size ≠ 64 ∧ 1 < { readOf 0 with beats := 2 }.beats
      ∧ ready.hp.readChan = none ∧ (readOf 0).kind = .read
      ∧ ready.hp.writeBeats + 1 < 3 ∧ 2 ≤ { ready with hp.writeBeats := 1 }.hp.writeBeats + 1
      ∧ holdingSpan ready.ift 134217728 = none ∧ lookup ready.mu.slots 134217728 = none
      ∧ holdingSpan sealed.ift 0 = none ∧ lookup sealed.mu.slots 0 = some (found sealed 0)
      ∧ (found sealed 0).access = .readOnly ∧ (writeOf 0).kind = .write (BitVec.allOnes 64) 7 :=
  ⟨test_ready_quiet, ⟨rfl, rfl, rfl, rfl, test_rest sealed rfl⟩, by decide, by decide, by decide, by decide,
   rfl, rfl, by decide, by decide, by decide +kernel, by decide +kernel, by decide +kernel, by decide +kernel,
   by decide +kernel, by decide +kernel⟩

theorem test_witness_LookupFindsTheRegionOfALine :
    lookup ready.mu.slots 0 = some (found ready 0)
      ∧ lookup ready.mu.slots 134217727 = some (found ready 134217727)
      ∧ lookup ready.mu.slots 134217728 = none ∧ (134217728 : Nat) < 2 ^ 32 := by decide +kernel

/-- A lane with all 16 credits taken. -/
def busyLane : State :=
  { ready with lanes.l0 := { ready.lanes.l0 with outstanding := List.replicate 16 (firstIssued .l0 reading) } }

/-- An open commit span over granule 0. -/
def spanned : State := { ready with ift.commitSpan := some { ranges := [{ base := 0, length := 1 }], counted := [] } }

/-- A state with one entry and nothing else in progress. -/
theorem test_lone {s : State} (h : s.porst = false ∧ s.hp.seq = .opened ∧ s.ift.entries = [firstEntry s]
    ∧ (firstEntry s).code = none ∧ s.mu.commit.drain = none)
    (k : s.lanes.l0.Settled ∧ s.lanes.l1.Settled ∧ s.lanes.l2.Settled ∧ s.lanes.l3.Settled) :
    LoneEntry s (firstEntry s) :=
  ⟨h.1, h.2.1, h.2.2.1, h.2.2.2.1, h.2.2.2.2, fun n => by
    cases n
    exacts [k.1, k.2.1, k.2.2.1, k.2.2.2]⟩

theorem test_reading_lone : LoneEntry reading (firstEntry reading) :=
  test_lone (by decide +kernel) (by unfold LanePort.Settled; decide +kernel)

theorem test_writing_lone : LoneEntry writing (firstEntry writing) :=
  test_lone (by decide +kernel) (by unfold LanePort.Settled; decide +kernel)

theorem test_reading_mirror_lone : LoneEntry readingMirror (firstEntry readingMirror) :=
  test_lone (by decide +kernel) (by unfold LanePort.Settled; decide +kernel)

/-- The mirror with another read preference. -/
def preferring (pref : ReadPref) : State :=
  withSlot 0 (pair 0 1 { lane := .l0, base := 0 } { lane := .l1, base := 0 } pref) 0 empty

theorem test_preferring_quiet (pref : ReadPref) : Quiet (preferring pref) :=
  ⟨rfl, rfl, rfl, rfl, fun n => by cases n <;> exact ⟨rfl, rfl⟩⟩

theorem test_witness_ReadsAreIssuedAndDecodesWait :
    (Quiet ready ∧ Quiet busyLane ∧ Quiet spanned ∧ ∀ pref, Quiet (preferring pref))
    ∧ (let l := found ready 0
       lookup ready.mu.slots 0 = some l ∧ l.legB = none ∧ l.legA = { lane := .l0, base := 0 }
        ∧ (ready.lanes.get .l0).outstanding.length < 16 ∧ holdingSpan ready.ift 0 = none)
    ∧ (∀ x ∈ [(ReadPref.aFirst, 64), (.bFirst, 0), (.split, 0), (.split, 64)],
        let s := preferring x.1
        let l := found s x.2
        lookup s.mu.slots x.2 = some l ∧ l.legB = some { lane := .l1, base := 0 } ∧ l.pref = x.1
          ∧ l.offset / 64 % 2 = x.2 / 64 ∧ holdingSpan s.ift x.2 = none
          ∧ (s.lanes.get .l0).outstanding.length < 16 ∧ (s.lanes.get .l1).outstanding.length < 16)
    ∧ (lookup busyLane.mu.slots 0 = some (found busyLane 0) ∧ (found busyLane 0).legB = none
      ∧ 16 ≤ (busyLane.lanes.get .l0).outstanding.length ∧ holdingSpan busyLane.ift 0 = none)
    ∧ ((readOf 32767).address % 64 = 0 ∧ (readOf 32767).size = 64 ∧ (readOf 32767).beats ≤ 1)
    ∧ holdingSpan spanned.ift 32767 = some .commit
    ∧ LoneEntry writing (firstEntry writing)
    ∧ ((firstEntry writing).phase ≠ .issuing ∧ (firstEntry writing).line = (readOf 0).address / 64
      ∧ (firstEntry writing).dir = .write ∧ holdingSpan writing.ift 0 = none
      ∧ lookup writing.mu.slots 0 = some (found writing 0) ∧ (readOf 0).kind = .read) := by
  refine ⟨⟨test_ready_quiet, ⟨rfl, rfl, rfl, rfl, fun n => ?_⟩, ⟨rfl, rfl, rfl, rfl, test_rest _ rfl⟩,
    test_preferring_quiet⟩, by decide +kernel, by decide +kernel, by decide +kernel, by decide +kernel,
    by decide +kernel, test_writing_lone, by decide +kernel⟩
  cases n <;> exact ⟨rfl, rfl⟩

/-- R6: block 1 of a SPLIT region is read on leg B. -/
theorem test_split_odd_block :
    ((after (.hostAccept (readOf 64)) (preferring .split)).lanes.l1.outstanding.map fun o => o.req.line)
      = [64] := by decide +kernel

/-- A host read and an engine read that wait at a lane. -/
def hostWait : Waiting := { req := { kind := .read, line := 7, requester := .host 0 (.current .a) }, timer := 9 }
def engineWait : Waiting := { req := { kind := .read, line := 8, requester := .engine .source 0 }, timer := 9 }

/-- A lane with a host and an engine request waiting, and some engine grants in its window. -/
def contended (grants : Nat) : LanePort :=
  { ready.lanes.l0 with waiting := [hostWait, engineWait], windowGrants := 15, windowEngine := grants }

/-- R62: 16 numbers joining a list of 65,510 would carry it past 65,520, so its 16 oldest leave first; 10 fit. -/
theorem test_reclaimed_bound (old : List Reclaimed) (h : old.length = 65510) (o : Outstanding) :
    let joining := fun n : Nat => List.replicate n o
    let new : Reclaimed := { number := o.number, line := o.req.line }
    joinReclaimed { ready.lanes.l0 with reclaimed := old, outstanding := joining 16 }
        = old.drop 16 ++ List.replicate 16 new
      ∧ joinReclaimed { ready.lanes.l0 with reclaimed := old, outstanding := joining 10 }
        = old ++ List.replicate 10 new := by
  constructor <;> simp [joinReclaimed, h, Config.reclaimedMax]

/-- A lane request whose requester has gone. -/
def orphaned : State :=
  { ready with lanes.l0 := { ready.lanes.l0 with
      outstanding := [{ firstIssued .l0 reading with
        req := { (firstIssued .l0 reading).req with requester := .gone } }] } }

theorem test_witness_GrantsFollowTheWindowAndTakeFreeNumbers :
    let p : LanePort := { ready.lanes.l0 with
      outstanding := List.replicate 15 (firstIssued .l0 reading)
      reclaimed := List.replicate 65520 { number := 0, line := 0 } }
    (p.outstanding.length < 16 ∧ p.reclaimed.length ≤ 65520)
    ∧ ((contended 3).outstanding.length < 16
      ∧ ((contended 3).waiting.filter fun w => !w.req.fromEngine) = [hostWait]
      ∧ ((contended 3).waiting.filter fun w => w.req.fromEngine) = [engineWait]
      ∧ (contended 3).windowEngine < 4 ∧ 4 ≤ (contended 4).windowEngine)
    ∧ (orphaned.porst = false ∧ orphaned.hp.seq = .opened ∧ orphaned.mu.commit.drain = none
      ∧ (orphaned.lanes.get .l0).outstanding.find? (fun x => x.number == 0) = some (firstIssued .l0 orphaned)
      ∧ (firstIssued .l0 orphaned).timer.isSome = true
      ∧ (firstIssued .l0 orphaned).req.requester = .gone)
    ∧ ∀ n : Lane, (orphaned.lanes.get n).quiesce = none :=
  ⟨⟨by decide, Nat.le_of_eq List.length_replicate⟩, by decide +kernel, by decide +kernel, fun n => by
    cases n <;> rfl⟩

/-- R54: with 3 engine grants in the window and a share of 4 the engine is granted, with 4 the host; R52: the
transfer is at 64 times the lane line. -/
theorem test_contended_grant :
    ((grantOne [] 4 (contended 3)).map LanePort.waiting, (grantOne [] 4 (contended 4)).map LanePort.transfers)
      = (some [hostWait],
         some [{ kind := .read, beats := 1, beatBytes := 64, address := 448, number := 0 }]) := by
  decide +kernel

/-- Job 2 relocates the mirror to L0 and a new leg on L2, in COPY with block 0 passed and block 1 locked. -/
def copyJob : Job :=
  { life := .running none
    work := .relocate { legA := { lane := .l0, base := 0 }, legB := some { lane := .l2, base := 5 }, pref := .aFirst }
      true false false
    region := 0, blockCount := 512, phase := some .copy, cursor := 1 }

def copying : State :=
  let s := setJobField 0 (some 2) (setJob 2 (some copyJob) mirror)
  { s with engine := { s.engine with running := some 2, lock := some { region := 0, block := 1 } } }

theorem test_witness_WritesTakeEveryCurrentAndShadowLeg :
    Quiet mirror ∧ Quiet copying
      ∧ ((writeOf 0).address % 64 = 0 ∧ (writeOf 0).size = 64 ∧ (writeOf 0).beats ≤ 1)
      ∧ (holdingSpan mirror.ift 0 = none ∧ lookup mirror.mu.slots 0 = some (found mirror 0)
        ∧ (found mirror 0).access = .readWrite ∧ mirror.engine.lock = none)
      ∧ (lookup copying.mu.slots 64 = some (found copying 64)
        ∧ copying.engine.lock
          = some { region := (found copying 64).region, block := (found copying 64).offset / 64 })
      ∧ (lookup copying.mu.slots 63 = some (found copying 63)
        ∧ copying.engine.lock
          ≠ some { region := (found copying 63).region, block := (found copying 63).offset / 64 }) := by
  refine ⟨test_mirror_quiet, ⟨rfl, rfl, rfl, rfl, fun n => ?_⟩, by decide, by decide +kernel,
    by decide +kernel, by decide +kernel⟩
  cases n <;> exact ⟨rfl, rfl⟩

/-- R109: a write in a block the copy has passed goes to the new leg on L2 too; one in the locked block parks. -/
theorem test_shadow_and_parked_writes :
    ((after (.hostAccept (writeOf 63)) copying).lanes.l2.outstanding.map fun o => o.req.line,
      (after (.hostAccept (writeOf 64)) copying).ift.entries.map Entry.phase) = ([163903], [.parked]) := by
  decide +kernel

/-- R66: the lane record of a failed shadow write names the running job. -/
theorem test_shadow_failure_names_the_job :
    ((after (.responseTimeout .l2 0) (after (.hostAccept (writeOf 63)) copying)).log.ring.map fun r =>
      (r.info.kind, r.info.job)) = [(.laneTimeout, some 2), (.shadowWriteFailed, some 2)] := by decide +kernel

/-- Two answered reads of one ID, and an answered write of another whose channel presents it. -/
def answeredThree : State :=
  let done := fun (slot : Nat) (id : Fin 16) (kind : EntryKind) =>
    { newEntry slot id 0 kind with code := some .okay }
  { ready with
    ift.entries := [done 4 1 .read, done 2 1 .read, done 9 5 (.write 0 0), done 3 7 .read]
    hp := { ready.hp with readChan := some 4, writeChan := some 9 } }

theorem test_witness_ResponseTakenFreesItsSlot :
    let s := answeredThree
    (s.porst = false ∧ presented .read s = some 4 ∧ firstEntry s ∈ s.ift.entries ∧ (firstEntry s).slot = 4
      ∧ (firstEntry s).code = some .okay ∧ (firstEntry s).kind = .read ∧ (s.mu.commit.drain.any fun d => d.stale) = false)
    ∧ presented .write s = some 9 ∧ Dir.write ≠ .read ∧ (s.ift.entries.map Entry.slot).Nodup
    ∧ presented .write { s with hp.writeChan := none } = none := by
  decide +kernel

/-- R34, R35: the next of the ID becomes eligible and, oldest of its kind, is presented before the read of ID 7. -/
theorem test_next_of_its_id :
    (after (.responseTaken .read) answeredThree).hp.readChan = some 2 := by decide +kernel

/-- The first request of a lane is OUTSTANDING for a leg of the first entry. -/
theorem test_reading_issued :
    (reading.lanes.get .l0).outstanding.find? (fun x => x.number == 0) = some (firstIssued .l0 reading)
      ∧ (firstIssued .l0 reading).timer.isSome = true ∧ (firstIssued .l0 reading).req.kind = .read
      ∧ (firstIssued .l0 reading).req.requester = .host (firstEntry reading).slot (.current .a) := by
  decide +kernel

theorem test_writing_issued :
    (writing.lanes.get .l0).outstanding.find? (fun x => x.number == 0) = some (firstIssued .l0 writing)
      ∧ (firstIssued .l0 writing).timer.isSome = true ∧ (firstIssued .l0 writing).req.kind ≠ .read
      ∧ (firstIssued .l0 writing).req.requester = .host (firstEntry writing).slot (.current .a) := by
  decide +kernel

/-- A read of the mirror on its fallback leg; a write of the mirror, and the same with its first leg answered. -/
def fallenBack : State := after (.laneResponse .l0 0 .slverr 0) readingMirror
def writingMirror : State := after (.hostAccept (writeOf 0)) mirror
def halfWritten (resp : AxiResp) : State := after (.laneResponse .l0 0 resp 0) writingMirror

theorem test_fallen_back_lone : LoneEntry fallenBack (firstEntry fallenBack) :=
  test_lone (by decide +kernel) (by unfold LanePort.Settled; decide +kernel)

theorem test_half_written_lone (resp : AxiResp) : LoneEntry (halfWritten resp) (firstEntry (halfWritten resp)) := by
  cases resp <;> exact test_lone (by decide +kernel) (by unfold LanePort.Settled; decide +kernel)

/-- The n-th leg of the first entry. -/
def usedLeg (n : Nat) (s : State) : LegUse :=
  ((firstEntry s).legs[n]?).getD { pos := .b, leg := { lane := .l3, base := 1 }, line := 0, outcome := none }

theorem test_witness_LaneResponseAnswersItsEntry :
    ((firstEntry reading).kind = .read ∧ (firstEntry reading).fallback = false)
    ∧ (let e := firstEntry fallenBack
       let o := firstIssued .l1 fallenBack
       (fallenBack.lanes.get .l1).outstanding.find? (fun x => x.number == 0) = some o
        ∧ o.timer.isSome = true ∧ o.req.requester = .host e.slot (.current .b) ∧ e.kind = .read
        ∧ e.fallback = true ∧ e.legs = [usedLeg 0 fallenBack, usedLeg 1 fallenBack]
        ∧ (usedLeg 0 fallenBack).pos ≠ .b ∧ (usedLeg 1 fallenBack).pos = .b
        ∧ (usedLeg 0 fallenBack).outcome = some .error)
    ∧ ((firstEntry writing).kind = .write (BitVec.allOnes 64) 7 ∧ (firstEntry writing).phase = .issued
      ∧ (firstEntry writing).legs = [usedLeg 0 writing] ∧ (usedLeg 0 writing).pos = .a
      ∧ (firstEntry writing).shadows = [] ∧ (firstEntry writing).region = some 0
      ∧ descOf writing.mu.slots 0 = some (slot0 writing) ∧ (usedLeg 0 writing).leg ∈ (slot0 writing).body.legs
      ∧ writing.engine.blockStep = none ∧ StaysActive writing .l0 128)
    ∧ ∀ resp ∈ [AxiResp.okay, .slverr],
        let s := halfWritten resp
        let e := firstEntry s
        (s.lanes.get .l1).outstanding.find? (fun x => x.number == 0) = some (firstIssued .l1 s)
        ∧ (firstIssued .l1 s).timer.isSome = true ∧ (firstIssued .l1 s).req.kind ≠ .read
        ∧ (firstIssued .l1 s).req.requester = .host e.slot (.current .b)
        ∧ e.kind = .write (BitVec.allOnes 64) 7 ∧ e.phase = .issued ∧ e.region = some 0
        ∧ descOf s.mu.slots 0 = some (slot0 s) ∧ (∀ u ∈ e.legs, u.leg ∈ (slot0 s).body.legs)
        ∧ e.legs = [usedLeg 0 s, usedLeg 1 s] ∧ (usedLeg 1 s).pos = .b ∧ (usedLeg 0 s).pos ≠ .b
        ∧ (usedLeg 0 s).outcome = some (if resp = .okay then .ok else .error)
        ∧ StaysActive s .l1 128 := by
  unfold StaysActive
  decide +kernel

/-- A read that waits for a credit. -/
def waitingRead : State := after (.hostAccept (readOf 0)) busyLane

theorem test_witness_LaneErrorsAndLateResponsesAreCounted :
    (reading.porst = false ∧ firstIssued .l0 reading ∈ (reading.lanes.get .l0).outstanding
      ∧ (firstIssued .l0 reading).number = 0 ∧ waitingRead.porst = false
      ∧ 0 < (waitingRead.lanes.get .l0).waiting.length)
    ∧ (let s := after (.responseTimeout .l0 0) reading
       s.porst = false ∧ ∀ o ∈ (s.lanes.get .l0).outstanding, o.number = 0 → o.timer = none)
    ∧ Quiet ready ∧ (∀ o ∈ (ready.lanes.get .l1).outstanding, o.number ≠ 5)
    ∧ (∀ r ∈ (ready.lanes.get .l1).reclaimed, r.number ≠ 5)
    ∧ (ready.health.lanes.get .l1).state = .offline :=
  ⟨by decide +kernel, by decide +kernel, test_ready_quiet, by decide, by decide, by decide⟩

/-- The mirror's lane L1 about to retire, with a commit that puts a leg on it, and job 2 running. -/
def failing : State :=
  { copying with
    health.lanes := copying.health.lanes.set .l1 { budget := 3040, state := .suspect }
    mu.commit := { drain := some { members := [{ slot := 4, body := some (single 9 1 { lane := .l1, base := 9 } .readWrite) }]
                                   stale := false, timer := 1 }
                   last := .none } }

theorem test_witness_RetirementDropsLegsInSlotOrder :
    failing.porst = false ∧ failing.hp.seq = .opened ∧ failing.mu.slots.length = 64
      ∧ (failing.mu.commit.drain.any fun c => c.stale) = false
      ∧ (failing.health.lanes.get .l1).state = .suspect
      ∧ failing.health.retire ≤ weighed 32 (budgetOf failing .l1)
      ∧ (∀ o ∈ (failing.lanes.get .l1).outstanding, o.number ≠ 7)
      ∧ (∀ r ∈ (failing.lanes.get .l1).reclaimed, r.number ≠ 7)
      ∧ runningJob failing.engine = some (2, copyJob) ∧ copyJob.life = .running none := by decide +kernel

/-- R144: the leg on L1 is dropped and the commit ends STALE in the event that retires the lane. -/
theorem test_retirement_drops_and_stales :
    let t := after (.laneResponse .l1 7 .okay 0) failing
    ((descOf t.mu.slots 0).map fun d => d.body.legs, t.mu.commit.last, t.log.ring.map fun r => r.info.kind)
      = (some [{ lane := .l0, base := 0 }], .stale, [.laneStateChanged, .legDropped, .lateResponse]) := by
  decide +kernel

/-- The only request that waits at a lane. -/
def firstWaiting (n : Lane) (s : State) : Waiting :=
  ((s.lanes.get n).waiting.head?).getD { req := { kind := .read, line := 0, requester := .gone }, timer := 0 }

/-- Its region has lost leg B since the lookup. -/
def legLost : State := withSlot 0 (single 0 1 { lane := .l0, base := 0 } .readWrite) 1 readingMirror

theorem test_witness_FailedReadWithNoLegLeftIsSlverr :
    let f := firstEntry waitingRead
    let w := firstWaiting .l0 waitingRead
    ((firstEntry reading).kind = .read ∧ (firstEntry reading).lookup = some (found reading 0)
      ∧ (found reading 0).legB = none)
    ∧ ((firstEntry fallenBack).kind = .read ∧ (firstEntry fallenBack).fallback = true
      ∧ (firstEntry fallenBack).lookup = some (found fallenBack 0))
    ∧ ((firstEntry legLost).lookup.bind (fun l => l.legAt (LegPos.a).other) = some { lane := .l1, base := 0 }
      ∧ descOf legLost.mu.slots 0 = some (slot0 legLost)
      ∧ { lane := .l1, base := 0 } ∉ (slot0 legLost).body.legs)
    ∧ StaysActive reading .l0 64 ∧ StaysActive reading .l0 256
    ∧ (reading.lanes.get .l0).outstanding.find? (fun x => x.number == 0 && x.timer.isSome)
        = some (firstIssued .l0 reading)
    ∧ (f.kind = .read ∧ f.lookup = some (found waitingRead 0))
    ∧ (waitingRead.porst = false ∧ waitingRead.hp.seq = .opened ∧ waitingRead.ift.entries = [f]
      ∧ f.code = none ∧ waitingRead.mu.commit.drain = none)
    ∧ (∀ n : Lane, n ≠ .l0 → (waitingRead.lanes.get n).Settled)
    ∧ (waitingRead.lanes.get .l0).quiesce = none ∧ (waitingRead.lanes.get .l0).waiting = [w]
    ∧ w.req.kind = .read ∧ w.req.requester = .host f.slot (.current .a)
    ∧ StaysActive waitingRead .l0 256 := by
  refine ⟨by decide +kernel, by decide +kernel, by decide +kernel, by unfold StaysActive; decide +kernel,
    by unfold StaysActive; decide +kernel,
    by decide +kernel, by decide +kernel, by decide +kernel, ?_, by decide +kernel, by decide +kernel,
    by decide +kernel, by decide +kernel, by unfold StaysActive; decide +kernel⟩
  intro n h
  cases n
  · exact absurd rfl h
  all_goals (unfold LanePort.Settled; decide +kernel)

/-- A read of the mirror that waits for a credit. -/
def waitingMirror : State :=
  after (.hostAccept (readOf 0))
    { mirror with lanes.l0 := { mirror.lanes.l0 with outstanding := List.replicate 16 (firstIssued .l0 reading) } }

theorem test_witness_FailedFirstReadFallsBack :
    let l := found readingMirror 0
    let b : Leg := { lane := .l1, base := 0 }
    let w := firstWaiting .l0 waitingMirror
    ((firstEntry readingMirror).kind = .read ∧ (firstEntry readingMirror).fallback = false
      ∧ (firstEntry readingMirror).lookup = some l ∧ l.legB = some b ∧ l.legAt (LegPos.a).other = some b
      ∧ descOf readingMirror.mu.slots l.region = some (slot0 readingMirror)
      ∧ b ∈ (slot0 readingMirror).body.legs ∧ b.lane ≠ .l0)
    ∧ (StaysActive readingMirror .l0 64 ∧ StaysActive readingMirror .l0 256
      ∧ (readingMirror.lanes.get .l0).outstanding.find? (fun x => x.number == 0)
          = some (firstIssued .l0 readingMirror)
      ∧ (readingMirror.lanes.get .l0).outstanding.find? (fun x => x.number == 0 && x.timer.isSome)
          = some (firstIssued .l0 readingMirror)
      ∧ (firstIssued .l0 readingMirror).timer.isSome = true
      ∧ (firstIssued .l0 readingMirror).req.kind = .read
      ∧ (firstIssued .l0 readingMirror).req.requester = .host (firstEntry readingMirror).slot (.current .a))
    ∧ ((firstEntry waitingMirror).kind = .read ∧ (firstEntry waitingMirror).fallback = false
      ∧ (firstEntry waitingMirror).lookup = some l ∧ (firstEntry waitingMirror).code = none
      ∧ waitingMirror.ift.entries = [firstEntry waitingMirror] ∧ waitingMirror.hp.seq = .opened
      ∧ (waitingMirror.lanes.get .l0).waiting = [w] ∧ w.req.kind = .read
      ∧ w.req.requester = .host (firstEntry waitingMirror).slot (.current .a)
      ∧ StaysActive waitingMirror .l0 256) := by
  unfold StaysActive
  decide +kernel

/-- A write that waits for the answer to a leg drop request on region 0, its legs as given; job 2 of the region
keeps a leg of it. -/
def dropping (leg : Leg) (legs : List LegUse) : State :=
  { copying with
    ift.entries := [{ newEntry 12 0 0 (.write 0 0) with phase := .issued, region := some 0, legs := legs }]
    mu.drops := [{ region := 0, leg := leg, slot := some 12 }] }

/-- A leg of that write that succeeded. -/
def written (leg : Leg) : LegUse := { pos := .a, leg := leg, line := 0, outcome := some .ok }

/-- Job 2 as an audit of the region. -/
def auditing (s : State) : State :=
  setJob 2 (some { copyJob with work := .audit false 0 0, phase := some .scan }) s

/-- A commit that has slot 0 in its set. -/
def claim : CommitDrain := { members := [{ slot := 0, body := none }], stale := false, timer := 0 }

theorem test_witness_LegDropRequestIsAppliedOrIgnored :
    let s := dropping { lane := .l0, base := 0 } []
    let k := dropping { lane := .l3, base := 0 } [written { lane := .l0, base := 0 }]
    let n := dropping { lane := .l3, base := 0 } [written { lane := .l3, base := 0 }]
    (s.porst = false ∧ s.hp.seq = .opened ∧ s.mu.commit.drain = none
      ∧ s.mu.drops[0]? = some { region := 0, leg := { lane := .l0, base := 0 }, slot := some 12 }
      ∧ s.mu.slots[0]? = some { desc := some (slot0 s), revision := 0 }
      ∧ (slot0 s).body.legB = some { lane := .l1, base := 0 } ∧ (slot0 s).body.legA = { lane := .l0, base := 0 }
      ∧ entryAt s.ift.entries 12 = some (firstEntry s) ∧ (firstEntry s).code = none
      ∧ (firstEntry s).region = some 0 ∧ (firstEntry s).phase = .issued
      ∧ runningJob s.engine = some (2, copyJob) ∧ copyJob.life = .running none
      ∧ copyJob.work.kept.contains { lane := .l0, base := 0 } = true
      ∧ (runningJob (auditing s).engine).isSome = true)
    ∧ (k.mu.slots[0]? = some { desc := some (slot0 k), revision := 0 }
      ∧ { lane := .l3, base := 0 } ≠ (slot0 k).body.legA
      ∧ some { lane := .l3, base := 0 } ≠ (slot0 k).body.legB
      ∧ entryAt k.ift.entries 12 = some (firstEntry k) ∧ (firstEntry k).code = none
      ∧ (firstEntry k).region = some 0
      ∧ liveLegs (descOf k.mu.slots 0) (firstEntry k).legs = [written { lane := .l0, base := 0 }])
    ∧ (entryAt n.ift.entries 12 = some (firstEntry n) ∧ (firstEntry n).region = some 0
      ∧ liveLegs (descOf n.mu.slots 0) (firstEntry n).legs = [])
    ∧ inCommitSet s.mu 0 = false ∧ inCommitSet { s.mu with commit.drain := some claim } 0 = true
    ∧ claim.stale = false := by decide +kernel

/-- R15, R65, R126, R137: the drop of a kept leg answers the write and stops the job. -/
theorem test_drop_answers_and_stops :
    let t := after (.legDropRequest 0) (dropping { lane := .l0, base := 0 } [])
    let u := after (.legDropRequest 0) (auditing (dropping { lane := .l0, base := 0 } []))
    (t.ift.entries.map Entry.code, (jobOf t.engine 2).bind Job.stop, (jobOf u.engine 2).bind Job.stop)
      = ([some .okay], some (.failed .targetLegLost none), some (.failed .regionDegraded none)) := by
  decide +kernel

/-- A lane that quiesces with a TIMED_OUT request. -/
def quiescing : State :=
  { ready with
    hp := { ready.hp with seq := .quiesce }
    lanes.l0 := { ready.lanes.l0 with
      quiesce := some 0, outstanding := [{ firstIssued .l0 reading with timer := none }] } }

/-- The port in QUIESCE and lane L0 quiescing. -/
def atBound (s : State) : State :=
  { s with
    hp := { s.hp with seq := .quiesce }
    lanes := s.lanes.modify .l0 fun p => { p with quiesce := some 0 } }

/-- The read of the bring-up region waits at its lane. -/
def onlyWaiting : State :=
  { reading with lanes.l0 := { ready.lanes.l0 with
      waiting := [{ req := (firstIssued .l0 reading).req, timer := 5 }] } }

/-- Job 2 stops for a reset, its one request on L0 a repair. -/
def resetJob : Job := { copyJob with life := .running (some .reset) }
def stopping : State :=
  let s := setJob 2 (some resetJob) copying
  { s with
    engine := { s.engine with stopping := true }
    lanes.l0 := { s.lanes.l0 with outstanding :=
      [{ firstIssued .l0 reading with req := { kind := .read, line := 0, requester := .engine .source 0 } }] } }

theorem test_witness_QuiesceExpiryReclaimsCredits :
    let r := atBound reading
    let w := atBound onlyWaiting
    let e := atBound stopping
    (quiescing.porst = false ∧ quiescing.hp.seq ≠ .entryDrain ∧ quiescing.mu.commit.drain = none
      ∧ (quiescing.lanes.get .l0).quiesce.isSome = true ∧ (quiescing.lanes.get .l0).waiting = []
      ∧ (∀ o ∈ (quiescing.lanes.get .l0).outstanding, o.timer = none))
    ∧ (r.porst = false ∧ (r.lanes.get .l0).quiesce.isSome = true ∧ r.hp.seq ≠ .entryDrain
      ∧ r.mu.commit.drain = none ∧ r.ift.entries = [firstEntry r] ∧ (firstEntry r).kind = .read
      ∧ (firstEntry r).code = none ∧ (firstEntry r).lookup = some (found r 0) ∧ (found r 0).legB = none
      ∧ (r.lanes.get .l0).outstanding = [firstIssued .l0 r] ∧ (r.lanes.get .l0).waiting = []
      ∧ (firstIssued .l0 r).timer.isSome = true ∧ (firstIssued .l0 r).req.kind = .read
      ∧ (firstIssued .l0 r).req.requester = .host (firstEntry r).slot (.current .a))
    ∧ StaysActive r .l0 256
    ∧ (w.porst = false ∧ (w.lanes.get .l0).quiesce.isSome = true ∧ w.ift.entries = [firstEntry w]
      ∧ (firstEntry w).code = none ∧ (w.lanes.get .l0).outstanding = []
      ∧ (w.lanes.get .l0).waiting = [firstWaiting .l0 w] ∧ (firstWaiting .l0 w).req.kind = .read
      ∧ (firstWaiting .l0 w).req.requester = .host (firstEntry w).slot (.current .a))
    ∧ (e.porst = false ∧ (e.lanes.get .l0).quiesce.isSome = true ∧ e.ift.entries = []
      ∧ e.mu.commit.drain = none ∧ e.engine.queue = [] ∧ runningJob e.engine = some (2, resetJob)
      ∧ resetJob.life = .running (some .reset) ∧ e.engine.stopping = true
      ∧ (e.lanes.get .l0).outstanding = [firstIssued .l0 e] ∧ (e.lanes.get .l0).waiting = []
      ∧ (firstIssued .l0 e).timer.isSome = true
      ∧ (firstIssued .l0 e).req.requester = .engine .source 0 ∧ engineOpen e.lanes = 1)
    ∧ StaysActive e .l0 256 := by
  unfold StaysActive
  refine ⟨?_, ?_, ?_, ?_, ?_, ?_⟩ <;> decide +kernel

/-- R62: an OUTSTANDING read is counted and told TIMEOUT, a WAITING one is told and not counted, and a stopping
job finishes. -/
theorem test_quiesce_bound :
    let r := after (.quiesceTimeout .l0) (atBound reading)
    let w := after (.quiesceTimeout .l0) (atBound onlyWaiting)
    let e := after (.quiesceTimeout .l0) (atBound stopping)
    (r.ift.entries.map Entry.code, r.lanes.l0.counters.timeouts, budgetOf r .l0) = ([some .slverr], 1, 256)
    ∧ (w.ift.entries.map Entry.code, w.lanes.l0.counters.timeouts) = ([some .slverr], 0)
    ∧ (jobOf e.engine 2).map Job.life = some (.finished .resetAborted) := by decide +kernel

theorem test_witness_EntryDrainExpiryAnswersEveryEntry :
    let s := after (.bridgeReset 0 []) reading
    s.porst = false ∧ s.hp.seq = .entryDrain ∧ s.hp.entryTimer.isSome = true ∧ s.mu.commit.drain = none
      ∧ firstEntry s ∈ s.ift.entries ∧ (firstEntry s).code = none := by decide +kernel

/-- Job 2 of the mirror in a phase at block 1, its block step begun; the job is an audit in SCAN. -/
def stepping (j : Job) : State := settle (beginStep (setJob 2 (some j) { copying with engine.lock := none }))

def verifyJob : Job := { copyJob with phase := some .verify }
def scanJob : Job := { copyJob with work := .audit true 0 0, phase := some .scan }

/-- The running block step, and its line 0. -/
def stepOf (s : State) : BlockStep :=
  s.engine.blockStep.getD { block := 0, stage := .lockWait, writeWait := 0, lines := [] }
def lineZero (s : State) : LineState := ((stepOf s).lines[0]?).getD (freshLine 0)

/-- A state in TRANSFER, with its first request of a lane a part of line 0. -/
def serves (j : Job) (lane : Lane) (part : EnginePart) (s : State) : Prop :=
  Transferring s 2 j (stepOf s) ∧ EngineRequest s lane 0 (firstIssued lane s) part 0
    ∧ (stepOf s).lines[0]? = some (lineZero s) ∧ 1 < engineOpen s.lanes
    ∧ descOf s.mu.slots j.region = some (slot0 s)

/-- Line 0 with its source read, with a source read that has failed once, and with each read of a verify. -/
def copied : State := after (.laneResponse .l0 0 .okay 5) (stepping copyJob)
def retried : State := after (.laneResponse .l0 0 .slverr 5) (stepping copyJob)
def sourced : State := after (.laneResponse .l0 0 .okay 5) (stepping verifyJob)

theorem test_witness_CopyAndVerifyRequestOutcomes :
    (serves copyJob .l0 .source (stepping copyJob)
      ∧ (lineZero (stepping copyJob)).sides.length = copyJob.work.shadows.length
      ∧ (firstIssued .l0 (stepping copyJob)).req.kind = .read ∧ StaysActive (stepping copyJob) .l0 64
      ∧ (slot0 (stepping copyJob)).body.legs.find? (fun x => !(lineZero (stepping copyJob)).tried.contains x)
        = some { lane := .l1, base := 0 })
    ∧ (serves copyJob .l2 (.shadowWrite 0) copied ∧ (firstIssued .l2 copied).req.kind ≠ .read
      ∧ StaysActive copied .l2 128)
    ∧ (serves copyJob .l1 .source retried ∧ (firstIssued .l1 retried).req.kind = .read
      ∧ StaysActive retried .l1 64
      ∧ (slot0 retried).body.legs.find? (fun x => !(lineZero retried).tried.contains x) = none)
    ∧ (serves verifyJob .l0 .source (stepping verifyJob) ∧ verifyJob.phase = some .verify)
    ∧ (serves verifyJob .l2 (.verifyRead 0) (stepping verifyJob)
      ∧ verifyJob.work.shadows[0]? = some { lane := .l2, base := 5 }
      ∧ (lineZero (stepping verifyJob)).readA ≠ .ok
      ∧ (firstIssued .l2 (stepping verifyJob)).req.kind = .read ∧ StaysActive (stepping verifyJob) .l2 64)
    ∧ (serves verifyJob .l2 (.verifyRead 0) sourced ∧ (lineZero sourced).readA = .ok
      ∧ (lineZero sourced).data = some 5) := by
  unfold serves Transferring EngineRequest StaysActive
  refine ⟨?_, ?_, ?_, ?_, ?_, ?_⟩ <;> decide +kernel

theorem test_error_fails {s : State} {lane : Lane} {number : Count16} {resp : AxiResp} {data : LineData}
    {part : EnginePart} {kind : FaultKind} {weight : Nat} (h : resp = .slverr ∨ resp = .decerr)
    (e : EngineRequest s lane number (firstIssued lane s) part 0)
    (k : ((firstIssued lane s).req.kind = .read ∧ kind = .laneReadError ∧ weight = 64)
      ∨ ((firstIssued lane s).req.kind ≠ .read ∧ kind = .laneWriteError ∧ weight = 128)) :
    EngineFailure (.laneResponse lane number resp data) s lane part 0 (firstIssued lane s).req kind weight :=
  ⟨e.2.2, .inl ⟨number, resp, data, _, rfl, h, e, rfl, k⟩⟩

theorem test_timeout_fails {s : State} {lane : Lane} {number : Count16} {part : EnginePart}
    (e : EngineRequest s lane number (firstIssued lane s) part 0)
    (n : ((s.lanes.get lane).outstanding.map Outstanding.number).Nodup) :
    EngineFailure (.responseTimeout lane number) s lane part 0 (firstIssued lane s).req .laneTimeout 256 :=
  ⟨e.2.2, .inr (.inl ⟨number, _, rfl, e, rfl, n, rfl, rfl⟩)⟩

/-- The requests of a block step fail by an error, by a response timer and by a credit-wait timer. -/
theorem test_witness_CopyAndVerifyRequestOutcomes_failures :
    let c := stepping copyJob
    let v := stepping verifyJob
    (EngineFailure (.laneResponse .l0 0 .slverr 5) c .l0 .source 0 (firstIssued .l0 c).req .laneReadError 64
      ∧ EngineFailure (.responseTimeout .l0 0) c .l0 .source 0 (firstIssued .l0 c).req .laneTimeout 256
      ∧ StaysActive c .l0 256)
    ∧ (EngineFailure (.responseTimeout .l1 0) retried .l1 .source 0 (firstIssued .l1 retried).req .laneTimeout 256
      ∧ StaysActive retried .l1 256)
    ∧ (EngineFailure (.laneResponse .l2 0 .decerr 5) copied .l2 (.shadowWrite 0) 0 (firstIssued .l2 copied).req
        .laneWriteError 128
      ∧ EngineFailure (.responseTimeout .l2 0) copied .l2 (.shadowWrite 0) 0 (firstIssued .l2 copied).req
        .laneTimeout 256
      ∧ StaysActive copied .l2 256)
    ∧ (EngineFailure (.creditWaitTimeout .l2 0) v .l2 (.verifyRead 0) 16 (firstWaiting .l2 v).req .laneTimeout 256
      ∧ StaysActive v .l2 256 ∧ ((stepOf v).lines[16]?).isSome = true) := by
  refine ⟨⟨test_error_fails (.inl rfl) ?_ (.inl ?_), test_timeout_fails ?_ ?_, ?_⟩,
    ⟨test_timeout_fails ?_ ?_, ?_⟩,
    ⟨test_error_fails (.inr rfl) ?_ (.inr ?_), test_timeout_fails ?_ ?_, ?_⟩,
    ⟨⟨?_, .inr (.inr ⟨0, _, rfl, ?_, rfl, rfl, rfl⟩)⟩, ?_, ?_⟩⟩
  all_goals first
    | decide +kernel
    | (unfold EngineRequest; decide +kernel)
    | (unfold StaysActive; decide +kernel)

/-- R113, R118: a source read that times out is tried on leg B; a shadow write that times out stops the job. -/
theorem test_engine_timeouts :
    let t := after (.responseTimeout .l0 0) (stepping copyJob)
    let u := after (.responseTimeout .l2 0) copied
    ((lineZero t).tried.map Leg.lane, t.log.ring.map (fun r => r.info.kind),
      u.log.ring.map (fun r => r.info.kind), (jobOf u.engine 2).bind Job.stop)
      = ([.l0, .l1], [.laneTimeout], [.laneTimeout, .shadowWriteFailed],
        some (.failed .shadowWrite (some { lane := .l2, line := 163904 }))) := by decide +kernel

/-- R112: a source read's data is written on the shadow leg, at its own lane line. -/
theorem test_copy_presents_shadow_write :
    (copied.lanes.l2.outstanding.map fun o => (o.req.line, o.req.kind)) = [(163904, wholeLine 5)] := by
  decide +kernel

/-- R120: a copy that differs from the source is recorded and raises VERIFY_MISMATCH. -/
theorem test_verify_mismatch :
    let t := after (.laneResponse .l2 0 .okay 6) sourced
    (t.log.ring.map (fun r => r.info.kind), (jobOf t.engine 2).bind Job.stop)
      = ([.verifyMismatch], some (.failed .verifyMismatch (some { lane := .l2, line := 163904 }))) := by
  decide +kernel

/-- Line 0 of an audit with its leg A read, and with its repair write presented. -/
def auditRead : State := after (.laneResponse .l0 0 .okay 5) (stepping scanJob)
def repairing : State := after (.laneResponse .l1 0 .okay 6) auditRead
def countedJob : Job := { scanJob with work := .audit true 1 0 }
def plainJob : Job := { scanJob with work := .audit false 0 0 }
def haltedJob : Job := { scanJob with life := .running (some .cancel) }

theorem test_witness_AuditRequestOutcomes :
    (serves scanJob .l0 .auditA (stepping scanJob)
      ∧ (slot0 (stepping scanJob)).body.legB = some { lane := .l1, base := 0 }
      ∧ (firstIssued .l0 (stepping scanJob)).req.kind = .read ∧ StaysActive (stepping scanJob) .l0 64)
    ∧ (serves scanJob .l1 .auditB auditRead ∧ (lineZero auditRead).data = some 5
      ∧ (firstIssued .l1 auditRead).req.kind = .read ∧ StaysActive auditRead .l1 64)
    ∧ (Transferring repairing 2 countedJob (stepOf repairing)
      ∧ EngineRequest repairing .l1 1 (firstIssued .l1 repairing) .repair 0
      ∧ 1 < engineOpen repairing.lanes ∧ (firstIssued .l1 repairing).req.kind ≠ .read
      ∧ StaysActive repairing .l1 128)
    ∧ serves plainJob .l1 .auditB (setJob 2 (some plainJob) auditRead)
    ∧ serves haltedJob .l0 .auditA (setJob 2 (some haltedJob) (stepping scanJob))
    ∧ serves haltedJob .l1 .auditB (setJob 2 (some haltedJob) auditRead) := by
  unfold serves Transferring EngineRequest StaysActive
  refine ⟨?_, ?_, ?_, ?_, ?_, ?_⟩ <;> decide +kernel

theorem test_witness_AuditRequestOutcomes_failures :
    let a := stepping scanJob
    (EngineFailure (.laneResponse .l0 0 .slverr 5) a .l0 .auditA 0 (firstIssued .l0 a).req .laneReadError 64
      ∧ EngineFailure (.responseTimeout .l0 0) a .l0 .auditA 0 (firstIssued .l0 a).req .laneTimeout 256
      ∧ StaysActive a .l0 256)
    ∧ (EngineFailure (.responseTimeout .l1 0) auditRead .l1 .auditB 0 (firstIssued .l1 auditRead).req
        .laneTimeout 256
      ∧ StaysActive auditRead .l1 256)
    ∧ (EngineFailure (.responseTimeout .l1 1) repairing .l1 .repair 0 (firstIssued .l1 repairing).req
        .laneTimeout 256
      ∧ StaysActive repairing .l1 256) := by
  refine ⟨⟨test_error_fails (.inl rfl) ?_ (.inl ?_), test_timeout_fails ?_ ?_, ?_⟩,
    ⟨test_timeout_fails ?_ ?_, ?_⟩, ⟨test_timeout_fails ?_ ?_, ?_⟩⟩
  all_goals first
    | decide +kernel
    | (unfold EngineRequest; decide +kernel)
    | (unfold StaysActive; decide +kernel)

/-- R133, R134: a difference is recorded and repaired with leg A's data. -/
theorem test_audit_repair :
    (repairing.log.ring.map (fun r => r.info.kind), (firstIssued .l1 repairing).req.kind)
      = ([.auditMismatch], wholeLine 5) := by decide +kernel

/-- A block step whose only open request is the first of a lane, for line 0, with every other line as given. -/
def lastRequest (lane : Lane) (line : LineState) (s : State) : State :=
  let one : LanePort := { s.lanes.get lane with waiting := [], outstanding := [firstIssued lane s] }
  { s with
    lanes := (s.lanes.map fun p => { p with waiting := [], outstanding := [] }).set lane one
    engine.blockStep := some { stepOf s with lines := lineZero s :: List.replicate 63 line } }

/-- The last outcome of a block: of a copy, of a verify, of an audit; at block 511 with a stop request or
without; and with the verify option. -/
def done (j : Job) (part : EnginePart) (s : State) : LineState := (lastOutcome j part (lineZero s) 5).getD (freshLine 0)
def closing (j : Job) (lane : Lane) (part : EnginePart) (s : State) : State :=
  let u := setJob 2 (some j) s
  lastRequest lane (done j part u)
    { u with engine := { u.engine with
        blockStep := some { stepOf u with block := j.cursor }
        lock := some { region := 0, block := j.cursor } } }

/-- The hypotheses of a block's end. -/
def ends (j : Job) (phase : JobPhase) (lane : Lane) (part : EnginePart) (s : State) : Prop :=
  Transferring s 2 j (stepOf s) ∧ EngineRequest s lane 0 (firstIssued lane s) part 0
    ∧ (stepOf s).lines[0]? = some (lineZero s) ∧ engineOpen s.lanes = 1
    ∧ descOf s.mu.slots j.region = some (slot0 s) ∧ (slot0 s).job = some 2 ∧ j.phase = some phase
    ∧ lastOutcome j part (lineZero s) 5 = some (done j part s)
    ∧ ∀ x ∈ (stepOf s).lines.set 0 (done j part s), lineFinished phase x = true

def lastBlock (j : Job) : Job := { j with cursor := 511 }
def checkedJob : Job :=
  { lastBlock copyJob with
    work := .relocate { legA := { lane := .l0, base := 0 }, legB := some { lane := .l2, base := 5 }, pref := .aFirst }
      true false true }
def cancelledJob : Job := { copyJob with life := .running (some .cancel) }

/-- The last outcome is an OK answer. -/
theorem test_last_ok {j : Job} {phase : JobPhase} {lane : Lane} {part : EnginePart} {s : State}
    (e : ends j phase lane part s) (w : phase ≠ .scan ∨ j.work = .audit true 0 0) :
    LastOutcome (.laneResponse lane 0 .okay 5) s 2 j (slot0 s) (stepOf s).block 0 (lineZero s) (done j part s) j
      s.log := by
  obtain ⟨_, e, _, _, _, _, p, k, _⟩ := e
  refine LastOutcome.of_ok (.inl rfl) e (fun q => ?_) k
  rw [p] at q
  cases q
  exact w.elim (fun n => absurd rfl n) fun w => ⟨_, _, _, w⟩

/-- Copies that end: the last with an entry in the host range, with its kept leg lost, with a MIRROR target on a
RETIRED lane, and with a job of another region behind it that copies, or that drops a leg. -/
def lastCopy : State := closing (lastBlock copyJob) .l2 (.shadowWrite 0) copied
def lastCopyLost : State :=
  setJobField 0 (some 2) (withSlot 0 (single 0 1 { lane := .l1, base := 0 } .readWrite) 0 lastCopy)
def lastCopyRetired : State :=
  { lastCopy with health.lanes := lastCopy.health.lanes.set .l2 { budget := 4000, state := .retired } }
def behind (work : JobWork) (s : State) : State :=
  let u := withSlot 3 (pair 9 1 { lane := .l0, base := 9 } { lane := .l3, base := 0 } .aFirst) 0
    (setJob 5 (some { copyJob with
      life := .queued, work := work, region := 3, phase := none, cursor := 0 }) s)
  { u with engine.queue := [5] }
def dropWork : JobWork :=
  .relocate { legA := { lane := .l3, base := 0 }, legB := none, pref := .aFirst } true false false
def copyWork : JobWork :=
  .relocate { legA := { lane := .l2, base := 90 }, legB := none, pref := .aFirst } false false false

theorem test_witness_BlockStepEnds :
    ends copyJob .copy .l2 (.shadowWrite 0) (closing copyJob .l2 (.shadowWrite 0) copied)
    ∧ ends cancelledJob .copy .l2 (.shadowWrite 0) (closing cancelledJob .l2 (.shadowWrite 0) copied)
    ∧ (ends (lastBlock copyJob) .copy .l2 (.shadowWrite 0) lastCopy ∧ lastCopy.engine.queue = []
      ∧ lastCopy.mu.slots[0]? = some { desc := some (slot0 lastCopy), revision := 0 }
      ∧ (∀ leg ∈ copyJob.work.kept, leg ∈ (slot0 lastCopy).body.legs)
      ∧ (∀ e ∈ lastCopy.ift.entries, inRanges [(slot0 lastCopy).body.range] e.line = false))
    ∧ (ends (lastBlock copyJob) .copy .l2 (.shadowWrite 0) lastCopyLost
      ∧ ∃ leg ∈ copyJob.work.kept, leg ∉ (slot0 lastCopyLost).body.legs)
    ∧ (ends (lastBlock copyJob) .copy .l2 (.shadowWrite 0) lastCopyRetired
      ∧ (lastCopyRetired.health.lanes.get .l2).state = .retired)
    ∧ ends checkedJob .copy .l2 (.shadowWrite 0) (closing checkedJob .l2 (.shadowWrite 0) copied)
    ∧ ends (lastBlock verifyJob) .verify .l2 (.verifyRead 0)
        (closing (lastBlock verifyJob) .l2 (.verifyRead 0) sourced)
    ∧ (ends (lastBlock scanJob) .scan .l1 .auditB (closing (lastBlock scanJob) .l1 .auditB auditRead)
      ∧ (lastBlock scanJob).work = .audit true 0 0)
    ∧ ∃ e ∈ reading.ift.entries, inRanges [(slot0 copied).body.range] e.line = true := by
  unfold ends Transferring EngineRequest
  refine ⟨?_, ?_, ?_, ?_, ?_, ?_, ?_, ?_, ?_⟩ <;> decide +kernel

/-- Queues that the statements on what follows a job take: with a copy at the head, and with a leg dropped. -/
theorem test_witness_QueueReady :
    QueueReady lastCopy lastCopy.engine.queue [2] [0]
    ∧ QueueReady (behind copyWork lastCopy) (behind copyWork lastCopy).engine.queue [2] [0]
    ∧ QueueReady (behind dropWork lastCopy) (behind dropWork lastCopy).engine.queue [2] [0]
    ∧ firstPhase copyWork ≠ .switch ∧ firstPhase dropWork = .switch := by
  refine ⟨.inl (by decide +kernel),
    .inr ⟨5, { copyJob with life := .queued, work := copyWork, region := 3, phase := none, cursor := 0 }, [],
      by decide +kernel, by decide, by decide +kernel, by decide +kernel, fun h => absurd h (by decide)⟩,
    .inr ⟨5, { copyJob with life := .queued, work := dropWork, region := 3, phase := none, cursor := 0 }, [],
      by decide +kernel, by decide, by decide +kernel, by decide +kernel,
      fun _ => ⟨by decide, fun _ _ => .inl rfl⟩⟩, by decide, by decide⟩

/-- A last outcome that is a failure: the shadow write of the closing copy times out. -/
theorem test_witness_BlockStepEnds_failure :
    let s := lastCopy
    let j := lastBlock copyJob
    let line := (firstIssued .l2 s).req.line
    let error := takeRecord s.mu.generation
      { kind := .laneTimeout, lane := some .l2, region := some 0, laneLine := some line, job := some 2 } s.log
    LastOutcome (.responseTimeout .l2 0) s 2 j (slot0 s) (stepOf s).block 0 (lineZero s)
        { lineZero s with sides := (lineZero s).sides.set 0 { state := .failed, data := none } }
        (j.stopped j.stop (.failed .shadowWrite (some { lane := .l2, line := line })))
        (takeRecord s.mu.generation
          { kind := .shadowWriteFailed, lane := some .l2, region := some 0
            hostLine := some ((slot0 s).body.base * 32768 + (64 * (stepOf s).block + 0)), laneLine := some line
            job := some 2 } error)
      ∧ ∀ x ∈ (stepOf s).lines.set 0
          { lineZero s with sides := (lineZero s).sides.set 0 { state := .failed, data := none } },
        lineFinished .copy x = true := by
  refine ⟨.inr ⟨.l2, .shadowWrite 0, _, .laneTimeout, 256, test_timeout_fails ?_ ?_, ?_, _, _, _, _, rfl, rfl, rfl,
    rfl, rfl⟩, ?_⟩
  · unfold EngineRequest; decide +kernel
  · decide +kernel
  · unfold StaysActive; decide +kernel
  · decide +kernel

/-- R115, R122: the block after, and the entry to SWITCH. -/
theorem test_block_step_ends :
    let t := after (.laneResponse .l2 0 .okay 5) (closing copyJob .l2 (.shadowWrite 0) copied)
    let u := after (.laneResponse .l2 0 .okay 5) { lastCopy with ift := reading.ift }
    (t.engine.lock, (jobOf u.engine 2).map Job.phase, u.ift.switchSpan.map Span.counted)
      = (some { region := 0, block := 2 }, some (some .switch), some [0]) := by decide +kernel

/-- R122, R123, R125: with nothing counted the target is installed in the event that ends the copy, and so is the
target of the job behind it, which drops a leg. -/
theorem test_switch_installs_at_once :
    let t := after (.laneResponse .l2 0 .okay 5) (behind dropWork lastCopy)
    ((jobOf t.engine 2).map Job.life, (jobOf t.engine 5).map Job.life, t.mu.generation,
      (descOf t.mu.slots 0).map fun d => d.body.legB, (descOf t.mu.slots 3).map fun d => d.body.legA)
      = (some (.finished .done), some (.finished .done), 2, some (some { lane := .l2, base := 5 }),
        some { lane := .l3, base := 0 }) := by decide +kernel

/-- A commit that drains, with nothing counted any more. -/
def draining : State :=
  { empty with
    mu.commit := { drain := some { members := [{ slot := 4, body := none }], stale := false, timer := 0 }
                   last := .none }
    ift.commitSpan := some { ranges := [], counted := [] } }

theorem test_witness_CommitDrainEndsInstalledOrTimedOut :
    let d : CommitDrain := { members := [{ slot := 4, body := none }], stale := false, timer := 0 }
    draining.porst = false ∧ draining.hp.seq = .opened ∧ draining.mu.commit.drain = some d ∧ d.stale = false
      ∧ draining.ift.commitSpan = some { ranges := [], counted := [] }
      ∧ (d.members.map CommitMember.slot).Nodup ∧ ∀ m ∈ d.members, m.slot < draining.mu.slots.length := by
  decide +kernel

/-- A relocation of the mirror in SWITCH, with nothing counted any more. -/
def moving : Job :=
  { life := .running none
    work := .relocate { legA := { lane := .l0, base := 0 }, legB := none, pref := .aFirst } true false false
    region := 0, blockCount := 512, phase := some .switch, cursor := 512 }

def switching : State :=
  let s := setJobField 0 (some 2) (setJob 2 (some moving) mirror)
  { s with
    engine := { s.engine with running := some 2, switchTimer := some 0 }
    ift.switchSpan := some { ranges := [], counted := [] } }

/-- The same with a job of another region queued; with a stop request; with its kept leg lost; and with a
MIRROR target on a RETIRED lane. -/
def nextJob : Job := { copyJob with life := .queued, region := 3, phase := none, cursor := 0 }

def switchingQueued : State :=
  let s := withSlot 3 (pair 9 1 { lane := .l0, base := 0 } { lane := .l3, base := 0 } .aFirst) 0
    (setJob 5 (some nextJob) switching)
  { s with engine.queue := [5] }

def stoppedJob : Job := { moving with life := .running (some .cancel) }

def mirrorJob : Job :=
  { moving with
    work := .relocate { legA := { lane := .l0, base := 0 }, legB := some { lane := .l2, base := 5 }, pref := .aFirst }
      true false false }

theorem test_witness_SwitchDrainEndsInstalledOrTimedOut :
    let t : Target := { legA := { lane := .l0, base := 0 }, legB := none, pref := .aFirst }
    let stopped := setJob 2 (some stoppedJob) switching
    let lost := withSlot 0 (single 0 1 { lane := .l1, base := 0 } .readWrite) 1 switching
    let retired := { setJob 2 (some mirrorJob) switching with
      health.lanes := switching.health.lanes.set .l2 { budget := 4000, state := .retired } }
    (switching.porst = false ∧ runningJob switching.engine = some (2, moving) ∧ switching.engine.queue = []
      ∧ switching.mu.commit.drain = none
      ∧ switching.ift.switchSpan = some { ranges := [], counted := [] }
      ∧ moving.life = .running none ∧ switching.engine.switchTimer.isSome = true
      ∧ moving.work = .relocate t true false false
      ∧ switching.mu.slots[moving.region]? = some { desc := some (slot0 switching), revision := 0 }
      ∧ (slot0 switching).job = some 2
      ∧ (∀ leg ∈ moving.work.kept, leg ∈ (slot0 switching).body.legs) ∧ t.legB = none)
    ∧ (switchingQueued.engine.queue = [5] ∧ jobOf switchingQueued.engine 5 = some nextJob
      ∧ nextJob.region ≠ moving.region ∧ startCheck nextJob switchingQueued = none
      ∧ firstPhase nextJob.work ≠ .switch)
    ∧ ((behind dropWork switching).engine.queue = [5]
      ∧ jobOf (behind dropWork switching).engine 5 = some { nextJob with work := dropWork }
      ∧ startCheck { nextJob with work := dropWork } (behind dropWork switching) = none
      ∧ firstPhase dropWork = .switch
      ∧ ∀ e ∈ (behind dropWork switching).ift.entries, e.line < 9 * 32768)
    ∧ runningJob stopped.engine = some (2, stoppedJob)
    ∧ (∃ leg ∈ moving.work.kept, leg ∉ (slot0 lost).body.legs)
    ∧ (runningJob retired.engine = some (2, mirrorJob)
      ∧ (∀ leg ∈ mirrorJob.work.kept, leg ∈ (slot0 retired).body.legs)
      ∧ (retired.health.lanes.get .l2).state = .retired) := by decide +kernel

/-- The audit of the region in slot 3, which has lost its mirror, and the same job with the mirror there. -/
def auditJob : Job := { nextJob with work := .audit false 0 0 }
def failingHead : State :=
  let s := withSlot 3 (single 9 1 { lane := .l0, base := 9 } .readWrite) 0
    (setJob 4 (some auditJob) (setJob 5 (some { nextJob with region := 0 }) switching))
  { s with engine.queue := [4, 5] }

theorem test_witness_FailedStartChecksFinishTheJob :
    let s := failingHead
    (descOf s.mu.slots 3).map (fun d => d.body.legB) = some none
    ∧ (∃ leg ∈ mirrorJob.work.kept, leg ∉ (single 0 1 { lane := .l1, base := 0 } .readWrite).legs)
    ∧ (mirrorJob.work.shadows = [{ lane := .l2, base := 5 }])
    ∧ (s.porst = false ∧ s.hp.seq = .opened ∧ runningJob s.engine = some (2, moving)
      ∧ moving.life = .running none ∧ s.mu.commit.drain = none
      ∧ s.ift.switchSpan = some { ranges := [], counted := [] } ∧ s.engine.switchTimer.isSome = true
      ∧ s.engine.queue = [4, 5] ∧ jobOf s.engine 4 = some auditJob
      ∧ startCheck auditJob s = some .regionDegraded
      ∧ jobOf s.engine 5 = some { nextJob with region := 0 }
      ∧ startCheck { nextJob with region := 0 } s = none ∧ firstPhase nextJob.work ≠ .switch) := by
  decide +kernel

/-- R97: the audit fails its check and the relocation behind it starts, in the event that ends the switch. -/
theorem test_failed_start :
    let t := after .switchTimerExpiry failingHead
    ((jobOf t.engine 4).map Job.life, t.engine.running, t.log.notices.map Notice.info)
      = (some (.finished (.failed .regionDegraded none)), some 5,
        [.jobFinished 2 .failed, .jobFinished 4 .failed]) := by decide +kernel

/-- A HELD read in the span of a commit that drains, and of a switch drain. -/
def heldIn (hold : Hold) (s : State) : State :=
  let e : Entry := { newEntry 0 3 0 .read with phase := .held, hold := some hold }
  let sp : Span := { ranges := [{ base := 0, length := 1 }], counted := [] }
  match hold with
  | .commit => { s with ift := { s.ift with entries := [e], commitSpan := some sp } }
  | .switch => { s with ift := { s.ift with entries := [e], switchSpan := some sp } }

/-- A read of the mirror that an issued request answers, and behind it a write and a read of its line. -/
def lineWaiters : State :=
  after (.hostAccept (readOf 0)) (after (.hostAccept (writeOf 0)) readingMirror)
def waiter (n : Nat) : Entry := (lineWaiters.ift.entries[n]?).getD (newEntry 0 0 0 .read)

/-- The write parked on the block that ends. -/
def parkedWrite (j : Job) : State :=
  let s := closing j .l2 (.shadowWrite 0) copied
  { s with ift.entries :=
      [{ newEntry 0 3 64 (.write 0 7) with
        line := 64, phase := .parked, region := some 0, lookup := some (found s 64) }] }

theorem test_witness_WaitingEntriesGoOn :
    (let c := heldIn .commit { draining with mu.slots := mirror.mu.slots }
     let w := heldIn .switch switching
     (c.porst = false ∧ c.hp.seq = .opened ∧ c.engine.queue = [] ∧ c.mu.commit.drain ≠ none
      ∧ (c.mu.commit.drain.any fun d => d.stale) = false
      ∧ c.ift.commitSpan = some { ranges := [{ base := 0, length := 1 }], counted := [] }
      ∧ inRanges [{ base := 0, length := 1 }] ((readOf 0).address / 64) = true
      ∧ c.ift.entries = [{ newEntry 0 3 (readOf 0).address (txnKind (readOf 0)) with
          phase := .held, hold := some .commit }])
     ∧ (w.porst = false ∧ w.hp.seq = .opened ∧ w.engine.queue = [] ∧ w.mu.commit.drain = none
      ∧ w.ift.switchSpan = some { ranges := [{ base := 0, length := 1 }], counted := [] }
      ∧ (runningJob w.engine).isSome = true ∧ w.engine.switchTimer.isSome = true
      ∧ w.ift.entries = [{ newEntry 0 3 (readOf 0).address (txnKind (readOf 0)) with
          phase := .held, hold := some .switch }])
     ∧ (∀ n : Lane, (c.lanes.get n).Settled) ∧ ∀ n : Lane, (w.lanes.get n).Settled)
    ∧ (let s := lineWaiters
       s.porst = false ∧ s.hp.seq = .opened ∧ s.mu.commit.drain = none
        ∧ s.ift.entries = [firstEntry s, waiter 1, waiter 2] ∧ (s.ift.entries.map Entry.slot).Nodup
        ∧ (firstEntry s).code = none ∧ (firstEntry s).phase = .issued
        ∧ (s.lanes.get .l0).outstanding.find? (fun x => x.number == 0) = some (firstIssued .l0 s)
        ∧ (firstIssued .l0 s).timer.isSome = true
        ∧ (firstIssued .l0 s).req.requester = .host (firstEntry s).slot (.current .a)
        ∧ (firstEntry s).kind = .read ∧ (firstEntry s).fallback = false ∧ s.engine.blockStep = none
        ∧ (waiter 1).phase = .lineWait ∧ (waiter 1).line = (firstEntry s).line ∧ (waiter 1).code = none
        ∧ (waiter 1).lookup = some (found s 0) ∧ (waiter 1).kind = .write (BitVec.allOnes 64) 7
        ∧ (waiter 2).phase = .lineWait ∧ (waiter 2).line = (firstEntry s).line ∧ (waiter 2).code = none)
    ∧ (∀ n : Lane, (lineWaiters.lanes.get n).Settled)
    ∧ ∀ j ∈ [copyJob, cancelledJob],
        let s := parkedWrite j
        ends j .copy .l2 (.shadowWrite 0) s
        ∧ s.engine.lock = some { region := j.region, block := j.cursor } ∧ s.ift.entries = [firstEntry s]
        ∧ (firstEntry s).phase = .parked ∧ (firstEntry s).code = none ∧ (firstEntry s).kind = .write 0 7
        ∧ (firstEntry s).lookup = some (found s 64) ∧ (found s 64).region = j.region
        ∧ (found s 64).offset / 64 = j.cursor ∧ holdingSpan s.ift (firstEntry s).line = none
        ∧ lookup s.mu.slots (firstEntry s).line = some (found s 64)
        ∧ (found s 64).access = .readWrite ∧ j.cursor + 1 < j.blockCount ∧ s.engine.queue = [] := by
  refine ⟨⟨by decide +kernel, by decide +kernel, fun n => ?_, fun n => ?_⟩, by decide +kernel, fun n => ?_, ?_⟩
  · cases n <;> exact ⟨rfl, rfl⟩
  · cases n <;> exact ⟨rfl, rfl⟩
  · cases n <;> (unfold LanePort.Settled; decide +kernel)
  · unfold ends Transferring EngineRequest
    intro j h
    cases h with
    | head => refine ⟨?_, ?_, ?_⟩ <;> decide +kernel
    | tail _ h => cases h with
      | head => refine ⟨?_, ?_, ?_⟩ <;> decide +kernel
      | tail _ h => cases h

/-- R28, R30, R31: the held read is issued, the write goes on and the read behind it stays, and the parked write
takes the shadow leg after a step and not after a stop. -/
theorem test_waiting_entries_go_on :
    let c := after .commitDrainTimeout (heldIn .commit { draining with mu.slots := mirror.mu.slots })
    let l := after (.laneResponse .l0 0 .okay 5) lineWaiters
    let p := fun j => after (.laneResponse .l2 0 .okay 5) (parkedWrite j)
    (c.ift.entries.map Entry.phase, l.ift.entries.map Entry.phase,
      (p copyJob).ift.entries.map (fun e => e.shadows.length),
      (p cancelledJob).ift.entries.map (fun e => e.shadows.length))
      = ([.issued], [.orderWait, .issued, .lineWait], [1], [0]) := by decide +kernel

theorem test_witness_DrainTickLowersBudgetsAndEvaluates :
    ready.porst = false ∧ ready.health.drainTimer.isSome = true := by decide

theorem test_witness_FetchRemovesTheHeadWhenClockedWhole :
    let s := after (.identify 0x21 []) ready
    let r := (s.link.fifo.head?).getD (mkResponse 0 0 .ok [])
    ready.porst = false ∧ ready.link.fifo = [] ∧ s.porst = false ∧ s.link.fifo = [r]
      ∧ 7 + r.payload.length ≤ 168 / 8 ∧ 167 / 8 < 7 + r.payload.length := by decide +kernel

theorem test_witness_DroppedAndDiscardedFramesAreCounted :
    ready.porst = false ∧ (0x00 : Byte) ≠ 0x3C ∧ (0x00 : Byte) ≠ 0xC3
      ∧ (¬∃ (code tag len : Byte) (rest : List Byte), ([1, 2] : List Byte) = code :: tag :: len :: rest
          ∧ len.toNat ≤ 56 ∧ rest.length = len.toNat + 2 ∧ 0 = 0)
      ∧ ((0 : Byte).toNat * 256 + (0 : Byte).toNat ≠ (checkCode ([0x01, 0x05, 0] ++ [])).toNat)
      ∧ (fullLink.porst = false ∧ (checkCode ([0x01, 0x05, 0] ++ [])).toNat
        = (BitVec.ofNat 8 ((checkCode [0x01, 0x05, 0]).toNat / 256)).toNat * 256
          + (BitVec.ofNat 8 (checkCode [0x01, 0x05, 0]).toNat).toNat)
      ∧ frameOf (.identify 5 []) = some (0x01, 5, []) ∧ 4 ≤ fullLink.link.fifo.length
      ∧ LinkReady ready ∧ (0xFF : Byte) ∉ knownCodes :=
  ⟨rfl, by decide, by decide, by rintro ⟨_, _, _, _, h, _⟩; simp at h, by decide +kernel,
   ⟨by decide, by decide +kernel⟩, rfl, by decide, test_ready_link, by decide⟩

theorem test_witness_EveryCommandFrameAppendsOneResponse :
    frameOf (.stageWrite 7 (List.replicate 56 0)) = some (0x21, 7, List.replicate 56 0)
      ∧ (List.replicate 56 (0 : Byte)).length ≤ 56 ∧ LinkReady ready :=
  ⟨rfl, by decide, test_ready_link⟩

theorem test_witness_IdentifyAndCountReads : LinkReady ready ∧ ([0] : List Byte).length ≤ 56 :=
  ⟨test_ready_link, by decide⟩

theorem test_witness_StatusAndCounterSnapshots :
    (LinkReady ready ∧ ready.log.Wf ∧ ready.ift.Wf ∧ SizesWf ready ∧ ready.link.Wf)
    ∧ (LinkReady copying ∧ runningJob copying.engine = some (2, copyJob) ∧ copyJob.phase = some .copy)
    ∧ draining.mu.commit.drain.any (fun c => c.members.length ≤ 64) = true :=
  ⟨⟨test_ready_link, ⟨by decide, by decide, by decide, by decide⟩, ⟨by decide, by decide, by decide⟩,
    ⟨by decide, by decide, by decide⟩, by decide, fun _ h => (by cases h), by decide, by decide, by decide⟩,
   ⟨⟨rfl, by decide⟩, by decide +kernel, rfl⟩, by decide⟩

theorem test_witness_LaneAndJobSnapshots :
    LinkReady switching ∧ parseLane [3] = some .l3 ∧ (ready.lanes.get .l3).Wf
      ∧ (ready.lanes.get .l3).Configured ∧ ready.health.Wf ∧ parseHandle [7] = some 7
      ∧ jobOf switching.engine 7 = none ∧ parseHandle [2] = some 2 ∧ jobOf switching.engine 2 = some moving
      ∧ moving.region < 64 ∧ moving.blockCount < 2 ^ 32 ∧ moving.cursor < 2 ^ 32 := by
  refine ⟨⟨rfl, by decide⟩, by decide, ?_, ?_, ?_, by decide, by decide +kernel, by decide, by decide +kernel,
    by decide, by decide, by decide⟩
  · exact ⟨by decide, by decide, by decide, by decide, by decide, by decide, by decide, by decide, by decide,
      by decide⟩
  · exact ⟨by decide, by decide, by decide⟩
  · exact ⟨fun n => by cases n <;> decide, by decide, by decide, by decide, by decide, by decide⟩

theorem test_witness_CounterClearsAndSettings :
    LinkReady ready ∧ ready.hp.seq = .opened ∧ LinkReady closed ∧ closed.hp.seq ≠ .opened
      ∧ (3 : Byte).toNat < 4 ∧ (∀ b : Byte, ([4] : List Byte) = [b] → 4 ≤ b.toNat ∧ b ≠ 0xFF)
      ∧ (0 : Byte).toNat * 256 + (0 : Byte).toNat = 0 ∧ (0 : Byte).toNat * 256 + (1 : Byte).toNat ≠ 0
      ∧ (16 : Byte).toNat > 15 ∧ (15 : Byte).toNat ≤ 15 ∧ (64 : Byte).toNat ≥ 64 ∧ (63 : Byte).toNat < 64 :=
  ⟨test_ready_link, rfl, test_closed_link.1, test_closed_link.2, by decide, by
    rintro b h
    cases h
    decide, by decide, by decide, by decide, by decide, by decide, by decide⟩

theorem test_witness_MapAndStageSnapshots :
    LinkReady ready ∧ parseSlot [0] = some 0 ∧ parseSlot [63] = some 63
      ∧ descOf ready.mu.slots 0 = some (slot0 ready) ∧ (slot0 ready).body.base < 2 ^ 24
      ∧ (slot0 ready).body.length < 2 ^ 24 ∧ (∀ leg ∈ (slot0 ready).body.legs, leg.base < 2 ^ 24)
      ∧ descOf ready.mu.slots 63 = none
      ∧ (stageOf ready.mu.staging 0).body = some (slot0 ready).body
      ∧ (let b := pair (2 ^ 24 - 1) 1 { lane := .l0, base := 0 } { lane := .l3, base := 2 ^ 24 - 1 } .split
         b.base < 2 ^ 24 ∧ b.length < 2 ^ 24 ∧ ∀ leg ∈ b.legs, leg.base < 2 ^ 24) :=
  ⟨test_ready_link, by decide, by decide, by decide +kernel, by decide +kernel, by decide +kernel,
   by decide +kernel, by decide +kernel, by decide +kernel, by decide⟩

/-- STAGE_WRITE's payload: slot 63, base 0, length 1, MIRROR on L0 base 0 and L1 base 0. -/
def stagePayload : List Byte := [63, 0, 0, 0, 0, 0, 1, 1, 0, 0, 0, 0, 1, 0, 0, 0, 0, 0, 0, 9]

theorem test_witness_StagingCommandsSetTheirSlots :
    LinkReady ready ∧ SizesWf ready ∧ ready.hp.seq = .opened ∧ LinkReady closed ∧ SizesWf closed
      ∧ closed.hp.seq ≠ .opened ∧ stagePayload.length ≤ 56
      ∧ parseStageWrite stagePayload
        = some (63, pair 0 1 { lane := .l0, base := 0 } { lane := .l1, base := 0 } .aFirst, 9#16)
      ∧ parseStageWrite [0] = none ∧ 64 ≤ (64 : Byte).toNat ∧ (63 : Byte).toNat < 64
      ∧ LinkReady mapped ∧ mapped.hp.seq = .opened ∧ (mapped.mu.slots[3]?).isSome = true :=
  ⟨test_ready_link, ⟨by decide, by decide, by decide⟩, rfl, test_closed_link.1,
   ⟨by decide, by decide, by decide⟩, test_closed_link.2, by decide, by decide +kernel, by decide, by decide,
   by decide, ⟨rfl, by decide⟩, rfl, by decide +kernel⟩

/-- Slot 63 staged with one granule on a leg, at a based-on revision. -/
def staged (leg : Leg) (revision : Count16) : State :=
  withStage 63 (some (single 0 1 leg .readWrite)) revision empty

/-- The changed slot 0 has a job. -/
def stagedBusy : State := withStage 0 none 0 switching

theorem test_witness_MapCommitTestsInOrder :
    let ok := staged { lane := .l3, base := 131071 } 0
    let bad := staged { lane := .l3, base := 131072 } 0
    let old := staged { lane := .l3, base := 131071 } 1
    (LinkReady closed ∧ closed.hp.seq ≠ .opened)
    ∧ (LinkReady draining ∧ draining.hp.seq = .opened ∧ draining.mu.commit.drain ≠ none)
    ∧ (LinkReady ready ∧ changedSlots ready.mu = [])
    ∧ (changedSlots ok.mu = [63] ∧ structuralFailure ok = none ∧ LinkReady ok)
    ∧ (changedSlots bad.mu = [63] ∧ (structuralFailure bad).isSome = true)
    ∧ (changedSlots old.mu = [63] ∧ structuralFailure old = none
      ∧ (stageOf old.mu.staging 63).basedOn ≠ revisionOf old.mu.slots 63)
    ∧ (changedSlots stagedBusy.mu = [0] ∧ structuralFailure stagedBusy = none
      ∧ (stageOf stagedBusy.mu.staging 0).basedOn = revisionOf stagedBusy.mu.slots 0
      ∧ (descOf stagedBusy.mu.slots 0).bind Descriptor.job = some 2) := by
  refine ⟨test_closed_link, ⟨⟨rfl, by decide⟩, rfl, by decide⟩, ⟨test_ready_link, by decide +kernel⟩,
    ⟨by decide +kernel, by decide +kernel, rfl, by decide⟩, by decide +kernel, by decide +kernel,
    by decide +kernel⟩

theorem test_witness_AcceptedCommitInstallsOrDrains :
    let ok := staged { lane := .l3, base := 131071 } 0
    let k : State := { ok with ift := reading.ift }
    (LinkReady ok ∧ SizesWf ok) ∧ (ok.hp.seq = .opened ∧ ok.mu.commit.drain = none
      ∧ changedSlots ok.mu ≠ [] ∧ structuralFailure ok = none ∧ staleSlot ok.mu = none
      ∧ busySlot ok.mu = none ∧ ok.ift.entries = [])
    ∧ ∃ e ∈ k.ift.entries, inRanges (affectedRanges k.mu) e.line = true :=
  ⟨⟨⟨rfl, by decide⟩, by decide +kernel, by decide +kernel, by decide⟩, by decide +kernel, by decide +kernel⟩

/-- Lane L3 in a state, L3 empty. -/
def laneThree (st : LaneState) : State :=
  { empty with health.lanes := empty.health.lanes.set .l3 { budget := 9, state := st } }

/-- Slot 63 staged behind slot 62, in ways that fail the checks one by one. -/
def stagedPair (b : Body) : State :=
  withStage 62 (some (single 5 2 { lane := .l3, base := 7 } .readWrite)) 0 (withStage 63 (some b) 0 empty)

theorem test_witness_StructuralChecksNameTheFirstFailure :
    let ok := staged { lane := .l3, base := 131071 } 0
    let answers := fun s => (structuralFailure s).map failureDetail
    let reserved : State := withStage 63 (some (single 0 1 { lane := .l2, base := 5 } .readWrite)) 0 copying
    (structuralFailure ok = none
      ∧ (stageOf ok.mu.staging 63).body = some (single 0 1 { lane := .l3, base := 131071 } .readWrite)
      ∧ changedSlot ok.mu 63 = true)
    ∧ answers (stagedPair (single 131071 2 { lane := .l0, base := 0 } .readWrite))
      = some [0, 63, 0xFF, 0xFF, 0xFF]
    ∧ answers (stagedPair (pair 0 1 { lane := .l1, base := 0 } { lane := .l1, base := 4 } .aFirst))
      = some [1, 63, 0xFF, 1, 0xFF]
    ∧ answers (staged { lane := .l3, base := 131072 } 0) = some [2, 63, 0xFF, 3, 0xFF]
    ∧ answers (withStage 63 (some (single 0 1 { lane := .l3, base := 0 } .readWrite)) 0 (laneThree .offline))
      = some [3, 63, 0xFF, 3, 0xFF]
    ∧ answers (stagedPair (single 6 1 { lane := .l0, base := 0 } .readWrite)) = some [4, 63, 62, 0xFF, 0xFF]
    ∧ answers (stagedPair (single 7 1 { lane := .l3, base := 8 } .readWrite)) = some [5, 63, 62, 3, 0xFF]
    ∧ answers reserved = some [6, 63, 0xFF, 2, 2] := by decide +kernel

theorem test_witness_LaneConfigTestsInOrder :
    LinkReady ready ∧ LinkReady closed ∧ closed.hp.seq ≠ .opened ∧ parseLaneConfig [0, 0, 0, 0, 0, 0] = none
      ∧ parseLaneConfig [0, 0, 0, 0, 0, 1] = some (.l0, 0, 1)
      ∧ parseLaneConfig [0, 0, 0x0F, 0xFF, 0, 1] = some (.l0, 4095, 1)
      ∧ parseLaneConfig [0, 2, 0, 0, 0xFF, 0xFF] = some (.l0, 131072, 65535)
      ∧ (ready.health.lanes.get .l0).state ≠ .offline
      ∧ ((occupancy ready ++ commitItems ready.mu).map fun item => (item.lane, item.start + item.len))
        = [(.l0, 4096)] :=
  ⟨test_ready_link, test_closed_link.1, test_closed_link.2, by decide, by decide, by decide, by decide,
   by decide, by decide +kernel⟩

theorem test_witness_HealthConfigTakesItsValues :
    LinkReady ready ∧ ready.hp.seq = .opened ∧ LinkReady closed ∧ closed.hp.seq ≠ .opened
      ∧ (1 ≤ (0 : Byte).toNat * 256 + (1 : Byte).toNat
        ∧ (0 : Byte).toNat * 256 + (1 : Byte).toNat < (0x0F : Byte).toNat * 256 + (0xFF : Byte).toNat
        ∧ (0x0F : Byte).toNat * 256 + (0xFF : Byte).toNat ≤ 4095)
      ∧ ¬(0x10 : Byte).toNat * 256 + (0 : Byte).toNat ≤ 4095 :=
  ⟨test_ready_link, rfl, test_closed_link.1, test_closed_link.2, by decide, by decide⟩

theorem test_witness_LaneStateCommands :
    (LinkReady (laneThree .suspect) ∧ parseLane [3] = some .l3) ∧ ((laneThree .suspect).hp.seq = .opened
      ∧ occupancy (laneThree .suspect) ++ commitItems (laneThree .suspect).mu = []
      ∧ ((laneThree .suspect).lanes.get .l3).waiting = []
      ∧ ((laneThree .suspect).lanes.get .l3).outstanding = []
      ∧ ((laneThree .suspect).health.lanes.get .l3).state = .suspect)
    ∧ (LinkReady ready ∧ ready.hp.seq = .opened ∧ (ready.health.lanes.get .l0).state = .active
      ∧ ∃ item ∈ occupancy ready ++ commitItems ready.mu, item.lane = .l0)
    ∧ ((busyLane.lanes.get .l0).outstanding ≠ [] ∧ (ready.health.lanes.get .l1).state = .offline
      ∧ (ready.lanes.get .l1).capacity = 0
      ∧ ((laneThree .offline).health.lanes.get .l3).state = .offline
      ∧ ((laneThree .offline).lanes.get .l3).capacity ≠ 0
      ∧ ((laneThree .retired).health.lanes.get .l3).state = .retired) :=
  ⟨⟨⟨rfl, by decide⟩, by decide⟩, by decide +kernel, ⟨test_ready_link, rfl, rfl, by decide +kernel⟩,
   by decide +kernel⟩

/-- JOB_SUBMIT_RELOCATE's payload: region 0 to SINGLE on L2 base 5. -/
def movePayload : List Byte := [0, 0, 2, 0, 0, 5, 0xFF, 0, 0, 0, 0, 0]

/-- The target of that payload. -/
def moveTarget : Target := { legA := { lane := .l2, base := 5 }, legB := none, pref := .aFirst }

/-- Another job runs. -/
def engaged (s : State) : State :=
  { setJob 1 (some { moving with region := 9 }) s with engine.running := some 1 }

theorem test_witness_JobSubmissionTestsAndQueue :
    let s := engaged mirror
    let full : State := { mirror with engine.jobs := List.replicate 8 (some moving) }
    (LinkReady s ∧ LinkReady full ∧ s.hp.seq = .opened ∧ movePayload.length ≤ 56)
    ∧ (parseAudit [0, 1] = some (0, true) ∧ parseRelocate movePayload = some (0, moveTarget, false))
    ∧ (∀ j ∈ full.engine.jobs, j ≠ none)
    ∧ (s.engine.jobs[0]? = some none ∧ ∀ k, k < 0 → s.engine.jobs[k]? ≠ some none)
    ∧ (s.mu.slots[0]? = some { desc := some (slot0 s), revision := 0 } ∧ (slot0 s).job = none
      ∧ inCommitSet s.mu 0 = false ∧ (slot0 s).body.legB ≠ none ∧ s.engine.running ≠ none
      ∧ targetFailure moveTarget (slot0 s) s = none ∧ moveTarget.legA ≠ (slot0 s).body.legA)
    ∧ (descOf s.mu.slots 63 = none ∧ (slot0 switching).job ≠ none ∧ (slot0 ready).body.legB = none) :=
  ⟨⟨⟨rfl, by decide⟩, ⟨rfl, by decide⟩, rfl, by decide⟩, by decide +kernel, by decide +kernel,
   ⟨by decide +kernel, by omega⟩, by decide +kernel, by decide +kernel⟩

/-- R93: a target on one lane, one that overlaps its own region's leg, one on an OFFLINE lane, one beyond a lane,
and one on another region's leg. -/
theorem test_witness_TargetTestsFailInOrder :
    let d := slot0 mirror
    let at_ := fun (lane : Lane) (base : Nat) =>
      ({ legA := { lane := lane, base := base }, legB := none, pref := .aFirst } : Target)
    let off : State := { mirror with health.lanes := mirror.health.lanes.set .l3 { budget := 0, state := .offline } }
    let wide : Descriptor := { d with body := { d.body with length := 4 } }
    let other : State := withSlot 7 (single 9 1 { lane := .l2, base := 5 } .readWrite) 0 mirror
    targetFailure (at_ .l2 5) d mirror = none
    ∧ (failsLanePair { at_ .l2 5 with legB := some { lane := .l2, base := 9 } }).length = 2
    ∧ targetFailure (at_ .l0 2) wide mirror = some [1, 0, 0xFF, 0xFF, 0xFF]
    ∧ targetFailure (at_ .l3 5) d off = some [2, 0, 0xFF, 0xFF, 0xFF]
    ∧ targetFailure (at_ .l2 131072) d mirror = some [3, 0, 0xFF, 0xFF, 0xFF]
    ∧ targetFailure (at_ .l2 5) d other = some [4, 0, 2, 0, 7] := by decide +kernel

/-- A payload that drops leg B of the mirror, and its target. -/
def dropPayload : List Byte := [0, 0, 0, 0, 0, 0, 0xFF, 0, 0, 0, 0, 0]
def dropTarget : Target := { legA := { lane := .l0, base := 0 }, legB := none, pref := .aFirst }

/-- R97, R125: with nothing counted the drop of a copy is installed in the acceptance event; with a read of the
region in the table its drain counts it. -/
theorem test_switch_start :
    let t := after (.jobSubmitRelocate 0 dropPayload) mirror
    let u := after (.jobSubmitRelocate 0 dropPayload) readingMirror
    ((jobOf t.engine 0).map Job.life, (descOf t.mu.slots 0).map fun d => (d.body.legB, d.job), t.mu.generation,
      u.engine.running, u.ift.switchSpan.map Span.counted)
      = (some (.finished .done), some (none, none), 1, some 0, some [0]) := by decide +kernel

theorem test_witness_SubmittedJobStartsWhenNoneRuns :
    (LinkReady mirror ∧ parseRelocate dropPayload = some (0, dropTarget, false)
      ∧ dropTarget ≠ (slot0 mirror).body.target ∧ targetFailure dropTarget (slot0 mirror) mirror = none
      ∧ dropTarget.legs.filter (fun leg => !(slot0 mirror).body.legs.contains leg) = []
      ∧ mirror.engine.lock = none ∧ mirror.engine.blockStep = none
      ∧ (∃ e ∈ readingMirror.ift.entries, inRanges [(slot0 readingMirror).body.range] e.line = true))
    ∧ (mirror.hp.seq = .opened ∧ mirror.ift.entries = [] ∧ mirror.mu.commit.drain = none
      ∧ mirror.engine.running = none ∧ mirror.engine.queue = [] ∧ mirror.engine.jobs[0]? = some none
      ∧ mirror.mu.slots[0]? = some { desc := some (slot0 mirror), revision := 0 }
      ∧ (slot0 mirror).job = none ∧ 1 ≤ (slot0 mirror).body.length ∧ (slot0 mirror).body.legB ≠ none
      ∧ moveTarget ≠ (slot0 mirror).body.target ∧ targetFailure moveTarget (slot0 mirror) mirror = none
      ∧ moveTarget.legs.filter (fun leg => !(slot0 mirror).body.legs.contains leg) ≠ []
      ∧ parseRelocate movePayload = some (0, moveTarget, false)) :=
  ⟨⟨⟨rfl, by decide⟩, by decide +kernel⟩, by decide +kernel⟩

/-- Job 1 runs in COPY, job 2 is queued behind it. -/
def queued : State :=
  let s := setJob 1 (some { moving with region := 9, phase := some .copy })
    (setJob 2 (some { moving with life := .queued, phase := none }) (setJobField 0 (some 2) mirror))
  { s with engine := { s.engine with running := some 1, queue := [2] } }

theorem test_witness_JobCancelAndClearBySlotState :
    LinkReady queued ∧ LinkReady switching ∧ (queued.hp.seq = .opened ∧ switching.hp.seq = .opened
      ∧ parseHandle [2] = some 2 ∧ jobOf queued.engine 0 = none
      ∧ jobOf queued.engine 2 = some { moving with life := .queued, phase := none }
      ∧ queued.engine.running = some 1
      ∧ jobOf queued.engine 1 = some { moving with region := 9, phase := some .copy }
      ∧ jobOf switching.engine 2 = some moving ∧ moving.phase = some .switch
      ∧ jobOf (setJob 0 (some { moving with life := .finished .done }) mirror).engine 0
        = some { moving with life := .finished .done }) :=
  ⟨⟨rfl, by decide⟩, ⟨rfl, by decide⟩, by decide +kernel⟩

theorem test_witness_PopsAndFaultReset :
    let r : FaultRecord := { seq := 0, generation := 0, info := { kind := .legDropped } }
    let n : Notice := { info := .resetDone true, generation := 0 }
    LinkReady ready ∧ ready.log.ring = [] ∧ ready.log.notices = []
      ∧ { ready.log with ring := [r] }.ring = r :: [] ∧ { ready.log with notices := [n] }.notices = n :: [] :=
  ⟨test_ready_link, rfl, rfl, rfl, rfl⟩

theorem test_witness_BridgeResetKeepsTheEntries :
    LinkReady closed ∧ closed.hp.seq ≠ .opened ∧ LinkReady reading ∧ reading.hp.seq = .opened
      ∧ LoneEntry reading (firstEntry reading)
      ∧ ((firstEntry reading).phase = .issued ∧ reading.engine.running = none ∧ reading.engine.queue = [])
      ∧ Quiet ready ∧ ready.srst = false ∧ (∀ n : Lane, (ready.lanes.get n).outstanding = []) :=
  ⟨test_closed_link.1, test_closed_link.2, ⟨by decide +kernel, by decide +kernel⟩, by decide +kernel,
   test_reading_lone, by decide +kernel, test_ready_quiet, rfl, fun n => by cases n <;> rfl⟩

theorem test_witness_RefusalsByLengthAndByReset :
    frameOf (.mapRead 1 [0, 0]) = some (0x10, 1, [0, 0]) ∧ (0x10 : Byte) ∈ knownCodes
      ∧ ([0, 0] : List Byte).length ∉ payloadLengths 0x10 ∧ LinkReady ready ∧ LinkReady closed
      ∧ closed.hp.seq ≠ .opened ∧ parseStageWrite stagePayload ≠ none ∧ parseStageRemove [63, 0, 0] ≠ none
      ∧ parseLaneConfig [0, 0, 0, 1, 0, 1] ≠ none ∧ parseLaneSelect [0xFF] ≠ none
      ∧ parseHealth [0, 1, 0, 2, 0, 1] ≠ none ∧ parseLane [3] ≠ none ∧ parseRelocate movePayload ≠ none
      ∧ parseAudit [63, 1] ≠ none ∧ parseHandle [7] ≠ none :=
  ⟨rfl, by decide, by decide, test_ready_link, test_closed_link.1, test_closed_link.2, by decide +kernel,
   by decide, by decide, by decide, by decide, by decide, by decide +kernel, by decide, by decide⟩

/-- A commit drains, job 2 runs in COPY with a request OUTSTANDING, and job 5 is queued. -/
def resettable (s : State) : State :=
  let k := setJob 5 (some { nextJob with region := 3 })
    (withSlot 3 (pair 9 1 { lane := .l0, base := 9 } { lane := .l3, base := 0 } .aFirst) 0 s)
  { setJobField 3 (some 5) k with
    engine := { k.engine with queue := [5] }
    mu.commit := draining.mu.commit
    ift := { k.ift with commitSpan := draining.ift.commitSpan } }

/-- Job 2 runs and job 5 is queued: the laws of the copy engine hold. -/
theorem test_resettable_engine : (resettable switching).engine.Wf := by
  have r : (resettable switching).engine.running = some 2 := by decide +kernel
  have q : (resettable switching).engine.queue = [5] := by decide +kernel
  have b : (resettable switching).engine.blockStep = none := by decide +kernel
  have l : (resettable switching).engine.lock = none := by decide +kernel
  have n : (resettable switching).engine.jobs.length = 8 := by decide +kernel
  have j : runningJob (resettable switching).engine = some (2, moving) := by decide +kernel
  have all : ∀ h < 8, jobOf (resettable switching).engine h
      = if h = 2 then some moving else if h = 5 then some { nextJob with region := 3 } else none := by
    decide +kernel
  have jobs : ∀ h, jobOf (resettable switching).engine h
      = if h = 2 then some moving else if h = 5 then some { nextJob with region := 3 } else none := by
    intro h
    by_cases k : h < 8
    · exact all h k
    · rw [if_neg (by omega), if_neg (by omega)]
      unfold jobOf
      rw [List.getElem?_eq_none (by omega)]
      rfl
  refine ⟨fun h => ?_, fun h i e => ?_, by rw [q]; simp, fun h => ?_, ?_⟩
  · rw [r, jobs]
    by_cases e : h = 2
    · simp [e, moving, Job.isRunning]
    · by_cases f : h = 5
      · subst f; decide
      · simp [e, f, Ne.symm e]
  · rw [j] at e
    cases e
    decide
  · rw [q, jobs]
    by_cases e : h = 2
    · subst e; decide
    · by_cases f : h = 5
      · subst f; decide
      · simp [e, f]
  · rw [b]
    exact l

/-- R87, R106: the notices of a reset taken in OPEN. -/
theorem test_reset_notices :
    (after .srstNAssert (resettable switching)).log.notices.map Notice.info
      = [.jobFinished 5 .resetAborted, .jobFinished 2 .resetAborted, .commitFinished 4 .resetAborted] := by
  decide +kernel

/-- A step that a state takes. -/
theorem test_reset_steps : step { ready with pending := [.drainTick] } = .next (after .drainTick ready) := by
  rfl

theorem test_witness_LogAndLinkLawsKeptByEveryStep : ready.log.Wf ∧ ready.link.Wf :=
  ⟨test_witness_StatusAndCounterSnapshots.1.2.1, test_witness_StatusAndCounterSnapshots.1.2.2.2.2⟩

theorem test_lane_wf (n : Nat) : (powerOnLane n).Wf := by
  refine ⟨?_, ?_, ?_, ?_, ?_, ?_, ?_, ?_, ?_, ?_⟩ <;> simp [powerOnLane]

theorem test_witness_LanePortLawKeptByEveryStep : lanesWf ready.lanes := by
  intro n
  cases n <;> exact test_lane_wf _

theorem test_witness_TableLawsKeptByEveryCommand :
    ({ ready with ift.entries := entriesBelow 48 } : State).ift.Wf
      ∧ exec (.responseTaken .read) (after (.laneResponse .l0 0 .okay 1) reading)
        = .next (after (.responseTaken .read) (after (.laneResponse .l0 0 .okay 1) reading)) :=
  ⟨test_full_table, rfl⟩

theorem test_witness_SettingsAndSizesKeptByEveryStep : SettingsWf ready ∧ SizesWf ready :=
  ⟨⟨test_witness_LaneAndJobSnapshots.2.2.2.2.1, ⟨by decide, by decide, by decide, by decide, by decide⟩,
    fun n => by cases n <;> exact ⟨by decide, by decide, by decide⟩, by decide, by decide⟩,
   test_witness_StatusAndCounterSnapshots.1.2.2.2.1⟩

theorem test_witness_ConfigurationChangesOnlyByItsCommands :
    exec (.hostAccept (readOf 0)) ready = .next reading := rfl

/-! ### The laws of the copy engine hold in a state with a running job -/

/-- Job 2, and no other job, is RUNNING, and slot 0 alone is valid. -/
theorem test_stepping_jobs (h : Nat) : jobOf (stepping copyJob).engine h = if h = 2 then some copyJob else none := by
  by_cases k : h < 8
  · have all : ∀ n < 8, jobOf (stepping copyJob).engine n = if n = 2 then some copyJob else none := by
      decide +kernel
    exact all h k
  · have e : (stepping copyJob).engine.jobs.length = 8 := by decide +kernel
    rw [if_neg (by omega)]
    unfold jobOf
    rw [List.getElem?_eq_none (by omega)]
    rfl

theorem test_stepping_slots (i : Nat) :
    descOf (stepping copyJob).mu.slots i = if i = 0 then some (slot0 copying) else none := by
  by_cases k : i < 64
  · have all : ∀ n < 64, descOf (stepping copyJob).mu.slots n = if n = 0 then some (slot0 copying) else none := by
      decide +kernel
    exact all i k
  · have e : (stepping copyJob).mu.slots.length = 64 := by decide +kernel
    rw [if_neg (by omega)]
    unfold descOf
    rw [List.getElem?_eq_none (by omega)]
    rfl

theorem test_stepping_engine : (stepping copyJob).engine.Wf := by
  have r : (stepping copyJob).engine.running = some 2 := by decide +kernel
  have q : (stepping copyJob).engine.queue = [] := by decide +kernel
  have j : runningJob (stepping copyJob).engine = some (2, copyJob) := by decide +kernel
  have b : (stepping copyJob).engine.blockStep = some (stepOf (stepping copyJob)) := by decide +kernel
  refine ⟨fun h => ?_, fun h i e => ?_, by rw [q]; exact List.nodup_nil, fun h => ?_, ?_⟩
  · rw [r, test_stepping_jobs]
    by_cases e : h = 2
    · simp [e, copyJob, Job.isRunning]
    · simp [e, Ne.symm e]
  · rw [j] at e
    cases e
    decide
  · rw [q, test_stepping_jobs]
    by_cases e : h = 2
    · simp [e, copyJob, Job.isQueued]
    · simp [e]
  · rw [b]
    exact ⟨2, copyJob, j, by decide, by decide +kernel, by decide +kernel⟩

/-- Job 2 in SWITCH with its span open, a queued job and a draining commit; job 2 in COPY with a request
OUTSTANDING; and job 2 in COPY with none. -/
theorem test_witness_ResetEndsJobsAndCommit :
    let s := resettable switching
    let k := stepping copyJob
    let q := { k with lanes := k.lanes.map fun p => { p with outstanding := [] } }
    (s.porst = false ∧ s.hp.seq = .opened ∧ s.engine.Wf ∧ s.srst = false ∧ LinkReady s
      ∧ s.mu.commit.drain.any (fun c => c.members ≠ [])
      ∧ runningJob s.engine = some (2, moving) ∧ moving.phase = some .switch ∧ s.ift.switchSpan ≠ none
      ∧ 5 ∈ s.engine.queue ∧ jobOf s.engine 5 = some { nextJob with region := 3 })
    ∧ (k.porst = false ∧ k.hp.seq = .opened ∧ k.engine.Wf ∧ k.srst = false ∧ LinkReady k
      ∧ k.mu.commit.drain = none ∧ runningJob k.engine = some (2, copyJob) ∧ copyJob.phase ≠ some .switch
      ∧ ∃ o ∈ (k.lanes.get .l0).outstanding, o.req.fromEngine = true ∧ o.timer ≠ none)
    ∧ (q.engine.Wf ∧ runningJob q.engine = some (2, copyJob)
      ∧ ∀ n : Lane, ∀ o ∈ (q.lanes.get n).outstanding, o.req.fromEngine = true → o.timer = none)
    ∧ { k with ift := reading.ift }.ift.entries ≠ [] :=
  ⟨⟨by decide +kernel, by decide +kernel, test_resettable_engine, by decide +kernel, ⟨rfl, by decide +kernel⟩,
    by decide +kernel, by decide +kernel, by decide +kernel, by decide +kernel, by decide +kernel,
    by decide +kernel⟩,
   ⟨by decide +kernel, by decide +kernel, test_stepping_engine, by decide +kernel, ⟨rfl, by decide +kernel⟩,
    by decide +kernel, by decide +kernel, by decide +kernel, by decide +kernel⟩,
   ⟨test_stepping_engine, by decide +kernel, fun n => by cases n <;> decide +kernel⟩, by decide +kernel⟩

theorem test_stepping_fields : JobFieldsWf (stepping copyJob) := by
  have c : (stepping copyJob).mu.commit.drain = none := by decide +kernel
  refine ⟨fun h j e _ => ?_, fun i h d e f => ?_, fun d e => ?_⟩
  · rw [test_stepping_jobs] at e
    split at e
    · rename_i k
      subst k
      cases e
      exact ⟨slot0 copying, by rw [test_stepping_slots]; rfl, by decide +kernel, by decide +kernel⟩
    · cases e
  · rw [test_stepping_slots] at e
    split at e
    · rename_i k
      subst k
      cases e
      have s : (slot0 copying).job = some 2 := by decide +kernel
      rw [s] at f
      cases f
      exact ⟨copyJob, by rw [test_stepping_jobs]; rfl, rfl, rfl⟩
    · cases e
  · rw [c] at e
    cases e

theorem test_stepping_clear : RetiredClear (stepping copyJob) := by
  have c : (stepping copyJob).mu.commit.drain = none := by decide +kernel
  have a : ∀ n : Lane, ((stepping copyJob).health.lanes.get n).state ≠ .retired := by
    intro n
    cases n <;> decide +kernel
  exact ⟨fun _ _ _ _ leg _ => a leg.lane, fun d e => by rw [c] at e; cases e⟩

theorem test_witness_RetiredLanesCarryNoMirrorLegAfterAnyStep :
    SizesWf (stepping copyJob) ∧ (stepping copyJob).engine.Wf ∧ JobFieldsWf (stepping copyJob)
      ∧ RetiredClear (stepping copyJob) :=
  ⟨by unfold SizesWf; decide +kernel, test_stepping_engine, test_stepping_fields, test_stepping_clear⟩

theorem test_witness_CopyEngineLawsKeptByEveryStep :
    SizesWf (stepping copyJob) ∧ RetiredClear (stepping copyJob) ∧ (stepping copyJob).engine.Wf
      ∧ JobFieldsWf (stepping copyJob) :=
  ⟨test_witness_RetiredLanesCarryNoMirrorLegAfterAnyStep.1, test_stepping_clear, test_stepping_engine,
   test_stepping_fields⟩

end Sys2Proof.Tests
end

/-! PROOF. What FAULT_POP, FAULT_RESET and NOTICE_POP do at the fault log, and what their frames then answer (R154, R156, R159, R161). -/

namespace Sys2Proof.Machine

open Sys2Proof

/-! ### At the fault log -/

/-- With no notice lost, ALERT_N is asserted exactly when a notice of an enabled kind waits (R161). -/
theorem evaluateAlert_of_not_lost {log : FaultLog} (h : log.lost = false) :
    evaluateAlert log
      = { log with alert := log.notices.any fun n => log.mask.getLsbD (noticeCode n.info) } := by
  unfold evaluateAlert alertCondition
  rw [h, Bool.false_or]

theorem popFault_empty {s : State} (h : s.log.ring = []) : popFault s = (.empty, [], s) := by
  unfold popFault refuse
  rw [h]

theorem popFault_head {s : State} {r : FaultRecord} {rest : List FaultRecord} (h : s.log.ring = r :: rest) :
    popFault s = (.ok, recordBytes r ++ byte1 rest.length, { s with log.ring := rest }) := by
  unfold popFault
  rw [h]

/-- An empty queue asserts ALERT_N no more once the lost flag is clear. -/
theorem popNotice_empty {s : State} (h : s.log.notices = []) :
    popNotice s = (.empty, [if s.log.lost then 1 else 0],
      { s with log := { s.log with lost := false, alert := false } }) := by
  unfold popNotice yesNo
  rw [h]
  dsimp only
  rw [evaluateAlert_of_not_lost rfl, h, List.any_nil]

/-- The notices left decide ALERT_N: the lost flag, answered as it stood, is clear when the line is evaluated. -/
theorem popNotice_head {s : State} {n : Notice} {rest : List Notice} (h : s.log.notices = n :: rest) :
    popNotice s = (.ok, noticeBytes n ++ [if s.log.lost then 1 else 0] ++ byte1 rest.length,
      { s with log := { s.log with
          notices := rest, lost := false
          alert := rest.any fun k => s.log.mask.getLsbD (noticeCode k.info) } }) := by
  unfold popNotice yesNo
  rw [h]
  dsimp only
  rw [evaluateAlert_of_not_lost rfl]

/-! ### The commands -/

theorem exec_faultPop (tag : Byte) (payload : List Byte) (s : State) :
    exec (.faultPop tag payload) s = commandFrame 0x50 tag payload (noPayload popFault) s := rfl

theorem exec_faultReset (tag : Byte) (payload : List Byte) (s : State) :
    exec (.faultReset tag payload) s = commandFrame 0x52 tag payload bodyFaultReset s := rfl

theorem exec_noticePop (tag : Byte) (payload : List Byte) (s : State) :
    exec (.noticePop tag payload) s = commandFrame 0x53 tag payload (noPayload popNotice) s := rfl

/-- A command without payload whose handler changes the fault log alone answers the handler's reply. -/
theorem commandFrame_log {s : State} {f : State → Reply} {code tag : Byte} {bytes : List Byte}
    {status : Status} {log : FaultLog} (r : LinkReady s)
    (h : f s.listening = (status, bytes, { s.listening with log := log })) :
    commandFrame code tag [] (noPayload f) s = .next (answered code tag status bytes { s with log := log }) :=
  commandFrame_reply (t := { s.listening with log := log }) r (Nat.zero_le 56) h rfl

/-- A command that takes no payload refuses one (R166). -/
theorem commandFrame_payloadRefused {s : State} (r : LinkReady s) {b : Byte} {rest : List Byte}
    (n : (b :: rest).length ≤ 56) (code tag : Byte) (f : State → Reply) :
    commandFrame code tag (b :: rest) (noPayload f) s = .next (answered code tag .badArgument [] s) :=
  commandFrame_refused r n (noPayload_cons f b rest s.listening)

/-- Settles O50: each handler's reply is known and changes at most the fault log, so its frame answers it. -/
theorem popsAndFaultReset : Obligations.PopsAndFaultReset := by
  unfold Obligations.PopsAndFaultReset
  intro tag s ready
  refine ⟨fun noRecord => ?_, fun r rest ring => ?_, ?_, fun noNotice => ?_, fun n rest notices => ?_,
    fun b rest short => ?_⟩
  · rw [exec_faultPop]
    exact commandFrame_refused ready (Nat.zero_le 56) (popFault_empty (s := s.listening) noRecord)
  · rw [exec_faultPop]
    exact commandFrame_log ready (popFault_head (s := s.listening) ring)
  · rw [exec_faultReset]
    exact commandFrame_log ready rfl
  · rw [exec_noticePop]
    exact commandFrame_log ready (popNotice_empty (s := s.listening) noNotice)
  · rw [exec_noticePop]
    exact commandFrame_log ready (popNotice_head (s := s.listening) notices)
  · rw [exec_noticePop]
    exact commandFrame_payloadRefused ready short 0x53 tag popNotice

end Sys2Proof.Machine

/-! PROOF. What the commands that read the part and its counts answer (R37, R155, R169): a snapshot of the state, which they leave alone but for the link. -/

namespace Sys2Proof.Machine

open Sys2Proof

/-! ### The bytes -/

/-- The strap, three bits, is a byte of its own value (R169). -/
theorem byte1_strap (strap : BitVec 3) : byte1 strap.toNat = [strap.setWidth 8] := by
  unfold byte1
  rw [BitVec.ofNat_toNat]

/-- The strap is the one byte of IDENTIFY that the part does not fix (10 section 10.6.7). -/
theorem identifyBytes_eq (s : State) :
    identifyBytes s = [0x11, 0x44, 1, s.strap.setWidth 8, 64, 48, 4, 16, 16, 8, 32, 16, 4, 56] := by
  unfold identifyBytes
  rw [byte1_strap]
  rfl

/-! ### The commands -/

theorem exec_identify (tag : Byte) (payload : List Byte) (s : State) :
    exec (.identify tag payload) s
      = commandFrame 0x01 tag payload (noPayload fun s => (.ok, identifyBytes s, s)) s := rfl

theorem exec_hostCountersRead (tag : Byte) (payload : List Byte) (s : State) :
    exec (.hostCountersRead tag payload) s
      = commandFrame 0x18 tag payload (noPayload fun s => (.ok, hostCounterBytes s, s)) s := rfl

theorem exec_faultStatus (tag : Byte) (payload : List Byte) (s : State) :
    exec (.faultStatus tag payload) s
      = commandFrame 0x51 tag payload (noPayload fun s => (.ok, faultStatusBytes s.log, s)) s := rfl

/-- A command without payload that answers a snapshot of the state changes nothing but the link. -/
theorem commandFrame_snapshot {s : State} (r : LinkReady s) (code tag : Byte) (bytes : State → List Byte) :
    commandFrame code tag [] (noPayload fun s => (.ok, bytes s, s)) s
      = .next (answered code tag .ok (bytes s.listening) s) :=
  commandFrame_reply (t := s.listening) r (Nat.zero_le 56) rfl rfl

/-- Settles O30: each of the three is a snapshot, and the two with a payload case refuse one. -/
theorem identifyAndCountReads : Obligations.IdentifyAndCountReads := by
  unfold Obligations.IdentifyAndCountReads
  refine ⟨fun tag s ready => ⟨?_, fun b rest short => ?_⟩,
    fun tag s ready => ⟨?_, fun b rest short => ?_, ?_⟩⟩
  · rw [exec_identify, commandFrame_snapshot ready, identifyBytes_eq]
  · rw [exec_identify]
    exact commandFrame_payloadRefused ready short 0x01 tag _
  · rw [exec_hostCountersRead]
    exact commandFrame_snapshot ready 0x18 tag hostCounterBytes
  · rw [exec_hostCountersRead]
    exact commandFrame_payloadRefused ready short 0x18 tag _
  · rw [exec_faultStatus]
    exact commandFrame_snapshot ready 0x51 tag fun s => faultStatusBytes s.log

end Sys2Proof.Machine

/-! PROOF. The rows of the management commands as frames of one dispatch table, and what every handler keeps: the laws of the blocks, the entries, the sizes of the answers (R163 to R166). -/

namespace Sys2Proof.Machine

open Sys2Proof

/-! ### The lengths of answers (10 sections 10.6.1 to 10.6.7) -/

@[simp] theorem byte1_length (n : Nat) : (byte1 n).length = 1 := by simp [byte1]

@[simp] theorem byte2_length (n : Nat) : (byte2 n).length = 2 := by simp [byte2]

@[simp] theorem byte3_length (n : Nat) : (byte3 n).length = 3 := by simp [byte3]

@[simp] theorem byte4_length (n : Nat) : (byte4 n).length = 4 := by simp [byte4]

@[simp] theorem yesNo_length (b : Bool) : (yesNo b).length = 1 := by simp [yesNo]

@[simp] theorem absent_length (n : Nat) : (absent n).length = n := List.length_replicate ..

@[simp] theorem byteOr_length (o : Option Nat) : (byteOr o).length = 1 := by cases o <;> rfl

@[simp] theorem legBBytes_length (leg : Option Leg) : (legBBytes leg).length = 4 := by cases leg <;> rfl

@[simp] theorem targetBytes_length (t : Target) : (targetBytes t).length = 10 := by simp [targetBytes]

@[simp] theorem bodyBytes_length (b : Option Body) : (bodyBytes b).length = 17 := by
  cases b <;> simp [bodyBytes]

@[simp] theorem recordBytes_length (r : FaultRecord) : (recordBytes r).length = 18 := by simp [recordBytes]

@[simp] theorem noticeBytes_length (n : Notice) : (noticeBytes n).length = 6 := by simp [noticeBytes]

@[simp] theorem failureBytes_length (reason : Reason) (detail : Option Detail) :
    (failureBytes reason detail).length = 6 := by
  cases detail <;> simp [failureBytes]

@[simp] theorem lifeBytes_length (l : JobLife) : (lifeBytes l).length = 8 := by
  unfold lifeBytes
  split <;> simp

@[simp] theorem workTargetBytes_length (w : JobWork) : (workTargetBytes w).length = 11 := by
  cases w <;> simp [workTargetBytes]

@[simp] theorem workCountBytes_length (w : JobWork) : (workCountBytes w).length = 4 := by
  cases w <;> simp [workCountBytes]

@[simp] theorem jobBytes_length (h : Nat) (job : Option Job) (lock stopping : Bool) :
    (jobBytes h job lock stopping).length = 37 := by
  cases job <;> simp [jobBytes]

@[simp] theorem laneReadBytes_length (lane : Lane) (s : State) : (laneReadBytes lane s).length = 41 := by
  simp [laneReadBytes]

@[simp] theorem statusBytes_length (s : State) : (statusBytes s).length = 23 := by
  unfold statusBytes
  repeat rw [List.length_append]
  rw [byteOr_length, byteOr_length]
  rfl

@[simp] theorem mapReadBytes_length (i : Nat) (s : State) : (mapReadBytes i s).length = 26 := by
  simp [mapReadBytes]

@[simp] theorem stageReadBytes_length (i : Nat) (s : State) : (stageReadBytes i s).length = 24 := by
  simp [stageReadBytes]

@[simp] theorem failureDetail_length (f : MapFailure) : (failureDetail f).length = 5 := by
  simp [failureDetail]

@[simp] theorem targetDetail_length (check leg : Nat) (lane : Option Lane) (owner : Option Owner) :
    (targetDetail check leg lane owner).length = 5 := by
  rcases owner with _ | (i | h) <;> simp [targetDetail]

/-- The first of two candidates is one of them. -/
theorem orElse_some {α : Type} {a b : Option α} {x : α} (h : (a <|> b) = some x) : a = some x ∨ b = some x := by
  cases a with
  | none => exact .inr h
  | some y => exact .inl h

/-- Every detail a failed target test answers is the five bytes of 10 section 10.6.3. -/
theorem targetFailure_length {t : Target} {d : Descriptor} {s : State} {detail : List Byte}
    (h : targetFailure t d s = some detail) : detail.length = 5 := by
  have named : ∀ {α : Type} {o : Option α} {f : α → List Byte}, (∀ x, (f x).length = 5) →
      o.map f = some detail → detail.length = 5 := fun len e => by
    obtain ⟨x, -, rfl⟩ := Option.map_eq_some_iff.mp e
    exact len x
  rcases orElse_some h with h | h
  · exact named (fun _ => targetDetail_length _ _ _ _) h
  rcases orElse_some h with h | h
  · exact named (fun _ => targetDetail_length _ _ _ _) h
  rcases orElse_some h with h | h
  · exact named (fun _ => targetDetail_length _ _ _ _) h
  rcases orElse_some h with h | h
  · exact named (fun _ => targetDetail_length _ _ _ _) h
  · exact named (fun _ => targetDetail_length _ _ _ _) h

/-! ### What every management command keeps -/

/-- What a management command keeps at its owning block: the pins, the link and the queue as they are, the laws of
the blocks, and the entries of the table. -/
structure Obeyed (s t : State) : Prop where
  porst : t.porst = s.porst
  srst : t.srst = s.srst
  strap : t.strap = s.strap
  link : t.link = s.link
  pending : t.pending = s.pending
  log : s.log.Wf → t.log.Wf
  lanes : lanesWf s.lanes → lanesWf t.lanes
  settings : SettingsWf s → SettingsWf t
  sizes : SizesWf s → SizesWf t
  entries : identities t = identities s

theorem KeptTable.obeyed {s t : State} (k : KeptTable s t) : Obeyed s t :=
  ⟨k.porst, k.srst, k.strap, k.link, k.pending, k.log, k.lanes, k.settings, k.sizes, k.entries⟩

/-- A reply as every owning block gives one: at most 56 bytes, the laws kept, the copy engine's laws kept, and the
configuration as it was unless the command is one that `sets` it. -/
structure LawfulReply (sets : Prop) (s : State) (r : Reply) : Prop where
  obeyed : Obeyed s r.2.2
  short : r.2.1.length ≤ 56
  sound : SizesWf s → Sound s → Sound r.2.2
  config : ¬sets → configuration r.2.2 = configuration s

theorem LawfulReply.mono {p q : Prop} {s : State} {r : Reply} (h : p → q) (k : LawfulReply p s r) :
    LawfulReply q s r :=
  ⟨k.obeyed, k.short, k.sound, fun n => k.config (n ∘ h)⟩

/-- A reply after operations that keep the configuration. -/
theorem LawfulReply.of {sets : Prop} {s t : State} {status : Status} {bytes : List Byte} (k : KeptTable s t)
    (n : bytes.length ≤ 56) (sound : Sound s → Sound t) : LawfulReply sets s (status, bytes, t) :=
  ⟨k.obeyed, n, fun _ => sound, fun _ => k.config⟩

/-- A reply that changes nothing. -/
theorem LawfulReply.read {sets : Prop} {s : State} {status : Status} {bytes : List Byte}
    (n : bytes.length ≤ 56) : LawfulReply sets s (status, bytes, s) :=
  .of (KeptTable.refl s) n id

theorem LawfulReply.refuse {sets : Prop} (status : Status) (s : State) : LawfulReply sets s (refuse status s) :=
  .read (Nat.zero_le _)

theorem LawfulReply.noPayload {sets : Prop} {s : State} {f : State → Reply} (h : LawfulReply sets s (f s))
    (payload : List Byte) : LawfulReply sets s (noPayload f payload s) := by
  cases payload with
  | nil => exact h
  | cons b rest => exact .refuse _ _

theorem LawfulReply.inOpen {sets : Prop} {s : State} {f : State → Reply}
    (h : LawfulReply sets s (f s)) : LawfulReply sets s (inOpen f s) := by
  unfold Machine.inOpen
  split
  · exact h
  · exact .refuse _ _

theorem LawfulReply.parsed {sets : Prop} {α : Type} {parse : List Byte → Option α} {payload : List Byte} {s : State}
    {f : α → State → Reply} (h : ∀ a, parse payload = some a → LawfulReply sets s (f a s)) :
    LawfulReply sets s (parsed parse f payload s) := by
  unfold Machine.parsed
  split
  · exact h _ ‹_›
  · exact .refuse _ _

/-! ### The handlers that change no configuration -/

theorem lawful_bridgeReset (payload : List Byte) (s : State) : LawfulReply False s (bodyBridgeReset payload s) :=
  .noPayload (.inOpen (.of ((kept_commandReset s).trans (kept_settle _)).toKeptTable (Nat.zero_le _)
    fun k => sound_settle (sound_commandReset k))) payload

theorem kept_clearHostCounters (s : State) : Kept s (clearHostCounters s) :=
  Kept.ofPort (fun w => ⟨Nat.zero_le _, Nat.zero_le _, Nat.zero_le _, w.2.2.2⟩) rfl

theorem lawful_hostCountersClear (payload : List Byte) (s : State) :
    LawfulReply False s (bodyHostCountersClear payload s) :=
  .noPayload (.inOpen (.of (kept_clearHostCounters s).toKeptTable (Nat.zero_le _)
    (Same.sound (Same.of rfl rfl rfl)))) payload

theorem keptTable_clearCounters (lanes : List Lane) : ∀ s : State, KeptTable s (clearCounters lanes s) := by
  induction lanes with
  | nil => exact KeptTable.refl
  | cons lane rest ih =>
    intro s
    have zero : zeroCounters.Wf := by simp [LaneCounters.Wf, zeroCounters]
    have cleared : KeptTable s (modifyLane lane (fun p => { p with counters := zeroCounters }) s) :=
      keptTable_modifyLane s (fun w => ⟨w.1, w.2.1, w.2.2.1, w.2.2.2.1, zero⟩) fun _ => ⟨rfl, rfl⟩
    exact cleared.trans (ih _)

theorem same_clearCounters (lanes : List Lane) : ∀ s : State, Same s (clearCounters lanes s) := by
  induction lanes with
  | nil => exact Same.refl
  | cons lane rest ih => exact fun s => (same_modifyLane lane _ s).trans (ih _)

theorem lawful_laneCountersClear (payload : List Byte) (s : State) :
    LawfulReply False s (bodyLaneCountersClear payload s) :=
  .parsed fun lanes _ => .inOpen (.of (keptTable_clearCounters lanes s) (Nat.zero_le _)
    (same_clearCounters lanes s).sound)

theorem lawful_mapCommit (payload : List Byte) (s : State) : LawfulReply False s (bodyMapCommit payload s) := by
  refine .noPayload (.inOpen ?_) payload
  unfold commitBody
  split
  · exact .refuse _ _
  split
  · exact .refuse _ _
  split
  · exact .read (by simp)
  · exact .read (by simp)
  · exact .read (by simp)
  · rename_i v _ b
    have keep : Kept s (acceptCommit s) := by
      refine (kept_openCommit s).trans (Kept.trans ?_ (kept_settle _))
      split
      · exact kept_completeCommit _
      · exact Kept.refl _
    exact .of keep.toKeptTable (by simp) (sound_acceptCommit v b)

theorem lawful_laneSetOffline (payload : List Byte) (s : State) :
    LawfulReply False s (bodyLaneSetOffline payload s) := by
  refine .parsed fun lane _ => .inOpen ?_
  unfold setOffline
  split
  · exact .refuse _ _
  split
  · exact .refuse _ _
  split
  · exact .refuse _ _
  · exact .of (kept_setLaneState lane .offline s).toKeptTable (Nat.zero_le _)
      (sound_setLaneState lane (by decide))

theorem keptTable_makeActive (lane : Lane) (s : State) : KeptTable s (makeActive lane s) :=
  (keptTable_modifyHealth s fun _ _ => Nat.zero_le _).trans (kept_setLaneState lane .active _).toKeptTable

theorem lawful_laneSetActive (payload : List Byte) (s : State) :
    LawfulReply False s (bodyLaneSetActive payload s) := by
  refine .parsed fun lane _ => .inOpen ?_
  unfold setActive
  split
  · exact .refuse _ _
  split
  · exact .refuse _ _
  · exact .of (keptTable_makeActive lane s) (Nat.zero_le _) (sound_makeActive lane)

theorem lawful_laneRestore (payload : List Byte) (s : State) :
    LawfulReply False s (bodyLaneRestore payload s) := by
  refine .parsed fun lane _ => .inOpen ?_
  unfold restoreLane
  split
  · exact .refuse _ _
  · exact .of (keptTable_makeActive lane s) (Nat.zero_le _) (sound_makeActive lane)

theorem kept_startIfIdle (s : State) : Kept s (startIfIdle s) := by
  unfold startIfIdle
  split
  · exact (kept_startNext s).trans (kept_settle _)
  · exact Kept.refl s

theorem kept_queueJob (h region : Nat) (d : Descriptor) (work : JobWork) (s : State) :
    Kept s (queueJob h region d work s) :=
  (kept_setJob h _ s).trans ((kept_setJobField region (some h) _).trans (kept_setQueue _ _))

theorem freeJobFrom_spec (jobs : List (Option Job)) :
    ∀ {h k : Nat}, freeJobFrom h jobs = some k → h ≤ k ∧ jobs[k - h]? = some none := by
  induction jobs with
  | nil => intro h k e; cases e
  | cons j rest ih =>
    intro h k e
    cases j with
    | none =>
      cases e
      simp
    | some j =>
      obtain ⟨le, at_⟩ := ih e
      refine ⟨by omega, ?_⟩
      rw [show k - h = (k - (h + 1)) + 1 by omega]
      exact at_

/-- The FREE job slot found is one of the slots, and FREE. -/
theorem freeJob_some {e : Engine} {h : Nat} (k : freeJob e = some h) :
    h < e.jobs.length ∧ jobOf e h = none := by
  have at_ := (freeJobFrom_spec e.jobs k).2
  rw [Nat.sub_zero] at at_
  exact ⟨(List.getElem?_eq_some_iff.mp at_).1, by unfold jobOf; rw [at_]; rfl⟩

/-- A submission that is taken queues its job, and starts it when none runs. -/
theorem lawful_submitted {s : State} {status : Status} {bytes : List Byte} {h region : Nat} {d : Descriptor}
    (work : JobWork) (n : bytes.length ≤ 56) (free : freeJob s.engine = some h)
    (hd : descOf s.mu.slots region = some d) (idle : (d.job.isSome || inCommitSet s.mu region) = false) :
    LawfulReply False s (status, bytes, startIfIdle (queueJob h region d work s)) := by
  obtain ⟨nojob, out⟩ := Bool.or_eq_false_iff.mp idle
  obtain ⟨lt, empty⟩ := freeJob_some free
  refine .of ((kept_queueJob h region d work s).trans (kept_startIfIdle _)).toKeptTable n fun k => ?_
  exact sound_startIfIdle (sound_queueJob work lt empty hd (by simpa using nojob) out k)

/-- What the tests that both submissions share leave to the kind's own tests. -/
theorem lawful_submission {s : State} {region : Nat} {f : Nat → Descriptor → State → Reply}
    (h : ∀ n d, freeJob s.engine = some n → descOf s.mu.slots region = some d →
      (d.job.isSome || inCommitSet s.mu region) = false → LawfulReply False s (f n d s)) :
    LawfulReply False s (submission region f s) := by
  unfold submission
  split
  · exact .refuse _ _
  · exact .refuse _ _
  · rename_i n d free hd
    split
    · exact .refuse _ _
    · exact h n d free hd (Bool.eq_false_iff.mpr ‹_›)

theorem lawful_jobSubmitRelocate (payload : List Byte) (s : State) :
    LawfulReply False s (bodyJobSubmitRelocate payload s) := by
  refine .parsed fun a _ => .inOpen (lawful_submission fun h d free hd idle => ?_)
  unfold relocateBody
  split
  · exact .refuse _ _
  split
  · exact .read (by rw [targetFailure_length ‹_›]; decide)
  · exact lawful_submitted _ (by simp) free hd idle

theorem lawful_jobSubmitAudit (payload : List Byte) (s : State) :
    LawfulReply False s (bodyJobSubmitAudit payload s) := by
  refine .parsed fun a _ => .inOpen (lawful_submission fun h d free hd idle => ?_)
  unfold auditBody
  split
  · exact .refuse _ _
  · exact lawful_submitted _ (by simp) free hd idle

theorem lawful_jobCancel (payload : List Byte) (s : State) : LawfulReply False s (bodyJobCancel payload s) := by
  refine .parsed fun h _ => .inOpen ?_
  unfold cancelJob
  split
  · exact .refuse _ _
  · rename_i j x
    split
    · rename_i life
      refine .of ((kept_setQueue _ s).trans ((kept_finishJob h .cancelled _).trans
        (kept_startIfIdle _))).toKeptTable (Nat.zero_le _) (sound_cancelQueued ?_)
      rw [x]
      simp [Job.isQueued, life]
    · exact .refuse _ _
    · split
      · exact .refuse _ _
      · exact .of (kept_raiseStop .cancel s).toKeptTable (Nat.zero_le _) (same_raiseStop .cancel s).sound

theorem lawful_jobClear (payload : List Byte) (s : State) : LawfulReply False s (bodyJobClear payload s) := by
  refine .parsed fun h _ => .inOpen ?_
  unfold clearJob
  split
  · exact .refuse _ _
  · rename_i j x
    split
    · rename_i life
      exact .of (kept_setJob h none s).toKeptTable (Nat.zero_le _) (sound_clearJob x (by rw [life]; rfl))
    · exact .refuse _ _
    · exact .refuse _ _

/-- A reply that changes the fault log alone, and not its mask. -/
theorem LawfulReply.log {sets : Prop} {s : State} {status : Status} {bytes : List Byte} {l : FaultLog}
    (n : bytes.length ≤ 56) (w : s.log.Wf → l.Wf) (m : l.mask = s.log.mask) :
    LawfulReply sets s (status, bytes, { s with log := l }) :=
  .of (Kept.ofLog w m).toKeptTable n (Same.sound (Same.of rfl rfl rfl))

theorem lawful_faultPop (payload : List Byte) (s : State) : LawfulReply False s (bodyFaultPop payload s) := by
  refine .noPayload ?_ payload
  unfold popFault
  split
  · exact .refuse _ _
  · rename_i r rest ring
    refine .log (by simp) (fun w => ⟨?_, w.2⟩) rfl
    have full := w.1
    rw [ring] at full
    exact Nat.le_of_succ_le full

theorem lawful_faultReset (payload : List Byte) (s : State) : LawfulReply False s (bodyFaultReset payload s) :=
  .noPayload (LawfulReply.log (s := s) (l := { s.log with ring := [], overflow := 0 }) (Nat.zero_le _)
    (fun w => ⟨Nat.zero_le _, Nat.zero_le _, w.2.2⟩) rfl) payload

theorem lawful_noticePop (payload : List Byte) (s : State) : LawfulReply False s (bodyNoticePop payload s) := by
  refine .noPayload ?_ payload
  unfold popNotice
  split
  · exact .log (by simp) (fun w => evaluateAlert_wf w.1 w.2.1 w.2.2.1) rfl
  · rename_i n rest notices
    refine .log (by simp) (fun w => evaluateAlert_wf w.1 w.2.1 ?_) rfl
    have full := w.2.2.1
    rw [notices] at full
    exact Nat.le_of_succ_le full

/-! ### The handlers that set the configuration (R39, R48, R56, R70, R146, R160) -/

/-- A reply of a command that sets the configuration, which the copy engine's laws do not speak of. -/
theorem LawfulReply.setting {s t : State} {status : Status} {bytes : List Byte} (k : Obeyed s t)
    (n : bytes.length ≤ 56) (sound : Sound s → Sound t) : LawfulReply True s (status, bytes, t) :=
  ⟨k, n, fun _ => sound, fun c => absurd trivial c⟩

theorem fieldValue_pair (a b : Byte) : fieldValue [a, b] = a.toNat * 256 + b.toNat := by
  simp [fieldValue]

theorem lawful_drainLimitSet (payload : List Byte) (s : State) :
    LawfulReply True s (bodyDrainLimitSet payload s) := by
  unfold bodyDrainLimitSet
  split
  · exact .read (by simp)
  · rename_i a b
    dsimp only
    split
    · exact .refuse _ _
    · rename_i positive
      refine .inOpen (.setting ⟨rfl, rfl, rfl, rfl, rfl, id, id, fun w => ?_, id, rfl⟩ (by simp)
        (Same.sound (Same.of rfl rfl rfl)))
      have la := a.isLt
      have lb := b.isLt
      obtain ⟨health, ⟨h1, h2, h3, _⟩, rest⟩ := w
      refine ⟨health, ⟨h1, h2, h3, ?_⟩, rest⟩
      rw [fieldValue_pair] at positive
      show 1 ≤ fieldValue [a, b] ∧ fieldValue [a, b] ≤ 65535
      rw [fieldValue_pair]
      omega
  · exact .refuse _ _

theorem lawful_arbiterConfig (payload : List Byte) (s : State) :
    LawfulReply True s (bodyArbiterConfig payload s) := by
  unfold bodyArbiterConfig
  split
  · exact .read (by simp)
  · split
    · rename_i range
      exact .inOpen (.setting ⟨rfl, rfl, rfl, rfl, rfl, id, id, fun w => ⟨w.1, w.2.1, w.2.2.1, range⟩, id, rfl⟩
        (by simp) (Same.sound ⟨rfl, rfl, fun _ => rfl, rfl, rfl, rfl, rfl, fun _ => rfl⟩))
    · exact .refuse _ _
  · exact .refuse _ _

theorem fieldAt_pair_le (bytes : List Byte) (i : Nat) : fieldAt bytes i 2 ≤ 65535 := by
  unfold fieldAt sliceOf
  rcases bytes.drop i with _ | ⟨a, _ | ⟨b, rest⟩⟩
  · decide
  · have := a.isLt
    simp [fieldValue]
    omega
  · have := a.isLt
    have := b.isLt
    simp [fieldValue]
    omega

theorem obeyed_setHealth {suspect retire interval : Nat} (s : State) (h1 : 1 ≤ suspect) (h2 : suspect < retire)
    (h3 : retire ≤ Config.budgetMax) (h4 : 1 ≤ interval) (h5 : interval ≤ Config.microsMax) :
    Obeyed s (settle (setHealth suspect retire interval s)) := by
  have keep := ((kept_evaluateLanes allLanes { s with health := { s.health with
    suspect := suspect, retire := retire, interval := interval, drainTimer := some interval } }).trans
      (kept_settle _)).toKeptTable.obeyed
  exact ⟨keep.porst, keep.srst, keep.strap, keep.link, keep.pending, keep.log, keep.lanes,
    fun w => keep.settings ⟨⟨w.1.1, h1, h2, h3, h4, h5⟩, w.2⟩, keep.sizes, keep.entries⟩

theorem parseHealth_some {payload : List Byte} {a : Nat × Nat × Nat} (h : parseHealth payload = some a) :
    payload.length = 6 ∧ a = (fieldAt payload 0 2, fieldAt payload 2 2, fieldAt payload 4 2)
      ∧ 1 ≤ fieldAt payload 0 2 ∧ fieldAt payload 0 2 < fieldAt payload 2 2
      ∧ fieldAt payload 2 2 ≤ Config.budgetMax ∧ 1 ≤ fieldAt payload 4 2 := by
  unfold parseHealth at h
  dsimp only at h
  split at h
  · rename_i range
    cases h
    exact ⟨range.1, rfl, range.2⟩
  · cases h

theorem lawful_healthConfig (payload : List Byte) (s : State) :
    LawfulReply True s (bodyHealthConfig payload s) := by
  unfold bodyHealthConfig
  split
  · exact .read (by simp [healthBytes])
  · refine .parsed fun a parse => .inOpen ?_
    obtain ⟨-, rfl, h1, h2, h3, h4⟩ := parseHealth_some parse
    exact .setting (obeyed_setHealth s h1 h2 h3 h4 (fieldAt_pair_le _ _)) (by simp [healthBytes])
      fun k => sound_settle (sound_setHealth _ _ _ k)

theorem parseLaneConfig_some {payload : List Byte} {a : Lane × Nat × Nat} (h : parseLaneConfig payload = some a) :
    a.2.1 ≤ Config.spanGranules ∧ 1 ≤ a.2.2 ∧ a.2.2 ≤ Config.microsMax := by
  unfold parseLaneConfig at h
  split at h
  · rename_i range
    obtain ⟨lane, -, e⟩ := Option.bind_eq_some_iff.mp h
    cases e
    exact ⟨range.2.1, range.2.2, fieldAt_pair_le _ _⟩
  · cases h

/-- A lane that takes a capacity and a timeout keeps its laws, and a range of both keeps it configured. -/
theorem obeyed_configLane {capacity timeout : Nat} (lane : Lane) (s : State) (h1 : capacity ≤ Config.spanGranules)
    (h2 : 1 ≤ timeout) (h3 : timeout ≤ Config.microsMax) :
    Obeyed s (modifyLane lane (fun p => { p with capacity := capacity, timeout := timeout }) s) := by
  have at_ : ∀ n : Lane, (modifyLane lane (fun p => { p with capacity := capacity, timeout := timeout }) s).lanes.get n
      = if n = lane then { s.lanes.get lane with capacity := capacity, timeout := timeout } else s.lanes.get n :=
    fun n => PerLane.get_modify _ _ _ _
  refine ⟨rfl, rfl, rfl, rfl, rfl, id, fun w n => ?_, fun w => ⟨w.1, w.2.1, fun n => ?_, w.2.2.2⟩, id, rfl⟩
  · rw [at_]
    split
    · exact w lane
    · exact w n
  · rw [at_]
    split
    · exact ⟨h1, h2, h3⟩
    · exact w.2.2.1 n

theorem lawful_laneConfig (payload : List Byte) (s : State) : LawfulReply True s (bodyLaneConfig payload s) := by
  refine .parsed fun a parse => .inOpen ?_
  obtain ⟨h1, h2, h3⟩ := parseLaneConfig_some parse
  unfold configLane
  split
  · exact .refuse _ _
  split
  · exact .refuse _ _
  · exact .setting (obeyed_configLane a.1 s h1 h2 h3) (Nat.zero_le _) (same_modifyLane a.1 _ s).sound

/-- A command that replaces the staging map by one of its size. -/
theorem LawfulReply.staging {s : State} {status : Status} {bytes : List Byte} {staging : List StageSlot}
    (n : bytes.length ≤ 56) (h : SizesWf s → staging.length = Config.mapSlots) :
    LawfulReply True s (status, bytes, { s with mu.staging := staging }) :=
  .setting ⟨rfl, rfl, rfl, rfl, rfl, id, id, id, fun w => ⟨w.1, h w, w.2.2⟩, rfl⟩ n
    (Same.sound ⟨rfl, rfl, fun _ => rfl, EngineSame.refl _⟩)

theorem lawful_setStage (i : Nat) (st : StageSlot) (s : State) :
    LawfulReply True s (stageAnswer i (setStage i st s)) :=
  .staging (by simp) fun w => by rw [List.length_set]; exact w.2.1

theorem lawful_stageLoad (payload : List Byte) (s : State) : LawfulReply True s (bodyStageLoad payload s) :=
  .noPayload (.inOpen (.staging (by simp) fun w => by rw [List.length_map]; exact w.1)) payload

theorem lawful_alertMask (payload : List Byte) (s : State) : LawfulReply True s (bodyAlertMask payload s) := by
  unfold bodyAlertMask
  split
  · exact .read (by simp)
  · split
    · exact .setting ⟨rfl, rfl, rfl, rfl, rfl, fun w => evaluateAlert_wf w.1 w.2.1 w.2.2.1, id, id, id, rfl⟩
        (by simp) (Same.sound (Same.of rfl rfl rfl))
    · exact .refuse _ _
  · exact .refuse _ _

/-! ### The dispatch table -/

/-- The codes of the commands that set the configuration (10 section 10.6.2). -/
def settingCodes : List Byte := [0x05, 0x21, 0x22, 0x23, 0x30, 0x33, 0x38, 0x54]

/-- A code is the byte of its value. -/
theorem code_eq {code : Byte} {n : Nat} (h : code.toNat = n) : code = BitVec.ofNat 8 n := by
  rw [← h, BitVec.ofNat_toNat, BitVec.setWidth_eq]

/-- Every command a code names answers lawfully, and only the setting codes change the configuration. -/
theorem lawful_handlerOf (code : Byte) (payload : List Byte) (s : State) :
    LawfulReply (code ∈ settingCodes) s (handlerOf code payload s) := by
  have plain : ∀ {r : Reply}, LawfulReply False s r → LawfulReply (code ∈ settingCodes) s r :=
    LawfulReply.mono False.elim
  have sets : ∀ {n : Nat} {r : Reply}, code.toNat = n → BitVec.ofNat 8 n ∈ settingCodes →
      LawfulReply True s r → LawfulReply (code ∈ settingCodes) s r :=
    fun e m => LawfulReply.mono fun _ => by rw [code_eq e]; exact m
  generalize named : handlerOf code = handler
  unfold handlerOf at named
  split at named <;> subst named
  · exact .noPayload (.read (by simp [identifyBytes])) payload
  · exact .noPayload (.read (by simp)) payload
  · exact .noPayload (.read (by simp [linkCounterBytes])) payload
  · exact plain (lawful_bridgeReset payload s)
  · exact sets ‹_› (by decide) (lawful_drainLimitSet payload s)
  · exact .parsed fun i _ => .read (by simp)
  · exact .noPayload (.read (by simp [hostCounterBytes])) payload
  · exact plain (lawful_hostCountersClear payload s)
  · exact .parsed fun i _ => .read (by simp)
  · exact sets ‹_› (by decide) (.parsed fun a _ => .inOpen (lawful_setStage a.1 _ s))
  · exact sets ‹_› (by decide) (.parsed fun a _ => .inOpen (lawful_setStage a.1 _ s))
  · exact sets ‹_› (by decide) (lawful_stageLoad payload s)
  · exact plain (lawful_mapCommit payload s)
  · exact sets ‹_› (by decide) (lawful_laneConfig payload s)
  · exact .parsed fun lane _ => .read (by simp)
  · exact plain (lawful_laneCountersClear payload s)
  · exact sets ‹_› (by decide) (lawful_arbiterConfig payload s)
  · exact sets ‹_› (by decide) (lawful_healthConfig payload s)
  · exact plain (lawful_laneSetOffline payload s)
  · exact plain (lawful_laneSetActive payload s)
  · exact plain (lawful_laneRestore payload s)
  · exact plain (lawful_jobSubmitRelocate payload s)
  · exact plain (lawful_jobSubmitAudit payload s)
  · exact plain (lawful_jobCancel payload s)
  · exact .parsed fun h _ => .read (by simp [jobReadBytes])
  · exact plain (lawful_jobClear payload s)
  · exact plain (lawful_faultPop payload s)
  · exact .noPayload (.read (by simp [faultStatusBytes])) payload
  · exact plain (lawful_faultReset payload s)
  · exact plain (lawful_noticePop payload s)
  · exact sets ‹_› (by decide) (lawful_alertMask payload s)
  · exact .refuse _ _

/-- Every row of a management command is the frame of the code it names, carried out by the dispatch table. -/
theorem exec_frameOf {c : Instr} {code tag : Byte} {payload : List Byte} (h : frameOf c = some (code, tag, payload))
    (s : State) : exec c s = commandFrame code tag payload (handlerOf code) s := by
  cases c <;> cases h <;> rfl

end Sys2Proof.Machine

/-! PROOF. What every command and every step keeps: the completion of every command, the pins and the queue, the laws of the log, the link, the lanes, the settings, the sizes and the copy engine, and the configuration. -/

namespace Sys2Proof.Machine

open Sys2Proof

/-! ### What an event keeps -/

/-- What an event of the bridge keeps: the pins, the link, the queue and the configuration as they are, and the laws
of the blocks. -/
structure EventLaws (s t : State) : Prop where
  porst : t.porst = s.porst
  srst : t.srst = s.srst
  strap : t.strap = s.strap
  link : t.link = s.link
  pending : t.pending = s.pending
  config : configuration t = configuration s
  log : s.log.Wf → t.log.Wf
  lanes : lanesWf s.lanes → lanesWf t.lanes
  settings : SettingsWf s → SettingsWf t
  sizes : SizesWf s → SizesWf t
  sound : Sound s → Sound t

theorem EventLaws.refl (s : State) : EventLaws s s :=
  ⟨rfl, rfl, rfl, rfl, rfl, rfl, id, id, id, id, id⟩

theorem EventLaws.trans {s t u : State} (h : EventLaws s t) (k : EventLaws t u) : EventLaws s u :=
  ⟨k.porst.trans h.porst, k.srst.trans h.srst, k.strap.trans h.strap, k.link.trans h.link,
   k.pending.trans h.pending, k.config.trans h.config, k.log ∘ h.log, k.lanes ∘ h.lanes,
   k.settings ∘ h.settings, k.sizes ∘ h.sizes, k.sound ∘ h.sound⟩

theorem KeptLaws.event {s t : State} (k : KeptLaws s t) (sound : Sound s → Sound t) : EventLaws s t :=
  ⟨k.porst, k.srst, k.strap, k.link, k.pending, k.config, k.log, k.lanes, k.settings, k.sizes, sound⟩

theorem eventLaws_settle (s : State) : EventLaws s (settle s) :=
  (kept_settle s).toKeptTable.toKeptLaws.event sound_settle

/-- An event that is possible only where a test says so answers a next state, and keeps what its act keeps. -/
theorem event_laws {f : State → State} {s : State} (possible : Bool) (h : EventLaws s (f s)) :
    ∃ t, event possible f s = .next t ∧ EventLaws s t := by
  refine ⟨_, rfl, ?_⟩
  split
  · exact h.trans (eventLaws_settle _)
  · exact .refl s

/-- An update of the table alone, whoever joins it. -/
theorem eventLaws_table (t : InFlight) (s : State) : EventLaws s { s with ift := t } :=
  ⟨rfl, rfl, rfl, rfl, rfl, rfl, id, id, id, id, Same.sound (Same.of rfl rfl rfl)⟩

/-- An update of the host port alone that keeps its laws and its drain limit. -/
theorem eventLaws_port {p : HostPort} {s : State} (h : s.hp.Wf → p.Wf) (k : p.drainLimit = s.hp.drainLimit) :
    EventLaws s { s with hp := p } :=
  (Kept.ofPort h k).toKeptTable.toKeptLaws.event (Same.sound (Same.of rfl rfl rfl))

theorem eventLaws_acceptGood (e : Entry) (s : State) : EventLaws s (acceptGood e s) :=
  (eventLaws_table _ s).trans ((kept_fullDecode e.slot _).toKeptTable.toKeptLaws.event
    (same_fullDecode e.slot _).sound)

theorem eventLaws_acceptBad (e : Entry) (s : State) : EventLaws s (acceptBad e s) :=
  (eventLaws_table { s.ift with entries := s.ift.entries ++ [{ e with code := some .slverr }] } s).trans
    (eventLaws_port (p := { s.hp with malformed := bump s.hp.malformed })
      (fun w => ⟨w.1, bump_le w.2.1, w.2.2⟩) rfl)

theorem eventLaws_finishBeats (t : HostTxn) (s : State) : EventLaws s (finishBeats t s) := by
  unfold finishBeats
  split
  · exact .refl s
  · split
    · exact eventLaws_port id rfl
    · exact .refl s

theorem eventLaws_acceptTxn (txn : HostTxn) (s : State) : EventLaws s (acceptTxn txn s) := by
  unfold acceptTxn
  split
  · refine EventLaws.trans ?_ (eventLaws_settle _)
    split
    · exact (eventLaws_finishBeats txn s).trans (eventLaws_acceptBad _ _)
    · exact eventLaws_acceptGood _ s
  · exact .refl s

theorem eventLaws_takeBeat (b : WriteBurst) (s : State) : EventLaws s (takeBeat b s) := by
  unfold takeBeat
  split
  · split
    · exact .refl s
    split
    · exact eventLaws_port id rfl
    · have forgotten : EventLaws s { s with hp.writeBeats := 0 } := eventLaws_port id rfl
      exact forgotten.trans ((eventLaws_acceptBad _ _).trans (eventLaws_settle _))
  · exact .refl s

theorem whilePowered_laws {f : State → State} {s : State} (h : EventLaws s (f s)) :
    ∃ t, whilePowered f s = .next t ∧ EventLaws s t := by
  refine ⟨_, rfl, ?_⟩
  split
  · exact .refl s
  · exact h

/-! ### The kinds of commands -/

/-- The commands of the two reset pins (R41, R44 to R46). -/
def pinCommand : Instr → Bool
  | .porstNAssert | .porstNDeassert _ | .srstNAssert | .srstNDeassert => true
  | _ => false

/-- The rows of a frame that is no command's own row (R163, R165, R167). -/
def frameRow : Instr → Bool
  | .fetchFrame _ | .ignoreFrame _ | .shortFrame _ | .discardedCommandFrame _ _ => true
  | _ => false

/-- The events of the host port, the lanes, the drains and the timers. -/
def eventCommand : Instr → Bool
  | .hostAccept _ | .malformedWriteBeat _ | .responseTaken _ | .laneResponse _ _ _ _ | .creditWaitTimeout _ _
  | .responseTimeout _ _ | .legDropRequest _ | .quiesceTimeout _ | .entryDrainTimeout | .commitDrainTimeout
  | .switchTimerExpiry | .drainTick | .commitCompletionTaken | .switchCompletionTaken => true
  | _ => false

theorem command_kinds (c : Instr) :
    (frameOf c).isSome = true ∨ frameRow c = true ∨ eventCommand c = true ∨ pinCommand c = true := by
  cases c <;> simp [frameOf, frameRow, eventCommand, pinCommand]

/-! ### Events -/

/-- Every event answers a next state and keeps the laws. -/
theorem exec_event {c : Instr} (h : eventCommand c = true) (s : State) :
    ∃ t, exec c s = .next t ∧ EventLaws s t := by
  cases c with
  | hostAccept txn => exact whilePowered_laws (eventLaws_acceptTxn txn s)
  | malformedWriteBeat burst => exact whilePowered_laws (eventLaws_takeBeat burst s)
  | responseTaken channel =>
    exact event_laws _ ((keptLaws_takeResponseOf channel s).event (same_takeResponseOf channel s).sound)
  | laneResponse lane number resp data =>
    exact event_laws _ ((keptTable_takeResponse lane number resp data s).toKeptLaws.event
      (sound_takeResponse lane number resp data))
  | creditWaitTimeout lane place =>
    exact event_laws _ ((keptTable_expireWait lane place s).toKeptLaws.event (sound_expireWait lane place))
  | responseTimeout lane number =>
    exact event_laws _ ((keptTable_expireResponse lane number s).toKeptLaws.event
      (sound_expireResponse lane number))
  | legDropRequest place =>
    exact event_laws _ ((kept_takeRequest place s).toKeptTable.toKeptLaws.event (sound_takeRequest place))
  | quiesceTimeout lane =>
    exact event_laws _ ((keptTable_expireQuiesce lane s).toKeptLaws.event (sound_expireQuiesce lane))
  | entryDrainTimeout =>
    exact event_laws _ ((kept_expireEntryDrain s).toKeptTable.toKeptLaws.event (same_expireEntryDrain s).sound)
  | commitDrainTimeout =>
    exact event_laws _ ((kept_endCommit .timeout s).toKeptTable.toKeptLaws.event (sound_endCommit .timeout))
  | switchTimerExpiry =>
    exact event_laws _ ((kept_expireSwitch s).toKeptTable.toKeptLaws.event sound_expireSwitch)
  | drainTick => exact event_laws _ ((keptTable_healthTick s).toKeptLaws.event sound_healthTick)
  | commitCompletionTaken =>
    exact event_laws _ ((kept_completeCommit s).toKeptTable.toKeptLaws.event sound_completeCommit)
  | switchCompletionTaken =>
    exact event_laws _ ((kept_completeSwitch s).toKeptTable.toKeptLaws.event sound_completeSwitch)
  | _ => cases h

/-! ### Frames -/

/-- What a frame leaves (R163 to R168): the state as it was, an update of the link alone, or the answer of a command
whose code is one that the frame names. -/
inductive FrameEnds (names : Byte → Prop) (s : State) : State → Prop
  | nothing : FrameEnds names s s
  | link (l : Link) (h : s.link.Wf → l.Wf) : FrameEnds names s { s with link := l }
  | carried (code tag : Byte) (payload : List Byte) (h : names code) (fits : payload.length ≤ 56)
      (room : s.link.fifo.length < Config.fifoSize) :
      FrameEnds names s (carryOut code tag payload (handlerOf code) s.heard)

theorem framingError_ends (names : Byte → Prop) (s : State) : FrameEnds names s (framingError s.heard) :=
  .link _ fun w => ⟨w.1, w.2.1, w.2.2.1, bump_le w.2.2.2.1, w.2.2.2.2⟩

/-- A command frame ends as its first failing test says, or is carried out. -/
theorem frameEnd_ends {names : Byte → Prop} {code : Byte} (h : names code) (tag : Byte) (payload : List Byte)
    (s : State) : FrameEnds names s (frameEnd code tag payload (handlerOf code) s.heard) := by
  unfold frameEnd
  split
  · exact framingError_ends names s
  split
  · exact .link _ fun w => ⟨w.1, w.2.1, w.2.2.1, w.2.2.2.1, bump_le w.2.2.2.2⟩
  · exact .carried code tag payload h (Nat.le_of_not_lt ‹_›) (Nat.lt_of_not_le ‹_›)

/-- The codes that the bytes of a sound command frame name (R164, R165). -/
def namedBy (bytes : List Byte) (extra : Nat) (code : Byte) : Prop :=
  ∃ tag len payload hi lo, bytes = [code, tag, len] ++ payload ++ [hi, lo] ∧ payload.length = len.toNat
    ∧ len.toNat ≤ 56 ∧ extra = 0
    ∧ hi.toNat * 256 + lo.toNat = (checkCode ([code, tag, len] ++ payload)).toNat

theorem take_append_pair {rest : List Byte} {n : Nat} (h : rest.length = n + 2) :
    ∃ hi lo, rest.drop n = [hi, lo] ∧ rest = rest.take n ++ [hi, lo] := by
  obtain ⟨hi, lo, e⟩ := List.length_eq_two.mp (show (rest.drop n).length = 2 by rw [List.length_drop]; omega)
  exact ⟨hi, lo, e, by rw [← e, List.take_append_drop]⟩

theorem commandEnd_ends (bytes : List Byte) (extra : Nat) (s : State) :
    FrameEnds (namedBy bytes extra) s (commandEnd bytes extra s.heard) := by
  unfold commandEnd
  split
  · rename_i code tag len rest
    dsimp only
    split
    · exact framingError_ends _ s
    rename_i shape
    split
    · exact .link _ fun w => ⟨w.1, w.2.1, bump_le w.2.2.1, w.2.2.2⟩
    rename_i checked
    have hn : len.toNat ≤ 56 := Nat.le_of_not_lt fun c => shape (.inl c)
    have hl : rest.length = len.toNat + 2 := by omega
    obtain ⟨hi, lo, tail, whole⟩ := take_append_pair hl
    refine frameEnd_ends ⟨tag, len, rest.take len.toNat, hi, lo, ?_, ?_, hn, by omega, ?_⟩ tag _ s
    · rw [List.append_assoc, ← whole]
      rfl
    · rw [List.length_take]
      omega
    · rw [tail, fieldValue_pair] at checked
      exact Classical.not_not.mp checked
  · exact framingError_ends _ s

/-- The codes of the commands a row can carry out. -/
def names : Instr → Byte → Prop
  | .discardedCommandFrame bytes extra => namedBy bytes extra
  | c => fun code => ∃ tag payload, frameOf c = some (code, tag, payload)

theorem frame_ends {codes : Byte → Prop} {first : Option Byte} {bits : Nat} {command : State → State} {s : State}
    (h : FrameEnds codes s (closeFrame command bits (openFrame first s))) :
    ∃ t, frame first bits command s = .next t ∧ FrameEnds codes s t := by
  refine ⟨_, rfl, ?_⟩
  split
  · exact .nothing
  · exact h

theorem commandFrame_ends {codes : Byte → Prop} {code : Byte} (h : codes code) (tag : Byte) (payload : List Byte)
    (s : State) : ∃ t, commandFrame code tag payload (handlerOf code) s = .next t ∧ FrameEnds codes s t :=
  frame_ends (frameEnd_ends h tag payload s)

theorem no_bytes_named (code : Byte) : ¬namedBy [] 0 code := by
  rintro ⟨tag, len, payload, hi, lo, e, -⟩
  cases e

/-- A fetch frame leaves the head of the FIFO, or takes it (R168). -/
theorem fetch_ends (codes : Byte → Prop) (bits : Nat) (s : State) :
    FrameEnds codes s (closeFrame (commandEnd [] 0) bits (openFrame (some 0x3C) s)) := by
  refine .link _ fun w => ⟨?_, ?_, w.2.2⟩
  · show (match s.link.fifo with
      | [] => []
      | r :: rest => if (responseBytes r).length ≤ bits / 8 then rest else r :: rest).length ≤ _
    have full := w.1
    cases e : s.link.fifo with
    | nil => exact Nat.zero_le _
    | cons r rest =>
      rw [e] at full
      dsimp only
      split
      · exact Nat.le_of_succ_le full
      · exact full
  · intro r m
    refine w.2.1 r ?_
    change r ∈ (match s.link.fifo with
      | [] => []
      | r :: rest => if (responseBytes r).length ≤ bits / 8 then rest else r :: rest) at m
    cases e : s.link.fifo with
    | nil => rw [e] at m; exact m
    | cons x rest =>
      rw [e] at m
      dsimp only at m
      split at m
      · exact List.mem_cons_of_mem _ m
      · exact m

/-- A frame of an ignored first byte ends as a framing error, or as the frame its marker makes it (R163). -/
theorem ignore_ends (codes : Byte → Prop) (first : Byte) (s : State) :
    FrameEnds codes s (closeFrame (commandEnd [] 0) 0 (openFrame (some first) s)) := by
  by_cases command : first = 0xC3
  · subst command
    exact framingError_ends codes s
  by_cases taken : first = 0x3C
  · subst taken
    exact fetch_ends codes 0 s
  · have e : framingOf first = .ignore := by unfold framingOf; rw [if_neg command, if_neg taken]
    have framing : (openFrame (some first) s).link.framing = .ignore := e
    unfold closeFrame
    rw [framing]
    exact .link _ fun w => ⟨w.1, w.2.1, w.2.2.1, bump_le w.2.2.2.1, w.2.2.2.2⟩

theorem exec_frame {c : Instr} (h : (frameOf c).isSome = true ∨ frameRow c = true) (s : State) :
    ∃ t, exec c s = .next t ∧ FrameEnds (names c) s t := by
  rcases h with h | h
  · obtain ⟨⟨code, tag, payload⟩, f⟩ := Option.isSome_iff_exists.mp h
    rw [exec_frameOf f]
    refine commandFrame_ends ?_ tag payload s
    cases c <;> cases f <;> exact ⟨tag, payload, rfl⟩
  · cases c with
    | fetchFrame bits => exact frame_ends (fetch_ends _ bits s)
    | ignoreFrame first => exact frame_ends (ignore_ends _ first s)
    | shortFrame bits => exact frame_ends (.link _ id)
    | discardedCommandFrame bytes extra => exact frame_ends (commandEnd_ends bytes extra s)
    | _ => cases h

/-! ### What every frame keeps -/

/-- A command carried out keeps what its handler keeps, and its answer joins the FIFO. -/
theorem carryOut_rest (code tag : Byte) (payload : List Byte) (s : State) :
    ∃ r : Reply, LawfulReply (code ∈ settingCodes) s.listening r
      ∧ carryOut code tag payload (handlerOf code) s.heard = pushResponse (mkResponse code tag r.1 r.2.1) r.2.2 :=
  ⟨_, lawful_handlerOf code payload s.listening, rfl⟩

/-- What every frame keeps: the pins and the queue as they are, the entries of the table, the laws of the blocks, and
the configuration unless it names a setting command. -/
structure FrameLaws (codes : Byte → Prop) (s t : State) : Prop where
  porst : t.porst = s.porst
  srst : t.srst = s.srst
  strap : t.strap = s.strap
  pending : t.pending = s.pending
  entries : identities t = identities s
  config : (∀ code, codes code → code ∉ settingCodes) → configuration t = configuration s
  log : s.log.Wf → t.log.Wf
  link : s.link.Wf → t.link.Wf
  lanes : lanesWf s.lanes → lanesWf t.lanes
  settings : SettingsWf s → SettingsWf t
  sizes : SizesWf s → SizesWf t
  sound : SizesWf s → Sound s → Sound t

theorem mkResponse_sound (code tag : Byte) (status : Status) {bytes : List Byte} (h : bytes.length ≤ 56) :
    (mkResponse code tag status bytes).Sound := ⟨h, rfl⟩

theorem FrameEnds.laws {codes : Byte → Prop} {s t : State} (h : FrameEnds codes s t) : FrameLaws codes s t := by
  cases h with
  | nothing => exact ⟨rfl, rfl, rfl, rfl, rfl, fun _ => rfl, id, id, id, id, id, fun _ => id⟩
  | link l k =>
    exact ⟨rfl, rfl, rfl, rfl, rfl, fun _ => rfl, id, k, id, id, id, fun _ => Same.sound (Same.of rfl rfl rfl)⟩
  | carried code tag payload named fits room =>
    obtain ⟨r, k, e⟩ := carryOut_rest code tag payload s
    rw [e]
    refine ⟨k.obeyed.porst, k.obeyed.srst, k.obeyed.strap, k.obeyed.pending, k.obeyed.entries,
      fun c => k.config (c code named), k.obeyed.log, fun w => ?_, k.obeyed.lanes, k.obeyed.settings,
      k.obeyed.sizes, fun z w => ?sound⟩
    case sound =>
      have listening : Sound s.listening := Same.sound (s := s) (Same.of rfl rfl rfl) w
      exact Same.sound (s := r.2.2) (Same.of rfl rfl rfl) (k.sound z listening)
    have link := k.obeyed.link
    refine ⟨?_, ?_, ?_⟩
    · show (r.2.2.link.fifo ++ [_]).length ≤ Config.fifoSize
      rw [link, List.length_append]
      exact room
    · intro x m
      change x ∈ r.2.2.link.fifo ++ [_] at m
      rw [link, List.mem_append, List.mem_singleton] at m
      rcases m with m | rfl
      · exact w.2.1 x m
      · exact mkResponse_sound code tag r.1 k.short
    · show r.2.2.link.checkErrors ≤ _ ∧ r.2.2.link.framingErrors ≤ _ ∧ r.2.2.link.overruns ≤ _
      rw [link]
      exact w.2.2

/-! ### The pins -/

theorem exec_srstAssert (s : State) :
    ∃ t, exec .srstNAssert s = .next t ∧ (t = s ∨ EventLaws { s with srst := true } t) := by
  refine ⟨_, rfl, ?_⟩
  split
  · exact .inl rfl
  refine .inr ?_
  dsimp only
  split
  · exact .refl _
  split
  · exact ((keptLaws_warmReset _).event sound_warmReset).trans (eventLaws_settle _)
  · exact ((keptLaws_warmOverlap _).event (same_warmOverlap _).sound).trans (eventLaws_settle _)

theorem exec_srstDeassert (s : State) :
    ∃ t, exec .srstNDeassert s = .next t ∧ (t = s ∨ EventLaws { s with srst := false } t) := by
  refine ⟨_, rfl, ?_⟩
  split
  · refine .inr ?_
    dsimp only
    split
    · exact .refl _
    · exact eventLaws_settle _
  · exact .inl rfl

theorem powerOnLane_wf (capacity : Nat) : (powerOnLane capacity).Wf := by
  simp [LanePort.Wf, powerOnLane, LaneCounters.Wf]

theorem l0Capacity_le (strap : BitVec 3) : l0Capacity strap ≤ Config.spanGranules := by
  unfold l0Capacity
  split <;> decide

/-- A state at its power-on values keeps every law; which strap it has, and how its pins, its queue, its drain timer
and its framing stand, is no matter. -/
structure PoweredOn (strap : BitVec 3) (s : State) : Prop where
  log : s.log = (powerOn strap).log
  link : ∃ framing, s.link = { (powerOn strap).link with framing := framing }
  lanes : ∀ n : Lane, ∃ quiesce, s.lanes.get n = { (powerOn strap).lanes.get n with quiesce := quiesce }
  hp : ∃ seq warm, s.hp = { (powerOn strap).hp with seq := seq, warmSeen := warm }
  health : ∃ timer, s.health = { (powerOn strap).health with drainTimer := timer }
  mu : s.mu = (powerOn strap).mu
  engine : s.engine = (powerOn strap).engine

theorem powerOn_lane (strap : BitVec 3) (n : Lane) :
    ∃ capacity, capacity ≤ Config.spanGranules ∧ (powerOn strap).lanes.get n = powerOnLane capacity := by
  cases n
  · exact ⟨l0Capacity strap, l0Capacity_le strap, rfl⟩
  all_goals exact ⟨0, Nat.zero_le _, rfl⟩

theorem PoweredOn.lanesWf {strap : BitVec 3} {s : State} (h : PoweredOn strap s) : lanesWf s.lanes := by
  intro n
  obtain ⟨quiesce, e⟩ := h.lanes n
  obtain ⟨capacity, -, p⟩ := powerOn_lane strap n
  rw [e, p]
  exact powerOnLane_wf capacity

theorem PoweredOn.linkWf {strap : BitVec 3} {s : State} (h : PoweredOn strap s) : s.link.Wf := by
  obtain ⟨framing, e⟩ := h.link
  rw [e]
  exact ⟨Nat.zero_le _, fun r m => absurd m (List.not_mem_nil), Nat.zero_le _, Nat.zero_le _, Nat.zero_le _⟩

theorem PoweredOn.logWf {strap : BitVec 3} {s : State} (h : PoweredOn strap s) : s.log.Wf := by
  rw [h.log]
  exact ⟨Nat.zero_le _, Nat.zero_le _, Nat.zero_le _, rfl⟩

theorem PoweredOn.settingsWf {strap : BitVec 3} {s : State} (h : PoweredOn strap s) : SettingsWf s := by
  obtain ⟨seq, warm, hp⟩ := h.hp
  obtain ⟨timer, health⟩ := h.health
  unfold SettingsWf
  rw [hp, health, h.engine]
  have thresholds : 1 ≤ 1024 ∧ 1024 < 3072 ∧ 3072 ≤ 4095 ∧ 1 ≤ 100 ∧ 100 ≤ 65535 := by decide
  have limit : 1 ≤ 10000 ∧ 10000 ≤ 65535 := by decide
  have share : 1 ≤ 4 ∧ 4 < 16 := by decide
  have timeout : 1 ≤ 2000 ∧ 2000 ≤ 65535 := by decide
  refine ⟨⟨fun n => ?_, thresholds⟩, ⟨Nat.zero_le _, Nat.zero_le _, Nat.zero_le _, limit⟩, fun n => ?_, share⟩
  · cases n <;> exact Nat.zero_le _
  · obtain ⟨quiesce, e⟩ := h.lanes n
    obtain ⟨capacity, le, p⟩ := powerOn_lane strap n
    rw [e, p]
    exact ⟨le, timeout⟩

theorem PoweredOn.sizesWf {strap : BitVec 3} {s : State} (h : PoweredOn strap s) : SizesWf s := by
  unfold SizesWf
  rw [h.mu, h.engine]
  simp [powerOn, bringUpSlots, bringUpStaging]

theorem poweredOn_porstState (s : State) : PoweredOn s.strap (porstState s) :=
  ⟨rfl, ⟨_, rfl⟩, fun _ => ⟨_, rfl⟩, ⟨_, _, rfl⟩, ⟨_, rfl⟩, rfl, rfl⟩

theorem poweredOn_powerUp (pins : ResetPins) (s : State) : PoweredOn pins.strap (powerUp pins s) := by
  unfold powerUp
  dsimp only
  split
  · exact ⟨rfl, ⟨_, rfl⟩, fun n => by cases n <;> exact ⟨_, rfl⟩, ⟨_, _, rfl⟩, ⟨_, rfl⟩, rfl, rfl⟩
  · exact ⟨rfl, ⟨_, rfl⟩, fun _ => ⟨_, rfl⟩, ⟨_, _, rfl⟩, ⟨_, rfl⟩, rfl, rfl⟩

theorem powerUp_pins (pins : ResetPins) (s : State) :
    (powerUp pins s).pending = s.pending ∧ (powerUp pins s).srst = s.srst
      ∧ (powerUp pins s).ift.entries = [] := by
  unfold powerUp
  dsimp only
  split <;> exact ⟨rfl, rfl, rfl⟩

/-! ### What every command keeps -/

/-- The laws that every command keeps. -/
structure Lawful (s t : State) : Prop where
  log : s.log.Wf → t.log.Wf
  link : s.link.Wf → t.link.Wf
  lanes : lanesWf s.lanes → lanesWf t.lanes
  settings : SettingsWf s → SettingsWf t
  sizes : SizesWf s → SizesWf t
  sound : SizesWf s → Sound s → Sound t

theorem EventLaws.lawful {s t : State} (h : EventLaws s t) : Lawful s t :=
  ⟨h.log, fun w => by rw [h.link]; exact w, h.lanes, h.settings, h.sizes, fun _ => h.sound⟩

theorem FrameLaws.lawful {codes : Byte → Prop} {s t : State} (h : FrameLaws codes s t) : Lawful s t :=
  ⟨h.log, h.link, h.lanes, h.settings, h.sizes, h.sound⟩

theorem Lawful.refl (s : State) : Lawful s s := ⟨id, id, id, id, id, fun _ => id⟩

theorem PoweredOn.lawful {strap : BitVec 3} {s t : State} (h : PoweredOn strap t) (sound : Sound t) : Lawful s t :=
  ⟨fun _ => h.logWf, fun _ => h.linkWf, fun _ => h.lanesWf, fun _ => h.settingsWf, fun _ => h.sizesWf,
   fun _ _ => sound⟩

theorem Lawful.before {s t u : State} (h : Lawful s t) (k : EventLaws t u) : Lawful s u :=
  ⟨k.log ∘ h.log, fun w => by rw [k.link]; exact h.link w, k.lanes ∘ h.lanes, k.settings ∘ h.settings,
   k.sizes ∘ h.sizes, fun z w => k.sound (h.sound z w)⟩

/-- The level of SRST_N is in no law. -/
theorem lawful_srst (b : Bool) (s : State) : Lawful s { s with srst := b } :=
  ⟨id, id, id, id, id, fun _ => Same.sound (Same.of rfl rfl rfl)⟩

theorem exec_pin {c : Instr} (h : pinCommand c = true) (s : State) :
    ∃ t, exec c s = .next t ∧ Lawful s t ∧ t.pending = s.pending := by
  cases c with
  | porstNAssert => exact ⟨_, rfl, (poweredOn_porstState s).lawful (sound_porstState s), rfl⟩
  | porstNDeassert pins =>
    refine ⟨_, rfl, ?_⟩
    split
    · exact ⟨((poweredOn_powerUp pins s).lawful (sound_powerUp pins s)).before (eventLaws_settle _),
        (eventLaws_settle _).pending.trans (powerUp_pins pins s).1⟩
    · exact ⟨.refl s, rfl⟩
  | srstNAssert =>
    obtain ⟨t, e, rfl | k⟩ := exec_srstAssert s
    · exact ⟨_, e, .refl _, rfl⟩
    · exact ⟨t, e, (lawful_srst true s).before k, k.pending⟩
  | srstNDeassert =>
    obtain ⟨t, e, rfl | k⟩ := exec_srstDeassert s
    · exact ⟨_, e, .refl _, rfl⟩
    · exact ⟨t, e, (lawful_srst false s).before k, k.pending⟩
  | _ => cases h

/-- Every command answers a next state, keeps the laws, and leaves the queue alone. -/
theorem exec_lawful (c : Instr) (s : State) : ∃ t, exec c s = .next t ∧ Lawful s t ∧ t.pending = s.pending := by
  rcases command_kinds c with h | h | h | h
  · obtain ⟨t, e, k⟩ := exec_frame (.inl h) s
    exact ⟨t, e, k.laws.lawful, k.laws.pending⟩
  · obtain ⟨t, e, k⟩ := exec_frame (.inr h) s
    exact ⟨t, e, k.laws.lawful, k.laws.pending⟩
  · obtain ⟨t, e, k⟩ := exec_event h s
    exact ⟨t, e, k.lawful, k.pending⟩
  · exact exec_pin h s

/-! ### What every step keeps -/

theorem tick_lane_wf {p : LanePort} (w : p.Wf) : p.tick.Wf :=
  ⟨by show (p.outstanding.map _).length ≤ _; rw [List.length_map]; exact w.1, w.2⟩

theorem tick_lawful (s : State) : Lawful s (tick s) := by
  have sound : SizesWf s → Sound s → Sound (tick s) := fun _ => sound_tick
  unfold tick at sound ⊢
  split
  · exact .refl s
  · rename_i powered
    rw [if_neg powered] at sound
    refine ⟨id, id, fun w n => ?_, fun w => ⟨w.1, w.2.1, fun n => ?_, w.2.2.2⟩, id, sound⟩
    · rw [PerLane.get_map]
      exact tick_lane_wf (w n)
    · rw [PerLane.get_map]
      exact w.2.2.1 n

/-- A step carries out a command with the queue's rest, or lets a microsecond pass; either keeps the laws. -/
theorem step_lawful {s t : State} (h : step s = .next t) : Lawful s t := by
  unfold step at h
  split at h
  · cases h
    exact tick_lawful s
  · rename_i c rest _
    obtain ⟨u, e, k, -⟩ := exec_lawful c { s with pending := rest }
    rw [e] at h
    cases h
    exact ⟨k.log, k.link, k.lanes, k.settings, k.sizes,
      fun z w => k.sound z (Same.sound (s := s) (Same.of rfl rfl rfl) w)⟩

/-! ### The statements -/

/-- Settles O3: events and frames keep the pins, and the queue is kept by every kind of command. -/
theorem everyCommandCompletesAndKeepsPinsAndQueue : Obligations.EveryCommandCompletesAndKeepsPinsAndQueue := by
  unfold Obligations.EveryCommandCompletesAndKeepsPinsAndQueue
  intro c s
  rcases command_kinds c with h | h | h | h
  · obtain ⟨t, e, k⟩ := exec_frame (.inl h) s
    exact ⟨t, e, k.laws.pending, fun _ => k.laws.strap, fun _ _ => k.laws.porst, fun _ _ => k.laws.srst⟩
  · obtain ⟨t, e, k⟩ := exec_frame (.inr h) s
    exact ⟨t, e, k.laws.pending, fun _ => k.laws.strap, fun _ _ => k.laws.porst, fun _ _ => k.laws.srst⟩
  · obtain ⟨t, e, k⟩ := exec_event h s
    exact ⟨t, e, k.pending, fun _ => k.strap, fun _ _ => k.porst, fun _ _ => k.srst⟩
  · cases c with
    | porstNAssert => exact ⟨_, rfl, rfl, fun _ => rfl, fun c => absurd rfl c, fun _ _ => rfl⟩
    | porstNDeassert pins =>
      obtain ⟨t, e, -, pending⟩ := exec_pin h s
      refine ⟨t, e, pending, fun c => absurd rfl (c pins), fun _ c => absurd rfl (c pins), fun _ _ => ?_⟩
      cases e
      split
      · exact (eventLaws_settle _).srst.trans (powerUp_pins pins s).2.1
      · rfl
    | srstNAssert =>
      obtain ⟨t, e, rfl | k⟩ := exec_srstAssert s
      · exact ⟨_, e, rfl, fun _ => rfl, fun _ _ => rfl, fun _ _ => rfl⟩
      · exact ⟨t, e, k.pending, fun _ => k.strap, fun _ _ => k.porst, fun c => absurd rfl c⟩
    | srstNDeassert =>
      obtain ⟨t, e, rfl | k⟩ := exec_srstDeassert s
      · exact ⟨_, e, rfl, fun _ => rfl, fun _ _ => rfl, fun _ _ => rfl⟩
      · exact ⟨t, e, k.pending, fun _ => k.strap, fun _ _ => k.porst, fun _ c => absurd rfl c⟩
    | _ => cases h

/-- Settles O54: both laws are among those a step keeps. -/
theorem logAndLinkLawsKeptByEveryStep : Obligations.LogAndLinkLawsKeptByEveryStep :=
  ⟨fun _ _ w h => (step_lawful h).log w, fun _ _ w h => (step_lawful h).link w⟩

/-- Settles O55: the lanes' law is among those a step keeps. -/
theorem lanePortLawKeptByEveryStep : Obligations.LanePortLawKeptByEveryStep :=
  fun _ _ w h => (step_lawful h).lanes w

/-- Settles O57: both laws are among those a step keeps. -/
theorem settingsAndSizesKeptByEveryStep : Obligations.SettingsAndSizesKeptByEveryStep :=
  ⟨fun _ _ w h => (step_lawful h).settings w, fun _ _ w h => (step_lawful h).sizes w⟩

/-- The copy engine's laws, the job fields and the RETIRED lanes' law are kept together. -/
theorem step_sound {s t : State} (sizes : SizesWf s) (clear : RetiredClear s) (engine : s.engine.Wf)
    (fields : JobFieldsWf s) (h : step s = .next t) : Sound t :=
  (step_lawful h).sound sizes ((sound_iff s).mpr ⟨sizes.1, clear, engine, fields⟩)

/-- Settles O58: the law is one of those that `Sound` gathers. -/
theorem retiredLanesCarryNoMirrorLegAfterAnyStep : Obligations.RetiredLanesCarryNoMirrorLegAfterAnyStep :=
  fun _ _ sizes engine fields clear h => (step_sound sizes clear engine fields h).clear

/-- Settles O59: the laws are among those that `Sound` gathers. -/
theorem copyEngineLawsKeptByEveryStep : Obligations.CopyEngineLawsKeptByEveryStep := by
  intro s t sizes clear engine fields h
  obtain ⟨-, -, engine', fields'⟩ := (sound_iff t).mp (step_sound sizes clear engine fields h)
  exact ⟨engine', fields'⟩

/-- A command that is none of PORST_N's and names no setting code keeps the configuration. -/
theorem exec_config {c : Instr} {s t : State} (h : exec c s = .next t) (assert : c ≠ .porstNAssert)
    (deassert : ∀ pins, c ≠ .porstNDeassert pins) (k : ∀ code, names c code → code ∉ settingCodes) :
    configuration t = configuration s := by
  rcases command_kinds c with x | x | x | x
  · obtain ⟨u, e, f⟩ := exec_frame (.inl x) s
    cases e.symm.trans h
    exact f.laws.config k
  · obtain ⟨u, e, f⟩ := exec_frame (.inr x) s
    cases e.symm.trans h
    exact f.laws.config k
  · obtain ⟨u, e, f⟩ := exec_event x s
    cases e.symm.trans h
    exact f.config
  · cases c with
    | porstNAssert => exact absurd rfl assert
    | porstNDeassert pins => exact absurd rfl (deassert pins)
    | srstNAssert =>
      obtain ⟨u, e, rfl | f⟩ := exec_srstAssert s
      · cases e.symm.trans h
        rfl
      · cases e.symm.trans h
        exact f.config
    | srstNDeassert =>
      obtain ⟨u, e, rfl | f⟩ := exec_srstDeassert s
      · cases e.symm.trans h
        rfl
      · cases e.symm.trans h
        exact f.config
    | _ => cases x

/-- Settles O60: only the setting codes change the configuration, and a row's codes are those it names. -/
theorem configurationChangesOnlyByItsCommands : Obligations.ConfigurationChangesOnlyByItsCommands := by
  unfold Obligations.ConfigurationChangesOnlyByItsCommands
  intro c s t h
  have key := exec_config h
  cases c with
  | porstNAssert => trivial
  | porstNDeassert pins => trivial
  | drainLimitSet tag payload => trivial
  | arbiterConfig tag payload => trivial
  | healthConfig tag payload => trivial
  | laneConfig tag payload => trivial
  | alertMask tag payload => trivial
  | stageWrite tag payload => trivial
  | stageRemove tag payload => trivial
  | stageLoad tag payload => trivial
  | discardedCommandFrame bytes extra =>
    intro _ unset
    refine key Instr.noConfusion (fun _ => Instr.noConfusion) ?_
    rintro code ⟨tag, len, payload, hi, lo, whole, fits, short, clean, check⟩
    exact unset code tag len payload hi lo whole fits short clean check
  | unknownCommand code tag payload =>
    intro _ unset
    refine key Instr.noConfusion (fun _ => Instr.noConfusion) ?_
    rintro _ ⟨_, _, e⟩
    cases e
    exact unset
  | _ =>
    refine key Instr.noConfusion (fun _ => Instr.noConfusion) ?_
    rintro code ⟨tag, payload, e⟩
    cases e <;> decide

end Sys2Proof.Machine

/-! PROOF. The step, the power-on values under PORST_N, and the laws of the table: who joins it, who leaves it, and in which slots. -/

namespace Sys2Proof.Machine

open Sys2Proof

/-! ### The step -/

/-- Settles O1: the queue's front is what `step` matches on. -/
theorem stepTakesTheFrontCommand : Obligations.StepTakesTheFrontCommand := fun _ _ _ => rfl

/-- Settles O2: on an empty queue the step is the passing of a microsecond, field by field. -/
theorem emptyQueueLetsAMicrosecondPass : Obligations.EmptyQueueLetsAMicrosecondPass := by
  unfold Obligations.EmptyQueueLetsAMicrosecondPass
  intro s empty
  refine ⟨tick s, by unfold step; rw [empty], fun held => ?_, fun powered => ?_⟩
  · unfold tick
    rw [if_pos held]
  · unfold tick
    rw [if_neg (by rw [powered]; decide)]
    refine ⟨rfl, rfl, rfl, rfl, fun n => ?_, rfl, rfl, rfl, rfl, rfl, rfl, rfl, rfl, rfl, rfl, rfl, rfl, rfl, empty⟩
    cases n <;> exact ⟨rfl, rfl, rfl, rfl, rfl⟩

/-! ### PORST_N -/

/-- Settles O4: the state after reset is a state at its power-on values. -/
theorem lawsHoldAtReset : Obligations.LawsHoldAtReset := by
  have on : PoweredOn 0 State.reset := ⟨rfl, ⟨_, rfl⟩, fun _ => ⟨_, rfl⟩, ⟨_, _, rfl⟩, ⟨_, rfl⟩, rfl, rfl⟩
  obtain ⟨-, clear, engine, fields⟩ := (sound_iff _).mp (sound_powerOn 0)
  exact ⟨on.logWf, on.linkWf, on.lanesWf, ⟨Nat.zero_le _, List.nodup_nil, fun e m => absurd m List.not_mem_nil⟩,
    on.settingsWf, on.sizesWf, clear, engine, fields⟩

theorem l0Present_iff (strap : BitVec 3) : l0Present strap = true ↔ strap.toNat < 6 := by
  unfold l0Present
  rw [decide_eq_true_iff]

/-- Lane L0 has 4,096 times 2 to the strap granules, or none (R20). -/
theorem l0Capacity_eq (strap : BitVec 3) :
    l0Capacity strap = if strap.toNat < 6 then 4096 * 2 ^ strap.toNat else 0 := by
  revert strap
  decide

theorem bringUpBody_eq (strap : BitVec 3) :
    bringUpBody strap = if strap.toNat < 6 then some
      { base := 0, length := 4096 * 2 ^ strap.toNat, legA := { lane := .l0, base := 0 }, legB := none
        pref := .aFirst, access := .readWrite } else none := by
  unfold bringUpBody
  by_cases h : strap.toNat < 6 <;> simp [h, l0Present, l0Capacity_eq]

/-- The lane ports at power-on, lane by lane (R48, R69). -/
theorem powerOn_lanes (strap : BitVec 3) (n : Lane) : (powerOn strap).lanes.get n =
    { capacity := if n = .l0 ∧ strap.toNat < 6 then 4096 * 2 ^ strap.toNat else 0
      timeout := 2000, waiting := [], outstanding := [], nextNumber := 0, windowGrants := 0
      windowEngine := 0, reclaimed := [], quiesce := none
      counters := { readsIssued := 0, writesIssued := 0, readErrors := 0, writeErrors := 0
                    timeouts := 0, lateResponses := 0 } } := by
  cases n <;> simp [powerOn, PerLane.get, powerOnLane, l0Capacity_eq]

/-- The lane states at power-on, lane by lane (R20, R150). -/
theorem powerOn_health (strap : BitVec 3) (n : Lane) : (powerOn strap).health.lanes.get n =
    { budget := 0, state := if n = .l0 ∧ strap.toNat < 6 then .active else .offline } := by
  cases n <;> simp [powerOn, PerLane.get, l0Present_iff]

theorem replicate_behind {α : Type} (a x : α) {n i : Nat} (h : 1 ≤ i) (k : i < n + 1) :
    (a :: List.replicate n x)[i]? = some x := by
  obtain ⟨j, rfl⟩ := Nat.exists_eq_add_of_le' h
  rw [List.getElem?_cons_succ, List.getElem?_replicate_of_lt (by omega)]

/-- Both maps at power-on: the bring-up region in slot 0, and every other slot invalid (R21, R70). -/
theorem powerOn_maps (strap : BitVec 3) {bringUp : Option Body} (h : bringUpBody strap = bringUp) :
    (powerOn strap).mu.slots[0]? = some
        { desc := bringUp.map fun b => { body := b, degraded := false, job := none }, revision := 0 }
    ∧ (powerOn strap).mu.staging[0]? = some { body := bringUp, basedOn := 0 }
    ∧ (∀ i, 1 ≤ i → i < 64 → (powerOn strap).mu.slots[i]? = some { desc := none, revision := 0 }
        ∧ (powerOn strap).mu.staging[i]? = some { body := none, basedOn := 0 })
    ∧ (powerOn strap).mu.slots.length = 64 ∧ (powerOn strap).mu.staging.length = 64 := by
  subst h
  exact ⟨rfl, rfl, fun i h k => ⟨replicate_behind _ _ h k, replicate_behind _ _ h k⟩, rfl, rfl⟩

/-- Settles O5: the asserted state is that of power-on with its strap, field by field. -/
theorem porstAssertRestoresPowerOnValues : Obligations.PorstAssertRestoresPowerOnValues := by
  unfold Obligations.PorstAssertRestoresPowerOnValues
  intro s
  obtain ⟨m1, m2, m3, m4, m5⟩ := powerOn_maps s.strap (bringUpBody_eq s.strap)
  exact ⟨porstState s, rfl, rfl, rfl, rfl, rfl, rfl, powerOn_lanes s.strap, m1, m2, m3, m4, m5, rfl, rfl, rfl, rfl,
    rfl, powerOn_health s.strap, rfl, rfl, rfl, rfl, rfl, rfl⟩

/-- With SRST_N deasserted the part comes up quiet, in OPEN. -/
theorem powerUp_open (pins : ResetPins) {s : State} (h : s.srst = false) : powerUp pins s = { powerOn pins.strap with
    srst := s.srst, pending := s.pending
    link := { (powerOn pins.strap).link with framing := if pins.csHigh then .idle else .unframed } } := by
  unfold powerUp
  dsimp only
  rw [if_neg (by rw [h]; decide)]

/-- With SRST_N asserted the part comes up in QUIESCE, the warm-seen flag set and its lanes quiescing (R46). -/
theorem powerUp_held (pins : ResetPins) {s : State} (h : s.srst = true) : powerUp pins s =
    startQuiesce { powerOn pins.strap with
      srst := s.srst, pending := s.pending
      hp := { (powerOn pins.strap).hp with seq := .quiesce, warmSeen := true }
      link := { (powerOn pins.strap).link with framing := if pins.csHigh then .idle else .unframed } } := by
  unfold powerUp
  dsimp only
  rw [if_pos h]

theorem quiet_powerUp (pins : ResetPins) {s : State} (h : s.srst = false) : Quiet (powerUp pins s) := by
  rw [powerUp_open pins h]
  refine ⟨rfl, rfl, rfl, rfl, fun n => ?_⟩
  show ((powerOn pins.strap).lanes.get n).Settled
  rw [powerOn_lanes]
  exact ⟨rfl, rfl⟩

/-- A part that comes up with SRST_N asserted: its idle lanes complete their quiesce, and the sequence is in HOLD
when the event closes (R44, R46). -/
theorem settle_powerUp_held (pins : ResetPins) {s : State} (h : s.srst = true) :
    settle (powerUp pins s) = { powerOn pins.strap with
      srst := s.srst, pending := s.pending
      hp := { (powerOn pins.strap).hp with seq := .hold, warmSeen := true }
      link := { (powerOn pins.strap).link with framing := if pins.csHigh then .idle else .unframed } } := by
  rw [powerUp_held pins h, h]
  rfl

/-- Settles O6: the part comes up quiet in OPEN, or in HOLD under SRST_N; its blocks are those of power-on. -/
theorem porstDeassertLatchesTheStrap : Obligations.PorstDeassertLatchesTheStrap := by
  unfold Obligations.PorstDeassertLatchesTheStrap
  intro strap csHigh s held
  obtain ⟨m1, m2, m3, m4, m5⟩ := powerOn_maps strap (bringUpBody_eq strap)
  refine ⟨settle (powerUp { strap := strap, csHigh := csHigh } s), ?_, ?_⟩
  · show Host.Outcome.next (if s.porst then _ else s) = _
    rw [if_pos held]
  cases srst : s.srst with
  | false =>
    rw [settle_quiet (quiet_powerUp _ srst), powerUp_open _ srst, srst]
    exact ⟨rfl, rfl, rfl, rfl, powerOn_lanes strap, m1, m2, m3, m4, m5, rfl, rfl, rfl, rfl, rfl,
      powerOn_health strap, rfl, rfl, rfl, rfl, rfl, rfl, rfl⟩
  | true =>
    rw [settle_powerUp_held _ srst, srst]
    exact ⟨rfl, rfl, rfl, rfl, powerOn_lanes strap, m1, m2, m3, m4, m5, rfl, rfl, rfl, rfl, rfl,
      powerOn_health strap, rfl, rfl, rfl, rfl, rfl, rfl, rfl⟩

/-! ### Slots -/

/-- The table's laws speak of what its entries keep. -/
def TableWf (entries : List (Nat × Fin 16 × EntryKind × Nat)) : Prop :=
  entries.length ≤ Config.iftSlots ∧ (entries.map Prod.fst).Nodup ∧ ∀ x ∈ entries, x.1 < Config.iftSlots

theorem ift_wf_iff (s : State) : s.ift.Wf ↔ TableWf (identities s) := by
  have slots : (identities s).map Prod.fst = s.ift.entries.map Entry.slot := by
    unfold identities
    rw [List.map_map]
    rfl
  unfold InFlight.Wf TableWf
  rw [slots, identities, List.length_map]
  simp only [List.forall_mem_map]
  rfl

/-- The lowest free slot. -/
theorem freeSlot_some {entries : List Entry} {n : Nat} (h : freeSlot entries = some n) :
    n < 48 ∧ (∀ e ∈ entries, e.slot ≠ n) ∧ ∀ m < n, ∃ e ∈ entries, e.slot = m := by
  obtain ⟨free, lt, lower⟩ := List.find?_range_eq_some.mp h
  refine ⟨List.mem_range.mp lt, by simpa using free, fun m le => ?_⟩
  simpa using lower m le

theorem freeSlot_eq {entries : List Entry} {n : Nat} (lt : n < 48) (free : ∀ e ∈ entries, e.slot ≠ n)
    (lower : ∀ m, m < n → ∃ e ∈ entries, e.slot = m) : freeSlot entries = some n :=
  List.find?_range_eq_some.mpr ⟨by simpa using free, List.mem_range.mpr lt, fun m le => by simpa using lower m le⟩

/-- A table of 48 entries in distinct slots has none free. -/
theorem freeSlot_full {t : InFlight} (w : t.Wf) (full : t.entries.length = 48) : freeSlot t.entries = none := by
  obtain ⟨-, distinct, bound⟩ := w
  have sub : t.entries.map Entry.slot ⊆ List.range 48 := fun n m => by
    obtain ⟨e, h, rfl⟩ := List.mem_map.mp m
    exact List.mem_range.mpr (bound e h)
  have perm := (distinct.subperm sub).perm_of_length_le (by simp [full])
  refine List.find?_eq_none.mpr fun n m => ?_
  obtain ⟨e, h, rfl⟩ := List.mem_map.mp (perm.mem_iff.mpr m)
  simpa using ⟨e, h, rfl⟩

/-! ### Joining the table -/

/-- What an accepted transaction does to the bridge besides its decode: it joins the table at its tail. -/
structure Joins (x : Nat × Fin 16 × EntryKind × Nat) (s t : State) : Prop where
  entries : identities t = identities s ++ [x]
  errors : ∀ n : Lane, errorCounts t n = errorCounts s n ∧ budgetOf t n = budgetOf s n
  config : configuration t = configuration s
  link : t.link = s.link

theorem Joins.after {x : Nat × Fin 16 × EntryKind × Nat} {s t u : State} (h : Joins x s t) (k : Kept t u) :
    Joins x s u :=
  ⟨k.entries.trans h.entries, fun n => ⟨(k.errors n).trans (h.errors n).1, (k.budgets n).trans (h.errors n).2⟩,
   k.config.trans h.config, k.link.trans h.link⟩

theorem Joins.before {x : Nat × Fin 16 × EntryKind × Nat} {s t u : State} (h : Kept s t) (k : Joins x t u) :
    Joins x s u :=
  ⟨by rw [k.entries, h.entries],
   fun n => ⟨(k.errors n).1.trans (h.errors n), (k.errors n).2.trans (h.budgets n)⟩,
   k.config.trans h.config, k.link.trans h.link⟩

theorem joins_append (e : Entry) (s : State) : Joins e.identity s { s with ift.entries := s.ift.entries ++ [e] } :=
  ⟨by simp [identities], fun _ => ⟨rfl, rfl⟩, rfl, rfl⟩

theorem joins_acceptGood (e : Entry) (s : State) : Joins e.identity s (acceptGood e s) :=
  (joins_append e s).after (kept_fullDecode e.slot _)

theorem joins_acceptBad (e : Entry) (s : State) : Joins e.identity s (acceptBad e s) :=
  (joins_append { e with code := some .slverr } s).after
    (Kept.ofPort (p := { s.hp with malformed := bump s.hp.malformed }) (fun w => ⟨w.1, bump_le w.2.1, w.2.2⟩) rfl)

theorem kept_writeBeats (n : Nat) (s : State) : Kept s { s with hp.writeBeats := n } := Kept.ofPort id rfl

theorem kept_finishBeats (t : HostTxn) (s : State) : Kept s (finishBeats t s) := by
  unfold finishBeats
  split
  · exact Kept.refl s
  · split
    · exact kept_writeBeats 0 s
    · exact Kept.refl s

theorem acceptTxn_closed {txn : HostTxn} {s : State} (h : s.hp.seq ≠ .opened ∨ freeSlot s.ift.entries = none) :
    acceptTxn txn s = s := by
  unfold acceptTxn
  split
  · rename_i slot opened free
    rcases h with h | h
    · exact absurd (by simpa [isOpen] using opened) h
    · rw [h] at free
      cases free
  · rfl

theorem acceptTxn_open {txn : HostTxn} {s : State} {n : Nat} (opened : s.hp.seq = .opened)
    (free : freeSlot s.ift.entries = some n) :
    acceptTxn txn s = settle (
      if HostTxn.malformed txn then acceptBad (newEntry n txn.id txn.address (txnKind txn)) (finishBeats txn s)
      else acceptGood (newEntry n txn.id txn.address (txnKind txn)) s) := by
  unfold acceptTxn
  rw [show isOpen s = true by unfold isOpen; rw [opened]; rfl, free]

theorem joins_acceptTxn {txn : HostTxn} {s : State} {n : Nat} (opened : s.hp.seq = .opened)
    (free : freeSlot s.ift.entries = some n) :
    Joins (n, txn.id, txnKind txn, txn.address / 64) s (acceptTxn txn s) := by
  rw [acceptTxn_open opened free]
  refine Joins.after ?_ (kept_settle _)
  split
  · exact Joins.before (kept_finishBeats txn s) (joins_acceptBad (newEntry n txn.id txn.address (txnKind txn)) _)
  · exact joins_acceptGood (newEntry n txn.id txn.address (txnKind txn)) s

/-- A whole transaction joins the table in its lowest free slot, or stays with the interconnect. -/
theorem acceptTxn_joins (txn : HostTxn) (s : State) : acceptTxn txn s = s
    ∨ ∃ n, freeSlot s.ift.entries = some n ∧ Joins (n, txn.id, txnKind txn, txn.address / 64) s (acceptTxn txn s) := by
  by_cases opened : s.hp.seq = .opened
  · cases free : freeSlot s.ift.entries with
    | none => exact .inl (acceptTxn_closed (.inr free))
    | some n => exact .inr ⟨n, rfl, joins_acceptTxn opened free⟩
  · exact .inl (acceptTxn_closed (.inl opened))

/-- A beat of a malformed write leaves the entries, or is its last and makes it an entry. -/
theorem takeBeat_joins (b : WriteBurst) (s : State) : identities (takeBeat b s) = identities s
    ∨ ∃ n, freeSlot s.ift.entries = some n ∧ Joins (n, b.id, .badWrite, b.address / 64) s (takeBeat b s) := by
  unfold takeBeat
  split
  · rename_i n _ free
    split
    · exact .inl rfl
    split
    · exact .inl rfl
    · exact .inr ⟨n, free, Joins.before (kept_writeBeats 0 s)
        ((joins_acceptBad (newEntry n b.id b.address .badWrite) _).after (kept_settle _))⟩
  · exact .inl rfl

/-- An entry that joins in a free slot keeps the table's laws. -/
theorem TableWf.append {s : State} {x : Nat × Fin 16 × EntryKind × Nat} (free : freeSlot s.ift.entries = some x.1)
    (w : TableWf (identities s)) : TableWf (identities s ++ [x]) := by
  obtain ⟨lt, fresh, -⟩ := freeSlot_some free
  obtain ⟨count, distinct, bound⟩ := w
  have new : x.1 ∉ (identities s).map Prod.fst := by
    simp only [identities, List.map_map, List.mem_map, not_exists, not_and]
    exact fun e m => fresh e m
  have nodup : ((identities s ++ [x]).map Prod.fst).Nodup := by
    rw [List.map_append, List.nodup_append]
    refine ⟨distinct, List.nodup_singleton _, fun a m b k => ?_⟩
    rw [List.map_singleton, List.mem_singleton] at k
    rw [k]
    exact fun e => new (e ▸ m)
  have below : ∀ y ∈ identities s ++ [x], y.1 < Config.iftSlots := fun y m => by
    rcases List.mem_append.mp m with m | m
    · exact bound y m
    · rw [List.mem_singleton.mp m]
      exact lt
  refine ⟨?_, nodup, below⟩
  have sub : (identities s ++ [x]).map Prod.fst ⊆ List.range 48 := fun n m => by
    obtain ⟨y, h, rfl⟩ := List.mem_map.mp m
    exact List.mem_range.mpr (below y h)
  simpa using (nodup.subperm sub).length_le

theorem TableWf.sublist {a b : List (Nat × Fin 16 × EntryKind × Nat)} (h : a.Sublist b) (w : TableWf b) : TableWf a :=
  ⟨h.length_le.trans w.1, (h.map _).nodup w.2.1, fun x m => w.2.2 x (h.subset m)⟩

theorem tableWf_nil : TableWf [] := ⟨Nat.zero_le _, List.nodup_nil, fun _ m => absurd m List.not_mem_nil⟩

/-! ### Leaving the table -/

theorem takeResponseOf_entries (channel : Dir) (s : State) :
    (identities (takeResponseOf channel s)).Sublist (identities s) := by
  unfold takeResponseOf
  split
  · exact List.Sublist.refl _
  · rename_i slot _
    have kept : (removeEntry slot (freeChannel channel s)).ift.entries = s.ift.entries.filter fun e => e.slot != slot := by
      cases channel <;> rfl
    unfold identities
    rw [kept]
    exact List.filter_sublist.map _

theorem identities_nil {s : State} : identities s = [] ↔ s.ift.entries = [] := List.map_eq_nil_iff

theorem warmReset_entries (s : State) : identities (warmReset s) = [] := by
  have kept : Kept (discardEntries s) (startQuiesce (abandonCommit (resetJobs (discardEntries s)))) :=
    (kept_resetJobs _).trans ((kept_endCommit .resetAborted _).trans (kept_startQuiesce _))
  exact kept.entries

theorem warmOverlap_entries (s : State) : identities (warmOverlap s) = [] := by
  unfold warmOverlap
  dsimp only
  split <;> rfl

/-! ### Every command at the table -/

/-- What each command may do to the entries of the table. -/
theorem exec_entries (c : Instr) (s t : State) (h : exec c s = .next t) :
    (∃ n x, freeSlot s.ift.entries = some n ∧ x.1 = n ∧ identities t = identities s ++ [x]
      ∧ ((∃ txn, c = .hostAccept txn) ∨ ∃ burst, c = .malformedWriteBeat burst))
    ∨ ((identities t).Sublist (identities s) ∧ ∃ channel, c = .responseTaken channel)
    ∨ (identities t = [] ∧ (c = .srstNAssert ∨ c = .porstNAssert ∨ ∃ pins, c = .porstNDeassert pins))
    ∨ (identities t = identities s ∧ c ≠ .porstNAssert) := by
  rcases command_kinds c with k | k | k | k
  · obtain ⟨u, e, f⟩ := exec_frame (.inl k) s
    cases e.symm.trans h
    exact .inr (.inr (.inr ⟨f.laws.entries, fun x => by subst x; cases k⟩))
  · obtain ⟨u, e, f⟩ := exec_frame (.inr k) s
    cases e.symm.trans h
    exact .inr (.inr (.inr ⟨f.laws.entries, fun x => by subst x; cases k⟩))
  · have unmoved : ∀ {possible : Bool} {f : State → State}, event possible f s = .next t →
        identities (f s) = identities s → identities t = identities s := fun e same => by
      cases e
      split
      · exact (kept_settle _).entries.trans same
      · rfl
    cases c with
    | hostAccept txn =>
      cases h
      split
      · exact .inr (.inr (.inr ⟨rfl, Instr.noConfusion⟩))
      rcases acceptTxn_joins txn s with same | ⟨n, free, j⟩
      · rw [same]
        exact .inr (.inr (.inr ⟨rfl, Instr.noConfusion⟩))
      · exact .inl ⟨n, _, free, rfl, j.entries, .inl ⟨txn, rfl⟩⟩
    | malformedWriteBeat burst =>
      cases h
      split
      · exact .inr (.inr (.inr ⟨rfl, Instr.noConfusion⟩))
      rcases takeBeat_joins burst s with same | ⟨n, free, j⟩
      · exact .inr (.inr (.inr ⟨same, Instr.noConfusion⟩))
      · exact .inl ⟨n, _, free, rfl, j.entries, .inr ⟨burst, rfl⟩⟩
    | responseTaken channel =>
      refine .inr (.inl ⟨?_, channel, rfl⟩)
      cases h
      split
      · rw [(kept_settle _).entries]
        exact takeResponseOf_entries channel s
      · exact List.Sublist.refl _
    | laneResponse lane number resp data =>
      exact .inr (.inr (.inr ⟨unmoved h (keptTable_takeResponse lane number resp data s).entries, Instr.noConfusion⟩))
    | creditWaitTimeout lane place =>
      exact .inr (.inr (.inr ⟨unmoved h (keptTable_expireWait lane place s).entries, Instr.noConfusion⟩))
    | responseTimeout lane number =>
      exact .inr (.inr (.inr ⟨unmoved h (keptTable_expireResponse lane number s).entries, Instr.noConfusion⟩))
    | legDropRequest place =>
      exact .inr (.inr (.inr ⟨unmoved h (kept_takeRequest place s).entries, Instr.noConfusion⟩))
    | quiesceTimeout lane =>
      exact .inr (.inr (.inr ⟨unmoved h (keptTable_expireQuiesce lane s).entries, Instr.noConfusion⟩))
    | entryDrainTimeout =>
      exact .inr (.inr (.inr ⟨unmoved h (kept_expireEntryDrain s).entries, Instr.noConfusion⟩))
    | commitDrainTimeout =>
      exact .inr (.inr (.inr ⟨unmoved h (kept_endCommit .timeout s).entries, Instr.noConfusion⟩))
    | switchTimerExpiry =>
      exact .inr (.inr (.inr ⟨unmoved h (kept_expireSwitch s).entries, Instr.noConfusion⟩))
    | drainTick => exact .inr (.inr (.inr ⟨unmoved h (keptTable_healthTick s).entries, Instr.noConfusion⟩))
    | commitCompletionTaken =>
      exact .inr (.inr (.inr ⟨unmoved h (kept_completeCommit s).entries, Instr.noConfusion⟩))
    | switchCompletionTaken =>
      exact .inr (.inr (.inr ⟨unmoved h (kept_completeSwitch s).entries, Instr.noConfusion⟩))
    | _ => cases k
  · cases c with
    | porstNAssert =>
      cases h
      exact .inr (.inr (.inl ⟨rfl, .inr (.inl rfl)⟩))
    | porstNDeassert pins =>
      cases h
      split
      · refine .inr (.inr (.inl ⟨?_, .inr (.inr ⟨pins, rfl⟩)⟩))
        rw [(kept_settle _).entries]
        exact identities_nil.mpr (powerUp_pins pins s).2.2
      · exact .inr (.inr (.inr ⟨rfl, Instr.noConfusion⟩))
    | srstNAssert =>
      cases h
      split
      · exact .inr (.inr (.inr ⟨rfl, Instr.noConfusion⟩))
      dsimp only
      split
      · exact .inr (.inr (.inr ⟨rfl, Instr.noConfusion⟩))
      split
      · exact .inr (.inr (.inl ⟨(kept_settle _).entries.trans (warmReset_entries _), .inl rfl⟩))
      · exact .inr (.inr (.inl ⟨(kept_settle _).entries.trans (warmOverlap_entries _), .inl rfl⟩))
    | srstNDeassert =>
      cases h
      refine .inr (.inr (.inr ⟨?_, Instr.noConfusion⟩))
      split
      · dsimp only
        split
        · rfl
        · exact (kept_settle _).entries
      · rfl
    | _ => cases k

theorem exec_table {c : Instr} {s t : State} (h : exec c s = .next t) (w : s.ift.Wf) : t.ift.Wf := by
  rw [ift_wf_iff] at w ⊢
  rcases exec_entries c s t h with ⟨n, x, free, rfl, e, -⟩ | ⟨sub, -⟩ | ⟨e, -⟩ | ⟨e, -⟩
  · rw [e]
    exact w.append free
  · exact w.sublist sub
  · rw [e]
    exact tableWf_nil
  · rw [e]
    exact w

/-- Settles O56: the laws follow from the four things a command may do to the entries. -/
theorem tableLawsKeptByEveryCommand : Obligations.TableLawsKeptByEveryCommand := by
  refine ⟨fun s t w h => ?_, fun c s t h => ?_⟩
  · unfold step at h
    split at h
    · cases h
      unfold tick
      split <;> exact w
    · exact exec_table h w
  · rcases exec_entries c s t h with ⟨n, x, -, -, e, ⟨txn, rfl⟩ | ⟨burst, rfl⟩⟩ | ⟨sub, channel, rfl⟩
      | ⟨e, rfl | rfl | ⟨pins, rfl⟩⟩ | ⟨e, other⟩
    · exact .inr ⟨x, e⟩
    · exact .inr ⟨x, e⟩
    · exact sub
    · exact .inr e
    · exact e
    · exact .inr e
    · cases c with
      | hostAccept txn => exact .inl e
      | malformedWriteBeat burst => exact .inl e
      | responseTaken channel =>
        show (identities t).Sublist (identities s)
        rw [e]
      | srstNAssert => exact .inl e
      | porstNAssert => exact absurd rfl other
      | porstNDeassert pins => exact .inl e
      | _ => exact e

/-- Settles O8: the port's two tests decide, and what joins keeps everything else. -/
theorem hostAcceptTakesTheLowestFreeSlotOrNothing : Obligations.HostAcceptTakesTheLowestFreeSlotOrNothing := by
  unfold Obligations.HostAcceptTakesTheLowestFreeSlotOrNothing
  have powered : ∀ (txn : HostTxn) {s : State}, s.porst = false →
      exec (.hostAccept txn) s = .next (acceptTxn txn s) := fun txn s on => by
    show Host.Outcome.next (if s.porst then s else acceptTxn txn s) = _
    rw [if_neg (by rw [on]; decide)]
  refine ⟨fun txn s on shut => ?_, fun txn s n on opened lt free lower => ?_⟩
  · rw [powered txn on, acceptTxn_closed (shut.imp id fun full => freeSlot_full full.1 full.2)]
  · have j := joins_acceptTxn (txn := txn) opened (freeSlot_eq lt free lower)
    exact ⟨_, powered txn on, j.entries, j.errors, j.config, j.link⟩

/-! ### The lookup (R4) -/

theorem lookupFrom_some {line : Nat} {slots : List MapSlot} : ∀ {i : Nat} {l : Lookup},
    lookupFrom line i slots = some l → ∃ k m d, l.region = i + k ∧ slots[k]? = some m ∧ m.desc = some d
      ∧ d.body.holds line = true ∧ l.offset = line - d.body.base * 32768 ∧ l.legA = d.body.legA
      ∧ l.legB = d.body.legB ∧ l.pref = d.body.pref ∧ l.access = d.body.access ∧ l.revision = m.revision := by
  induction slots with
  | nil => intro i l h; cases h
  | cons m rest ih =>
    intro i l h
    have here_or_later : lookupFrom line (i + 1) rest = some l ∨ ∃ d, m.desc = some d ∧ d.body.holds line = true
        ∧ l = { region := i, offset := line - d.body.base * 32768, legA := d.body.legA, legB := d.body.legB
                pref := d.body.pref, access := d.body.access, revision := m.revision } := by
      unfold lookupFrom at h
      split at h
      · exact .inl h
      · split at h
        · exact .inr ⟨_, ‹_›, ‹_›, (Option.some.inj h).symm⟩
        · exact .inl h
    rcases here_or_later with h | ⟨d, hd, holds, rfl⟩
    · obtain ⟨k, m', d, region, at_, facts⟩ := ih h
      exact ⟨k + 1, m', d, by omega, at_, facts⟩
    · exact ⟨0, m, d, rfl, rfl, hd, holds, rfl, rfl, rfl, rfl, rfl, rfl⟩

theorem lookupFrom_none {line : Nat} {slots : List MapSlot} : ∀ {i : Nat},
    lookupFrom line i slots = none → ∀ k d, descOf slots k = some d → d.body.holds line = false := by
  induction slots with
  | nil => intro i _ k d h; cases h
  | cons m rest ih =>
    intro i h k d hk
    unfold lookupFrom at h
    cases k with
    | zero =>
      have hd : m.desc = some d := hk
      rw [hd] at h
      dsimp only at h
      split at h
      · cases h
      · exact Bool.eq_false_iff.mpr ‹_›
    | succ k =>
      split at h
      · exact ih h k d hk
      · split at h
        · cases h
        · exact ih h k d hk

theorem holds_iff (b : Body) (line : Nat) :
    b.holds line = true ↔ b.base * 32768 ≤ line ∧ line < (b.base + b.length) * 32768 := by
  simp [Body.holds]

/-- Settles O10: the search over the slots answers the first that holds the line. -/
theorem lookupFindsTheRegionOfALine : Obligations.LookupFindsTheRegionOfALine := by
  unfold Obligations.LookupFindsTheRegionOfALine
  intro slots line
  refine ⟨fun l h => ?_, fun h inside i d hd => ?_⟩
  · unfold lookup at h
    split at h
    · rename_i inside
      obtain ⟨k, m, d, region, at_, hd, holds, offset, legA, legB, pref, access, revision⟩ := lookupFrom_some h
      rw [Nat.zero_add] at region
      have desc : descOf slots l.region = some d := by unfold descOf; rw [region, at_]; exact hd
      have rev : revisionOf slots l.region = m.revision := by unfold revisionOf; rw [region, at_]; rfl
      obtain ⟨low, high⟩ := (holds_iff _ _).mp holds
      exact ⟨d, desc, inside, low, high, offset, legA, legB, pref, access, revision.trans rev.symm⟩
    · cases h
  · unfold lookup at h
    rw [if_pos (show line < Config.spanLines from inside)] at h
    rw [← holds_iff, lookupFrom_none h i d hd]
    decide

end Sys2Proof.Machine

/-! PROOF. The bytes of responses: the fields of joined pieces, and what the snapshot commands answer (O31, O32, O34). -/

namespace Sys2Proof.Machine

open Sys2Proof

/-! ### Fields of joined pieces -/

theorem sliceOf_skip {a b : List Byte} {i : Nat} (h : a.length ≤ i) (n : Nat) :
    sliceOf (a ++ b) i n = sliceOf b (i - a.length) n := by
  simp [sliceOf, List.drop_append, List.drop_of_length_le h]

theorem sliceOf_within {a b : List Byte} {i n : Nat} (h : i + n ≤ a.length) :
    sliceOf (a ++ b) i n = sliceOf a i n := by
  rw [sliceOf, List.drop_append_of_le_length (by omega), List.take_append_of_le_length (by simp; omega)]
  rfl

@[simp] theorem sliceOf_all {a : List Byte} {n : Nat} (h : a.length ≤ n) : sliceOf a 0 n = a := by
  simpa [sliceOf] using h

@[simp] theorem fieldValue_byte1 (n : Nat) : fieldValue (byte1 n) = n % 256 := by
  simp [fieldValue, byte1]

@[simp] theorem fieldValue_byte2 (n : Nat) : fieldValue (byte2 n) = n % 65536 := by
  simp only [fieldValue, byte2, List.foldl_cons, List.foldl_nil, BitVec.toNat_ofNat]
  omega

@[simp] theorem fieldValue_byte3 (n : Nat) : fieldValue (byte3 n) = n % 16777216 := by
  simp only [fieldValue, byte3, byte2, List.foldl_cons, List.foldl_nil, BitVec.toNat_ofNat]
  omega

@[simp] theorem fieldValue_byte4 (n : Nat) : fieldValue (byte4 n) = n % 4294967296 := by
  simp only [fieldValue, byte4, byte3, byte2, List.foldl_cons, List.foldl_nil, BitVec.toNat_ofNat]
  omega

@[simp] theorem fieldValue_yesNo (b : Bool) : fieldValue (yesNo b) = if b then 1 else 0 := by cases b <;> rfl

@[simp] theorem fieldValue_byteOr (o : Option Nat) : fieldValue (byteOr o) = (o.map (· % 256)).getD 0xFF := by
  cases o with
  | none => rfl
  | some n => exact fieldValue_byte1 n

@[simp] theorem fieldValue_absent : fieldValue (absent 1) = 0xFF := rfl

theorem laneCode_lt (n : Lane) : laneCode n < 4 := by cases n <;> decide

theorem laneStateCode_lt (st : LaneState) : laneStateCode st < 4 := by cases st <;> decide

/-! ### LINK_COUNTERS_READ and STATUS_READ -/

/-- A command without payload that reads the state and changes nothing. -/
theorem commandFrame_read {code tag : Byte} {bytes : List Byte} {f : State → Reply} {s : State} (r : LinkReady s)
    (h : f s.listening = (.ok, bytes, s.listening)) :
    commandFrame code tag [] (noPayload f) s = .next (answered code tag .ok bytes s) :=
  commandFrame_refused r (Nat.zero_le _) h

theorem linkCountersRead_fields {s : State} (w : s.link.Wf) : (linkCounterBytes s).length = 12
    ∧ fieldAt (linkCounterBytes s) 0 4 = s.link.checkErrors
    ∧ fieldAt (linkCounterBytes s) 4 4 = s.link.framingErrors
    ∧ fieldAt (linkCounterBytes s) 8 4 = s.link.overruns := by
  obtain ⟨_, _, check, framing, overruns⟩ := w
  simp only [Config.counterMax] at check framing overruns
  simp only [linkCounterBytes, fieldAt, List.append_assoc]
  simp [sliceOf_skip, sliceOf_within]
  omega

/-- Every job slot is FREE or holds a QUEUED, a RUNNING or a FINISHED record. -/
theorem jobs_partition (jobs : List (Option Job)) :
    (jobs.filter fun j => j.any Job.isQueued).length + (jobs.filter fun j => j.any Job.isFinished).length
      + (jobs.filter fun j => j.isNone).length
      + (jobs.filter fun j => j.any fun j => j.life.live && !j.isQueued).length = jobs.length := by
  induction jobs with
  | nil => rfl
  | cons slot rest ih =>
    rw [List.length_cons, ← ih]
    cases slot with
    | none => simp; omega
    | some job => cases h : job.life <;> simp [Job.isQueued, Job.isFinished, JobLife.live, h] <;> omega

theorem seqCode_lt (q : SeqState) : seqCode q < 4 := by cases q <;> decide

theorem commitResultCode_lt (r : CommitResult) : commitResultCode r < 5 := by cases r <;> decide

theorem phaseCode_lt (p : JobPhase) : phaseCode p < 4 := by cases p <;> decide

/-- A count over the slots of a block of n slots, n below 256, fits its byte. -/
theorem filter_byte {α : Type} {l : List α} {n : Nat} (h : l.length = n) (lt : n < 256) (p : α → Bool) :
    (l.filter p).length % 256 = (l.filter p).length :=
  Nat.mod_eq_of_lt (Nat.lt_of_le_of_lt (h ▸ List.length_filter_le p l) lt)

/-- STATUS_READ up to the job: each field modulo the width it is written in (10 section 10.6.7). -/
theorem statusBytes_bridge (s : State) :
    let b := statusBytes s
    fieldAt b 0 2 = s.mu.generation.toNat % 65536 ∧ fieldAt b 2 1 = (if s.mu.commit.drain.isSome then 1 else 0)
    ∧ fieldAt b 3 1 = commitResultCode s.mu.commit.last % 256 ∧ fieldAt b 4 1 = commitSize s.mu.commit % 256
    ∧ fieldAt b 5 1 = s.ift.entries.length % 256
    ∧ fieldAt b 6 1 = laneStateCode s.health.lanes.l0.state % 256
    ∧ fieldAt b 7 1 = laneStateCode s.health.lanes.l1.state % 256
    ∧ fieldAt b 8 1 = laneStateCode s.health.lanes.l2.state % 256
    ∧ fieldAt b 9 1 = laneStateCode s.health.lanes.l3.state % 256
    ∧ fieldAt b 10 1 = (s.engine.running.map (· % 256)).getD 0xFF
    ∧ fieldAt b 11 1 = (((runningJob s.engine).bind fun r => r.2.phase.map phaseCode).map (· % 256)).getD 0xFF := by
  intro b
  unfold b statusBytes fieldAt
  simp only [List.append_assoc]
  simp [sliceOf_skip, sliceOf_within]

/-- STATUS_READ from the job counts on. -/
theorem statusBytes_counts (s : State) :
    let b := statusBytes s
    fieldAt b 12 1 = countJobs s.engine.jobs Job.isQueued % 256
    ∧ fieldAt b 13 1 = countJobs s.engine.jobs Job.isFinished % 256
    ∧ fieldAt b 14 1 = (s.engine.jobs.filter Option.isNone).length % 256
    ∧ fieldAt b 15 1 = countSlots s.mu.slots (fun _ => true) % 256
    ∧ fieldAt b 16 1 = countSlots s.mu.slots Descriptor.degraded % 256
    ∧ fieldAt b 17 1 = countSlots s.mu.slots (atRisk s.health) % 256
    ∧ fieldAt b 18 1 = s.log.ring.length % 256 ∧ fieldAt b 19 1 = s.log.overflow % 256
    ∧ fieldAt b 20 1 = s.log.notices.length % 256 ∧ fieldAt b 21 1 = (if s.log.lost then 1 else 0)
    ∧ fieldAt b 22 1 = seqCode s.hp.seq % 256 := by
  intro b
  unfold b statusBytes fieldAt
  simp only [List.append_assoc]
  simp [sliceOf_skip, sliceOf_within]

theorem code_byte {n k : Nat} (h : n < k) (le : k ≤ 256) : n % 256 = n := Nat.mod_eq_of_lt (by omega)

/-- Settles O31: the fields of STATUS_READ and of LINK_COUNTERS_READ fit the widths they are written in. -/
theorem statusAndCounterSnapshots : Obligations.StatusAndCounterSnapshots := by
  intro tag s r
  refine ⟨fun log table sizes => ?_,
    fun link => ⟨linkCounterBytes s, commandFrame_read r rfl, linkCountersRead_fields link⟩⟩
  obtain ⟨ring, overflow, notices, _⟩ := log
  obtain ⟨entries, _, _⟩ := table
  obtain ⟨slots, _, jobs⟩ := sizes
  simp only [Config.ringSize, Config.overflowMax, Config.noticeSize, Config.iftSlots, Config.mapSlots,
    Config.jobSlots] at ring overflow notices entries slots jobs
  have jobCount := filter_byte jobs (by decide)
  have slotCount := filter_byte slots (by decide)
  obtain ⟨generation, drains, last, members, occupied, l0, l1, l2, l3, running, phase⟩ := statusBytes_bridge s
  obtain ⟨queued, finished, free, valid, degraded, risk, rings, lostOnes, note, lost, seq⟩ := statusBytes_counts s
  simp only [countJobs, countSlots, jobCount, slotCount, code_byte (commitResultCode_lt _) (by decide : 5 ≤ 256),
    code_byte (laneStateCode_lt _) (by decide : 4 ≤ 256), code_byte (seqCode_lt _) (by decide : 4 ≤ 256),
    code_byte (Nat.lt_succ_of_le ring) (by decide), code_byte (Nat.lt_succ_of_le overflow) (by decide),
    code_byte (Nat.lt_succ_of_le notices) (by decide), code_byte (Nat.lt_succ_of_le entries) (by decide)]
    at generation last occupied l0 l1 l2 l3 queued finished free valid degraded risk rings lostOnes note seq
  refine ⟨statusBytes s, commandFrame_read r rfl, by simp, by omega, drains, fun none => ?_, fun c some le => ?_, last,
    occupied, l0, l1, l2, l3, fun none => ?_, fun h some lt => ?_, fun h j at_ => ?_, queued, finished, free, ?_, degraded, risk,
    ?_, rings, lostOnes, note, lost, seq⟩
  · simp [members, commitSize, none]
  · simp [members, commitSize, some]
    omega
  · simp [running, phase, none, runningJob]
  · simp [running, some]
    omega
  · cases k : j.phase with
    | none => simp [phase, at_, k]
    | some p => simp [phase, at_, k, code_byte (phaseCode_lt p) (by decide : 4 ≤ 256)]
  · simpa using valid
  · rw [queued, finished, free, jobs_partition, jobs]

/-! ### LANE_READ and JOB_READ -/

/-- A request waits on one side or on the other. -/
theorem filter_not_length {α : Type} (p : α → Bool) (l : List α) :
    (l.filter fun x => !p x).length = l.length - (l.filter p).length := by
  have h := List.length_eq_length_filter_add (l := l) p
  omega

/-- LANE_READ's first 17 bytes, each field modulo its width. -/
theorem laneReadBytes_port (n : Lane) (s : State) :
    let b := laneReadBytes n s
    fieldAt b 0 1 = laneCode n % 256 ∧ fieldAt b 1 3 = (s.lanes.get n).capacity % 16777216
    ∧ fieldAt b 4 2 = (s.lanes.get n).timeout % 65536
    ∧ fieldAt b 6 1 = laneStateCode (s.health.lanes.get n).state % 256 ∧ fieldAt b 7 2 = budgetOf s n % 65536
    ∧ fieldAt b 9 1 = (16 - (s.lanes.get n).outstanding.length) % 256
    ∧ fieldAt b 10 1 = (s.lanes.get n).outstanding.length % 256
    ∧ fieldAt b 11 1 = ((s.lanes.get n).outstanding.filter fun o => o.timer.isNone).length % 256
    ∧ fieldAt b 12 1 = ((s.lanes.get n).waiting.filter fun w => !w.req.fromEngine).length % 256
    ∧ fieldAt b 13 1 = ((s.lanes.get n).waiting.filter fun w => w.req.fromEngine).length % 256
    ∧ fieldAt b 14 2 = (s.lanes.get n).reclaimed.length % 65536
    ∧ fieldAt b 16 1 = (if (s.lanes.get n).quiesce.isSome then 1 else 0) := by
  intro b
  unfold b laneReadBytes fieldAt
  simp only [List.append_assoc]
  simp [sliceOf_skip, sliceOf_within, filter_not_length, budgetOf, Config.credits, Outstanding.running]

/-- LANE_READ's counters, each modulo its width. -/
theorem laneReadBytes_counters (n : Lane) (s : State) :
    let b := laneReadBytes n s
    fieldAt b 17 4 = (s.lanes.get n).counters.readsIssued % 4294967296
    ∧ fieldAt b 21 4 = (s.lanes.get n).counters.writesIssued % 4294967296
    ∧ fieldAt b 25 4 = (s.lanes.get n).counters.readErrors % 4294967296
    ∧ fieldAt b 29 4 = (s.lanes.get n).counters.writeErrors % 4294967296
    ∧ fieldAt b 33 4 = (s.lanes.get n).counters.timeouts % 4294967296
    ∧ fieldAt b 37 4 = (s.lanes.get n).counters.lateResponses % 4294967296 := by
  intro b
  unfold b laneReadBytes fieldAt
  simp only [List.append_assoc]
  simp [sliceOf_skip, sliceOf_within]

@[simp] theorem laneOf_laneCode (n : Lane) : laneOf (laneCode n) = some n := by cases n <;> rfl

@[simp] theorem prefOf_prefCode (p : ReadPref) : prefOf (prefCode p) = some p := by cases p <;> rfl

@[simp] theorem accessOf_accessCode (a : Access) : accessOf (accessCode a) = some a := by cases a <;> rfl

theorem prefCode_lt (p : ReadPref) : prefCode p < 3 := by cases p <;> decide

theorem accessCode_lt (a : Access) : accessCode a < 2 := by cases a <;> decide

theorem reasonCode_lt (r : Reason) : reasonCode r < 9 := by cases r <;> decide

theorem outcomeCode_lt (o : OutcomeKind) : outcomeCode o < 4 := by cases o <;> decide

/-- The fields of a target's 10 bytes. -/
theorem targetBytes_fields (t : Target) :
    let b := targetBytes t
    fieldAt b 0 1 = (if t.legB.isSome then 1 else 0) ∧ fieldAt b 1 1 = laneCode t.legA.lane
    ∧ fieldAt b 2 3 = t.legA.base % 16777216 ∧ fieldAt b 5 1 = (t.legB.map fun l => laneCode l.lane).getD 0xFF
    ∧ (∀ l, t.legB = some l → fieldAt b 6 3 = l.base % 16777216) ∧ fieldAt b 9 1 = prefCode t.pref := by
  intro b
  have lane := fun n => code_byte (laneCode_lt n) (by decide : 4 ≤ 256)
  have pref := code_byte (prefCode_lt t.pref) (by decide : 3 ≤ 256)
  unfold b targetBytes fieldAt
  simp only [List.append_assoc]
  cases t.legB with
  | none => simp [sliceOf_skip, sliceOf_within, legBBytes, lane, pref]; rfl
  | some l => simp [sliceOf_skip, sliceOf_within, legBBytes, lane, pref]

/-- A target reads back from its bytes. -/
theorem parseTarget_targetBytes {t : Target} (h : ∀ leg ∈ t.legs, leg.base < 2 ^ 24) :
    parseTarget (targetBytes t) = some t := by
  obtain ⟨placement, laneA, baseA, laneB, baseB, pref⟩ := targetBytes_fields t
  have fits : ∀ leg ∈ t.legs, leg.base % 16777216 = leg.base := fun leg m => Nat.mod_eq_of_lt (h leg m)
  rw [fits t.legA (by simp [Target.legs, legList])] at baseA
  rw [parseTarget, placement, laneA, baseA, laneB, pref]
  obtain ⟨legA, legB, p⟩ := t
  cases legB with
  | none => simp [parseLegB]
  | some l =>
    rw [baseB l rfl, fits l (by simp [Target.legs, legList])]
    simp [parseLegB]

/-- What a job record holds between its region and its life, each field modulo its width. -/
theorem jobBytes_fields (h : Nat) (j : Job) (lock stopping : Bool) :
    let b := jobBytes h (some j) lock stopping
    fieldAt b 0 1 = h % 256 ∧ fieldAt b 1 1 = jobStateCode j.life % 256 ∧ fieldAt b 2 1 = jobKindCode j.work % 256
    ∧ fieldAt b 3 1 = j.region % 256 ∧ fieldAt b 15 1 = workFlags j.work lock stopping % 256
    ∧ fieldAt b 16 4 = j.blockCount % 4294967296
    ∧ fieldAt b 20 1 = ((j.phase.map phaseCode).map (· % 256)).getD 0xFF ∧ fieldAt b 21 4 = j.cursor % 4294967296
    ∧ sliceOf b 4 11 = workTargetBytes j.work ∧ sliceOf b 25 4 = workCountBytes j.work
    ∧ sliceOf b 29 8 = lifeBytes j.life := by
  intro b
  unfold b jobBytes fieldAt
  simp only [List.append_assoc]
  simp [sliceOf_skip, sliceOf_within]

theorem sliceOf_sliceOf {bytes : List Byte} {i n j m : Nat} (h : j + m ≤ n) :
    sliceOf (sliceOf bytes i n) j m = sliceOf bytes (i + j) m := by
  simp [sliceOf, List.drop_take, List.take_take, List.drop_drop]
  omega


/-- The failure that a job's stop request or outcome carries (R100, R101). -/
def JobLife.failure : JobLife → Option (Reason × Option Detail)
  | .running (some (.failed reason detail)) => some (reason, detail)
  | .finished (.failed reason detail) => some (reason, detail)
  | _ => none

/-- The reason and the detail of a failure, and 0xFF for a detail that is absent. -/
theorem failureBytes_fields (r : Reason) (detail : Option Detail) :
    fieldAt (failureBytes r detail) 0 1 = reasonCode r
    ∧ (detail = none → sliceOf (failureBytes r detail) 1 5 = List.replicate 5 0xFF)
    ∧ (∀ d, detail = some d → d.line < 2 ^ 32 → fieldAt (failureBytes r detail) 1 1 = laneCode d.lane
      ∧ fieldAt (failureBytes r detail) 2 4 = d.line) := by
  have reason := code_byte (reasonCode_lt r) (by decide : 9 ≤ 256)
  have lane := fun n => code_byte (laneCode_lt n) (by decide : 4 ≤ 256)
  unfold failureBytes fieldAt
  cases detail with
  | none => simp [sliceOf_skip, sliceOf_within, reason, absent]
  | some d =>
    simp [sliceOf_skip, sliceOf_within, reason, lane]

/-- Bytes 29 and 30 of a job record: stop request and outcome. -/
theorem lifeBytes_ends (l : JobLife) :
    fieldAt (lifeBytes l) 0 1 = (match l with
      | .running (some .cancel) => 1
      | .running (some .reset) => 2
      | .running (some (.failed _ _)) => 3
      | _ => 0)
    ∧ fieldAt (lifeBytes l) 1 1 = (match l with
      | .finished outcome => outcomeCode outcome.kind
      | _ => 0xFF) := by
  have outcome := fun o => code_byte (outcomeCode_lt o) (by decide : 4 ≤ 256)
  cases l with
  | queued => exact ⟨rfl, rfl⟩
  | running stop =>
    cases stop with
    | none => exact ⟨rfl, rfl⟩
    | some stop => cases stop <;> exact ⟨rfl, rfl⟩
  | finished o => cases o <;> exact ⟨rfl, rfl⟩

/-- Bytes 31 to 36 of a job record are those of its failure, or 0xFF. -/
theorem lifeBytes_failure (l : JobLife) : sliceOf (lifeBytes l) 2 6 =
    match l.failure with
    | some (reason, detail) => failureBytes reason detail
    | none => absent 6 := by
  cases l with
  | queued => rfl
  | running stop =>
    cases stop with
    | none => rfl
    | some stop => cases stop <;> simp [JobLife.failure, lifeBytes, sliceOf_skip] <;> rfl
  | finished o => cases o <;> simp [JobLife.failure, lifeBytes, sliceOf_skip]


/-- A command whose payload names an item it reads changes nothing. -/
theorem commandFrame_readOf {α : Type} {parse : List Byte → Option α} {payload bytes : List Byte} {a : α}
    {code tag : Byte} {f : α → State → Reply} {s : State} (r : LinkReady s) (le : payload.length ≤ 56)
    (h : parse payload = some a) (k : f a s.listening = (.ok, bytes, s.listening)) :
    commandFrame code tag payload (parsed parse f) s = .next (answered code tag .ok bytes s) :=
  commandFrame_refused r le ((parsed_some h _).trans k)

theorem parseLane_length {payload : List Byte} {n : Lane} (h : parseLane payload = some n) : payload.length = 1 :=
  Decidable.byContradiction fun k => by rw [parseLane, if_neg k] at h; cases h

theorem parseHandle_some {payload : List Byte} {h : Nat} (k : parseHandle payload = some h) :
    payload.length = 1 ∧ h < 8 := by
  unfold parseHandle at k
  split at k
  · next c => cases k; exact c
  · cases k

theorem parseSlot_some {payload : List Byte} {i : Nat} (k : parseSlot payload = some i) :
    payload.length = 1 ∧ i < 64 := by
  unfold parseSlot at k
  split at k
  · next c => cases k; exact c
  · cases k

/-- Within the laws of a lane and its ranges, every field of LANE_READ fits its width. -/
theorem laneRead_fields {n : Lane} {s : State} (w : (s.lanes.get n).Wf) (c : (s.lanes.get n).Configured)
    (hw : s.health.Wf) :
    let b := laneReadBytes n s
    fieldAt b 0 1 = laneCode n ∧ fieldAt b 1 3 = (s.lanes.get n).capacity
        ∧ fieldAt b 4 2 = (s.lanes.get n).timeout
        ∧ fieldAt b 6 1 = laneStateCode (s.health.lanes.get n).state ∧ fieldAt b 7 2 = budgetOf s n
        ∧ fieldAt b 9 1 + fieldAt b 10 1 = 16 ∧ fieldAt b 10 1 = (s.lanes.get n).outstanding.length
        ∧ fieldAt b 11 1 = ((s.lanes.get n).outstanding.filter fun o => o.timer.isNone).length
        ∧ fieldAt b 14 2 = (s.lanes.get n).reclaimed.length
        ∧ fieldAt b 17 4 = (s.lanes.get n).counters.readsIssued
        ∧ fieldAt b 21 4 = (s.lanes.get n).counters.writesIssued
        ∧ fieldAt b 25 4 = (s.lanes.get n).counters.readErrors
        ∧ fieldAt b 29 4 = (s.lanes.get n).counters.writeErrors
        ∧ fieldAt b 33 4 = (s.lanes.get n).counters.timeouts
        ∧ fieldAt b 37 4 = (s.lanes.get n).counters.lateResponses := by
  intro b
  obtain ⟨outstanding, _, _, reclaimed, reads, writes, readErrors, writeErrors, timeouts, late⟩ := w
  obtain ⟨capacity, _, timeout⟩ := c
  have budget : budgetOf s n ≤ _ := hw.1 n
  have expired := List.length_filter_le (fun o : Outstanding => o.timer.isNone) (s.lanes.get n).outstanding
  obtain ⟨f0, f1, f4, f6, f7, f9, f10, f11, _, _, f14, _⟩ := laneReadBytes_port n s
  obtain ⟨f17, f21, f25, f29, f33, f37⟩ := laneReadBytes_counters n s
  have code := laneCode_lt n
  have state := laneStateCode_lt (s.health.lanes.get n).state
  simp only [Config.credits, Config.reclaimedMax, Config.counterMax, Config.spanGranules, Config.microsMax,
    Config.budgetMax] at outstanding reclaimed reads writes readErrors writeErrors timeouts late capacity timeout budget
  unfold b
  omega

/-- A slice of a slice lies in the bytes. -/
theorem fieldAt_of_slice {b part : List Byte} {i n : Nat} (h : sliceOf b i n = part) {j m : Nat} (le : j + m ≤ n) :
    fieldAt b (i + j) m = fieldAt part j m := by
  rw [fieldAt, fieldAt, ← h, sliceOf_sliceOf le]

theorem sliceOf_of_slice {b part : List Byte} {i n : Nat} (h : sliceOf b i n = part) {j m : Nat} (le : j + m ≤ n) :
    sliceOf b (i + j) m = sliceOf part j m := by
  rw [← h, sliceOf_sliceOf le]

/-- The fields of a job record's bytes. -/
theorem jobRead_fields {h : Nat} (lt : h < 8) (j : Job) (lock stopping : Bool) (region : j.region < 64)
    (count : j.blockCount < 2 ^ 32) (cursor : j.cursor < 2 ^ 32) :
    let b := jobBytes h (some j) lock stopping
    fieldAt b 0 1 = h ∧ fieldAt b 1 1 = jobStateCode j.life ∧ fieldAt b 2 1 = jobKindCode j.work
    ∧ fieldAt b 3 1 = j.region ∧ fieldAt b 15 1 = workFlags j.work lock stopping ∧ fieldAt b 16 4 = j.blockCount
    ∧ fieldAt b 20 1 = (match j.phase with
        | none => 0xFF
        | some phase => phaseCode phase)
    ∧ fieldAt b 21 4 = j.cursor := by
  intro b
  obtain ⟨f0, f1, f2, f3, f15, f16, f20, f21, _⟩ := jobBytes_fields h j lock stopping
  have state : jobStateCode j.life < 4 := by cases j.life <;> simp [jobStateCode]
  have kind : jobKindCode j.work < 2 := by cases j.work <;> simp [jobKindCode]
  have flags : workFlags j.work lock stopping < 16 := by
    unfold workFlags
    split <;> split_ifs <;> decide
  have phase : fieldAt b 20 1 = (match j.phase with
      | none => 0xFF
      | some phase => phaseCode phase) := by
    cases k : j.phase with
    | none => simp [b, f20, k]
    | some p => simp [b, f20, k, code_byte (phaseCode_lt p) (by decide : 4 ≤ 256)]
  refine ⟨?_, ?_, ?_, ?_, ?_, ?_, phase, ?_⟩ <;> unfold b <;> omega

/-- The bytes of a relocation, and of an audit, in a job record. -/
theorem jobRead_work {h : Nat} (j : Job) (lock stopping : Bool) :
    let b := jobBytes h (some j) lock stopping
    (∀ target keptA keptB verify, j.work = .relocate target keptA keptB verify →
      sliceOf b 25 4 = List.replicate 4 0xFF
      ∧ fieldAt b 14 1 = (if keptA then 1 else 0) + (if keptB then 2 else 0) ∧ sliceOf b 4 10 = targetBytes target)
    ∧ (∀ repair mismatches repaired, j.work = .audit repair mismatches repaired →
      sliceOf b 4 11 = List.replicate 11 0xFF
      ∧ (mismatches < 65536 → fieldAt b 25 2 = mismatches) ∧ (repaired < 65536 → fieldAt b 27 2 = repaired)) := by
  intro b
  obtain ⟨_, _, _, _, _, _, _, _, target, counts, _⟩ := jobBytes_fields h j lock stopping
  constructor
  · intro t keptA keptB verify w
    rw [w] at target counts
    refine ⟨counts, ?_, (sliceOf_of_slice (j := 0) target (by decide)).trans ?_⟩
    · rw [show (14 : Nat) = 4 + 10 from rfl, fieldAt_of_slice target (by decide)]
      cases keptA <;> cases keptB <;> simp [workTargetBytes, fieldAt, sliceOf_skip]
    · simp [workTargetBytes, sliceOf_within]
  · intro repair mismatches repaired w
    rw [w] at target counts
    refine ⟨target, fun lt => ?_, fun lt => ?_⟩
    · rw [show (25 : Nat) = 25 + 0 from rfl, fieldAt_of_slice counts (by decide)]
      simpa [workCountBytes, fieldAt, sliceOf_within] using lt
    · rw [show (27 : Nat) = 25 + 2 from rfl, fieldAt_of_slice counts (by decide)]
      simpa [workCountBytes, fieldAt, sliceOf_skip] using lt

/-- The bytes of a job's life in a job record. -/
theorem jobRead_life {h : Nat} (j : Job) (lock stopping : Bool) :
    let b := jobBytes h (some j) lock stopping
    fieldAt b 29 1 = fieldAt (lifeBytes j.life) 0 1 ∧ fieldAt b 30 1 = fieldAt (lifeBytes j.life) 1 1
    ∧ fieldAt b 31 1 = (match j.life.failure with
        | none => 0xFF
        | some (reason, _) => reasonCode reason)
    ∧ (j.life.failure.bind Prod.snd = none → sliceOf b 32 5 = List.replicate 5 0xFF)
    ∧ (∀ detail, j.life.failure.bind Prod.snd = some detail → detail.line < 2 ^ 32 →
        fieldAt b 32 1 = laneCode detail.lane ∧ fieldAt b 33 4 = detail.line) := by
  intro b
  obtain ⟨_, _, _, _, _, _, _, _, _, _, life⟩ := jobBytes_fields h j lock stopping
  have failure : sliceOf b 31 6 = _ := (sliceOf_of_slice (j := 2) life (by decide)).trans (lifeBytes_failure j.life)
  refine ⟨fieldAt_of_slice (j := 0) life (by decide), fieldAt_of_slice (j := 1) life (by decide), ?_⟩
  rw [show (31 : Nat) = 31 + 0 from rfl, show (32 : Nat) = 31 + 1 from rfl, show (33 : Nat) = 31 + 2 from rfl,
    fieldAt_of_slice failure (by decide), sliceOf_of_slice failure (by decide), fieldAt_of_slice failure (by decide),
    fieldAt_of_slice failure (by decide)]
  cases j.life.failure with
  | none => exact ⟨rfl, fun _ => rfl, nofun⟩
  | some f => exact failureBytes_fields f.1 f.2

/-- Settles O32: LANE_READ's and JOB_READ's bytes carry each field at its place. -/
theorem laneAndJobSnapshots : Obligations.LaneAndJobSnapshots := by
  refine fun tag s r => ⟨fun payload n parse w c hw => ?_, fun payload h parse => ?_⟩
  · obtain ⟨f0, f1, f4, f6, f7, f9, f10, f11, f14, counters⟩ := laneRead_fields w c hw
    obtain ⟨_, _, _, _, _, _, _, _, f12, f13, _, f16⟩ := laneReadBytes_port n s
    have host := List.length_filter_le (fun w : Waiting => !w.req.fromEngine) (s.lanes.get n).waiting
    have engine := List.length_filter_le (fun w : Waiting => w.req.fromEngine) (s.lanes.get n).waiting
    exact ⟨laneReadBytes n s, commandFrame_readOf r (by simp [parseLane_length parse]) parse rfl, by simp, f0, f1, f4, f6, f7,
      f9, f10, f11, fun lt => ⟨f12.trans (Nat.mod_eq_of_lt (by omega)), f13.trans (Nat.mod_eq_of_lt (by omega))⟩, f14, f16,
      counters⟩
  · obtain ⟨len, lt⟩ := parseHandle_some parse
    have read : exec (.jobRead tag payload) s = .next (answered 0x43 tag .ok (jobReadBytes h s) s) :=
      commandFrame_readOf r (by simp [len]) parse rfl
    refine ⟨fun free => ?_, fun j used region count cursor => ?_⟩
    · rw [read, jobReadBytes, free]
      rfl
    · refine ⟨jobReadBytes h s, read, by simp [jobReadBytes], ?_⟩
      rw [jobReadBytes, used]
      obtain ⟨f0, f1, f2, f3, f15, f16, f20, f21⟩ := jobRead_fields lt j (s.engine.running == some h && s.engine.lock.isSome)
        (s.engine.running == some h && s.engine.stopping) region count cursor
      obtain ⟨relocate, audit⟩ := jobRead_work (h := h) j (s.engine.running == some h && s.engine.lock.isSome)
        (s.engine.running == some h && s.engine.stopping)
      obtain ⟨f29, f30, life⟩ := jobRead_life (h := h) j (s.engine.running == some h && s.engine.lock.isSome)
        (s.engine.running == some h && s.engine.stopping)
      obtain ⟨stop, outcome⟩ := lifeBytes_ends j.life
      refine ⟨f0, f1, f3, f16, f21, fun target keptA keptB verify w => ?_, fun repair m n w => ?_, ?_, f20, f29.trans stop,
        f30.trans outcome, life⟩
      · obtain ⟨counts, kept, bytes⟩ := relocate target keptA keptB verify w
        exact ⟨f2.trans (by rw [w]; rfl), counts, kept, fun fits => bytes ▸ parseTarget_targetBytes fits⟩
      · exact ⟨f2.trans (by rw [w]; rfl), audit repair m n w⟩
      · rw [f15]
        cases j.work with
        | relocate target keptA keptB verify => simp [workFlags, Option.isSome_iff_ne_none]
        | audit repair mismatches repaired => simp [workFlags, Option.isSome_iff_ne_none]

/-! ### MAP_READ and STAGE_READ -/

/-- A body's 17 bytes read back as the body. -/
theorem parseBody_bodyBytes {b : Body} (base : b.base < 2 ^ 24) (length : b.length < 2 ^ 24)
    (legs : ∀ leg ∈ b.legs, leg.base < 2 ^ 24) : parseBody (bodyBytes (some b)) = some b := by
  have target : sliceOf (bodyBytes (some b)) 6 10 = targetBytes b.target := by
    unfold bodyBytes
    simp only [List.append_assoc]
    simp [sliceOf_skip, sliceOf_within]
  have access := code_byte (accessCode_lt b.access) (by decide : 2 ≤ 256)
  have fields : fieldAt (bodyBytes (some b)) 0 3 = b.base ∧ fieldAt (bodyBytes (some b)) 3 3 = b.length
      ∧ fieldAt (bodyBytes (some b)) 16 1 = accessCode b.access := by
    unfold bodyBytes fieldAt
    simp only [List.append_assoc]
    simp [sliceOf_skip, sliceOf_within, access]
    omega
  obtain ⟨f0, f3, f16⟩ := fields
  rw [parseBody, target, f0, f3, f16, parseTarget_targetBytes (t := b.target) legs]
  simp [Body.target]

/-- The fields of MAP_READ. -/
theorem mapReadBytes_fields (i : Nat) (s : State) :
    let b := mapReadBytes i s
    let d := descOf s.mu.slots i
    fieldAt b 0 1 = i % 256 ∧ fieldAt b 1 1 = (if d.isSome then 1 else 0)
    ∧ fieldAt b 2 2 = (revisionOf s.mu.slots i).toNat % 65536 ∧ sliceOf b 4 17 = bodyBytes (d.map Descriptor.body)
    ∧ fieldAt b 21 1 = (if d.any Descriptor.degraded then 1 else 0)
    ∧ fieldAt b 22 1 = (if d.any (atRisk s.health) then 1 else 0)
    ∧ fieldAt b 23 1 = ((d.bind Descriptor.job).map (· % 256)).getD 0xFF
    ∧ fieldAt b 24 2 = s.mu.generation.toNat % 65536 := by
  intro b d
  unfold b d mapReadBytes fieldAt
  simp only [List.append_assoc]
  simp [sliceOf_skip, sliceOf_within]

/-- The fields of STAGE_READ. -/
theorem stageReadBytes_fields (i : Nat) (s : State) :
    let b := stageReadBytes i s
    fieldAt b 0 1 = i % 256 ∧ fieldAt b 1 1 = (if (stageOf s.mu.staging i).body.isSome then 1 else 0)
    ∧ sliceOf b 2 17 = bodyBytes (stageOf s.mu.staging i).body
    ∧ fieldAt b 19 2 = (stageOf s.mu.staging i).basedOn.toNat % 65536
    ∧ fieldAt b 21 1 = (if changedSlot s.mu i then 1 else 0)
    ∧ fieldAt b 22 2 = (revisionOf s.mu.slots i).toNat % 65536 := by
  intro b
  unfold b stageReadBytes fieldAt
  simp only [List.append_assoc]
  simp [sliceOf_skip, sliceOf_within]

theorem changedSlot_iff (mu : MapUnit) (i : Nat) : changedSlot mu i = true ↔
    (stageOf mu.staging i).body ≠ (descOf mu.slots i).map Descriptor.body := by
  simp [changedSlot]

/-- Settles O34: MAP_READ's and STAGE_READ's bytes carry each field at its place, and a body reads back. -/
theorem mapAndStageSnapshots : Obligations.MapAndStageSnapshots := by
  refine ⟨fun tag payload i s r parse => ?_, fun b base length legs => ⟨by simp, parseBody_bodyBytes base length legs⟩⟩
  obtain ⟨len, lt⟩ := parseSlot_some parse
  have revision := (revisionOf s.mu.slots i).isLt
  have generation := s.mu.generation.isLt
  have basedOn := (stageOf s.mu.staging i).basedOn.isLt
  refine ⟨⟨mapReadBytes i s, commandFrame_readOf r (by simp [len]) parse rfl, by simp, ?_⟩,
    ⟨stageReadBytes i s, commandFrame_readOf r (by simp [len]) parse rfl, by simp, ?_⟩⟩
  · obtain ⟨f0, f1, f2, body, f21, f22, f23, f24⟩ := mapReadBytes_fields i s
    refine ⟨by omega, f1, by omega, by omega, fun none => ?_, fun d some fits => ?_, fun d some => ?_⟩
    · rw [none] at body f23
      exact ⟨body, f23⟩
    · rw [some] at body f21
      rw [body]
      exact ⟨parseBody_bodyBytes fits.1 fits.2.1 fits.2.2, f21⟩
    · rw [some] at f22 f23
      refine ⟨f22, fun job => by simp [f23, job], fun h job lt => ?_⟩
      simp [f23, job]
      omega
  · obtain ⟨f0, f1, body, f19, f21, f22⟩ := stageReadBytes_fields i s
    refine ⟨by omega, f1, by omega, ?_, by omega, fun b some fits => ?_⟩
    · rw [f21]
      simp [changedSlot_iff]
    · rw [body, some]
      exact parseBody_bodyBytes fits.1 fits.2.1 fits.2.2

end Sys2Proof.Machine

/-! PROOF. Frames at the link: fetches, dropped and discarded frames, the answer of every command frame, and refusals by length and by a reset (O27, O28, O29, O53). -/

namespace Sys2Proof.Machine

open Sys2Proof

/-! ### Whole frames -/

theorem frame_powered {s : State} (h : s.porst = false) (first : Option Byte) (bits : Nat) (command : State → State) :
    frame first bits command s = .next (closeFrame command bits (openFrame first s)) := by
  unfold frame whilePowered
  rw [if_neg (by simp [h])]

/-- A fetch frame's bits are those of the head response, then 0. -/
theorem fetch_miso {l : Link} {bytes : List Byte} {bits : Nat} (h : l.miso = (bitsOf bytes).take (bits + 1)) :
    (∀ k, k ≤ bits → l.misoBit (8 + k) = ((bytes[k / 8]?).getD 0x00).getMsbD (k % 8))
    ∧ (∀ i, i < bits / 8 → l.misoByte (i + 1) = (bytes[i]?).getD 0x00) := by
  have bit : ∀ k, k ≤ bits → l.misoBit (8 + k) = ((bytes[k / 8]?).getD 0x00).getMsbD (k % 8) := by
    intro k le
    rw [Link.misoBit, if_neg (by omega), h, List.getElem?_take_of_lt (by omega), show 8 + k - 8 = k by omega, bitsOf_getD]
  refine ⟨bit, fun i lt => BitVec.eq_of_getMsbD_eq fun j hj => ?_⟩
  rw [misoByte_getMsbD l (i + 1) hj, show 8 * (i + 1) + j = 8 + (8 * i + j) by omega, bit (8 * i + j) (by omega),
    show (8 * i + j) / 8 = i by omega, show (8 * i + j) % 8 = j by omega]

theorem responseBytes_length (r : Response) : (responseBytes r).length = 7 + r.payload.length := by
  simp [responseBytes]
  omega

/-- What a fetch frame leaves with a head in the FIFO. -/
theorem exec_fetchFrame {s : State} (on : s.porst = false) (bits : Nat) {r : Response} {rest : List Response}
    (head : s.link.fifo = r :: rest) : exec (.fetchFrame bits) s = .next { s with link := { s.link with
      framing := .idle, fifo := if 7 + r.payload.length ≤ bits / 8 then rest else s.link.fifo
      miso := (bitsOf (responseBytes r)).take (bits + 1) } } := by
  show frame (some 0x3C) bits (commandEnd [] 0) s = _
  rw [frame_powered on]
  show Host.Outcome.next (fetch bits (enterFraming .fetch (enterFraming .marker s))) = _
  simp only [fetch, enterFraming, drives, head, responseBytes_length]

/-- Settles O27: the frame's bits are the head's, and its whole bytes decide whether the head leaves. -/
theorem fetchRemovesTheHeadWhenClockedWhole : Obligations.FetchRemovesTheHeadWhenClockedWhole := by
  intro bits s on
  refine ⟨fun empty => ?_, fun r rest head => ?_⟩
  · show frame (some 0x3C) bits (commandEnd [] 0) s = _
    rw [frame_powered on]
    show Host.Outcome.next (fetch bits (enterFraming .fetch (enterFraming .marker s))) = _
    simp only [fetch, enterFraming, drives, empty, List.take_nil]
  · have frame := exec_fetchFrame on bits head
    refine ⟨fun whole => ?_, fun part => ?_, ?_⟩
    · rw [frame, if_pos whole, List.take_of_length_le]
      · rfl
      · rw [bitsOf_length, responseBytes_length]
        omega
    · rw [frame, if_neg (Nat.not_le_of_lt part)]
      rfl
    · obtain ⟨bit, byte⟩ := fetch_miso (l := { s.link with
        framing := .idle, fifo := if 7 + r.payload.length ≤ bits / 8 then rest else s.link.fifo
        miso := (bitsOf (responseBytes r)).take (bits + 1) }) rfl
      exact ⟨_, frame, BitVec.eq_of_getMsbD_eq fun j hj => by
        rw [misoByte_getMsbD _ 0 hj, misoBit_marker _ (by omega)]; simp, fun k lt => misoBit_marker _ lt, bit, byte⟩

theorem handlerOf_unknown {code : Byte} (h : code ∉ knownCodes) : handlerOf code = bodyUnknown := by
  have known : ∀ {n : Nat}, code.toNat = n → BitVec.ofNat 8 n ∈ knownCodes → False := fun e m => h (code_eq e ▸ m)
  unfold handlerOf
  split
  case h_32 => rfl
  all_goals exact (known ‹_› (by decide)).elim

/-- A frame whose bytes are a command's shape has its check code tested next (R165). -/
theorem commandEnd_shape (code tag : Byte) {len : Byte} (hi lo : Byte) {payload : List Byte} (n : payload.length = len.toNat)
    (le : len.toNat ≤ 56) (s : State) : commandEnd ([code, tag, len] ++ payload ++ [hi, lo]) 0 s =
      if hi.toNat * 256 + lo.toNat ≠ (checkCode ([code, tag, len] ++ payload)).toNat then checkError s
      else frameEnd code tag payload (handlerOf code) s := by
  show commandEnd (code :: tag :: len :: (payload ++ [hi, lo])) 0 s = _
  unfold commandEnd
  dsimp only
  rw [if_neg (by simp [n, Config.payloadMax, le]), ← n, List.drop_left, List.take_left, fieldValue_pair]
  rfl

/-- Bytes of no command's shape fail framing (R165). -/
theorem commandEnd_unshaped {bytes : List Byte} {extra : Nat}
    (h : ¬∃ code tag len rest, bytes = code :: tag :: len :: rest ∧ len.toNat ≤ 56
        ∧ rest.length = len.toNat + 2 ∧ extra = 0) (s : State) : commandEnd bytes extra s = framingError s := by
  unfold commandEnd
  split
  · rename_i code tag len rest
    refine if_pos (Classical.byContradiction fun k => h ⟨code, tag, len, rest, rfl, ?_⟩)
    simp only [Config.payloadMax, not_or, Nat.not_lt, not_not] at k
    exact k
  · rfl

theorem exec_discarded {s : State} (on : s.porst = false) (bytes : List Byte) (extra : Nat) :
    exec (.discardedCommandFrame bytes extra) s = .next (commandEnd bytes extra s.heard) :=
  frame_powered on _ _ _

/-- Settles O28: each frame fails the first test that it fails, in the order of R165. -/
theorem droppedAndDiscardedFramesAreCounted : Obligations.DroppedAndDiscardedFramesAreCounted := by
  refine ⟨by decide +kernel, fun bits s on => frame_powered on _ _ _, fun first s on command taken => ?_,
    fun bytes extra s on unshaped => ?_, fun code tag len hi lo payload s on n le check => ?_,
    fun code tag len hi lo payload s on n le check full => ?_, fun c code tag payload s row on le full => ?_,
    fun l i silent => ⟨?_, misoBit_silent silent i⟩, fun code tag payload s r unknown le => ?_⟩
  · have e : framingOf first = .ignore := by rw [framingOf, if_neg taken, if_neg command]
    show frame (some first) 0 (commandEnd [] 0) s = _
    rw [frame_powered on]
    unfold openFrame
    dsimp only
    rw [e]
    rfl
  · rw [exec_discarded on, commandEnd_unshaped unshaped]
    rfl
  · rw [exec_discarded on, commandEnd_shape code tag hi lo n le, if_pos check]
    rfl
  · rw [exec_discarded on, commandEnd_shape code tag hi lo n le, if_neg (by simpa using check), frameEnd,
      if_neg (by simp only [Config.payloadMax]; omega), if_pos full]
    rfl
  · rw [exec_frameOf row, commandFrame_overrun on le full]
    rfl
  · exact BitVec.eq_of_getMsbD_eq fun j hj => by rw [misoByte_getMsbD l i hj, misoBit_silent silent]; simp
  · rw [show exec (.unknownCommand code tag payload) s = commandFrame code tag payload (handlerOf code) s from rfl,
      handlerOf_unknown unknown]
    exact commandFrame_refused r le rfl

/-- Settles O29: the handler keeps the link, and its reply joins the FIFO's tail. -/
theorem everyCommandFrameAppendsOneResponse : Obligations.EveryCommandFrameAppendsOneResponse := by
  intro c code tag payload s row le r
  obtain ⟨reply, lawful, carried⟩ := carryOut_rest code tag payload s
  refine ⟨pushResponse (mkResponse code tag reply.1 reply.2.1) reply.2.2, mkResponse code tag reply.1 reply.2.1, ?_, ?_, rfl, rfl, mkResponse_sound code tag reply.1 lawful.short⟩
  · exact (exec_frameOf row s).trans ((commandFrame_ready r le _ _ _).trans (congrArg _ carried))
  · show ({ reply.2.2.link with fifo := _ } : Link) = _
    rw [lawful.obeyed.link]

/-! ### Refusals by length -/

theorem noPayload_length {payload : List Byte} (h : payload.length ∉ [0]) (f : State → Reply) (s : State) :
    noPayload f payload s = refuse .badArgument s := by
  cases payload with
  | nil => exact absurd (List.mem_singleton.mpr rfl) h
  | cons b rest => rfl

theorem parsed_length {α : Type} {parse : List Byte → Option α} {n : Nat}
    (fixed : ∀ payload : List Byte, payload.length ≠ n → parse payload = none) {payload : List Byte}
    (h : payload.length ∉ [n]) (f : α → State → Reply) (s : State) :
    parsed parse f payload s = refuse .badArgument s :=
  parsed_none (fixed payload fun e => h (List.mem_singleton.mpr e)) s

theorem parseSlot_length (payload : List Byte) (h : payload.length ≠ 1) : parseSlot payload = none :=
  if_neg fun k => h k.1

theorem parseLane_wrong (payload : List Byte) (h : payload.length ≠ 1) : parseLane payload = none := if_neg h

theorem parseHandle_length (payload : List Byte) (h : payload.length ≠ 1) : parseHandle payload = none :=
  if_neg fun k => h k.1

theorem parseLaneSelect_length (payload : List Byte) (h : payload.length ≠ 1) : parseLaneSelect payload = none := if_neg h

theorem parseStageWrite_length (payload : List Byte) (h : payload.length ≠ 20) : parseStageWrite payload = none :=
  if_neg fun k => h k.1

theorem parseStageRemove_length (payload : List Byte) (h : payload.length ≠ 3) : parseStageRemove payload = none :=
  if_neg fun k => h k.1

theorem parseLaneConfig_length (payload : List Byte) (h : payload.length ≠ 6) : parseLaneConfig payload = none :=
  if_neg fun k => h k.1

theorem parseRelocate_length (payload : List Byte) (h : payload.length ≠ 12) : parseRelocate payload = none :=
  if_neg fun k => h k.1

theorem parseAudit_length (payload : List Byte) (h : payload.length ≠ 2) : parseAudit payload = none :=
  if_neg fun k => h k.1

theorem parseHealth_length (payload : List Byte) (h : payload.length ≠ 6) : parseHealth payload = none :=
  if_neg fun k => h k.1

theorem bodyDrainLimitSet_length {payload : List Byte} (h : payload.length ∉ [0, 2]) (s : State) :
    bodyDrainLimitSet payload s = refuse .badArgument s := by
  unfold bodyDrainLimitSet
  split
  · exact absurd (by simp) h
  · exact absurd (by simp) h
  · rfl

theorem bodyArbiterConfig_length {payload : List Byte} (h : payload.length ∉ [0, 1]) (s : State) :
    bodyArbiterConfig payload s = refuse .badArgument s := by
  unfold bodyArbiterConfig
  split
  · exact absurd (by simp) h
  · exact absurd (by simp) h
  · rfl

theorem bodyAlertMask_length {payload : List Byte} (h : payload.length ∉ [0, 1]) (s : State) :
    bodyAlertMask payload s = refuse .badArgument s := by
  unfold bodyAlertMask
  split
  · exact absurd (by simp) h
  · exact absurd (by simp) h
  · rfl

theorem bodyHealthConfig_length {payload : List Byte} (h : payload.length ∉ [0, 6]) (s : State) :
    bodyHealthConfig payload s = refuse .badArgument s := by
  unfold bodyHealthConfig
  split
  · exact absurd (by simp) h
  · exact parsed_none (parseHealth_length _ fun e => h (by simp [e])) s

/-- Every command a code names refuses a payload of none of its lengths (R166, 10 section 10.6.2). -/
theorem handlerOf_length {code : Byte} (known : code ∈ knownCodes) {payload : List Byte}
    (h : payload.length ∉ payloadLengths code) (s : State) : handlerOf code payload s = refuse .badArgument s := by
  have lengths : ∀ {n : Nat} {ls : List Nat}, code.toNat = n → payloadLengths (BitVec.ofNat 8 n) = ls →
      payload.length ∉ ls := fun e k => k ▸ code_eq e ▸ h
  generalize named : handlerOf code = handler
  unfold handlerOf at named
  split at named <;> subst named
  · exact noPayload_length (lengths ‹_› (by decide)) _ s
  · exact noPayload_length (lengths ‹_› (by decide)) _ s
  · exact noPayload_length (lengths ‹_› (by decide)) _ s
  · exact noPayload_length (lengths ‹_› (by decide)) _ s
  · exact bodyDrainLimitSet_length (lengths ‹_› (by decide)) s
  · exact parsed_length parseSlot_length (lengths ‹_› (by decide)) _ s
  · exact noPayload_length (lengths ‹_› (by decide)) _ s
  · exact noPayload_length (lengths ‹_› (by decide)) _ s
  · exact parsed_length parseSlot_length (lengths ‹_› (by decide)) _ s
  · exact parsed_length parseStageWrite_length (lengths ‹_› (by decide)) _ s
  · exact parsed_length parseStageRemove_length (lengths ‹_› (by decide)) _ s
  · exact noPayload_length (lengths ‹_› (by decide)) _ s
  · exact noPayload_length (lengths ‹_› (by decide)) _ s
  · exact parsed_length parseLaneConfig_length (lengths ‹_› (by decide)) _ s
  · exact parsed_length parseLane_wrong (lengths ‹_› (by decide)) _ s
  · exact parsed_length parseLaneSelect_length (lengths ‹_› (by decide)) _ s
  · exact bodyArbiterConfig_length (lengths ‹_› (by decide)) s
  · exact bodyHealthConfig_length (lengths ‹_› (by decide)) s
  · exact parsed_length parseLane_wrong (lengths ‹_› (by decide)) _ s
  · exact parsed_length parseLane_wrong (lengths ‹_› (by decide)) _ s
  · exact parsed_length parseLane_wrong (lengths ‹_› (by decide)) _ s
  · exact parsed_length parseRelocate_length (lengths ‹_› (by decide)) _ s
  · exact parsed_length parseAudit_length (lengths ‹_› (by decide)) _ s
  · exact parsed_length parseHandle_length (lengths ‹_› (by decide)) _ s
  · exact parsed_length parseHandle_length (lengths ‹_› (by decide)) _ s
  · exact parsed_length parseHandle_length (lengths ‹_› (by decide)) _ s
  · exact noPayload_length (lengths ‹_› (by decide)) _ s
  · exact noPayload_length (lengths ‹_› (by decide)) _ s
  · exact noPayload_length (lengths ‹_› (by decide)) _ s
  · exact noPayload_length (lengths ‹_› (by decide)) _ s
  · exact bodyAlertMask_length (lengths ‹_› (by decide)) s
  · have m := List.mem_map_of_mem (f := BitVec.toNat) known
    simp only [knownCodes, List.map_cons, List.map_nil, List.mem_cons, List.not_mem_nil, or_false, BitVec.reduceToNat] at m
    exact absurd m (by simp_all)

/-! ### Refusals while a sequence is in progress -/

theorem handler_resetting {f : State → Reply} {s : State} (h : s.hp.seq ≠ .opened) (r : LinkReady s)
    (code tag : Byte) : commandFrame code tag [] (noPayload (inOpen f)) s = .next (answered code tag .resetting [] s) :=
  commandFrame_refused r (Nat.zero_le _) (inOpen_resetting h)

theorem parsed_resetting {α : Type} {parse : List Byte → Option α} {f : α → State → Reply} {s : State}
    (h : s.hp.seq ≠ .opened) (r : LinkReady s) {payload : List Byte} (le : payload.length ≤ 56) (code tag : Byte)
    (k : parse payload ≠ none) :
    commandFrame code tag payload (parsed parse fun a => inOpen (f a)) s
      = .next (answered code tag .resetting [] s) := by
  obtain ⟨a, e⟩ := Option.ne_none_iff_exists'.mp k
  exact commandFrame_refused r le ((parsed_some e _).trans (inOpen_resetting h))

/-- Settles O53: a wrong length fails the payload test, and a right one meets the reset test outside OPEN. -/
theorem refusalsByLengthAndByReset : Obligations.RefusalsByLengthAndByReset := by
  refine ⟨fun c code tag payload s row known length le r => ?_, fun tag payload s r h le => ?_⟩
  · rw [exec_frameOf row]
    exact commandFrame_refused r le (handlerOf_length known length _)
  · refine ⟨handler_resetting h r _ _, handler_resetting h r _ _, handler_resetting h r _ _, handler_resetting h r _ _,
      parsed_resetting h r le _ _, parsed_resetting h r le _ _, parsed_resetting h r le _ _, parsed_resetting h r le _ _,
      fun k => ?_, fun k => ⟨parsed_resetting h r le _ _ k, parsed_resetting h r le _ _ k, parsed_resetting h r le _ _ k⟩,
      parsed_resetting h r le _ _, parsed_resetting h r le _ _,
      fun k => ⟨parsed_resetting h r le _ _ k, parsed_resetting h r le _ _ k⟩⟩
    cases payload with
    | nil => exact absurd rfl k
    | cons b rest => exact parsed_resetting (parse := parseHealth) h r le 0x38 tag k
end Sys2Proof.Machine

/-! PROOF. Commands that set one thing: counters, settings, staging slots, lanes and the health monitor (O33, O35, O39, O40, O41). -/

namespace Sys2Proof.Machine

open Sys2Proof

/-! ### Fields of explicit payloads -/

theorem fieldValue_byte (b : Byte) : fieldValue [b] = b.toNat := by simp [fieldValue]

theorem byte1_toNat (b : Byte) : byte1 b.toNat = [b] := by simp [byte1]

theorem byte2_pair (a b : Byte) : byte2 (a.toNat * 256 + b.toNat) = [a, b] := by
  have ha := a.isLt
  have hb := b.isLt
  simp only [byte2, List.cons.injEq, and_true]
  constructor <;> apply BitVec.eq_of_toNat_eq <;> rw [BitVec.toNat_ofNat] <;> omega

/-- A command that a reset sequence refuses, taken in OPEN. -/
theorem commandFrame_setting {s t : State} {payload bytes : List Byte} {body : Handler} {code tag : Byte} (r : LinkReady s)
    (le : payload.length ≤ 56) (h : s.hp.seq = .opened) {f : State → Reply} (k : body payload s.listening = inOpen f s.listening)
    (e : f s.listening = (.ok, bytes, t)) (l : t.link = s.listening.link) :
    commandFrame code tag payload body s = .next (answered code tag .ok bytes t) :=
  commandFrame_reply r le (k.trans ((inOpen_opened (s := s.listening) h).trans e)) l

/-- A command taken in OPEN whose payload parses. -/
theorem commandFrame_open {α : Type} {parse : List Byte → Option α} {f : α → State → Reply} {payload bytes : List Byte}
    {a : α} {s t : State} {status : Status} {code tag : Byte} (r : LinkReady s) (le : payload.length ≤ 56)
    (h : s.hp.seq = .opened) (parse_eq : parse payload = some a) (k : f a s.listening = (status, bytes, t))
    (l : t.link = s.listening.link) :
    commandFrame code tag payload (parsed parse fun a => inOpen (f a)) s = .next (answered code tag status bytes t) :=
  commandFrame_reply r le ((parsed_some parse_eq _).trans ((inOpen_opened (s := s.listening) h).trans k)) l

/-- Such a command refused. -/
theorem commandFrame_openRefused {α : Type} {parse : List Byte → Option α} {f : α → State → Reply} {payload : List Byte}
    {a : α} {s : State} {status : Status} {code tag : Byte} (r : LinkReady s) (le : payload.length ≤ 56)
    (h : s.hp.seq = .opened) (parse_eq : parse payload = some a) (k : f a s.listening = (status, [], s.listening)) :
    commandFrame code tag payload (parsed parse fun a => inOpen (f a)) s = .next (answered code tag status [] s) :=
  commandFrame_refused r le ((parsed_some parse_eq _).trans ((inOpen_opened (s := s.listening) h).trans k))

theorem commandFrame_unparsed {α : Type} {parse : List Byte → Option α} {f : α → State → Reply} {payload : List Byte}
    {s : State} {code tag : Byte} (r : LinkReady s) (le : payload.length ≤ 56) (h : parse payload = none) :
    commandFrame code tag payload (parsed parse f) s = .next (answered code tag .badArgument [] s) :=
  commandFrame_refused r le (parsed_none h _)

/-! ### Counters and settings (O33) -/

theorem clearCounters_spec (lanes : List Lane) : ∀ s : State, ∃ ports, clearCounters lanes s = { s with lanes := ports }
    ∧ ∀ n : Lane, ports.get n =
      if n ∈ lanes then { s.lanes.get n with counters := zeroCounters } else s.lanes.get n := by
  induction lanes with
  | nil => exact fun s => ⟨s.lanes, rfl, fun n => by simp⟩
  | cons lane rest ih =>
    intro s
    obtain ⟨ports, e, spec⟩ := ih (modifyLane lane (fun p => { p with counters := zeroCounters }) s)
    refine ⟨ports, e, fun n => ?_⟩
    have one : ((modifyLane lane (fun p => { p with counters := zeroCounters }) s).lanes.get n)
        = if n = lane then { s.lanes.get n with counters := zeroCounters } else s.lanes.get n := by
      show (s.lanes.modify lane _).get n = _
      rw [PerLane.get_modify]
      split
      · next h => rw [h]
      · rfl
    rw [spec, one]
    by_cases h : n = lane <;> by_cases k : n ∈ rest <;> simp [h, k]

theorem laneCode_inj {m n : Lane} : laneCode m = laneCode n ↔ m = n := by
  constructor
  · intro h
    simpa using congrArg laneOf h
  · exact congrArg laneCode

/-- The lanes that LANE_COUNTERS_CLEAR names: one, or all of them with 0xFF (R68). -/
theorem parseLaneSelect_byte (b : Byte) (h : b.toNat < 4 ∨ b = 0xFF) : ∃ lanes, parseLaneSelect [b] = some lanes
    ∧ ∀ n : Lane, n ∈ lanes ↔ b = 0xFF ∨ laneCode n = b.toNat := by
  have field : fieldAt [b] 0 1 = b.toNat := fieldValue_byte b
  have select : parseLaneSelect [b] = if b.toNat = 0xFF then some [.l0, .l1, .l2, .l3]
      else (laneOf b.toNat).map fun lane => [lane] := by
    rw [parseLaneSelect, if_pos (show [b].length = 1 from rfl), field]
  by_cases all : b = 0xFF
  · subst all
    exact ⟨_, select, fun n => by cases n <;> decide⟩
  · have lt : b.toNat < 4 := h.resolve_right all
    have named : ∀ n : Lane, b.toNat = laneCode n → ∃ lanes, parseLaneSelect [b] = some lanes
        ∧ ∀ m : Lane, m ∈ lanes ↔ b = 0xFF ∨ laneCode m = b.toNat := by
      intro n e
      refine ⟨[n], ?_, fun m => ?_⟩
      · rw [select, if_neg (by omega), e, laneOf_laneCode]
        rfl
      · rw [e, List.mem_singleton, laneCode_inj, or_iff_right all]
    rcases (by omega : b.toNat = 0 ∨ b.toNat = 1 ∨ b.toNat = 2 ∨ b.toNat = 3) with e | e | e | e
    · exact named .l0 e
    · exact named .l1 e
    · exact named .l2 e
    · exact named .l3 e

theorem parseLaneSelect_none {payload : List Byte} (h : ∀ b, payload = [b] → 4 ≤ b.toNat ∧ b ≠ 0xFF) :
    parseLaneSelect payload = none := by
  by_cases len : payload.length = 1
  · obtain ⟨b, rfl⟩ := List.length_eq_one_iff.mp len
    obtain ⟨ge, other⟩ := h b rfl
    have none : laneOf b.toNat = none := by
      unfold laneOf
      split <;> first | omega | rfl
    rw [parseLaneSelect, if_pos (show [b].length = 1 from rfl), show fieldAt [b] 0 1 = b.toNat from fieldValue_byte b,
      if_neg (fun e : b.toNat = 255 => other (BitVec.eq_of_toNat_eq e)), none]
    rfl
  · exact parseLaneSelect_length payload len

theorem counterClears (tag : Byte) (s : State) (r : LinkReady s) :
    (s.hp.seq = .opened → exec (.hostCountersClear tag []) s = .next (answered 0x19 tag .ok []
      { s with hp := { s.hp with unmapped := 0, malformed := 0, readOnly := 0 } }))
    ∧ (s.hp.seq ≠ .opened →
        exec (.hostCountersClear tag []) s = .next (answered 0x19 tag .resetting [] s))
    ∧ (∀ b rest, (b :: rest).length ≤ 56 →
        exec (.hostCountersClear tag (b :: rest)) s = .next (answered 0x19 tag .badArgument [] s))
    ∧ (∀ b : Byte, (b.toNat < 4 ∨ b = 0xFF) →
        (s.hp.seq = .opened → ∃ lanes, exec (.laneCountersClear tag [b]) s = .next
            (answered 0x32 tag .ok [] { s with lanes := lanes })
          ∧ ∀ n : Lane, lanes.get n =
            (if b = 0xFF ∨ laneCode n = b.toNat then { s.lanes.get n with counters := zeroCounters }
             else s.lanes.get n))
        ∧ (s.hp.seq ≠ .opened →
            exec (.laneCountersClear tag [b]) s = .next (answered 0x32 tag .resetting [] s)))
    ∧ (∀ payload : List Byte, payload.length ≤ 56 →
        (∀ b, payload = [b] → 4 ≤ b.toNat ∧ b ≠ 0xFF) →
        exec (.laneCountersClear tag payload) s = .next (answered 0x32 tag .badArgument [] s)) := by
  refine ⟨fun h => commandFrame_setting (t := clearHostCounters s.listening) r (Nat.zero_le _) h
      (f := fun s => (.ok, [], clearHostCounters s)) rfl rfl rfl,
    fun h => handler_resetting h r _ _, fun b rest le => commandFrame_payloadRefused r le _ _ _, fun b named => ?_,
    fun payload le other => commandFrame_unparsed r le (parseLaneSelect_none other)⟩
  obtain ⟨lanes, select, mem⟩ := parseLaneSelect_byte b named
  refine ⟨fun h => ?_, fun h => parsed_resetting h r (by simp) _ _ (by rw [select]; nofun)⟩
  obtain ⟨ports, e, spec⟩ := clearCounters_spec lanes s.listening
  refine ⟨ports, ?_, fun n => by simpa only [mem] using spec n⟩
  exact commandFrame_open (f := fun lanes s => (.ok, [], clearCounters lanes s)) (t := { s.listening with lanes := ports })
    r (by simp) h select (by simp only [e]) rfl

theorem settings (tag : Byte) (s : State) (r : LinkReady s) :
    exec (.drainLimitSet tag []) s = .next (answered 0x05 tag .ok (byte2 s.hp.drainLimit) s)
    ∧ (∀ a b : Byte,
        (a.toNat * 256 + b.toNat = 0 →
          exec (.drainLimitSet tag [a, b]) s = .next (answered 0x05 tag .badArgument [] s))
        ∧ (a.toNat * 256 + b.toNat ≠ 0 → s.hp.seq = .opened →
          exec (.drainLimitSet tag [a, b]) s = .next (answered 0x05 tag .ok [a, b]
            { s with hp.drainLimit := a.toNat * 256 + b.toNat }))
        ∧ (a.toNat * 256 + b.toNat ≠ 0 → s.hp.seq ≠ .opened →
          exec (.drainLimitSet tag [a, b]) s = .next (answered 0x05 tag .resetting [] s)))
    ∧ exec (.arbiterConfig tag []) s = .next (answered 0x33 tag .ok [BitVec.ofNat 8 s.engine.share] s)
    ∧ (∀ b : Byte,
        (b.toNat = 0 ∨ 15 < b.toNat →
          exec (.arbiterConfig tag [b]) s = .next (answered 0x33 tag .badArgument [] s))
        ∧ (1 ≤ b.toNat → b.toNat ≤ 15 → s.hp.seq = .opened →
          exec (.arbiterConfig tag [b]) s = .next (answered 0x33 tag .ok [b]
            { s with engine.share := b.toNat }))
        ∧ (1 ≤ b.toNat → b.toNat ≤ 15 → s.hp.seq ≠ .opened →
          exec (.arbiterConfig tag [b]) s = .next (answered 0x33 tag .resetting [] s)))
    ∧ exec (.alertMask tag []) s = .next (answered 0x54 tag .ok [s.log.mask.setWidth 8] s)
    ∧ (∀ b : Byte,
        (64 ≤ b.toNat → exec (.alertMask tag [b]) s = .next (answered 0x54 tag .badArgument [] s))
        ∧ (b.toNat < 64 → exec (.alertMask tag [b]) s = .next (answered 0x54 tag .ok [b]
            { s with log := { s.log with
                mask := b.setWidth 6
                alert := s.log.lost
                  || s.log.notices.any fun n => (b.setWidth 6).getLsbD (noticeCode n.info) } }))) := by
  have limit (a b : Byte) (s : State) : bodyDrainLimitSet [a, b] s = if a.toNat * 256 + b.toNat = 0 then refuse .badArgument s
      else inOpen (fun s => (.ok, [a, b], { s with hp.drainLimit := a.toNat * 256 + b.toNat })) s := by
    simp only [bodyDrainLimitSet, fieldValue_pair, byte2_pair]
  have share (b : Byte) (s : State) : bodyArbiterConfig [b] s = if 1 ≤ b.toNat ∧ b.toNat < 16 then
      inOpen (fun s => (.ok, [b], { s with engine.share := b.toNat })) s else refuse .badArgument s := by
    simp only [bodyArbiterConfig, byte1_toNat, Config.windowSize]
  have mask (b : Byte) (s : State) : bodyAlertMask [b] s = if b.toNat < 64 then
      (.ok, [b], { s with log := evaluateAlert { s.log with mask := b.setWidth 6 } }) else refuse .badArgument s := by
    simp only [bodyAlertMask, byte1_toNat]
  have two (a b : Byte) : [a, b].length ≤ 56 := by simp
  have one (b : Byte) : [b].length ≤ 56 := by simp
  refine ⟨commandFrame_refused r (Nat.zero_le _) rfl, fun a b => ⟨fun z => ?_, fun z h => ?_, fun z h => ?_⟩,
    commandFrame_refused r (Nat.zero_le _) rfl, fun b => ⟨fun z => ?_, fun lo hi h => ?_, fun lo hi h => ?_⟩, ?_,
    fun b => ⟨fun ge => ?_, fun lt => ?_⟩⟩
  · exact commandFrame_refused r (two a b) ((limit a b _).trans (if_pos z))
  · exact commandFrame_setting (t := { s.listening with hp.drainLimit := a.toNat * 256 + b.toNat }) r (two a b) h
      ((limit a b _).trans (if_neg z)) rfl rfl
  · exact commandFrame_refused r (two a b) (((limit a b _).trans (if_neg z)).trans (inOpen_resetting h))
  · exact commandFrame_refused r (one b) ((share b _).trans (if_neg (by omega)))
  · exact commandFrame_setting (t := { s.listening with engine.share := b.toNat }) r (one b) h
      ((share b _).trans (if_pos (by omega))) rfl rfl
  · exact commandFrame_refused r (one b) (((share b _).trans (if_pos (by omega))).trans (inOpen_resetting h))
  · refine commandFrame_refused r (Nat.zero_le _) ?_
    show (Status.ok, byte1 s.log.mask.toNat, s.listening) = _
    simp [byte1, BitVec.ofNat_toNat]
  · exact commandFrame_refused r (one b) ((mask b _).trans (if_neg (by omega)))
  · exact commandFrame_reply (t := { s.listening with log := evaluateAlert { s.log with mask := b.setWidth 6 } }) r (one b)
      ((mask b _).trans (if_pos lt)) rfl

/-- Settles O33: the counters cleared, and the settings read and made, test by test. -/
theorem counterClearsAndSettings : Obligations.CounterClearsAndSettings := ⟨counterClears, settings⟩

/-! ### The staging map (O35) -/

theorem stageOf_set {staging : List StageSlot} {i : Nat} (h : i < staging.length) (x : StageSlot) :
    stageOf (staging.set i x) i = x := by
  simp [stageOf, h]

theorem bne_decide {α : Type} [BEq α] [LawfulBEq α] [DecidableEq α] (x y : α) : (x != y) = decide (x ≠ y) := by
  rw [Bool.eq_iff_iff]
  simp

/-- The answer of a replaced staging slot: whether it now differs from the active slot, and the active revision. -/
theorem stageAnswer_setStage {s : State} (w : SizesWf s) {i : Nat} (lt : i < 64) (body : Option Body) (revision : Count16) :
    stageAnswer i (setStage i { body := body, basedOn := revision } s) =
      (.ok, yesNo (decide (body ≠ (descOf s.mu.slots i).map Descriptor.body)) ++ byte2 (revisionOf s.mu.slots i).toNat,
        { s with mu.staging := s.mu.staging.set i { body := body, basedOn := revision } }) := by
  obtain ⟨_, staging, _⟩ := w
  have slot := stageOf_set (staging := s.mu.staging) (i := i) (by rw [staging]; exact lt)
    { body := body, basedOn := revision }
  unfold stageAnswer setStage changedSlot
  dsimp only
  rw [slot]
  rw [bne_decide]

theorem parseStageWrite_slot {payload : List Byte} {i : Nat} {body : Body} {revision : Count16}
    (h : parseStageWrite payload = some (i, body, revision)) : i < 64 := by
  unfold parseStageWrite at h
  split at h
  · next c =>
    obtain ⟨b, -, e⟩ := Option.bind_eq_some_iff.mp h
    cases e
    exact c.2
  · cases h

theorem ofNat_pair (hi lo : Byte) : BitVec.ofNat 16 (hi.toNat * 256 + lo.toNat) = hi ++ lo := by
  have := lo.isLt
  have := hi.isLt
  apply BitVec.eq_of_toNat_eq
  rw [BitVec.toNat_ofNat, BitVec.toNat_append, ← Nat.shiftLeft_add_eq_or_of_lt lo.isLt, Nat.shiftLeft_eq]
  omega

theorem parseStageRemove_bytes (i hi lo : Byte) :
    parseStageRemove [i, hi, lo] = if i.toNat < 64 then some (i.toNat, hi ++ lo) else none := by
  have f0 : fieldAt [i, hi, lo] 0 1 = i.toNat := fieldValue_byte i
  have f1 : fieldAt [i, hi, lo] 1 2 = hi.toNat * 256 + lo.toNat := fieldValue_pair hi lo
  rw [parseStageRemove, f0, f1, ofNat_pair]
  simp [Config.mapSlots]

/-- Settles O35: each staging command replaces the slots it names, when its payload passes and the port is open. -/
theorem stagingCommandsSetTheirSlots : Obligations.StagingCommandsSetTheirSlots := by
  refine ⟨?_, fun tag s r => ⟨fun h => ?_, fun h => handler_resetting h r _ _,
    fun b rest le => commandFrame_payloadRefused r le _ _ _⟩⟩
  intro tag payload s r w le answer
  refine ⟨fun i body revision parse => ⟨fun h => ?_, fun h => ?_⟩, fun none => ?_, fun i hi lo e => ?_⟩
  · exact commandFrame_open (t := { s.listening with mu.staging := s.mu.staging.set i { body := some body, basedOn := revision } })
      r le h parse (stageAnswer_setStage (s := s.listening) w (parseStageWrite_slot parse) _ _) rfl
  · exact parsed_resetting h r le _ _ (by rw [parse]; nofun)
  · exact commandFrame_unparsed r le none
  · subst e
    have parse := parseStageRemove_bytes i hi lo
    refine ⟨fun ge => ?_, fun lt h => ?_, fun lt h => ?_⟩
    · exact commandFrame_unparsed r le (parse.trans (if_neg (by omega)))
    · exact commandFrame_open (t := { s.listening with mu.staging := s.mu.staging.set i.toNat { body := none, basedOn := hi ++ lo } })
        r le h (parse.trans (if_pos lt)) (stageAnswer_setStage (s := s.listening) w lt _ _) rfl
    · exact parsed_resetting h r le _ _ (by rw [parse, if_pos lt]; nofun)
  · refine ⟨s.mu.slots.map loadSlot, ?_, by simp, fun i m e => by simp [e, loadSlot], fun i => ?_⟩
    · exact commandFrame_setting (t := loadStaging s.listening) r (Nat.zero_le _) h
        (f := fun s => (.ok, byte2 s.mu.generation.toNat, loadStaging s)) rfl rfl rfl
    · cases e : s.mu.slots[i]? <;> simp [changedSlot, stageOf, descOf, e, loadSlot]

/-! ### LANE_CONFIG (O39) -/

theorem any_itemsOn (lane : Lane) (s : State) (p : Item → Bool) : (itemsOn lane s).any p = true ↔
    ∃ item ∈ occupancy s ++ commitItems s.mu, item.lane = lane ∧ p item = true := by
  simp only [itemsOn, List.any_eq_true, List.mem_filter, beq_iff_eq]
  exact ⟨fun ⟨item, ⟨m, on⟩, k⟩ => ⟨item, m, on, k⟩, fun ⟨item, m, on, k⟩ => ⟨item, ⟨m, on⟩, k⟩⟩

/-- LANE_CONFIG's tests after the payload's, in order. -/
theorem configLane_tests (n : Lane) (capacity timeout : Nat) (s : State) :
    let cut := ∃ item ∈ occupancy s ++ commitItems s.mu, item.lane = n ∧ capacity < item.start + item.len
    let empties := capacity = 0 ∧ (s.health.lanes.get n).state ≠ .offline
    (empties → configLane n capacity timeout s = (.badArgument, [], s))
    ∧ (¬empties → cut → configLane n capacity timeout s = (.laneInUse, [], s))
    ∧ (¬empties → ¬cut → configLane n capacity timeout s = (.ok, [],
        { s with lanes := s.lanes.modify n fun p => { p with capacity := capacity, timeout := timeout } })) := by
  intro cut empties
  have above : ((itemsOn n s).any fun item => item.above capacity) = true ↔ cut := by
    simp only [any_itemsOn, Item.above, decide_eq_true_iff, cut]
  unfold configLane
  refine ⟨fun e => if_pos e, fun keeps inUse => ?_, fun keeps free => ?_⟩
  · exact (if_neg keeps).trans (if_pos (above.mpr inUse))
  · exact (if_neg keeps).trans (if_neg (mt above.mp free))

/-- Settles O39: LANE_CONFIG's tests in order. -/
theorem laneConfigTestsInOrder : Obligations.LaneConfigTestsInOrder := by
  refine fun tag payload s r le => ⟨fun none => commandFrame_unparsed r le none, fun n capacity timeout parse => ?_⟩
  obtain ⟨hi, lo, top⟩ := parseLaneConfig_some parse
  obtain ⟨empty, cut, passes⟩ := configLane_tests n capacity timeout s.listening
  refine ⟨⟨hi, lo, top⟩, fun h => parsed_resetting h r le _ _ (by rw [parse]; nofun), fun h empties => ?_,
    fun h keeps inUse => ?_, fun h keeps free => ?_⟩
  · exact commandFrame_openRefused r le h parse (empty empties)
  · exact commandFrame_openRefused r le h parse (cut keeps inUse)
  · exact commandFrame_open (t := { s.listening with
      lanes := s.lanes.modify n fun p => { p with capacity := capacity, timeout := timeout } })
      r le h parse (passes keeps free) rfl

/-! ### HEALTH_CONFIG (O40) -/

/-- What the evaluations of several lanes leave of the health monitor: their states alone change. -/
theorem evaluateLanes_health (lanes : List Lane) : ∀ s : State, lanes.Nodup →
    (evaluateLanes lanes s).health.suspect = s.health.suspect ∧ (evaluateLanes lanes s).health.retire = s.health.retire
    ∧ (evaluateLanes lanes s).health.interval = s.health.interval
    ∧ (evaluateLanes lanes s).health.drainTimer = s.health.drainTimer
    ∧ ∀ k : Lane, (evaluateLanes lanes s).health.lanes.get k = if k ∈ lanes then { s.health.lanes.get k with
        state := evaluatedState s.health.suspect s.health.retire (budgetOf s k) (s.health.lanes.get k).state }
      else s.health.lanes.get k := by
  induction lanes with
  | nil => exact fun s _ => ⟨rfl, rfl, rfl, rfl, fun k => by simp [evaluateLanes]⟩
  | cons lane rest ih =>
    intro s distinct
    obtain ⟨suspect, retire, interval, timer, states⟩ := ih (evaluateLane lane s) (List.nodup_cons.mp distinct).2
    rw [evaluateLanes, suspect, retire, interval, timer, health_evaluateLane]
    refine ⟨rfl, rfl, rfl, rfl, fun k => ?_⟩
    rw [states, budgetOf, health_evaluateLane]
    simp only [PerLane.get_modify, List.mem_cons]
    by_cases h : k = lane
    · subst h
      rw [if_neg (List.nodup_cons.mp distinct).1, if_pos rfl, if_pos (.inl rfl)]
      rfl
    · simp only [h, if_false, false_or]
      rfl

theorem setHealth_settled (suspect retire interval : Nat) (s : State) :
    let t := settle (setHealth suspect retire interval s)
    t.health.suspect = suspect ∧ t.health.retire = retire ∧ t.health.interval = interval
    ∧ t.health.drainTimer = some interval
    ∧ (∀ k : Lane, (t.health.lanes.get k).state =
        evaluatedState suspect retire (budgetOf s k) (s.health.lanes.get k).state)
    ∧ (∀ k : Lane, budgetOf t k = budgetOf s k ∧ errorCounts t k = errorCounts s k)
    ∧ identities t = identities s ∧ t.link = s.link := by
  intro t
  have kept : Kept _ t := (kept_evaluateLanes allLanes { s with health := { s.health with
    suspect := suspect, retire := retire, interval := interval, drainTimer := some interval } }).trans (kept_settle _)
  obtain ⟨h1, h2, h3, h4, states⟩ := evaluateLanes_health allLanes { s with health := { s.health with
    suspect := suspect, retire := retire, interval := interval, drainTimer := some interval } } (by decide)
  have health : t.health = (setHealth suspect retire interval s).health := health_settle _
  have all : ∀ k : Lane, k ∈ allLanes := fun k => by cases k <;> decide
  rw [health]
  exact ⟨h1, h2, h3, h4, fun k => by rw [setHealth, states, if_pos (all k)]; rfl,
    fun k => ⟨kept.budgets k, kept.errors k⟩, kept.entries, kept.link⟩

/-- HEALTH_CONFIG's six bytes, read (R146). -/
theorem parseHealth_bytes (a b c d e f : Byte) :
    let suspect := a.toNat * 256 + b.toNat
    let retire := c.toNat * 256 + d.toNat
    let interval := e.toNat * 256 + f.toNat
    parseHealth [a, b, c, d, e, f] = if 1 ≤ suspect ∧ suspect < retire ∧ retire ≤ 4095 ∧ 1 ≤ interval then
      some (suspect, retire, interval) else none := by
  intro suspect retire interval
  have f0 : fieldAt [a, b, c, d, e, f] 0 2 = suspect := fieldValue_pair a b
  have f2 : fieldAt [a, b, c, d, e, f] 2 2 = retire := fieldValue_pair c d
  have f4 : fieldAt [a, b, c, d, e, f] 4 2 = interval := fieldValue_pair e f
  simp only [parseHealth, f0, f2, f4, Config.budgetMax, List.length_cons, List.length_nil, true_and]

/-- HEALTH_CONFIG's answer to values in their ranges. -/
theorem bodyHealthConfig_set {a b c d e f : Byte} {suspect retire interval : Nat} {s : State}
    (h1 : a.toNat * 256 + b.toNat = suspect) (h2 : c.toNat * 256 + d.toNat = retire)
    (h3 : e.toNat * 256 + f.toNat = interval) (valid : 1 ≤ suspect ∧ suspect < retire ∧ retire ≤ 4095 ∧ 1 ≤ interval)
    (h : s.hp.seq = .opened) : bodyHealthConfig [a, b, c, d, e, f] s =
      (.ok, [a, b, c, d, e, f], settle (setHealth suspect retire interval s)) := by
  have parse := parseHealth_bytes a b c d e f
  rw [h1, h2, h3] at parse
  obtain ⟨hs, hr, hi, -⟩ := setHealth_settled suspect retire interval s
  have bytes : healthBytes (settle (setHealth suspect retire interval s)).health = [a, b, c, d, e, f] := by
    rw [healthBytes, hs, hr, hi, ← h1, ← h2, ← h3, byte2_pair, byte2_pair, byte2_pair]
    rfl
  have reply : bodyHealthConfig [a, b, c, d, e, f] s = (.ok, healthBytes (settle (setHealth suspect retire interval s)).health,
      settle (setHealth suspect retire interval s)) :=
    (parsed_some (parse := parseHealth) (parse.trans (if_pos valid)) s).trans (inOpen_opened h)
  rw [reply, bytes]

/-- Settles O40: HEALTH_CONFIG's tests, and the evaluations under the new thresholds. -/
theorem healthConfigTakesItsValues : Obligations.HealthConfigTakesItsValues := by
  refine fun tag s r => ⟨commandFrame_refused r (Nat.zero_le _) rfl, fun a b c d e f => ?_⟩
  have parse := parseHealth_bytes a b c d e f
  have le : [a, b, c, d, e, f].length ≤ 56 := by simp
  refine ⟨fun invalid => ?_, fun valid h => ?_, fun valid h => ?_⟩
  · exact commandFrame_unparsed r le (parse.trans (if_neg invalid))
  · exact parsed_resetting (parse := parseHealth) h r le _ _ (by rw [parse, if_pos valid]; nofun)
  · obtain ⟨suspect, retire, interval, timer, states, counts, entries, link⟩ := setHealth_settled
      (a.toNat * 256 + b.toNat) (c.toNat * 256 + d.toNat) (e.toNat * 256 + f.toNat) s.listening
    exact ⟨_, commandFrame_reply r le (bodyHealthConfig_set (s := s.listening) rfl rfl rfl valid h) link, suspect, retire,
      interval, timer, states, counts, entries⟩

/-! ### LANE_SET_OFFLINE, LANE_SET_ACTIVE and LANE_RESTORE (O41) -/

/-- A change of a lane's state, with its record and notice (R143). -/
theorem setLaneState_eq (n : Lane) (st : LaneState) (s : State) : setLaneState n st s = { s with
    health.lanes := s.health.lanes.set n { s.health.lanes.get n with state := st }
    log := takeNotice s.mu.generation (.laneStateChanged n st)
      (takeRecord s.mu.generation { kind := .laneStateChanged, lane := some n } s.log) } := rfl

theorem makeActive_eq (n : Lane) (s : State) : makeActive n s = { s with
    health.lanes := s.health.lanes.set n { budget := 0, state := .active }
    log := takeNotice s.mu.generation (.laneStateChanged n .active)
      (takeRecord s.mu.generation { kind := .laneStateChanged, lane := some n } s.log) } := by
  have lanes : (s.health.lanes.modify n fun h => { h with budget := 0 }).modify n (fun h => { h with state := .active })
      = s.health.lanes.set n { budget := 0, state := .active } := PerLane.ext_get fun m => by
    simp only [PerLane.get_modify, PerLane.get_set]
    split <;> simp
  show ({ s with
    health.lanes := (s.health.lanes.modify n fun h => { h with budget := 0 }).modify n fun h => { h with state := .active }
    log := takeNotice s.mu.generation (.laneStateChanged n .active)
      (takeRecord s.mu.generation { kind := .laneStateChanged, lane := some n } s.log) } : State) = _
  rw [lanes]

theorem itemsOn_isEmpty (n : Lane) (s : State) : (itemsOn n s).isEmpty = true ↔
    ¬∃ item ∈ occupancy s ++ commitItems s.mu, item.lane = n := by
  simp only [itemsOn, List.isEmpty_iff, List.filter_eq_nil_iff, beq_iff_eq, not_exists, not_and]

theorem idle_iff (p : LanePort) : p.idle = true ↔ p.waiting = [] ∧ p.outstanding = [] := by
  simp [LanePort.idle]

/-- LANE_SET_OFFLINE's tests in order. -/
theorem setOffline_tests (n : Lane) (s : State) :
    let state := (s.health.lanes.get n).state
    let inUse := ∃ item ∈ occupancy s ++ commitItems s.mu, item.lane = n
    let idle := (s.lanes.get n).waiting = [] ∧ (s.lanes.get n).outstanding = []
    (state ≠ .active → state ≠ .suspect → setOffline n s = (.notActive, [], s))
    ∧ ((state = .active ∨ state = .suspect) → (inUse → setOffline n s = (.laneInUse, [], s))
      ∧ (¬inUse → ¬idle → setOffline n s = (.laneBusy, [], s))
      ∧ (¬inUse → idle → setOffline n s = (.ok, [], setLaneState n .offline s))) := by
  intro state inUse idle
  unfold setOffline
  refine ⟨fun a b => if_pos ⟨a, b⟩, fun up => ?_⟩
  have pass : ¬(laneStateOf n s ≠ .active ∧ laneStateOf n s ≠ .suspect) := fun ⟨a, b⟩ => up.elim a b
  rw [if_neg pass]
  refine ⟨fun use => if_pos ?_, fun free busy => (if_neg ?_).trans (if_pos ?_), fun free rest =>
    (if_neg ?_).trans (if_neg ?_)⟩
  · simpa using mt (itemsOn_isEmpty n s).mp (not_not.mpr use)
  · simpa using (itemsOn_isEmpty n s).mpr free
  · simpa using mt (idle_iff _).mp busy
  · simpa using (itemsOn_isEmpty n s).mpr free
  · simpa using (idle_iff _).mpr rest

/-- Settles O41: the tests of the three commands in order, and the change of state with its record and notice. -/
theorem laneStateCommands : Obligations.LaneStateCommands := by
  intro tag payload n s r parse h state inUse idle becomes offline active restore
  have le : payload.length ≤ 56 := by simp [parseLane_length parse]
  obtain ⟨down, up⟩ := setOffline_tests n s.listening
  have same : becomes { s.health.lanes.get n with state := .offline } = setLaneState n .offline s := rfl
  refine ⟨fun a b => commandFrame_openRefused r le h parse (down a b), fun up' => ⟨fun use => ?_, fun free busy => ?_,
    fun free rest => ?_⟩, fun a => ?_, fun off empty => ?_, fun off filled => ?_, fun a => ?_, fun retired => ?_⟩
  · exact commandFrame_openRefused r le h parse ((up up').1 use)
  · exact commandFrame_openRefused r le h parse ((up up').2.1 free busy)
  · exact commandFrame_open (t := setLaneState n .offline s.listening) r le h parse ((up up').2.2 free rest) rfl
  · exact commandFrame_openRefused (f := setActive) r le h parse (if_pos a)
  · exact commandFrame_openRefused (f := setActive) r le h parse ((if_neg (not_not.mpr off)).trans (if_pos empty))
  · refine commandFrame_open (f := setActive) (t := { s.listening with
      health.lanes := s.health.lanes.set n { budget := 0, state := .active }
      log := takeNotice s.mu.generation (.laneStateChanged n .active)
        (takeRecord s.mu.generation { kind := .laneStateChanged, lane := some n } s.log) }) r le h parse ?_ rfl
    rw [setActive, if_neg (show ¬laneStateOf n s.listening ≠ .offline from not_not.mpr off), if_neg filled, makeActive_eq]
  · exact commandFrame_openRefused (f := restoreLane) r le h parse (if_pos a)
  · refine commandFrame_open (f := restoreLane) (t := { s.listening with
      health.lanes := s.health.lanes.set n { budget := 0, state := .active }
      log := takeNotice s.mu.generation (.laneStateChanged n .active)
        (takeRecord s.mu.generation { kind := .laneStateChanged, lane := some n } s.log) }) r le h parse ?_ rfl
    rw [restoreLane, if_neg (show ¬laneStateOf n s.listening ≠ .retired from not_not.mpr retired), makeActive_eq]
end Sys2Proof.Machine

/-! PROOF. MAP_COMMIT: its tests in order, the structural checks, and an accepted commit (O36, O37, O38). -/

namespace Sys2Proof.Machine

open Sys2Proof

/-! ### The changed slots -/

theorem mem_changedSlots {mu : MapUnit} {i : Nat} : i ∈ changedSlots mu ↔
    i < 64 ∧ (stageOf mu.staging i).body ≠ (descOf mu.slots i).map Descriptor.body := by
  simp [changedSlots, slotNumbers, changedSlot_iff, Config.mapSlots]

/-- The lowest changed slot that a test selects. -/
theorem changedSlots_find {mu : MapUnit} {i : Nat} {p : Nat → Bool} (mem : i ∈ changedSlots mu) (h : p i = true)
    (lowest : ∀ m, m < i → m ∈ changedSlots mu → p m = false) : (changedSlots mu).find? p = some i := by
  rw [changedSlots, List.find?_filter, slotNumbers, List.find?_range_eq_some]
  obtain ⟨lt, changed⟩ := mem_changedSlots.mp mem
  refine ⟨by simp [h, changedSlot_iff, changed], List.mem_range.mpr lt, fun m below => ?_⟩
  by_cases c : m ∈ changedSlots mu
  · simp [lowest m below c]
  · have : changedSlot mu m = false := by
      rw [Bool.eq_false_iff]
      exact fun k => c (mem_changedSlots.mpr ⟨by omega, (changedSlot_iff mu m).mp k⟩)
    simp [this]

theorem findSome_eq {α β : Type} (g : α → Option β) (l : List α) :
    l.findSome? g = (l.find? fun a => (g a).isSome).bind g := by
  induction l with
  | nil => rfl
  | cons a rest ih =>
    rw [List.findSome?_cons, List.find?_cons]
    cases h : g a with
    | none => simpa using ih
    | some b => simp [h]

theorem staleSlot_some {mu : MapUnit} {i : Nat} (mem : i ∈ changedSlots mu)
    (h : (stageOf mu.staging i).basedOn ≠ revisionOf mu.slots i)
    (lowest : ∀ m, m < i → m ∈ changedSlots mu → (stageOf mu.staging m).basedOn = revisionOf mu.slots m) :
    staleSlot mu = some i :=
  changedSlots_find mem (by simpa using h) fun m below c => by simpa using lowest m below c

theorem staleSlot_none {mu : MapUnit} (h : ∀ m ∈ changedSlots mu, (stageOf mu.staging m).basedOn = revisionOf mu.slots m) :
    staleSlot mu = none := by
  rw [staleSlot, List.find?_eq_none]
  intro m c
  simp [h m c]

theorem busySlot_some {mu : MapUnit} {i h : Nat} (mem : i ∈ changedSlots mu)
    (job : (descOf mu.slots i).bind Descriptor.job = some h)
    (lowest : ∀ m, m < i → m ∈ changedSlots mu → (descOf mu.slots m).bind Descriptor.job = none) :
    busySlot mu = some (i, h) := by
  rw [busySlot, List.head?_filterMap, findSome_eq,
    changedSlots_find mem (by rw [job]; rfl) fun m below c => by rw [lowest m below c]; rfl]
  rw [Option.bind_some, job]
  rfl

/-! ### MAP_COMMIT's tests (O36) -/

theorem commitBody_failed {s : State} (idle : s.mu.commit.drain = none) {k : Nat} (mem : k ∈ changedSlots s.mu) :
    (∀ f, structuralFailure s = some f → commitBody s = (.invalidMap, failureDetail f, s))
    ∧ (∀ i, structuralFailure s = none → staleSlot s.mu = some i → commitBody s = (.stale, byte1 i, s))
    ∧ (∀ i h, structuralFailure s = none → staleSlot s.mu = none → busySlot s.mu = some (i, h) →
        commitBody s = (.mapBusy, byte1 i ++ byte1 h, s)) := by
  have some : ¬(changedSlots s.mu).isEmpty = true := by
    rw [List.isEmpty_iff]
    exact fun e => List.not_mem_nil (e ▸ mem)
  unfold commitBody
  rw [if_neg (by simp [idle]), if_neg some]
  refine ⟨fun f h => ?_, fun i h stale => ?_, fun i j h stale busy => ?_⟩
  · rw [h]; rfl
  · rw [h, stale]; rfl
  · rw [h, stale, busy]; rfl

/-- A refusal of MAP_COMMIT in OPEN. -/
theorem mapCommit_refused {s : State} {tag : Byte} {status : Status} {bytes : List Byte} (r : LinkReady s)
    (h : s.hp.seq = .opened) (k : commitBody s.listening = (status, bytes, s.listening)) :
    exec (.mapCommit tag []) s = .next (answered 0x24 tag status bytes s) :=
  commandFrame_refused r (Nat.zero_le _) ((inOpen_opened (s := s.listening) h).trans k)

/-- Settles O36: the first test of MAP_COMMIT that fails answers it. -/
theorem mapCommitTestsInOrder : Obligations.MapCommitTestsInOrder := by
  intro tag s r refused changed
  have isChanged : ∀ i, changed i ↔ i ∈ changedSlots s.mu := fun i => mem_changedSlots.symm
  refine ⟨fun b rest le => commandFrame_payloadRefused r le _ _ _, fun h => handler_resetting h r _ _, fun h drains => ?_,
    fun h idle => ⟨fun none => ?_, fun k mem => ?_⟩⟩
  · refine mapCommit_refused r h (if_pos ?_)
    exact Option.isSome_iff_ne_none.mpr drains
  · have empty : (changedSlots s.mu).isEmpty = true := by
      rw [List.isEmpty_iff, List.eq_nil_iff_forall_not_mem]
      exact fun i m => none i ((isChanged i).mpr m)
    refine mapCommit_refused r h ((if_neg ?_).trans (if_pos empty))
    simp [idle]
  · obtain ⟨invalid, stale, busy⟩ := commitBody_failed (s := s.listening) idle ((isChanged k).mp mem)
    refine ⟨fun f e => mapCommit_refused r h (invalid f e), fun valid => ⟨fun i m differs lowest => ?_,
      fun fresh i j m job lowest => ?_⟩⟩
    · exact mapCommit_refused r h (stale i valid (staleSlot_some ((isChanged i).mp m) differs
        fun m lt c => lowest m lt ((isChanged m).mpr c)))
    · exact mapCommit_refused r h (busy i j valid (staleSlot_none fun m c => fresh m ((isChanged m).mpr c))
        (busySlot_some ((isChanged i).mp m) job fun m lt c => lowest m lt ((isChanged m).mpr c)))

/-! ### The structural checks over the valid staging slots -/

theorem pickOne_mem {α : Type} {site : Nat} {xs : List α} {x : α} (h : pickOne site xs = some x) : x ∈ xs := by
  unfold pickOne at h
  split at h
  · cases h
  · cases h
    exact List.mem_singleton.mpr rfl
  · exact List.mem_of_getElem? h

theorem pickOne_nil {α : Type} {site : Nat} {xs : List α} : pickOne site xs = none ↔ xs = [] :=
  ⟨pickOne_none, fun h => by rw [h]; rfl⟩

/-- The first failure of a check over the valid staging slots below n, ascending. -/
def firstStaged (mu : MapUnit) (n : Nat) (check : Nat → Body → Option MapFailure) : Option MapFailure :=
  (List.range n).findSome? fun i => (stageOf mu.staging i).body.bind (check i)

theorem firstStaged_none {mu : MapUnit} {n : Nat} {check : Nat → Body → Option MapFailure} :
    firstStaged mu n check = none ↔ ∀ i b, i < n → (stageOf mu.staging i).body = some b → check i b = none := by
  simp only [firstStaged, List.findSome?_eq_none_iff, List.mem_range, Option.bind_eq_none_iff]
  exact ⟨fun h i b lt e => h i lt b e, fun h i lt b e => h i b lt e⟩

theorem firstStaged_some {mu : MapUnit} {n i : Nat} {b : Body} {check : Nat → Body → Option MapFailure} {f : MapFailure}
    (lt : i < n) (body : (stageOf mu.staging i).body = some b) (h : check i b = some f)
    (lowest : ∀ k c, k < i → (stageOf mu.staging k).body = some c → check k c = none) :
    firstStaged mu n check = some f := by
  have find : (List.range n).find? (fun i => ((stageOf mu.staging i).body.bind (check i)).isSome) = some i := by
    rw [List.find?_range_eq_some]
    refine ⟨by simp [body, h], List.mem_range.mpr lt, fun k below => ?_⟩
    cases e : (stageOf mu.staging k).body with
    | none => rfl
    | some c => simp [lowest k c below e]
  rw [firstStaged, findSome_eq, find, Option.bind_some, body, Option.bind_some, h]

/-- The valid staging slots from slot i on, n of the slots, ascending. -/
def stagedFrom (mu : MapUnit) (i n : Nat) : List (Nat × Body) :=
  (List.range' i n).filterMap fun i => (stageOf mu.staging i).body.map fun b => (i, b)

theorem firstFailure_eq (check : Nat × Body → Option MapFailure) (l : List (Nat × Body)) :
    firstFailure check l = l.findSome? check := by
  induction l with
  | nil => rfl
  | cons p rest ih =>
    rw [firstFailure, List.findSome?_cons, ih]
    cases check p <;> rfl

theorem findSome_filterMap {α β γ : Type} (f : α → Option β) (g : β → Option γ) (l : List α) :
    (l.filterMap f).findSome? g = l.findSome? fun a => (f a).bind g := by
  induction l with
  | nil => rfl
  | cons a rest ih =>
    rw [List.filterMap_cons, List.findSome?_cons, ← ih]
    cases f a with
    | none => rfl
    | some b => rw [List.findSome?_cons, Option.bind_some]

theorem firstFailure_staged (mu : MapUnit) (check : Nat × Body → Option MapFailure) (n : Nat) :
    firstFailure check (stagedFrom mu 0 n) = firstStaged mu n fun i b => check (i, b) := by
  rw [firstFailure_eq, stagedFrom, findSome_filterMap, firstStaged, List.range_eq_range']
  congr 1
  funext i
  cases (stageOf mu.staging i).body <;> rfl

theorem firstPair_staged (mu : MapUnit) (check : Nat × Body → Nat × Body → Option MapFailure) (n : Nat) :
    ∀ i, firstPair check (stagedFrom mu 0 i) (stagedFrom mu i n) = (List.range' i n).findSome? fun i =>
      (stageOf mu.staging i).body.bind fun b => firstStaged mu i fun k c => check (i, b) (k, c) := by
  induction n with
  | zero => exact fun _ => rfl
  | succ n ih =>
    intro i
    have next : stagedFrom mu 0 (i + 1) = stagedFrom mu 0 i ++ stagedFrom mu i 1 := by
      simp only [stagedFrom, ← List.filterMap_append]
      rw [← List.range'_append_1, Nat.zero_add]
    have whole : stagedFrom mu i (n + 1) = stagedFrom mu i 1 ++ stagedFrom mu (i + 1) n := by
      simp only [stagedFrom, ← List.filterMap_append]
      rw [Nat.add_comm n 1, ← List.range'_append_1]
    rw [List.range'_succ, List.findSome?_cons, ← ih, next, whole]
    cases e : (stageOf mu.staging i).body with
    | none => simp [stagedFrom, e]
    | some b =>
      have one : stagedFrom mu i 1 = [(i, b)] := by simp [stagedFrom, e]
      rw [one, List.singleton_append, firstPair, firstFailure_staged, Option.bind_some]
      cases firstStaged mu i fun k c => check (i, b) (k, c) <;> rfl

theorem stagedBodies_eq (mu : MapUnit) : stagedBodies mu = stagedFrom mu 0 64 := by
  rw [stagedBodies, stagedFrom, slotNumbers, List.range_eq_range']

/-- The structural check of a code at one slot (R78). -/
def checkAt (s : State) : Nat → Nat → Body → Option MapFailure
  | 0, i, b => checkSpan (i, b)
  | 1, i, b => checkLanePair (i, b)
  | 2, i, b => checkCapacity s.lanes (i, b)
  | 3, i, b => checkLaneState s (i, b)
  | 4, i, b => firstStaged s.mu i fun k c => pairHost (i, b) (k, c)
  | 5, i, b => firstStaged s.mu i fun k c => pairLegs (i, b) (k, c)
  | 6, i, b => checkReserved s.engine (i, b)
  | _, _, _ => none

theorem structuralFailure_eq (s : State) : structuralFailure s =
    ((firstStaged s.mu 64 (checkAt s 0)) <|> (firstStaged s.mu 64 (checkAt s 1)) <|> (firstStaged s.mu 64 (checkAt s 2))
      <|> (firstStaged s.mu 64 (checkAt s 3)) <|> (firstStaged s.mu 64 (checkAt s 4))
      <|> (firstStaged s.mu 64 (checkAt s 5)) <|> (firstStaged s.mu 64 (checkAt s 6))) := by
  have pair (check : Nat × Body → Nat × Body → Option MapFailure) : firstPair check [] (stagedFrom s.mu 0 64) =
      firstStaged s.mu 64 fun i b => firstStaged s.mu i fun k c => check (i, b) (k, c) := by
    rw [firstStaged, List.range_eq_range', ← firstPair_staged]
    rfl
  unfold structuralFailure
  dsimp only
  rw [stagedBodies_eq]
  simp only [firstFailure_staged, pair]
  rfl

/-- The first check that fails anywhere decides. -/
theorem structuralFailure_first {s : State} {check : Nat} {f : MapFailure}
    (h : firstStaged s.mu 64 (checkAt s check) = some f) (first : ∀ m, m < check → firstStaged s.mu 64 (checkAt s m) = none) :
    structuralFailure s = some f := by
  rw [structuralFailure_eq]
  match check, h, first with
  | 0, h, _ => simp [h]
  | 1, h, first => simp [h, first]
  | 2, h, first => simp [h, first]
  | 3, h, first => simp [h, first]
  | 4, h, first => simp [h, first]
  | 5, h, first => simp [h, first]
  | 6, h, first => simp [h, first]
  | n + 7, h, _ =>
    have none : firstStaged s.mu 64 (checkAt s (n + 7)) = none := firstStaged_none.mpr fun _ _ _ _ => rfl
    rw [none] at h
    cases h

theorem structuralFailure_none {s : State} : structuralFailure s = none ↔
    ∀ check, firstStaged s.mu 64 (checkAt s check) = none := by
  rw [structuralFailure_eq]
  refine ⟨fun h check => ?_, fun h => by simp [h]⟩
  obtain ⟨h0, h⟩ := orElse_none h
  obtain ⟨h1, h⟩ := orElse_none h
  obtain ⟨h2, h⟩ := orElse_none h
  obtain ⟨h3, h⟩ := orElse_none h
  obtain ⟨h4, h⟩ := orElse_none h
  obtain ⟨h5, h6⟩ := orElse_none h
  match check with
  | 0 => exact h0
  | 1 => exact h1
  | 2 => exact h2
  | 3 => exact h3
  | 4 => exact h4
  | 5 => exact h5
  | 6 => exact h6
  | n + 7 => exact firstStaged_none.mpr fun i b _ _ => rfl

/-! ### What each check finds at a slot -/

theorem checkSpan_none {i : Nat} {b : Body} : checkSpan (i, b) = none ↔ ¬(b.length = 0 ∨ 131072 < b.base + b.length) := by
  simp [checkSpan, Config.spanGranules]

theorem checkLanePair_none {i : Nat} {b : Body} :
    checkLanePair (i, b) = none ↔ ¬∃ leg, b.legB = some leg ∧ b.legA.lane = leg.lane := by
  cases e : b.legB <;> simp [checkLanePair, e]

/-- A lane that a check picks is that of a leg the check selects. -/
theorem lanesWhere_pick {site : Nat} {b : Body} {sel : Leg → Bool} {lane : Lane}
    (h : pickOne site (lanesWhere b sel) = some lane) : ∃ leg ∈ b.legs, sel leg = true ∧ leg.lane = lane := by
  obtain ⟨leg, m, e⟩ := List.mem_map.mp (pickOne_mem h)
  obtain ⟨mem, selected⟩ := List.mem_filter.mp m
  exact ⟨leg, mem, selected, e⟩

theorem lanesWhere_nil {site : Nat} {b : Body} {sel : Leg → Bool} :
    pickOne site (lanesWhere b sel) = none ↔ ¬∃ leg ∈ b.legs, sel leg = true := by
  rw [pickOne_nil, lanesWhere, List.map_eq_nil_iff, List.filter_eq_nil_iff]
  simp

theorem reservationsFrom_owner (jobs : List (Option Job)) :
    ∀ h, ∀ item ∈ reservationsFrom h jobs, ∃ k, item.owner = .job k := by
  induction jobs with
  | nil => exact fun h item m => absurd m List.not_mem_nil
  | cons slot rest ih =>
    intro h item m
    rcases List.mem_append.mp m with m | m
    · unfold jobItems at m
      split at m
      · exact absurd m List.not_mem_nil
      · split at m
        · obtain ⟨leg, -, rfl⟩ := List.mem_map.mp m
          exact ⟨h, rfl⟩
        · exact absurd m List.not_mem_nil
    · exact ih (h + 1) item m

/-- What the pair checks find: LEG_OVERLAP's lane is that of a leg that shares a granule (R78). -/
theorem pairLegs_none {p q : Nat × Body} : pairLegs p q = none ↔ ¬∃ leg, leg ∈ p.2.legs ∧ ∃ other ∈ q.2.legs,
    leg.lane = other.lane ∧ overlap leg.base p.2.length other.base q.2.length = true := by
  rw [pairLegs, Option.map_eq_none_iff, lanesWhere_nil]
  simp

theorem pairHost_none {p q : Nat × Body} :
    pairHost p q = none ↔ ¬overlap p.2.base p.2.length q.2.base q.2.length = true := by
  simp [pairHost]

theorem checkReserved_none {engine : Engine} {i : Nat} {b : Body} : checkReserved engine (i, b) = none ↔
    ¬∃ leg item, leg ∈ b.legs ∧ item ∈ reservations engine ∧ item.lane = leg.lane
      ∧ overlap item.start item.len leg.base b.length = true := by
  rw [checkReserved, Option.map_eq_none_iff, pickOne_nil, List.flatMap_eq_nil_iff]
  simp only [clashing, List.filter_eq_nil_iff, Item.clashes, Bool.and_eq_true, beq_iff_eq, not_exists, not_and]
  exact ⟨fun h leg item m k => h leg m item k, fun h leg m item k => h leg item m k⟩

theorem checkCapacity_none {lanes : PerLane LanePort} {i : Nat} {b : Body} : checkCapacity lanes (i, b) = none ↔
    ¬∃ leg, leg ∈ b.legs ∧ (lanes.get leg.lane).capacity < leg.base + b.length := by
  rw [checkCapacity, Option.map_eq_none_iff, lanesWhere_nil]
  simp

theorem checkLaneState_none {s : State} {i : Nat} {b : Body} : checkLaneState s (i, b) = none ↔
    ¬((stageOf s.mu.staging i).body ≠ (descOf s.mu.slots i).map Descriptor.body ∧ ∃ leg, leg ∈ b.legs
      ∧ ((s.health.lanes.get leg.lane).state = .offline ∨ (s.health.lanes.get leg.lane).state = .retired)) := by
  unfold checkLaneState
  split
  · next c =>
    rw [Option.map_eq_none_iff, lanesWhere_nil]
    simp [(changedSlot_iff s.mu i).mp c]
  · next c => exact ⟨fun _ k => c ((changedSlot_iff s.mu i).mpr k.1), fun _ => rfl⟩

/-! ### What each check reports -/

theorem checkSpan_reports {i : Nat} {b : Body} {f : MapFailure} (h : checkSpan (i, b) = some f) :
    failureDetail f = [0, BitVec.ofNat 8 i, 0xFF, 0xFF, 0xFF] := by
  unfold checkSpan at h
  split at h
  · cases h; rfl
  · cases h

theorem checkLanePair_reports {i : Nat} {b : Body} {f : MapFailure} (h : checkLanePair (i, b) = some f) :
    failureDetail f = [1, BitVec.ofNat 8 i, 0xFF, BitVec.ofNat 8 (laneCode b.legA.lane), 0xFF] := by
  unfold checkLanePair at h
  split at h
  · cases h
  · split at h
    · next e => cases h; rw [show b.legA.lane = _ from e]; rfl
    · cases h

theorem failAt_detail {check : MapCheck} {i : Nat} {lane : Option Lane} {f : MapFailure} {n : Lane}
    (h : lane.map (fun lane => failAt check i (some lane)) = some f) (k : ∀ m, lane = some m → m = n) :
    failureDetail f = [BitVec.ofNat 8 (mapCheckCode check), BitVec.ofNat 8 i, 0xFF, BitVec.ofNat 8 (laneCode n), 0xFF] := by
  obtain ⟨m, e, rfl⟩ := Option.map_eq_some_iff.mp h
  rw [k m e]
  rfl

theorem checkCapacity_reports {lanes : PerLane LanePort} {i : Nat} {b : Body} {f : MapFailure}
    (h : checkCapacity lanes (i, b) = some f) : ∃ leg, (leg ∈ b.legs ∧ (lanes.get leg.lane).capacity < leg.base + b.length)
      ∧ failureDetail f = [2, BitVec.ofNat 8 i, 0xFF, BitVec.ofNat 8 (laneCode leg.lane), 0xFF] := by
  obtain ⟨n, pick, rfl⟩ := Option.map_eq_some_iff.mp h
  obtain ⟨leg, m, sel, rfl⟩ := lanesWhere_pick pick
  exact ⟨leg, ⟨m, by simpa using sel⟩, rfl⟩

theorem checkLaneState_reports {s : State} {i : Nat} {b : Body} {f : MapFailure} (h : checkLaneState s (i, b) = some f) :
    ∃ leg, (leg ∈ b.legs
      ∧ ((s.health.lanes.get leg.lane).state = .offline ∨ (s.health.lanes.get leg.lane).state = .retired))
      ∧ failureDetail f = [3, BitVec.ofNat 8 i, 0xFF, BitVec.ofNat 8 (laneCode leg.lane), 0xFF] := by
  unfold checkLaneState at h
  split at h
  · obtain ⟨n, pick, rfl⟩ := Option.map_eq_some_iff.mp h
    obtain ⟨leg, m, sel, rfl⟩ := lanesWhere_pick pick
    exact ⟨leg, ⟨m, by simpa using sel⟩, rfl⟩
  · cases h

theorem pairHost_reports {i k : Nat} {b c : Body} {f : MapFailure} (h : pairHost (i, b) (k, c) = some f) :
    failureDetail f = [4, BitVec.ofNat 8 i, BitVec.ofNat 8 k, 0xFF, 0xFF] := by
  unfold pairHost at h
  split at h
  · cases h; rfl
  · cases h

theorem pairLegs_reports {i k : Nat} {b c : Body} {f : MapFailure} (h : pairLegs (i, b) (k, c) = some f) :
    ∃ leg, (leg ∈ b.legs ∧ ∃ other ∈ c.legs, leg.lane = other.lane
        ∧ overlap leg.base b.length other.base c.length = true)
      ∧ failureDetail f = [5, BitVec.ofNat 8 i, BitVec.ofNat 8 k, BitVec.ofNat 8 (laneCode leg.lane), 0xFF] := by
  obtain ⟨n, pick, rfl⟩ := Option.map_eq_some_iff.mp h
  obtain ⟨leg, m, sel, rfl⟩ := lanesWhere_pick pick
  exact ⟨leg, ⟨m, by simpa using sel⟩, rfl⟩

theorem checkReserved_reports {engine : Engine} {i : Nat} {b : Body} {f : MapFailure}
    (h : checkReserved engine (i, b) = some f) : ∃ leg item n, (leg ∈ b.legs ∧ item ∈ reservations engine
        ∧ item.lane = leg.lane ∧ overlap item.start item.len leg.base b.length = true) ∧ item.owner = .job n
      ∧ failureDetail f = [6, BitVec.ofNat 8 i, 0xFF, BitVec.ofNat 8 (laneCode leg.lane), BitVec.ofNat 8 n] := by
  obtain ⟨item, pick, rfl⟩ := Option.map_eq_some_iff.mp h
  obtain ⟨leg, m, k⟩ := List.mem_flatMap.mp (pickOne_mem pick)
  obtain ⟨mem, clash⟩ := List.mem_filter.mp k
  obtain ⟨n, owner⟩ := reservationsFrom_owner engine.jobs 0 item mem
  simp only [Item.clashes, Bool.and_eq_true, beq_iff_eq] at clash
  refine ⟨leg, item, n, ⟨m, mem, clash.1, clash.2⟩, owner, ?_⟩
  simp only [failureDetail, Item.job, owner, ← clash.1]
  rfl

/-- Settles O38: the first check that fails, at the lowest slot that fails it, is the failure reported. -/
theorem structuralChecksNameTheFirstFailure : Obligations.StructuralChecksNameTheFirstFailure := by
  intro s staged beyond down shares taken meets fails
  have pairs : ∀ (i : Nat) (b : Body) (p : Body → Prop) (check : Nat → Body → Option MapFailure), i < 64 →
      (∀ k c, check k c = none ↔ ¬p c) →
      (firstStaged s.mu i check = none ↔ ¬∃ k c, k < i ∧ staged k c ∧ p c) := by
    intro i b p check lt unmet
    rw [firstStaged_none]
    constructor
    · rintro h ⟨k, c, below, ⟨_, body⟩, hit⟩
      exact (unmet k c).mp (h k c below body) hit
    · exact fun h k c below body => (unmet k c).mpr fun hit => h ⟨k, c, below, ⟨by omega, body⟩, hit⟩
  have lowestPair : ∀ (i : Nat) (b : Body) (p : Body → Prop) (check : Nat × Body → Nat × Body → Option MapFailure), i < 64 →
      (∀ k c, check (i, b) (k, c) = none ↔ ¬p c) → ∀ {f}, (firstStaged s.mu i fun k c => check (i, b) (k, c)) = some f →
      ∀ {k c}, k < i → staged k c → p c → (∀ m x, m < k → staged m x → ¬p x) → check (i, b) (k, c) = some f := by
    intro i b p check lt unmet f found k c below at_ hit least
    obtain ⟨g, e⟩ := Option.ne_none_iff_exists'.mp (mt (unmet k c).mp (not_not.mpr hit))
    rw [firstStaged_some below at_.2 e fun m x under body => (unmet m x).mpr (least m x under ⟨by omega, body⟩)] at found
    rw [e, found]
  have unfailing : ∀ check i b, i < 64 → (checkAt s check i b = none ↔ ¬fails check i b) := by
    intro check i b lt
    match check with
    | 0 => exact checkSpan_none
    | 1 => exact checkLanePair_none
    | 2 => exact checkCapacity_none
    | 3 => exact checkLaneState_none
    | 4 => exact pairs i b (meets 4 b) _ lt fun k c => pairHost_none
    | 5 => exact pairs i b (meets 5 b) _ lt fun k c => pairLegs_none
    | 6 => exact checkReserved_none
    | n + 7 => exact ⟨fun _ => id, fun _ => rfl⟩
  have clear : ∀ check, (∀ k c, staged k c → ¬fails check k c) → firstStaged s.mu 64 (checkAt s check) = none :=
    fun check h => firstStaged_none.mpr fun i b lt body => (unfailing check i b lt).mpr (h i b ⟨lt, body⟩)
  refine ⟨?_, fun check i b at_ hit first lowest => ?_⟩
  · rw [structuralFailure_none]
    refine ⟨fun h check i b at_ => ?_, fun h check => clear check (h check)⟩
    exact (unfailing check i b at_.1).mp (firstStaged_none.mp (h check) i b at_.1 at_.2)
  · obtain ⟨lt, body⟩ := at_
    obtain ⟨f, found⟩ := Option.ne_none_iff_exists'.mp (mt (unfailing check i b lt).mp (not_not.mpr hit))
    have failure : structuralFailure s = some f := structuralFailure_first
      (firstStaged_some lt body found fun k c below e => (unfailing check k c (by omega)).mpr (lowest k c below ⟨by omega, e⟩))
      fun m below => clear m fun k c => first m k c below
    intro reports lane
    have named : ∀ bytes, failureDetail f = [BitVec.ofNat 8 check, BitVec.ofNat 8 i] ++ bytes → reports bytes :=
      fun bytes e => ⟨f, failure, e⟩
    match check, found, named, hit with
    | 0, found, named, _ => exact named _ (checkSpan_reports found)
    | 1, found, named, _ => exact named _ (checkLanePair_reports found)
    | 2, found, named, _ =>
      obtain ⟨leg, out, e⟩ := checkCapacity_reports found
      exact ⟨leg, out, named _ e⟩
    | 3, found, named, _ =>
      obtain ⟨leg, out, e⟩ := checkLaneState_reports found
      exact ⟨leg, out, named _ e⟩
    | 4, found, named, _ =>
      intro k c below at_ meet least
      refine ⟨fun _ => named _ (pairHost_reports (b := b) (k := k) (c := c) ?_), nofun⟩
      exact lowestPair i b (meets 4 b) pairHost lt (fun k c => pairHost_none) found below at_ meet least
    | 5, found, named, _ =>
      intro k c below at_ meet least
      obtain ⟨leg, out, e⟩ := pairLegs_reports (b := b) (k := k) (c := c)
        (lowestPair i b (meets 5 b) pairLegs lt (fun k c => pairLegs_none) found below at_ meet least)
      exact ⟨nofun, fun _ => ⟨leg, out, named _ e⟩⟩
    | 6, found, named, _ =>
      obtain ⟨leg, item, n, out, owner, e⟩ := checkReserved_reports found
      exact ⟨leg, item, n, out, owner, named _ e⟩
    | n + 7, _, _, hit => exact False.elim hit

/-! ### The end of a commit -/

/-- What the table's operations leave of the sequence state. -/
theorem Decoded.seq {s t : State} (k : Decoded s t) : t.hp.seq = s.hp.seq := by
  have h := congrArg HostPort.seq k.hp
  exact h

theorem Decoded.withLog {s t : State} (k : Decoded s t) (log : FaultLog) :
    Decoded { s with log := log } { t with log := log } :=
  ⟨k.mu, k.health, rfl, k.hp, k.commitSpan, k.switchSpan, k.engine, k.lanes⟩

/-- The slot that COMMIT_FINISHED names: the lowest of the commit set (R83). -/
def CommitDrain.subject (d : CommitDrain) : Nat := (d.members.head?.map CommitMember.slot).getD 0

/-- A draining commit ends: the record is IDLE with its result, its span is closed, COMMIT_FINISHED is posted, and HELD
entries go on (R83). -/
theorem endCommit_decoded {s : State} {d : CommitDrain} (h : s.mu.commit.drain = some d) (result : CommitResult) :
    Decoded { s with
      mu.commit := { drain := none, last := result }
      ift.commitSpan := none
      log := takeNotice s.mu.generation (.commitFinished d.subject result) s.log } (endCommit result s) := by
  have ends : ∀ t, Decoded { s with mu.commit := { drain := none, last := result }, ift.commitSpan := none } t →
      Decoded { s with
        mu.commit := { drain := none, last := result }
        ift.commitSpan := none
        log := takeNotice s.mu.generation (.commitFinished d.subject result) s.log }
        (postNotice (.commitFinished d.subject result) t) := fun t k => by
    have e : takeNotice t.mu.generation (.commitFinished d.subject result) t.log
        = takeNotice s.mu.generation (.commitFinished d.subject result) s.log := by rw [k.mu, k.log]
    unfold postNotice
    rw [e]
    exact k.withLog _
  unfold endCommit
  rw [h]
  cases s.ift.commitSpan with
  | none => exact ends _ (Decoded.refl _)
  | some sp => exact ends _ (decoded_releaseHeld _ _ _)

/-! ### Installation (R84) -/

theorem installMembers_other (members : List CommitMember) : ∀ (slots : List MapSlot) (i : Nat),
    (∀ m ∈ members, m.slot ≠ i) → (installMembers members slots)[i]? = slots[i]? := by
  induction members with
  | nil => exact fun _ _ _ => rfl
  | cons m rest ih =>
    intro slots i h
    rw [installMembers, ih _ _ fun x hx => h x (List.mem_cons_of_mem _ hx), installMember,
      List.getElem?_set_ne (h m (List.mem_cons_self ..))]

theorem descOf_eq {a b : List MapSlot} {i : Nat} (h : a[i]? = b[i]?) : descOf a i = descOf b i := by
  rw [descOf, descOf, h]

theorem revisionOf_eq {a b : List MapSlot} {i : Nat} (h : a[i]? = b[i]?) : revisionOf a i = revisionOf b i := by
  rw [revisionOf, revisionOf, h]

/-- Each member's slot takes its staged body, keeps its job, and its revision rises. -/
theorem installMembers_at (members : List CommitMember) : ∀ (slots : List MapSlot), (members.map CommitMember.slot).Nodup →
    ∀ m ∈ members, m.slot < slots.length → (installMembers members slots)[m.slot]? = some
      { desc := m.body.map fun b => { body := b, degraded := false, job := (descOf slots m.slot).bind Descriptor.job }
        revision := revisionOf slots m.slot + 1 } := by
  induction members with
  | nil => exact fun _ _ m hm => absurd hm List.not_mem_nil
  | cons x rest ih =>
    intro slots distinct m hm lt
    obtain ⟨fresh, distinct⟩ := List.nodup_cons.mp distinct
    have other : ∀ m ∈ rest, m.slot ≠ x.slot := fun m hm e => fresh (e ▸ List.mem_map_of_mem hm)
    rw [installMembers]
    rcases List.mem_cons.mp hm with rfl | hm
    · rw [installMembers_other _ _ _ other, installMember, List.getElem?_set_self lt]
    · have same : (installMember x slots)[m.slot]? = slots[m.slot]? := by
        rw [installMember, List.getElem?_set_ne (other m hm).symm]
      rw [ih _ distinct m hm (by rwa [installMember, List.length_set]), descOf_eq same, revisionOf_eq same]

/-! ### An accepted commit (O37) -/

/-- What follows the opening of a commit: installation when nothing is counted. -/
def takeReport (s : State) : State := if commitReported s then completeCommit s else s

theorem acceptCommit_eq (s : State) : acceptCommit s = settle (takeReport (openCommit s)) := rfl

theorem kept_acceptCommit (s : State) : Kept s (acceptCommit s) := by
  refine (kept_openCommit s).trans (Kept.trans ?_ (kept_settle _))
  split
  · exact kept_completeCommit _
  · exact Kept.refl _

theorem commitMembers_slots (mu : MapUnit) : (commitMembers mu).map CommitMember.slot = changedSlots mu := by
  rw [commitMembers, List.map_map]
  exact List.map_id _

theorem changedSlots_nodup (mu : MapUnit) : (changedSlots mu).Nodup := List.nodup_range.filter _

theorem stale_none {s : State} (h : s.mu.commit.drain = none) : (s.mu.commit.drain.any fun d => d.stale) = false := by
  rw [h]; rfl

/-- The commit that openCommit leaves draining. -/
def openedDrain (s : State) : CommitDrain := { members := commitMembers s.mu, stale := false, timer := s.hp.drainLimit }

theorem openedDrain_subject (s : State) {i : Nat} {rest : List Nat} (h : changedSlots s.mu = i :: rest) :
    (openedDrain s).subject = i := by
  simp [openedDrain, CommitDrain.subject, commitMembers, h]

/-- With nothing counted the commit installs in the event of its acceptance. -/
theorem acceptCommit_installs {s : State} (opened : s.hp.seq = .opened)
    (free : ∀ e ∈ s.ift.entries, inRanges (affectedRanges s.mu) e.line = false) :
    (acceptCommit s).mu = { s.mu with
      slots := installMembers (commitMembers s.mu) s.mu.slots, generation := s.mu.generation + 1
      commit := { drain := none, last := .done } }
    ∧ (acceptCommit s).log = takeNotice (s.mu.generation + 1) (.commitFinished (openedDrain s).subject .done) s.log := by
  have report : commitReported (openCommit s) = true := by
    show ((s.ift.entries.filter _).map Entry.slot).isEmpty = true
    rw [List.isEmpty_iff, List.map_eq_nil_iff, List.filter_eq_nil_iff]
    exact fun e m => by simp [free e m]
  have taken : takeReport (openCommit s) = endCommit .done (installCommit (commitMembers s.mu) (openCommit s)) := by
    rw [takeReport, if_pos report]
    rfl
  have ended := endCommit_decoded (s := installCommit (commitMembers s.mu) (openCommit s)) (d := openedDrain s) rfl .done
  rw [acceptCommit_eq, taken]
  have idle := stale_none (s := endCommit .done (installCommit (commitMembers s.mu) (openCommit s))) (by rw [ended.mu])
  have closed := settle_open (ended.seq.trans opened) idle
  exact ⟨closed.mu.trans ended.mu, closed.log.trans ended.log⟩

/-- With an entry counted the commit drains. -/
theorem acceptCommit_drains {s : State} (opened : s.hp.seq = .opened)
    (busy : ∃ e ∈ s.ift.entries, inRanges (affectedRanges s.mu) e.line = true) :
    (acceptCommit s).mu = { s.mu with commit := { s.mu.commit with drain := some (openedDrain s) } }
    ∧ (acceptCommit s).ift.commitSpan = some (openSpan (affectedRanges s.mu) s.ift.entries) := by
  have report : commitReported (openCommit s) = false := by
    show ((s.ift.entries.filter _).map Entry.slot).isEmpty = false
    obtain ⟨e, m, k⟩ := busy
    rw [List.isEmpty_eq_false_iff]
    exact List.ne_nil_of_mem (List.mem_map_of_mem (List.mem_filter.mpr ⟨m, k⟩))
  have taken : takeReport (openCommit s) = openCommit s := by
    rw [takeReport, if_neg (by simp [report])]
  rw [acceptCommit_eq, taken]
  have closed := settle_open (s := openCommit s) opened rfl
  exact ⟨closed.mu, closed.spans.1⟩

/-- MAP_COMMIT when every test passes. -/
theorem commitBody_accepted {s : State} (idle : s.mu.commit.drain = none) (some : changedSlots s.mu ≠ [])
    (valid : structuralFailure s = none) (fresh : staleSlot s.mu = none) (free : busySlot s.mu = none) :
    commitBody s = (.accepted, byte1 (changedSlots s.mu).length ++ byte4 (unionSize (affectedRanges s.mu)), acceptCommit s) := by
  unfold commitBody
  rw [if_neg (by simp [idle]), if_neg (by rwa [List.isEmpty_iff]), valid, fresh, free]

theorem busySlot_none {mu : MapUnit} (h : busySlot mu = none) {i : Nat} (m : i ∈ changedSlots mu) :
    (descOf mu.slots i).bind Descriptor.job = none := by
  rw [busySlot, List.head?_filterMap, List.findSome?_eq_none_iff] at h
  exact Option.map_eq_none_iff.mp (h i m)

theorem stageOf_past {staging : List StageSlot} {i : Nat} (h : staging.length ≤ i) : (stageOf staging i).body = none := by
  simp [stageOf, List.getElem?_eq_none h]

/-- After the installation no staging slot differs from its active slot. -/
theorem installed_unchanged {mu : MapUnit} {slots : List MapSlot} (slotCount : mu.slots.length = 64)
    (stageCount : mu.staging.length = 64) (length : slots.length = mu.slots.length)
    (changed : ∀ i ∈ changedSlots mu, (descOf slots i).map Descriptor.body = (stageOf mu.staging i).body)
    (other : ∀ i, i ∉ changedSlots mu → slots[i]? = mu.slots[i]?) (i : Nat) :
    changedSlot ({ mu with slots := slots } : MapUnit) i = false := by
  rw [Bool.eq_false_iff]
  refine fun k => (changedSlot_iff _ i).mp k ?_
  show (stageOf mu.staging i).body = (descOf slots i).map Descriptor.body
  by_cases m : i ∈ changedSlots mu
  · exact (changed i m).symm
  · by_cases lt : i < 64
    · rw [descOf_eq (other i m)]
      exact Classical.byContradiction fun c => m (mem_changedSlots.mpr ⟨lt, c⟩)
    · rw [stageOf_past (by omega), descOf, List.getElem?_eq_none (by omega)]
      rfl

/-- Settles O37: an accepted commit installs in its event when no entry lies in the affected span, and drains otherwise. -/
theorem acceptedCommitInstallsOrDrains : Obligations.AcceptedCommitInstallsOrDrains := by
  intro tag s r sizes opened idle some valid fresh free bytes
  obtain ⟨slotCount, stageCount, _⟩ := sizes
  have kept := kept_acceptCommit s.listening
  have answer : exec (.mapCommit tag []) s = .next (answered 0x24 tag .accepted bytes (acceptCommit s.listening)) :=
    commandFrame_reply r (Nat.zero_le _) ((inOpen_opened (s := s.listening) opened).trans
      (commitBody_accepted (s := s.listening) idle some valid fresh free)) kept.link
  refine ⟨fun clear => ?_, fun busy => ?_⟩
  · obtain ⟨mu, log⟩ := acceptCommit_installs (s := s.listening) opened clear
    have slots : (acceptCommit s.listening).mu.slots = installMembers (commitMembers s.mu) s.mu.slots := by rw [mu]
    have changed : ∀ i ∈ changedSlots s.mu, (acceptCommit s.listening).mu.slots[i]? = Option.some
        { desc := (stageOf s.mu.staging i).body.map fun b => { body := b, degraded := false, job := none }
          revision := revisionOf s.mu.slots i + 1 } := by
      intro i m
      have lt : i < s.mu.slots.length := by rw [slotCount]; exact (mem_changedSlots.mp m).1
      rw [slots, installMembers_at (commitMembers s.mu) s.mu.slots (by rw [commitMembers_slots]; exact changedSlots_nodup _)
        { slot := i, body := (stageOf s.mu.staging i).body } (List.mem_map_of_mem m) lt]
      simp only [busySlot_none free m]
    have other : ∀ i, i ∉ changedSlots s.mu → (acceptCommit s.listening).mu.slots[i]? = s.mu.slots[i]? := by
      intro i m
      rw [slots]
      exact installMembers_other _ _ _ fun x hx e => m (by
        rw [← commitMembers_slots, ← e]
        exact List.mem_map_of_mem hx)
    refine ⟨_, answer, changed, other, by rw [mu], by rw [mu], fun i => ?_, kept.config, kept.entries,
      fun i rest e => ?_⟩
    · have same := installed_unchanged (mu := s.mu) slotCount stageCount (installMembers_length (commitMembers s.mu) _)
        (fun i m => by
          have at_ := changed i m
          rw [slots] at at_
          rw [descOf, at_]
          cases (stageOf s.mu.staging i).body <;> rfl)
        (fun i m => by rw [← slots]; exact other i m) i
      rw [mu]
      exact same
    · rw [log, openedDrain_subject s.listening e]
  · obtain ⟨mu, span⟩ := acceptCommit_drains (s := s.listening) opened busy
    exact ⟨_, answer, mu, span, kept.entries, kept.config⟩
end Sys2Proof.Machine

/-! PROOF. The job commands: the tests of a relocation target, submission, cancel and clear (O42, O43, O45). -/

namespace Sys2Proof.Machine

open Sys2Proof

/-! ### The items of the occupancy view and of a draining commit (R12, R82) -/

/-- The item of a leg. -/
def legItem (leg : Leg) (len : Nat) (owner : Owner) : Item :=
  { lane := leg.lane, start := leg.base, len := len, owner := owner }

theorem mem_bodyItems {i : Nat} {b : Body} {x : Item} :
    x ∈ bodyItems i b ↔ ∃ leg ∈ b.legs, x = legItem leg b.length (.slot i) := by
  simp only [bodyItems, List.mem_map, legItem]
  exact ⟨fun ⟨leg, m, e⟩ => ⟨leg, m, e.symm⟩, fun ⟨leg, m, e⟩ => ⟨leg, m, e.symm⟩⟩

theorem mem_legItemsFrom (slots : List MapSlot) {x : Item} : ∀ n, x ∈ legItemsFrom n slots ↔
    ∃ i e leg, descOf slots i = some e ∧ leg ∈ e.body.legs ∧ x = legItem leg e.body.length (.slot (n + i)) := by
  induction slots with
  | nil => exact fun n => ⟨fun m => absurd m List.not_mem_nil, fun ⟨i, e, leg, h, _⟩ => by cases h⟩
  | cons m rest ih =>
    intro n
    rw [legItemsFrom, List.mem_append, ih]
    constructor
    · rintro (k | ⟨i, e, leg, h, k⟩)
      · split at k
        · next d hd =>
          obtain ⟨leg, mem, e⟩ := mem_bodyItems.mp k
          exact ⟨0, d, leg, hd, mem, e⟩
        · exact absurd k List.not_mem_nil
      · exact ⟨i + 1, e, leg, h, k.1, by rw [k.2, Nat.add_assoc, Nat.add_comm 1]⟩
    · rintro ⟨i, e, leg, h, mem, rfl⟩
      cases i with
      | zero =>
        left
        rw [show m.desc = some e from h]
        exact mem_bodyItems.mpr ⟨leg, mem, rfl⟩
      | succ i => exact .inr ⟨i, e, leg, h, mem, by rw [Nat.add_assoc, Nat.add_comm 1]⟩

theorem mem_reservationsFrom (jobs : List (Option Job)) {x : Item} : ∀ n, x ∈ reservationsFrom n jobs ↔
    ∃ h j leg, (jobs[h]?).join = some j ∧ j.life.live = true ∧ leg ∈ j.work.shadows
      ∧ x = legItem leg (j.blockCount / 512) (.job (n + h)) := by
  induction jobs with
  | nil => exact fun n => ⟨fun m => absurd m List.not_mem_nil, fun ⟨h, j, leg, k, _⟩ => by cases k⟩
  | cons slot rest ih =>
    intro n
    rw [reservationsFrom, List.mem_append, ih]
    constructor
    · rintro (k | ⟨h, j, leg, e, k⟩)
      · unfold jobItems at k
        split at k
        · exact absurd k List.not_mem_nil
        · next j =>
          split at k
          · next live =>
            obtain ⟨leg, mem, e⟩ := List.mem_map.mp k
            exact ⟨0, j, leg, rfl, live, mem, e.symm⟩
          · exact absurd k List.not_mem_nil
      · exact ⟨h + 1, j, leg, e, k.1, k.2.1, by rw [k.2.2, Nat.add_assoc, Nat.add_comm 1]⟩
    · rintro ⟨h, j, leg, e, live, mem, rfl⟩
      cases h with
      | zero =>
        left
        rw [show slot = some j from e]
        unfold jobItems
        dsimp only
        rw [if_pos live]
        exact List.mem_map.mpr ⟨leg, mem, rfl⟩
      | succ h => exact .inr ⟨h, j, leg, e, live, mem, by rw [Nat.add_assoc, Nat.add_comm 1]⟩

theorem mem_commitItems {mu : MapUnit} {x : Item} : x ∈ commitItems mu ↔
    ∃ c m b leg, mu.commit.drain = some c ∧ m ∈ c.members ∧ m.body = some b ∧ leg ∈ b.legs
      ∧ x = legItem leg b.length (.slot m.slot) := by
  unfold commitItems
  cases mu.commit.drain with
  | none => exact ⟨fun m => absurd m List.not_mem_nil, fun ⟨c, m, b, leg, h, _⟩ => by cases h⟩
  | some d =>
    dsimp only
    rw [List.mem_flatMap]
    constructor
    · rintro ⟨m, hm, k⟩
      split at k
      · next b hb =>
        obtain ⟨leg, mem, e⟩ := mem_bodyItems.mp k
        exact ⟨d, m, b, leg, rfl, hm, hb, mem, e⟩
      · exact absurd k List.not_mem_nil
    · rintro ⟨c, m, b, leg, e, hm, hb, mem, rfl⟩
      cases e
      exact ⟨m, hm, by rw [hb]; exact mem_bodyItems.mpr ⟨leg, mem, rfl⟩⟩

/-- The items that a new leg may not overlap: legs of valid slots, reservations, and legs of a draining commit. -/
theorem mem_held {s : State} {x : Item} : x ∈ occupancy s ++ commitItems s.mu ↔
    (∃ i e leg, descOf s.mu.slots i = some e ∧ leg ∈ e.body.legs ∧ x = legItem leg e.body.length (.slot i))
      ∨ (∃ h j leg, jobOf s.engine h = some j ∧ j.life.live = true ∧ leg ∈ j.work.shadows
          ∧ x = legItem leg (j.blockCount / 512) (.job h))
      ∨ (∃ c m b leg, s.mu.commit.drain = some c ∧ m ∈ c.members ∧ m.body = some b ∧ leg ∈ b.legs
          ∧ x = legItem leg b.length (.slot m.slot)) := by
  rw [occupancy, List.append_assoc, List.mem_append, List.mem_append, mem_legItemsFrom, reservations, mem_reservationsFrom,
    mem_commitItems]
  simp only [Nat.zero_add]
  rfl

/-! ### The tests of a target (O43) -/

theorem mem_failsLanePair {t : Target} {p : TargetLeg} : p ∈ failsLanePair t ↔
    p ∈ targetLegs t ∧ ∃ b, t.legB = some b ∧ t.legA.lane = b.lane := by
  unfold failsLanePair
  split
  · next e => simp [e]
  · next b e =>
    split
    · next same => simp [e, same]
    · next differ => simp [e, differ]

theorem mem_failsOwnOverlap {t : Target} {d : Descriptor} {p : TargetLeg} : p ∈ failsOwnOverlap t d ↔
    p ∈ targetLegs t ∧ ∃ c ∈ d.body.legs, c.lane = p.2.lane ∧ c ≠ p.2
      ∧ overlap c.base d.body.length p.2.base d.body.length = true := by
  simp [failsOwnOverlap, and_assoc]

theorem isShadow_iff {d : Descriptor} {leg : Leg} : isShadow d leg = true ↔ leg ∉ d.body.legs := by
  simp [isShadow]

theorem mem_failsLaneState {t : Target} {d : Descriptor} {s : State} {p : TargetLeg} : p ∈ failsLaneState t d s ↔
    p ∈ targetLegs t ∧ ((p.2 ∉ d.body.legs ∧ ((s.health.lanes.get p.2.lane).state = .offline
        ∨ (s.health.lanes.get p.2.lane).state = .retired))
      ∨ (t.legB ≠ none ∧ (s.health.lanes.get p.2.lane).state = .retired)) := by
  simp [failsLaneState, isShadow_iff, Option.isSome_iff_ne_none]

theorem mem_failsCapacity {t : Target} {d : Descriptor} {s : State} {p : TargetLeg} : p ∈ failsCapacity t d s ↔
    p ∈ targetLegs t ∧ p.2 ∉ d.body.legs ∧ (s.lanes.get p.2.lane).capacity < p.2.base + d.body.length := by
  simp [failsCapacity, isShadow_iff]

theorem mem_failsOccupied {t : Target} {d : Descriptor} {s : State} {q : TargetLeg × Item} : q ∈ failsOccupied t d s ↔
    q.1 ∈ targetLegs t ∧ q.1.2 ∉ d.body.legs ∧ q.2 ∈ occupancy s ++ commitItems s.mu ∧ q.2.lane = q.1.2.lane
      ∧ overlap q.2.start q.2.len q.1.2.base d.body.length = true := by
  obtain ⟨p, x⟩ := q
  simp only [failsOccupied, List.mem_flatMap]
  constructor
  · rintro ⟨p', m, k⟩
    split at k
    · next shadow =>
      obtain ⟨item, clash, e⟩ := List.mem_map.mp k
      cases e
      obtain ⟨mem, clash⟩ := List.mem_filter.mp clash
      simp only [Item.clashes, Bool.and_eq_true, beq_iff_eq] at clash
      exact ⟨m, isShadow_iff.mp shadow, mem, clash.1, clash.2⟩
    · exact absurd k List.not_mem_nil
  · rintro ⟨m, shadow, mem, lane, meet⟩
    refine ⟨p, m, ?_⟩
    rw [if_pos (isShadow_iff.mpr shadow)]
    refine List.mem_map.mpr ⟨x, List.mem_filter.mpr ⟨mem, ?_⟩, rfl⟩
    simp only [Item.clashes, Bool.and_eq_true, beq_iff_eq]
    exact ⟨lane, meet⟩

/-- The target legs that fail a test of R93, 6b to 6f as 0 to 4. -/
def testFailures (t : Target) (d : Descriptor) (s : State) : Nat → List TargetLeg
  | 0 => failsLanePair t
  | 1 => failsOwnOverlap t d
  | 2 => failsLaneState t d s
  | 3 => failsCapacity t d s
  | 4 => (failsOccupied t d s).map Prod.fst
  | _ => []

@[simp] theorem pickOne_empty {α : Type} (site : Nat) : pickOne site ([] : List α) = none := rfl

theorem pickOne_some {α : Type} {site : Nat} {xs : List α} (h : xs ≠ []) : ∃ x ∈ xs, pickOne site xs = some x := by
  obtain ⟨x, e⟩ := Option.ne_none_iff_exists'.mp (mt pickOne_none h)
  exact ⟨x, pickOne_mem e, e⟩

/-- Without a failure no detail is answered. -/
theorem targetFailure_none {t : Target} {d : Descriptor} {s : State} :
    targetFailure t d s = none ↔ ∀ test, testFailures t d s test = [] := by
  unfold targetFailure
  constructor
  · intro h test
    obtain ⟨h0, h⟩ := orElse_none h
    obtain ⟨h1, h⟩ := orElse_none h
    obtain ⟨h2, h⟩ := orElse_none h
    obtain ⟨h3, h4⟩ := orElse_none h
    match test with
    | 0 => exact pickOne_none (Option.map_eq_none_iff.mp h0)
    | 1 => exact pickOne_none (Option.map_eq_none_iff.mp h1)
    | 2 => exact pickOne_none (Option.map_eq_none_iff.mp h2)
    | 3 => exact pickOne_none (Option.map_eq_none_iff.mp h3)
    | 4 => exact List.map_eq_nil_iff.mpr (pickOne_none (Option.map_eq_none_iff.mp h4))
    | n + 5 => rfl
  · intro h
    have h0 : failsLanePair t = [] := h 0
    have h1 : failsOwnOverlap t d = [] := h 1
    have h2 : failsLaneState t d s = [] := h 2
    have h3 : failsCapacity t d s = [] := h 3
    have h4 : failsOccupied t d s = [] := List.map_eq_nil_iff.mp (h 4)
    simp [h0, h1, h2, h3, h4]

/-- The first of tests 6b to 6e that fails names a leg that fails it. -/
theorem targetFailure_first {t : Target} {d : Descriptor} {s : State} {test : Nat} (lt : test < 4)
    (some : testFailures t d s test ≠ []) (first : ∀ m, m < test → testFailures t d s m = []) :
    ∃ p ∈ testFailures t d s test, targetFailure t d s = Option.some (targetDetail test p.1 none none) := by
  have h0 : 0 < test → failsLanePair t = [] := first 0
  have h1 : 1 < test → failsOwnOverlap t d = [] := first 1
  have h2 : 2 < test → failsLaneState t d s = [] := first 2
  unfold targetFailure
  match test, lt, some with
  | 0, _, some =>
    obtain ⟨p, m, e⟩ := pickOne_some (site := 4) some
    exact ⟨p, m, by simp [show pickOne 4 (failsLanePair t) = _ from e]⟩
  | 1, _, some =>
    obtain ⟨p, m, e⟩ := pickOne_some (site := 5) some
    exact ⟨p, m, by simp [h0 (by decide), show pickOne 5 (failsOwnOverlap t d) = _ from e]⟩
  | 2, _, some =>
    obtain ⟨p, m, e⟩ := pickOne_some (site := 6) some
    exact ⟨p, m, by simp [h0 (by decide), h1 (by decide), show pickOne 6 (failsLaneState t d s) = _ from e]⟩
  | 3, _, some =>
    obtain ⟨p, m, e⟩ := pickOne_some (site := 7) some
    exact ⟨p, m, by
      simp [h0 (by decide), h1 (by decide), h2 (by decide), show pickOne 7 (failsCapacity t d s) = _ from e]⟩

theorem targetFailure_occupied {t : Target} {d : Descriptor} {s : State} (taken : failsOccupied t d s ≠ [])
    (first : ∀ m, m < 4 → testFailures t d s m = []) : ∃ q ∈ failsOccupied t d s,
      targetFailure t d s = Option.some (targetDetail 4 q.1.1 (some q.2.lane) (some q.2.owner)) := by
  have h0 : failsLanePair t = [] := first 0 (by decide)
  have h1 : failsOwnOverlap t d = [] := first 1 (by decide)
  have h2 : failsLaneState t d s = [] := first 2 (by decide)
  have h3 : failsCapacity t d s = [] := first 3 (by decide)
  obtain ⟨q, m, e⟩ := pickOne_some (site := 8) taken
  refine ⟨q, m, ?_⟩
  unfold targetFailure
  rw [e]
  simp [h0, h1, h2, h3]

/-- Settles O43: each test's failing legs are those of the table, and the first test with one names one of its legs. -/
theorem targetTestsFailInOrder : Obligations.TargetTestsFailInOrder := by
  intro target d s legs shadow state item held taken fails
  have isHeld : ∀ x, x ∈ occupancy s ++ commitItems s.mu ↔ held x := fun x => mem_held
  have mem : ∀ test p, p ∈ testFailures target d s test ↔ p ∈ legs ∧ fails test p.2 := by
    intro test p
    match test with
    | 0 => exact mem_failsLanePair
    | 1 => exact mem_failsOwnOverlap
    | 2 => exact mem_failsLaneState
    | 3 => exact mem_failsCapacity
    | 4 =>
      show p ∈ (failsOccupied target d s).map Prod.fst ↔ p ∈ legs ∧ ∃ x, taken p.2 x
      rw [List.mem_map]
      constructor
      · rintro ⟨q, m, rfl⟩
        obtain ⟨leg, shadow, held, clash⟩ := mem_failsOccupied.mp m
        exact ⟨leg, q.2, shadow, (isHeld _).mp held, clash⟩
      · rintro ⟨leg, x, shadow, held, clash⟩
        exact ⟨(p, x), mem_failsOccupied.mpr ⟨leg, shadow, (isHeld _).mpr held, clash⟩, rfl⟩
    | n + 5 => exact ⟨fun m => absurd m List.not_mem_nil, fun m => m.2.elim⟩
  have clear : ∀ test, testFailures target d s test = [] ↔ ∀ p ∈ legs, ¬fails test p.2 := by
    intro test
    rw [List.eq_nil_iff_forall_not_mem]
    exact ⟨fun h p m f => h p ((mem test p).mpr ⟨m, f⟩), fun h p m => h p ((mem test p).mp m).1 ((mem test p).mp m).2⟩
  refine ⟨?_, fun test hit first => ⟨fun lt => ?_, fun e => ?_⟩⟩
  · rw [targetFailure_none]
    exact forall_congr' clear
  · obtain ⟨p, m, f⟩ := hit
    obtain ⟨q, m, e⟩ := targetFailure_first lt (List.ne_nil_of_mem ((mem test p).mpr ⟨m, f⟩))
      fun m lt => (clear m).mpr (first m lt)
    obtain ⟨leg, f⟩ := (mem test q).mp m
    exact ⟨q, leg, f, e⟩
  · subst e
    obtain ⟨p, m, x, shadow, held, clash⟩ := hit
    obtain ⟨q, m, e⟩ := targetFailure_occupied (t := target) (d := d) (s := s)
      (List.ne_nil_of_mem (mem_failsOccupied (q := (p, x)).mpr ⟨m, shadow, (isHeld x).mpr held, clash⟩))
      fun m lt => (clear m).mpr (first m lt)
    obtain ⟨leg, shadow, held, clash⟩ := mem_failsOccupied.mp m
    refine ⟨q.1, leg, q.2, ⟨shadow, (isHeld _).mp held, clash⟩, e.trans ?_⟩
    cases q.2.owner <;> rfl

/-! ### Submission (O42) -/

theorem freeJobFrom_lowest (jobs : List (Option Job)) : ∀ n h, jobs[h]? = some none → (∀ k, k < h → jobs[k]? ≠ some none) →
    freeJobFrom n jobs = some (n + h) := by
  induction jobs with
  | nil => exact fun n h e => nomatch e
  | cons slot rest ih =>
    intro n h free lowest
    cases h with
    | zero =>
      cases (Option.some.inj free : slot = none)
      rfl
    | succ h =>
      cases slot with
      | none => exact absurd rfl (lowest 0 (Nat.succ_pos h))
      | some j =>
        rw [freeJobFrom, ih (n + 1) h free fun k lt => lowest (k + 1) (Nat.succ_lt_succ lt), Nat.add_assoc, Nat.add_comm 1]

theorem freeJob_lowest {e : Engine} {h : Nat} (free : e.jobs[h]? = some none) (lowest : ∀ k, k < h → e.jobs[k]? ≠ some none) :
    freeJob e = some h := by
  rw [freeJob, freeJobFrom_lowest e.jobs 0 h free lowest, Nat.zero_add]

theorem freeJob_none {e : Engine} (full : ∀ j ∈ e.jobs, j ≠ none) : freeJob e = none := by
  have none : ∀ (jobs : List (Option Job)) (n : Nat), (∀ j ∈ jobs, j ≠ none) → freeJobFrom n jobs = none := by
    intro jobs
    induction jobs with
    | nil => exact fun _ _ => rfl
    | cons slot rest ih =>
      intro n h
      cases slot with
      | none => exact absurd rfl (h _ (List.mem_cons_self ..))
      | some j => exact ih (n + 1) fun j m => h j (List.mem_cons_of_mem _ m)
  exact none e.jobs 0 full

/-- A descriptor that a region's slot holds. -/
theorem descOf_of_slot {slots : List MapSlot} {i : Nat} {m : MapSlot} {d : Descriptor} (slot : slots[i]? = some m)
    (desc : m.desc = some d) : descOf slots i = some d := by
  rw [descOf, slot]
  exact desc

/-- The tests of a submission before those of its kind, in order (R92). -/
theorem submission_tests (region : Nat) (f : Nat → Descriptor → State → Reply) (s : State) :
    ((∀ j ∈ s.engine.jobs, j ≠ none) → submission region f s = (.jobFull, [], s))
    ∧ ∀ h, s.engine.jobs[h]? = some none → (∀ k, k < h → s.engine.jobs[k]? ≠ some none) →
      (descOf s.mu.slots region = none → submission region f s = (.noSuchItem, [], s))
      ∧ ∀ d, descOf s.mu.slots region = some d →
        (d.job ≠ none ∨ inCommitSet s.mu region = true → submission region f s = (.regionBusy, [], s))
        ∧ (¬(d.job ≠ none ∨ inCommitSet s.mu region = true) → submission region f s = f h d s) := by
  unfold submission
  refine ⟨fun full => by rw [freeJob_none full]; rfl, fun h free lowest => ?_⟩
  rw [freeJob_lowest free lowest]
  refine ⟨fun none => by rw [none]; rfl, fun d some => ?_⟩
  rw [some]
  have busy : (d.job.isSome || inCommitSet s.mu region) = true ↔ d.job ≠ none ∨ inCommitSet s.mu region = true := by
    rw [Bool.or_eq_true, Option.isSome_iff_ne_none]
  exact ⟨fun b => if_pos (busy.mpr b), fun b => if_neg (mt busy.mp b)⟩

/-- The state with a job at the queue's tail (R94, R95). -/
def queuedState (region h : Nat) (m : MapSlot) (d : Descriptor) (work : JobWork) (s : State) : State := { s with
  engine := { s.engine with
    jobs := s.engine.jobs.set h (some
      { life := .queued, work := work, region := region, blockCount := 512 * d.body.length, phase := none, cursor := 0 })
    queue := s.engine.queue ++ [h] }
  mu.slots := s.mu.slots.set region { m with desc := some { d with job := some h } } }

/-- A job joins the queue: its slot, its region's job field, and the queue's tail (R94, R95). -/
theorem queueJob_eq {h region : Nat} {m : MapSlot} {d : Descriptor} {s : State} (slot : s.mu.slots[region]? = some m)
    (desc : m.desc = some d) (work : JobWork) : queueJob h region d work s = queuedState region h m d work s := by
  unfold queueJob setJobField setJob setMapSlot
  dsimp only
  rw [slot]
  dsimp only
  rw [desc]
  rfl

theorem startIfIdle_busy {s : State} (h : s.engine.running ≠ none) : startIfIdle s = s := by
  rw [startIfIdle, if_neg (by simpa using h)]

theorem target_eq_iff (target : Target) (b : Body) :
    target = b.target ↔ target.legA = b.legA ∧ target.legB = b.legB ∧ target.pref = b.pref := by
  cases target
  simp [Body.target]

theorem parseAudit_length_of {payload : List Byte} {a : Nat × Bool} (h : parseAudit payload = some a) :
    payload.length ≤ 56 := by
  by_cases len : payload.length = 2
  · omega
  · rw [parseAudit_length payload len] at h
    cases h

/-- The tests of an audit, and its place in the queue behind a running job. -/
theorem auditBody_tests (region : Nat) (repair : Bool) (h : Nat) {m : MapSlot} {d : Descriptor} {s : State}
    (slot : s.mu.slots[region]? = some m) (desc : m.desc = some d) :
    (d.body.legB = none → auditBody region repair h d s = (.notMirrored, [], s))
    ∧ (d.body.legB ≠ none → auditBody region repair h d s = (.ok, byte1 h ++ byte4 (512 * d.body.length),
        startIfIdle (queuedState region h m d (.audit repair 0 0) s))) := by
  rw [← queueJob_eq slot desc]
  exact ⟨fun single => if_pos (by simp [single]), fun mirror => if_neg (by simpa using mirror)⟩

theorem relocateBody_tests (region : Nat) (target : Target) (verify : Bool) (h : Nat) {m : MapSlot} {d : Descriptor}
    {s : State} (slot : s.mu.slots[region]? = some m) (desc : m.desc = some d) :
    (target = d.body.target → relocateBody region target verify h d s = (.noChange, [], s))
    ∧ (target ≠ d.body.target →
      (∀ detail, targetFailure target d s = some detail →
        relocateBody region target verify h d s = (.invalidTarget, detail, s))
      ∧ (targetFailure target d s = none → relocateBody region target verify h d s =
          (.ok, byte1 h ++ byte1 (relocateWork target verify d).shadows.length ++ byte4 (512 * d.body.length),
            startIfIdle (queuedState region h m d (relocateWork target verify d) s)))) := by
  rw [← queueJob_eq slot desc]
  unfold relocateBody
  refine ⟨fun same => if_pos same, fun differs => ?_⟩
  rw [if_neg differs]
  exact ⟨fun detail e => by rw [e]; rfl, fun e => by rw [e]⟩

theorem bodyJobSubmitAudit_open {payload : List Byte} {region : Nat} {repair : Bool} {s : State} (opened : s.hp.seq = .opened)
    (parse : parseAudit payload = some (region, repair)) :
    bodyJobSubmitAudit payload s = submission region (auditBody region repair) s := by
  unfold bodyJobSubmitAudit
  rw [parsed_some parse, inOpen_opened opened]

theorem bodyJobSubmitRelocate_open {payload : List Byte} {region : Nat} {target : Target} {verify : Bool} {s : State}
    (opened : s.hp.seq = .opened) (parse : parseRelocate payload = some (region, target, verify)) :
    bodyJobSubmitRelocate payload s = submission region (relocateBody region target verify) s := by
  unfold bodyJobSubmitRelocate
  rw [parsed_some parse, inOpen_opened opened]

/-- Settles O42: the tests of a submission in order, and the place of a job in the queue behind a running one. -/
theorem jobSubmissionTestsAndQueue : Obligations.JobSubmissionTestsAndQueue := by
  intro tag payload region s r opened le queued free busy
  refine ⟨fun repair parse => ?_, fun target verify parse => ?_⟩
  · intro answers
    have body := bodyJobSubmitAudit_open (s := s.listening) opened parse
    have refused : ∀ {status bytes}, submission region (auditBody region repair) s.listening = (status, bytes, s.listening) →
        answers status bytes s := fun e => commandFrame_refused r le (body.trans e)
    obtain ⟨full, tests⟩ := submission_tests region (auditBody region repair) s.listening
    refine ⟨fun h => refused (full h), fun h isFree => ?_⟩
    obtain ⟨invalid, valid⟩ := tests h isFree.1 isFree.2
    refine ⟨fun none => refused (invalid none), fun m d slot desc => ?_⟩
    obtain ⟨claimed, taken⟩ := valid d (descOf_of_slot slot desc)
    obtain ⟨single, mirror⟩ := auditBody_tests (s := s.listening) region repair h slot desc
    refine ⟨fun b => refused (claimed b), fun b e => refused ((taken b).trans (single e)), fun b e runs => ?_⟩
    have reply := body.trans ((taken b).trans (mirror e))
    rw [startIfIdle_busy (s := queuedState region h m d (.audit repair 0 0) s.listening) runs] at reply
    exact commandFrame_reply (t := queuedState region h m d (.audit repair 0 0) s.listening) r le reply rfl
  · intro answers
    have body := bodyJobSubmitRelocate_open (s := s.listening) opened parse
    have refused : ∀ {status bytes}, submission region (relocateBody region target verify) s.listening
        = (status, bytes, s.listening) → answers status bytes s := fun e => commandFrame_refused r le (body.trans e)
    obtain ⟨full, tests⟩ := submission_tests region (relocateBody region target verify) s.listening
    refine ⟨fun h => refused (full h), fun h isFree => ?_⟩
    obtain ⟨invalid, valid⟩ := tests h isFree.1 isFree.2
    refine ⟨fun none => refused (invalid none), fun m d slot desc => ?_⟩
    intro same
    obtain ⟨claimed, taken⟩ := valid d (descOf_of_slot slot desc)
    obtain ⟨unchanged, differs⟩ := relocateBody_tests (s := s.listening) region target verify h slot desc
    have sameTarget : target = d.body.target ↔ same := target_eq_iff target d.body
    refine ⟨fun b => refused (claimed b), fun b e => refused ((taken b).trans (unchanged (sameTarget.mpr e))),
      fun b e detail fails => refused ((taken b).trans ((differs (mt sameTarget.mp e)).1 detail fails)),
      fun b e passes runs => ⟨d.body.legs.contains target.legA, target.legB.any fun leg => d.body.legs.contains leg,
        by simp, ?_, ?_⟩⟩
    · cases target.legB <;> simp
    · have reply := body.trans ((taken b).trans ((differs (mt sameTarget.mp e)).2 passes))
      rw [startIfIdle_busy (s := queuedState region h m d (relocateWork target verify d) s.listening) runs] at reply
      exact commandFrame_reply (t := queuedState region h m d (relocateWork target verify d) s.listening) r le reply rfl

/-! ### Finish (R101) -/

/-- The slots once a job no longer holds its region's job field. -/
def clearedSlots (region h : Nat) (slots : List MapSlot) : List MapSlot :=
  if (descOf slots region).bind Descriptor.job = some h then
    slots.modify region fun m => { m with desc := m.desc.map fun d => { d with job := none } }
  else slots

theorem clearJobField_eq (region h : Nat) (s : State) :
    clearJobField region h s = { s with mu.slots := clearedSlots region h s.mu.slots } := by
  unfold clearJobField clearedSlots
  split
  · unfold setJobField setMapSlot
    cases e : s.mu.slots[region]? with
    | none => rw [List.modify_eq_self (List.getElem?_eq_none_iff.mp e)]
    | some m => rw [modify_eq_set e]
  · rfl

/-- A descriptor whose job field no longer names a job. -/
def Descriptor.leaves (h : Nat) (d : Descriptor) : Descriptor := if d.job = some h then { d with job := none } else d

theorem clearedSlots_get (region h : Nat) (slots : List MapSlot) (i : Nat) : (clearedSlots region h slots)[i]? =
    if i = region then (slots[i]?).map (fun m => { m with desc := m.desc.map (Descriptor.leaves h) })
    else slots[i]? := by
  unfold clearedSlots
  by_cases e : i = region
  · subst e
    rw [if_pos rfl]
    cases at_ : slots[i]? with
    | none => split <;> simp [at_]
    | some m =>
      obtain ⟨desc, revision⟩ := m
      have slot : descOf slots i = desc := by rw [descOf, at_]; rfl
      rw [slot]
      cases desc with
      | none => simp [at_]
      | some d => by_cases job : d.job = some h <;> simp [at_, job, Descriptor.leaves]
  · rw [if_neg e]
    split
    · simp [Ne.symm e]
    · rfl

theorem clearedSlots_field (region h : Nat) (slots : List MapSlot) :
    (descOf (clearedSlots region h slots) region).bind Descriptor.job ≠ some h := by
  rw [descOf, clearedSlots_get, if_pos rfl]
  cases slots[region]? with
  | none => nofun
  | some m =>
    cases hd : m.desc with
    | none => simp [hd]
    | some d =>
      by_cases job : d.job = some h <;> simp [hd, job, Descriptor.leaves]

theorem clearedSlots_keeps (region h : Nat) (slots : List MapSlot) (i : Nat) :
    (descOf (clearedSlots region h slots) i).map Descriptor.body = (descOf slots i).map Descriptor.body
    ∧ revisionOf (clearedSlots region h slots) i = revisionOf slots i
    ∧ (i ≠ region → (clearedSlots region h slots)[i]? = slots[i]?) := by
  rw [descOf, revisionOf, clearedSlots_get]
  refine ⟨?_, ?_, fun ne => if_neg ne⟩
  · split
    · rw [descOf]
      cases slots[i]? with
      | none => rfl
      | some m =>
        cases hd : m.desc with
        | none => simp [hd]
        | some d => by_cases job : d.job = some h <;> simp [hd, job, Descriptor.leaves]
    · rfl
  · split
    · rw [revisionOf]
      cases slots[i]? <;> rfl
    · rfl

/-- What a job's finish leaves (R101): its slot FINISHED, the engine's fields released when it ran, its region's job field
cleared if it named the job, and JOB_FINISHED. -/
theorem finishJob_eq {h : Nat} {j : Job} {s : State} (at_ : jobOf s.engine h = some j) (outcome : JobOutcome) :
    finishJob h outcome s = { s with
      engine := Engine.release { s.engine with jobs := s.engine.jobs.set h (some { j with life := .finished outcome }) } h
      mu.slots := clearedSlots j.region h s.mu.slots
      log := takeNotice s.mu.generation (.jobFinished h outcome.kind) s.log } := by
  unfold finishJob
  rw [at_]
  dsimp only
  rw [clearJobField_eq]
  rfl

theorem Engine.release_other {e : Engine} {h : Nat} (k : e.running ≠ some h) : e.release h = e := if_neg k

/-! ### Cancel and clear (O45) -/

/-- JOB_CLEAR's answer by the slot's state (R105). -/
theorem clearJob_answers (h : Nat) (s : State) :
    (jobOf s.engine h = none → clearJob h s = (.notFinished, [], s))
    ∧ ∀ j, jobOf s.engine h = some j →
      (∀ o, j.life = .finished o → clearJob h s = (.ok, [], { s with engine.jobs := s.engine.jobs.set h none }))
      ∧ ((∀ o, j.life ≠ .finished o) → clearJob h s = (.notFinished, [], s)) := by
  unfold clearJob
  refine ⟨fun free => by rw [free]; rfl, fun j at_ => ?_⟩
  rw [at_]
  dsimp only
  refine ⟨fun o life => by rw [life]; rfl, fun live => ?_⟩
  cases life : j.life with
  | finished o => exact absurd life (live o)
  | queued => rfl
  | running stop => rfl

/-- A stop request of a running job: the one already recorded stays (R98). -/
theorem raiseStop_running {h : Nat} {j : Job} {s : State} (runs : s.engine.running = some h) (at_ : jobOf s.engine h = some j)
    {stop : Option Stop} (life : j.life = .running stop) (raised : Stop) : raiseStop raised s =
      { s with engine.jobs := s.engine.jobs.set h (some { j with life := .running (some (stop.getD raised)) }) } := by
  unfold raiseStop modifyRunning
  rw [runningJob_eq.mpr ⟨runs, at_⟩]
  dsimp only
  rw [life]
  cases stop <;> rfl

/-- A QUEUED job leaves the queue while another runs (R103). -/
theorem cancelQueued_eq {h r : Nat} {j : Job} {s : State} (at_ : jobOf s.engine h = some j) (runs : s.engine.running = some r)
    (other : r ≠ h) : cancelQueued h s = { s with
      engine := { s.engine with
        queue := s.engine.queue.erase h
        jobs := s.engine.jobs.set h (some { j with life := .finished .cancelled }) }
      mu.slots := clearedSlots j.region h s.mu.slots
      log := takeNotice s.mu.generation (.jobFinished h .cancelled) s.log } := by
  have away : s.engine.running ≠ some h := by
    rw [runs]
    exact fun e => other (Option.some.inj e)
  unfold cancelQueued
  rw [finishJob_eq (s := { s with engine.queue := s.engine.queue.erase h }) at_, Engine.release_other (by exact away),
    startIfIdle_busy (by show s.engine.running ≠ none; rw [runs]; nofun)]
  rfl

/-- JOB_CANCEL's answer by the slot's state (R103). -/
theorem cancelJob_answers (h : Nat) (s : State) :
    (jobOf s.engine h = none → cancelJob h s = (.notActive, [], s))
    ∧ ∀ j, jobOf s.engine h = some j →
      (∀ o, j.life = .finished o → cancelJob h s = (.notActive, [], s))
      ∧ (∀ stop, j.life = .running stop → (j.phase = some .switch → cancelJob h s = (.tooLate, [], s))
        ∧ (j.phase ≠ some .switch → cancelJob h s = (.accepted, [], raiseStop .cancel s)))
      ∧ (j.life = .queued → cancelJob h s = (.ok, [], cancelQueued h s)) := by
  unfold cancelJob
  refine ⟨fun free => by rw [free]; rfl, fun j at_ => ?_⟩
  rw [at_]
  dsimp only
  refine ⟨fun o life => by rw [life]; rfl, fun stop life => ?_, fun life => by rw [life]⟩
  rw [life]
  exact ⟨fun k => if_pos k, fun k => if_neg k⟩

/-- Settles O45: each command answers by the state of its job slot. -/
theorem jobCancelAndClearBySlotState : Obligations.JobCancelAndClearBySlotState := by
  intro tag payload h s r opened parse cancel clear
  obtain ⟨len, _⟩ := parseHandle_some parse
  have le : payload.length ≤ 56 := by omega
  have cleared {status bytes} (e : clearJob h s.listening = (status, bytes, s.listening)) :
      clear = .next (answered 0x44 tag status bytes s) := commandFrame_refused r le
    ((parsed_some parse _).trans ((inOpen_opened (s := s.listening) opened).trans e))
  have cancelled {status bytes} (e : cancelJob h s.listening = (status, bytes, s.listening)) :
      cancel = .next (answered 0x42 tag status bytes s) := commandFrame_refused r le
    ((parsed_some parse _).trans ((inOpen_opened (s := s.listening) opened).trans e))
  obtain ⟨clearFree, clearUsed⟩ := clearJob_answers h s.listening
  obtain ⟨cancelFree, cancelUsed⟩ := cancelJob_answers h s.listening
  refine ⟨fun free => ⟨cleared (clearFree free), cancelled (cancelFree free)⟩, fun j at_ => ?_⟩
  obtain ⟨clearFinished, clearLive⟩ := clearUsed j at_
  obtain ⟨cancelFinished, cancelRunning, cancelQueue⟩ := cancelUsed j at_
  refine ⟨fun o life => ⟨?_, cancelled (cancelFinished o life)⟩, fun stop life => ⟨cleared (clearLive fun o => by
    rw [life]; nofun), fun phase => cancelled ((cancelRunning stop life).1 phase), fun phase runs => ?_⟩,
    fun life => ⟨cleared (clearLive fun o => by rw [life]; nofun), fun n runs other => ?_⟩⟩
  · exact commandFrame_open (f := clearJob) (t := { s.listening with engine.jobs := s.engine.jobs.set h none }) r le opened parse
      (clearFinished o life) rfl
  · let stopping : Job := { j with life := .running (some (stop.getD .cancel)) }
    exact commandFrame_open (f := cancelJob)
      (t := { s.listening with engine.jobs := s.engine.jobs.set h (some stopping) }) r le opened parse
      (((cancelRunning stop life).2 phase).trans (by
        rw [raiseStop_running (s := s.listening) runs at_ life])) rfl
  · refine ⟨clearedSlots j.region h s.mu.slots, ?_, clearedSlots_field _ _ _, clearedSlots_keeps _ _ _⟩
    exact commandFrame_open (f := cancelJob) (t := { s.listening with
      engine := { s.engine with
        queue := s.engine.queue.erase h
        jobs := s.engine.jobs.set h (some { j with life := .finished .cancelled }) }
      mu.slots := clearedSlots j.region h s.mu.slots
      log := takeNotice s.mu.generation (.jobFinished h .cancelled) s.log }) r le opened parse
      ((cancelQueue life).trans (by rw [cancelQueued_eq (s := s.listening) at_ runs other])) rfl
end Sys2Proof.Machine

/-! PROOF. Drains and resets: the drain tick, the ends of a commit's drain and of ENTRY_DRAIN, SRST_N and BRIDGE_RESET
(O7, O22, O23, O26, O51). -/

namespace Sys2Proof.Machine

open Sys2Proof

/-- An event that is possible in a powered part is taken and closed. -/
theorem event_taken {possible : Bool} {f : State → State} {s : State} (power : s.porst = false)
    (h : possible = true) : event possible f s = .next (settle (f s)) := by
  unfold event
  rw [power, h]
  rfl

/-! ### The drain tick (O26) -/

theorem mem_tickingLanes {h : Health} {n : Lane} : n ∈ tickingLanes h ↔ 0 < (h.lanes.get n).budget := by
  have all : n ∈ allLanes := by cases n <;> decide
  simp [tickingLanes, all]

/-- A drain tick before its evaluations: budgets above 0 lowered, the timer restarted (R141). -/
def lowerBudgets (s : State) : State := { s with health := { s.health with
  lanes := s.health.lanes.map fun h => { h with budget := h.budget - 1 }, drainTimer := some s.health.interval } }

theorem lowerBudgets_lane (s : State) (n : Lane) :
    (lowerBudgets s).health.lanes.get n = { s.health.lanes.get n with budget := budgetOf s n - 1 } :=
  PerLane.get_map ..

theorem healthTick_eq (s : State) : healthTick s = evaluateLanes (tickingLanes s.health) (lowerBudgets s) := rfl

/-- Settles O26: a tick lowers the budgets and evaluates the lanes lowered, each by the table of R142. -/
theorem drainTickLowersBudgetsAndEvaluates : Obligations.DrainTickLowersBudgetsAndEvaluates := by
  refine ⟨fun s power timer => ?_, fun lane s => ?_⟩
  · obtain ⟨_, _, _, restarted, states⟩ := evaluateLanes_health (tickingLanes s.health) (lowerBudgets s)
      (List.Nodup.filter _ (by decide))
    have evaluated := kept_evaluateLanes (tickingLanes s.health) (lowerBudgets s)
    have closed := kept_settle (healthTick s)
    have tick := keptTable_healthTick s
    have health : (settle (healthTick s)).health = (healthTick s).health := health_settle _
    rw [healthTick_eq] at health
    refine ⟨_, event_taken power timer, fun n => ?_, fun n => ?_, by rw [healthTick_eq, health, restarted]; rfl, fun n => ?_,
      closed.entries.trans tick.entries, closed.config.trans tick.config, closed.link.trans tick.link⟩
    · rw [closed.budgets, healthTick_eq, evaluated.budgets, budgetOf, lowerBudgets_lane]
    · rw [healthTick_eq, health, states]
      by_cases raised : 0 < budgetOf s n
      · rw [if_pos (mem_tickingLanes.mpr raised), if_pos raised, budgetOf, lowerBudgets_lane]
        rfl
      · rw [if_neg (mt mem_tickingLanes.mp raised), if_neg raised, lowerBudgets_lane]
    · rw [closed.errors, healthTick_eq, evaluated.errors]
      rfl
  · intro h
    have health := health_evaluateLane lane s
    refine ⟨?_, fun n other => ?_, (kept_evaluateLane lane s).budgets⟩
    · rw [health, PerLane.get_modify, if_pos rfl]
      show evaluatedState _ _ _ h.state = _
      cases h.state <;> rfl
    · rw [health, PerLane.get_modify, if_neg other]

/-! ### The close of an event with no stale commit -/

theorem closeStale_none {s : State} (h : (s.mu.commit.drain.any fun d => d.stale) = false) : closeStale s = s := by
  unfold closeStale
  rw [h]
  rfl

theorem settle_fresh {s : State} (h : (s.mu.commit.drain.any fun d => d.stale) = false) :
    settle s = presentResponses (advanceSequence (refreshPhases (grantAll s))) := by
  rw [settle, closeStale_none h]

theorem drainStep_ift (s : State) : (drainStep s).ift = s.ift := by
  unfold drainStep
  split <;> rfl

theorem quiesceStep_ift (s : State) : (quiesceStep s).ift = s.ift := by
  unfold quiesceStep
  split
  · split <;> rfl
  · rfl

theorem holdStep_ift (s : State) : (holdStep s).ift = s.ift := by
  unfold holdStep
  split <;> rfl

theorem advanceSequence_ift (s : State) : (advanceSequence s).ift = s.ift :=
  ((holdStep_ift _).trans (quiesceStep_ift _)).trans (drainStep_ift s)

/-- The close of an event changes phases alone in the table, when no commit is stale. -/
theorem settle_ift {s : State} (h : (s.mu.commit.drain.any fun d => d.stale) = false) :
    (settle s).ift = (refreshPhases (grantAll s)).ift := by
  rw [settle_fresh h]
  exact advanceSequence_ift _

theorem settle_commitSpan {s : State} (h : (s.mu.commit.drain.any fun d => d.stale) = false) :
    (settle s).ift.commitSpan = s.ift.commitSpan := by
  rw [settle_ift h]
  rfl

theorem settle_switchSpan {s : State} (h : (s.mu.commit.drain.any fun d => d.stale) = false) :
    (settle s).ift.switchSpan = s.ift.switchSpan := by
  rw [settle_ift h]
  rfl

/-! ### The end of a commit's drain (O23) -/

/-- What the end of a draining commit leaves once the event has closed. -/
theorem settle_endCommit {s : State} {d : CommitDrain} (h : s.mu.commit.drain = some d) (result : CommitResult) :
    (settle (endCommit result s)).mu = { s.mu with commit := { drain := none, last := result } }
    ∧ (settle (endCommit result s)).ift.commitSpan = none
    ∧ (s.hp.seq = .opened → (settle (endCommit result s)).log
        = takeNotice s.mu.generation (.commitFinished d.subject result) s.log) := by
  have ends := endCommit_decoded h result
  have idle := stale_none (s := endCommit result s) (by rw [ends.mu])
  exact ⟨(settle_blocks idle).1.trans ends.mu, (settle_commitSpan idle).trans ends.commitSpan,
    fun opened => (settle_open (ends.seq.trans opened) idle).log.trans ends.log⟩

/-- Settles O23: both ends of a commit's drain, through what the end of a commit leaves. -/
theorem commitDrainEndsInstalledOrTimedOut : Obligations.CommitDrainEndsInstalledOrTimedOut := by
  refine ⟨fun s d sp power drains fresh span done distinct inMap => ?_, fun s d power drains => ?_⟩
  · have taken : completeCommit s = endCommit .done (installCommit d.members s) := by
      rw [completeCommit, drains]
      exact if_neg (by simp [fresh])
    have possible : (s.mu.commit.drain.isSome && commitReported s) = true := by
      rw [commitReported, drains, span]
      simp [done]
    obtain ⟨mu, closed, _⟩ := settle_endCommit (s := installCommit d.members s) drains .done
    have kept : Kept s (settle (completeCommit s)) := (kept_completeCommit s).trans (kept_settle _)
    rw [← taken] at mu closed
    refine ⟨_, event_taken power possible, fun m hm => ?_, fun i other => ?_, by rw [mu]; rfl,
      by rw [mu]; rfl, by rw [mu], closed, kept.entries,
      fun k => ⟨kept.errors k, kept.budgets k⟩, kept.config, kept.link⟩
    · rw [mu]
      exact installMembers_at d.members s.mu.slots distinct m hm (inMap m hm)
    · rw [mu]
      exact installMembers_other d.members s.mu.slots i other
  · obtain ⟨mu, closed, log⟩ := settle_endCommit drains .timeout
    have kept : Kept s (settle (endCommit .timeout s)) := (kept_endCommit .timeout s).trans (kept_settle _)
    refine ⟨_, event_taken power (by rw [drains]; rfl), by rw [mu], closed, by rw [mu], by rw [mu], by rw [mu],
      fun m rest set opened => ?_, kept.entries, fun k => ⟨kept.errors k, kept.budgets k⟩, kept.config, kept.link⟩
    rw [log opened, CommitDrain.subject, set]
    rfl

/-! ### The end of ENTRY_DRAIN at its limit (O22) -/

theorem enterTransfer_ift (s : State) : (enterTransfer s).ift = s.ift := by
  have reads : ∀ (block : Nat) (legs : List Leg) (i : Nat) (s : State),
      (presentVerifyReads block i legs s).ift = s.ift := fun block legs => by
    induction legs with
    | nil => exact fun _ _ => rfl
    | cons leg rest ih => exact fun i s => ih (i + 1) _
  unfold enterTransfer
  split
  · split
    · rfl
    · split
      · rfl
      · exact reads _ _ _ _
      · rfl
      · rfl
  · rfl

theorem writeWaitFalls_ift (s : State) : (writeWaitFalls s).ift = s.ift := by
  unfold writeWaitFalls
  split
  · rfl
  · dsimp only
    split
    · exact enterTransfer_ift _
    · rfl

theorem waitFalls_ift (n : Nat) : ∀ s : State, (waitFalls n s).ift = s.ift := by
  induction n with
  | zero => exact fun _ => rfl
  | succ n ih => exact fun s => (ih _).trans (writeWaitFalls_ift s)

theorem decoded_waitFalls (n : Nat) : ∀ s : State, Decoded s (waitFalls n s) := by
  induction n with
  | zero => exact Decoded.refl
  | succ n ih => exact fun s => (decoded_writeWaitFalls s).trans (ih _)

theorem Decoded.entryTimer {s t : State} (k : Decoded s t) : t.hp.entryTimer = s.hp.entryTimer := by
  have h := congrArg HostPort.entryTimer k.hp
  exact h

theorem decoded_closeStale_hp (s : State) :
    (closeStale s).hp.seq = s.hp.seq ∧ (closeStale s).hp.entryTimer = s.hp.entryTimer := by
  unfold closeStale
  split
  · cases h : s.mu.commit.drain with
    | none => rw [endCommit, h]; exact ⟨rfl, rfl⟩
    | some d => exact ⟨(endCommit_decoded h .stale).seq, (endCommit_decoded h .stale).entryTimer⟩
  · exact ⟨rfl, rfl⟩

/-- Out of ENTRY_DRAIN no event comes back into it, and its timer stays stopped. -/
theorem settle_left {s : State} (h : s.hp.seq ≠ .entryDrain) (k : s.hp.entryTimer = none) :
    (settle s).hp.seq ≠ .entryDrain ∧ (settle s).hp.entryTimer = none := by
  let P (t : State) : Prop := t.hp.seq ≠ .entryDrain ∧ t.hp.entryTimer = none
  have drain : ∀ t, P t → P (drainStep t) := fun t p => by rwa [drainStep, if_neg fun c => p.1 c.1]
  have quiesce : ∀ t, P t → P (quiesceStep t) := fun t p => by
    unfold quiesceStep
    split
    · split
      · exact ⟨nofun, p.2⟩
      · exact ⟨nofun, p.2⟩
    · exact p
  have hold : ∀ t, P t → P (holdStep t) := fun t p => by
    unfold holdStep
    split
    · exact ⟨nofun, p.2⟩
    · exact p
  obtain ⟨seq, timer⟩ := decoded_closeStale_hp s
  have start : P (refreshPhases (grantAll (closeStale s))) := ⟨seq ▸ h, timer ▸ k⟩
  exact hold _ (quiesce _ (drain _ start))

theorem cutOff_known (e : Entry) : (cutOff e).unanswered = false := by
  unfold cutOff
  split
  · rfl
  · exact Bool.eq_false_iff.mpr ‹_›

/-- Settles O22: every open entry is cut off, and the sequence leaves ENTRY_DRAIN. -/
theorem entryDrainExpiryAnswersEveryEntry : Obligations.EntryDrainExpiryAnswersEveryEntry := by
  intro s power seq timer
  have entries : (expireEntryDrain s).ift.entries = s.ift.entries.map cutOff :=
    congrArg InFlight.entries (waitFalls_ift _ _)
  have kept : Kept s (settle (expireEntryDrain s)) := (kept_expireEntryDrain s).trans (kept_settle _)
  have known : allKnown (expireEntryDrain s) = true := by
    rw [allKnown, entries, List.all_map, List.all_eq_true]
    exact fun e _ => by simp [cutOff_known]
  have all := (kept_settle (expireEntryDrain s)).known known
  obtain ⟨left, stopped⟩ := settle_left (s := expireEntryDrain s) nofun rfl
  refine ⟨_, event_taken power (by rw [seq, timer]; rfl), kept.entries, fun e m none => ?_, stopped, left,
    fun idle e m open_ => ?_, fun k => ⟨kept.errors k, kept.budgets k⟩, kept.config, kept.link⟩
  · have k := List.all_eq_true.mp all e m
    simp [Entry.unanswered, none] at k
  · have still : (expireEntryDrain s).mu.commit.drain = none := by
      have k := (decoded_waitFalls (s.ift.entries.filter (countedByLock s.engine)).length
        (withdraw (fun r => !r.fromEngine) { s with
          ift.entries := s.ift.entries.map cutOff, mu.drops := s.mu.drops.map fun d => { d with slot := none } })).mu
      rw [show (expireEntryDrain s).mu = _ from k]
      exact idle
    rw [settle_ift (stale_none still)]
    have cut : cutOff e ∈ (expireEntryDrain s).ift.entries := entries ▸ List.mem_map_of_mem m
    have code : (cutOff e).code = some .slverr := by rw [cutOff, Entry.unanswered, open_]; rfl
    refine ⟨_, List.mem_map_of_mem cut, ?_⟩
    split
    · exact ⟨(cutOff_keeps e).1, code⟩
    · exact ⟨(cutOff_keeps e).1, code⟩

/-! ### The reset signal at the copy engine (R106) -/

/-- What the copy engine changes as jobs finish outside a switch: its own fields, the job fields of the map, the log. -/
def JobsOnly (s t : State) : Prop :=
  t = { s with engine := t.engine, mu := { s.mu with slots := t.mu.slots }, log := t.log }

theorem JobsOnly.refl (s : State) : JobsOnly s s := rfl

theorem JobsOnly.trans {s t u : State} (h : JobsOnly s t) (k : JobsOnly t u) : JobsOnly s u := by
  unfold JobsOnly at *
  rw [k, h]

theorem JobsOnly.hp {s t : State} (h : JobsOnly s t) : t.hp = s.hp := by rw [h]

theorem JobsOnly.commit {s t : State} (h : JobsOnly s t) : t.mu.commit = s.mu.commit := by rw [h]

theorem setJobField_only (i : Nat) (h : Option Nat) (s : State) : JobsOnly s (setJobField i h s) := by
  unfold setJobField
  split <;> rfl

theorem finishJob_only (h : Nat) (outcome : JobOutcome) (s : State) : JobsOnly s (finishJob h outcome s) := by
  cases at_ : jobOf s.engine h with
  | none => rw [finishJob, at_]; exact JobsOnly.refl s
  | some j => rw [finishJob_eq at_]; rfl

theorem abortQueued_only (handles : List Nat) : ∀ s : State, JobsOnly s (abortQueued handles s)
    ∧ (abortQueued handles s).engine.queue = s.engine.queue := by
  induction handles with
  | nil => exact fun s => ⟨rfl, rfl⟩
  | cons h rest ih =>
    intro s
    obtain ⟨only, queue⟩ := ih (finishJob h .resetAborted s)
    exact ⟨(finishJob_only _ _ _).trans only, queue.trans (finishJob_queue _ _ _)⟩

/-- With nothing queued no job starts. -/
theorem startNext_empty {s : State} (h : s.engine.queue = []) : startNext s = s := by
  rw [startNext, h]
  rfl

/-- What the reset signal leaves of the port, of the commit record and of the queue. -/
structure Aborted (s t : State) : Prop where
  seq : t.hp.seq = s.hp.seq
  channels : t.hp.readChan = s.hp.readChan ∧ t.hp.writeChan = s.hp.writeChan
  limit : t.hp.drainLimit = s.hp.drainLimit
  commit : t.mu.commit = s.mu.commit
  queue : t.engine.queue = s.engine.queue

theorem Aborted.trans {s t u : State} (h : Aborted s t) (k : Aborted t u) : Aborted s u :=
  ⟨k.seq.trans h.seq, ⟨k.channels.1.trans h.channels.1, k.channels.2.trans h.channels.2⟩, k.limit.trans h.limit,
   k.commit.trans h.commit, k.queue.trans h.queue⟩

theorem Decoded.aborted {s t : State} (k : Decoded s t) : Aborted s t := by
  have hp := k.hp
  refine ⟨k.seq, ⟨?_, ?_⟩, ?_, by rw [k.mu], ?_⟩
  · have h := congrArg HostPort.readChan hp
    exact h
  · have h := congrArg HostPort.writeChan hp
    exact h
  · have h := congrArg HostPort.drainLimit hp
    exact h
  · have h := congrArg Engine.queue k.engine
    exact h

theorem aborted_finishJob (h : Nat) (outcome : JobOutcome) (s : State) : Aborted s (finishJob h outcome s) := by
  have only := finishJob_only h outcome s
  have hp := only.hp
  exact ⟨by rw [hp], ⟨by rw [hp], by rw [hp]⟩, by rw [hp], only.commit, finishJob_queue _ _ _⟩

theorem aborted_endSwitch {s : State} (outcome : JobOutcome) (h : s.engine.queue = []) :
    Aborted s (endSwitch outcome s) := by
  unfold endSwitch
  split
  · rename_i n _ sp _ _
    have finished := aborted_finishJob n outcome { s with ift.switchSpan := none }
    rw [startNext_empty (finished.queue.trans h)]
    exact Aborted.trans (t := { s with ift.switchSpan := none }) ⟨rfl, ⟨rfl, rfl⟩, rfl, rfl, rfl⟩
      (finished.trans (decoded_releaseHeld _ _ _).aborted)
  · exact (Decoded.refl s).aborted

theorem aborted_stopFinish {s : State} (h : s.engine.queue = []) : Aborted s (stopFinish s) := by
  have released : Aborted s (releaseLock { s with engine.stopping := true }) :=
    Aborted.trans (t := { s with engine.stopping := true }) ⟨rfl, ⟨rfl, rfl⟩, rfl, rfl, rfl⟩
      (decoded_releaseLock _).aborted
  unfold stopFinish
  dsimp only
  split
  · exact released
  · split
    · exact released
    · rename_i n j _ _ stop _
      have finished := released.trans (aborted_finishJob n stop.outcome _)
      rw [startNext_empty (finished.queue.trans h)]
      exact finished

theorem modifyRunning_engine (f : Job → Job) (s : State) :
    ∃ jobs, modifyRunning f s = { s with engine.jobs := jobs } := by
  unfold modifyRunning
  split
  · exact ⟨s.engine.jobs, rfl⟩
  · exact ⟨_, rfl⟩

theorem aborted_abortRunning {s : State} (h : s.engine.queue = []) : Aborted s (abortRunning s) := by
  have reset : Aborted s (raiseReset { s with engine.stopping := true }) := by
    obtain ⟨jobs, e⟩ := modifyRunning_engine _ { s with engine.stopping := true }
    rw [raiseReset, e]
    exact ⟨rfl, ⟨rfl, rfl⟩, rfl, rfl, rfl⟩
  have withdrawn : Aborted s (withdraw Request.fromEngine (raiseReset { s with engine.stopping := true })) :=
    reset.trans ⟨rfl, ⟨rfl, rfl⟩, rfl, rfl, rfl⟩
  unfold abortRunning
  split
  · exact (Decoded.refl s).aborted
  · dsimp only
    split
    · exact reset.trans (aborted_endSwitch _ (reset.queue.trans h))
    · split
      · exact withdrawn.trans (aborted_stopFinish (withdrawn.queue.trans h))
      · exact withdrawn

/-- The reset signal empties the queue, and leaves the sequence, the channels and the commit record alone. -/
theorem aborted_resetJobs (s : State) : Aborted { s with engine.queue := [] } (resetJobs s) := by
  obtain ⟨only, queue⟩ := abortQueued_only s.engine.queue { s with engine.queue := [] }
  have hp := only.hp
  have first : Aborted { s with engine.queue := [] } (abortQueued s.engine.queue { s with engine.queue := [] }) :=
    ⟨by rw [hp], ⟨by rw [hp], by rw [hp]⟩, by rw [hp], only.commit, queue⟩
  exact first.trans (aborted_abortRunning queue)

/-! ### The reset signal at the map unit (R87) -/

theorem endCommit_idle {s : State} (h : s.mu.commit.drain = none) (result : CommitResult) : endCommit result s = s := by
  rw [endCommit, h]

/-- An abandoned commit drains no more; the port, the queue and the sequence are left alone. -/
theorem abandoned (s : State) : (endCommit .resetAborted s).mu.commit.drain = none
    ∧ (endCommit .resetAborted s).hp.seq = s.hp.seq ∧ (endCommit .resetAborted s).engine.queue = s.engine.queue
    ∧ (endCommit .resetAborted s).hp.readChan = s.hp.readChan ∧ (endCommit .resetAborted s).hp.writeChan = s.hp.writeChan := by
  cases h : s.mu.commit.drain with
  | none => rw [endCommit_idle h]; exact ⟨h, rfl, rfl, rfl, rfl⟩
  | some d =>
    have ends := endCommit_decoded h .resetAborted
    have left := ends.aborted
    exact ⟨by rw [ends.mu], left.seq, left.queue, left.channels.1, left.channels.2⟩

/-! ### SRST_N (O7) -/

/-- A part in reset: SRST_N is asserted, the table is empty with its channels free, the warm-seen flag is set, and the
sequence waits in QUIESCE or HOLD. -/
def InReset (s : State) : Prop :=
  s.srst = true ∧ s.ift.entries = [] ∧ s.hp.readChan = none ∧ s.hp.writeChan = none ∧ s.hp.warmSeen = true
    ∧ (s.hp.seq = .quiesce ∨ s.hp.seq = .hold)

theorem inReset_closeStale {s : State} (h : InReset s) : InReset (closeStale s) := by
  unfold closeStale
  split
  · cases drains : s.mu.commit.drain with
    | none => rwa [endCommit_idle drains]
    | some d =>
      obtain ⟨reset, table, read, write, warm, seq⟩ := h
      have ends := endCommit_decoded drains .stale
      have kept := kept_endCommit .stale s
      have left := ends.aborted
      have seen := congrArg HostPort.warmSeen ends.hp
      exact ⟨kept.srst.trans reset, identities_nil.mp (kept.entries.trans (identities_nil.mpr table)),
        left.channels.1.trans read, left.channels.2.trans write, seen.trans warm, left.seq ▸ seq⟩
  · exact h

/-- A part in reset stays there while SRST_N is asserted. -/
theorem inReset_settle {s : State} (h : InReset s) : InReset (settle s) := by
  have drain : ∀ t, InReset t → InReset (drainStep t) := fun t p => by
    have ⟨_, _, _, _, _, seq⟩ := p
    rwa [drainStep, if_neg fun c => by rcases seq with k | k <;> simp [k] at c]
  have quiesce : ∀ t, InReset t → InReset (quiesceStep t) := fun t p => by
    have ⟨reset, table, read, write, warm, _⟩ := p
    unfold quiesceStep
    split
    · rw [if_pos (.inl reset)]
      exact ⟨reset, table, read, write, warm, .inr rfl⟩
    · exact p
  have hold : ∀ t, InReset t → InReset (holdStep t) := fun t p => by
    rwa [holdStep, if_neg fun c => by simp [p.1] at c]
  have grants : ∀ t, InReset t → InReset (refreshPhases (grantAll t)) := fun t p => by
    obtain ⟨reset, table, rest⟩ := p
    refine ⟨reset, ?_, rest⟩
    show t.ift.entries.map _ = []
    rw [table]
    rfl
  have present : ∀ t, InReset t → InReset (presentResponses t) := fun t p => by
    obtain ⟨reset, table, read, write, warm, seq⟩ := p
    have free : ∀ d, nextResponse t.ift.entries d = none := fun d => by rw [table]; rfl
    refine ⟨reset, table, ?_, ?_, warm, seq⟩
    · show (t.hp.readChan <|> _) = none
      rw [read, free]
      rfl
    · show (t.hp.writeChan <|> _) = none
      rw [write, free]
      rfl
  exact present _ (hold _ (quiesce _ (drain _ (grants _ (inReset_closeStale h)))))

theorem inReset_warmReset {s : State} (reset : s.srst = true) : InReset (warmReset s) := by
  have jobs := aborted_resetJobs (discardEntries s)
  obtain ⟨_, _, _, read, write⟩ := abandoned (resetJobs (discardEntries s))
  exact ⟨(keptLaws_warmReset s).srst.trans reset, identities_nil.mp (warmReset_entries s),
    read.trans jobs.channels.1, write.trans jobs.channels.2, rfl, .inl rfl⟩

theorem inReset_warmOverlap {s : State} (reset : s.srst = true) (closed : s.hp.seq ≠ .opened) :
    InReset (warmOverlap s) := by
  have laws := keptLaws_warmOverlap s
  have table := identities_nil.mp (warmOverlap_entries s)
  unfold warmOverlap at table ⊢
  dsimp only at table ⊢
  split
  · exact ⟨reset, rfl, rfl, rfl, rfl, .inl rfl⟩
  · refine ⟨reset, rfl, rfl, rfl, rfl, ?_⟩
    cases seq : s.hp.seq with
    | opened => exact absurd seq closed
    | entryDrain => exact absurd seq ‹_›
    | quiesce => exact .inl seq
    | hold => exact .inr seq

/-- Taken in OPEN, SRST_N leaves no commit draining and nothing queued. -/
theorem settle_warmReset (s : State) : (settle (warmReset s)).mu.commit.drain = none
    ∧ (settle (warmReset s)).engine.queue = [] := by
  have jobs := aborted_resetJobs (discardEntries s)
  obtain ⟨drain, _, queue, _⟩ := abandoned (resetJobs (discardEntries s))
  have idle : (warmReset s).mu.commit.drain = none := drain
  obtain ⟨mu, engine, _⟩ := settle_blocks (stale_none idle)
  rw [mu, engine]
  exact ⟨idle, queue.trans jobs.queue⟩

theorem completeQuiesces_lane (s : State) (n : Lane) : (completeQuiesces s).lanes.get n =
    if (s.lanes.get n).quiesce.isSome && (s.lanes.get n).idle then quiesceDone (s.lanes.get n) else s.lanes.get n :=
  PerLane.get_map ..

theorem startQuiesce_lane (s : State) (n : Lane) : (startQuiesce s).lanes.get n =
    if (s.lanes.get n).quiesce.isNone then { s.lanes.get n with quiesce := some s.hp.drainLimit } else s.lanes.get n :=
  PerLane.get_map ..

/-- Lanes with nothing waiting and no quiesce have none to complete. -/
theorem completeQuiesces_rest {s : State} (h : ∀ n : Lane, (s.lanes.get n).quiesce = none) : completeQuiesces s = s := by
  have : (s.lanes.map fun p => if p.quiesce.isSome && p.idle then quiesceDone p else p) = s.lanes :=
    PerLane.ext_get fun n => by
      rw [PerLane.get_map, h n]
      rfl
  unfold completeQuiesces
  rw [this]

theorem presentResponses_empty {s : State} (h : s.ift.entries = []) : presentResponses s = s := by
  unfold presentResponses nextResponse
  rw [h]
  simp

/-- The close of an event in HOLD ends the sequence when SRST_N is deasserted and the table is empty. -/
theorem settle_hold {s : State} (seq : s.hp.seq = .hold) (reset : s.srst = false) (table : s.ift.entries = [])
    (idle : s.mu.commit.drain = none) (rest : ∀ n : Lane, (s.lanes.get n).Settled) : settle s = endSequence s := by
  have phases : refreshPhases s = s := refreshPhases_rest fun e m => absurd (table ▸ m) List.not_mem_nil
  have drain : drainStep s = s := by rw [drainStep, if_neg fun c => by simp [seq] at c]
  have quiesce : quiesceStep s = s := by rw [quiesceStep, if_neg fun c => by simp [seq] at c]
  have hold : holdStep s = endSequence s := if_pos ⟨seq, reset, table⟩
  have present : presentResponses (endSequence s) = endSequence s := presentResponses_empty table
  rw [settle_fresh (stale_none idle), grantAll_rest (fun n => (rest n).1), phases, advanceSequence, drain,
    completeQuiesces_rest (fun n => (rest n).2), quiesce, hold, present]

/-- In HOLD with an entry left the sequence waits. -/
theorem settle_hold_waits {s : State} (seq : s.hp.seq = .hold) (table : s.ift.entries ≠ [])
    (idle : s.mu.commit.drain = none) : (settle s).hp.seq = .hold := by
  have drain : ∀ t : State, t.hp.seq = .hold → drainStep t = t := fun t k => by
    rw [drainStep, if_neg fun c => by simp [k] at c]
  have quiesce : ∀ t : State, t.hp.seq = .hold → quiesceStep t = t := fun t k => by
    rw [quiesceStep, if_neg fun c => by simp [k] at c]
  have hold : ∀ t : State, t.ift.entries ≠ [] → holdStep t = t := fun t k => by
    rw [holdStep, if_neg fun c => k c.2.2]
  have some : (refreshPhases (grantAll s)).ift.entries ≠ [] := by
    show s.ift.entries.map _ ≠ []
    simpa using table
  rw [settle_fresh (stale_none idle), advanceSequence, drain _ (by exact seq), quiesce _ (by exact seq), hold _ (by exact some)]
  exact seq

theorem exec_srstDeasserted {s : State} (power : s.porst = false) (reset : s.srst = true) :
    exec .srstNDeassert s = .next (settle { s with srst := false }) := by
  show execSrstNDeassert s = _
  rw [execSrstNDeassert, if_pos reset]
  exact congrArg _ (if_neg (by simp [power]))

/-- Settles O7: both edges of SRST_N. -/
theorem srstEmptiesTheTableAndEndsHold : Obligations.SrstEmptiesTheTableAndEndsHold := by
  refine ⟨fun s power low => ?_, fun s power reset seq table idle rest => ?_, fun s power reset seq table idle => ?_⟩
  · have edge : ∃ t, exec .srstNAssert s = .next t ∧ InReset t ∧ KeptLaws { s with srst := true } t
        ∧ (s.hp.seq = .opened → t.mu.commit.drain = none ∧ t.engine.queue = []) := by
      by_cases seq : s.hp.seq = .opened
      · refine ⟨settle (warmReset { s with srst := true }), ?_, inReset_settle (inReset_warmReset rfl),
          (keptLaws_warmReset _).trans (kept_settle _).toKeptLaws, fun _ => settle_warmReset _⟩
        show execSrstNAssert s = _
        simp [execSrstNAssert, low, power, isOpen, seq]
      · refine ⟨settle (warmOverlap { s with srst := true }), ?_, inReset_settle (inReset_warmOverlap rfl seq),
          (keptLaws_warmOverlap _).trans (kept_settle _).toKeptLaws, fun k => absurd k seq⟩
        show execSrstNAssert s = _
        simp [execSrstNAssert, low, power, isOpen, seq]
    obtain ⟨t, e, ⟨reset, table, read, write, warm, waits⟩, laws, opened⟩ := edge
    exact ⟨t, e, reset, table, read, write, warm, waits, laws.config, laws.link, opened⟩
  · rw [exec_srstDeasserted power reset, settle_hold (s := { s with srst := false }) seq rfl table idle rest]
    rfl
  · refine ⟨_, exec_srstDeasserted power reset, ?_, settle_hold_waits seq table idle, ?_⟩
    · exact (kept_settle { s with srst := false }).srst
    · exact (kept_settle { s with srst := false }).entries

/-! ### BRIDGE_RESET (O51) -/

/-- BRIDGE_RESET's frame in OPEN (R42). -/
theorem exec_bridgeReset {s : State} (tag : Byte) (r : LinkReady s) (opened : s.hp.seq = .opened) :
    exec (.bridgeReset tag []) s
      = .next (answered 0x04 tag .accepted [] (settle (commandReset s.listening))) :=
  commandFrame_reply (t := settle (commandReset s.listening)) r (Nat.zero_le 56)
    ((noPayload_nil _ _).trans (inOpen_opened (s := s.listening) opened)) ((kept_commandReset _).trans (kept_settle _)).link

/-- The sequence as BRIDGE_RESET begins it (R42). -/
def entryDraining (s : State) : State := { s with hp := { s.hp with
  entryTimer := some s.hp.drainLimit, warmSeen := false, seq := .entryDrain } }

/-- With no job and no commit, BRIDGE_RESET only moves the sequence to ENTRY_DRAIN. -/
theorem commandReset_idle {s : State} (running : s.engine.running = none) (queue : s.engine.queue = [])
    (drain : s.mu.commit.drain = none) : commandReset s = entryDraining s := by
  have same : ({ s with engine.queue := [] } : State) = s := by rw [← queue]
  have jobs : resetJobs s = s := by
    have none : runningJob s.engine = none := by rw [runningJob, running]; rfl
    rw [resetJobs, queue, abortQueued, same, abortRunning, none]
  rw [commandReset, jobs, endCommit_idle drain]
  rfl

/-- In ENTRY_DRAIN with an entry open and the lanes at rest, an event leaves nothing to its close. -/
theorem settle_entryDrain {s : State} {e : Entry} (seq : s.hp.seq = .entryDrain) (table : s.ift.entries = [e])
    (open_ : e.code = none) (phase : e.phase = .issued) (idle : s.mu.commit.drain = none)
    (rest : ∀ n : Lane, (s.lanes.get n).Settled) : settle s = s := by
  have waits : e.unanswered = true := by rw [Entry.unanswered, open_]; rfl
  have phases : refreshPhases s = s := refreshPhases_rest (by simp [table, phase])
  have drain : drainStep s = s := by
    rw [drainStep, if_neg fun c => by simp [allKnown, table, waits] at c]
  have quiesce : quiesceStep s = s := by rw [quiesceStep, if_neg fun c => by simp [seq] at c]
  have hold : holdStep s = s := by rw [holdStep, if_neg fun c => by simp [seq] at c]
  rw [settle_fresh (stale_none idle), grantAll_rest (fun n => (rest n).1), phases, advanceSequence, drain,
    completeQuiesces_rest (fun n => (rest n).2), quiesce, hold, presentResponses_none table waits]

/-- From ENTRY_DRAIN with an empty table, no request and SRST_N deasserted, the whole sequence passes in the event. -/
theorem settle_passes {s : State} (seq : s.hp.seq = .entryDrain) (table : s.ift.entries = [])
    (idle : s.mu.commit.drain = none) (reset : s.srst = false)
    (rest : ∀ n : Lane, (s.lanes.get n).waiting = [] ∧ (s.lanes.get n).outstanding = []) :
    (settle s).hp.seq = .opened ∧ (settle s).hp.warmSeen = false ∧ (settle s).hp.entryTimer = none
    ∧ (settle s).log = takeNotice s.mu.generation (.resetDone s.hp.warmSeen) s.log := by
  have phases : refreshPhases s = s := refreshPhases_rest fun e m => absurd (table ▸ m) List.not_mem_nil
  have drain : drainStep s = leaveEntryDrain s := if_pos ⟨seq, by rw [allKnown, table]; rfl⟩
  have quiet : lanesQuiet (completeQuiesces (leaveEntryDrain s)) = true := by
    rw [lanesQuiet, PerLane.all_iff]
    intro n
    have idle : ∀ p : LanePort, p.waiting = [] ∧ p.outstanding = [] →
        (if p.quiesce.isSome && p.idle then quiesceDone p else p).quiesce.isNone = true := fun p k => by
      rw [idle_iff p |>.mpr k]
      cases q : p.quiesce <;> simp [q, quiesceDone]
    rw [completeQuiesces_lane]
    refine idle _ ?_
    rw [leaveEntryDrain, startQuiesce_lane]
    split
    · exact rest n
    · exact rest n
  have quiesce : quiesceStep (completeQuiesces (leaveEntryDrain s))
      = endSequence (completeQuiesces (leaveEntryDrain s)) := by
    rw [quiesceStep, if_pos ⟨rfl, quiet⟩]
    exact if_neg fun c => by simp [reset, table] at c
  rw [settle_fresh (stale_none idle), grantAll_rest (fun n => (rest n).1), phases, advanceSequence, drain, quiesce]
  exact ⟨rfl, rfl, rfl, rfl⟩

/-- Settles O51: BRIDGE_RESET keeps the table and runs the sequence as far as the event carries it. -/
theorem bridgeResetKeepsTheEntries : Obligations.BridgeResetKeepsTheEntries := by
  intro tag s r
  refine ⟨fun closed => ?_, fun opened => ?_, fun e lone phase running queue => ?_,
    fun quiet reset issued running queue => ?_⟩
  · exact commandFrame_refused r (Nat.zero_le 56)
      ((noPayload_nil _ _).trans (inOpen_resetting (s := s.listening) closed))
  · have kept : Kept s.listening (settle (commandReset s.listening)) := (kept_commandReset _).trans (kept_settle _)
    have jobs := aborted_resetJobs s.listening
    obtain ⟨drain, _, queue, _⟩ := abandoned (resetJobs s.listening)
    obtain ⟨mu, engine, _⟩ := settle_blocks (stale_none (s := commandReset s.listening) drain)
    exact ⟨_, exec_bridgeReset tag r opened, by rw [mu]; exact drain, by rw [engine]; exact queue.trans jobs.queue,
      kept.entries, fun k => ⟨kept.errors k, kept.budgets k⟩, kept.config⟩
  · obtain ⟨power, opened, table, open_, drain, rest⟩ := lone
    rw [exec_bridgeReset tag r opened, commandReset_idle (s := s.listening) running queue drain,
      settle_entryDrain (s := entryDraining s.listening) (e := e) rfl table open_ phase drain rest]
    rfl
  · obtain ⟨power, opened, table, drain, rest⟩ := quiet
    obtain ⟨seq, warm, timer, log⟩ := settle_passes (s := entryDraining s.listening) rfl table drain reset
      fun n => ⟨(rest n).1, issued n⟩
    obtain ⟨mu, engine, health⟩ := settle_blocks (stale_none (s := entryDraining s.listening) drain)
    refine ⟨_, exec_bridgeReset tag r opened, ?_⟩
    rw [commandReset_idle (s := s.listening) running queue drain]
    exact ⟨seq, warm, timer, log, mu, engine, health⟩

end Sys2Proof.Machine

/-! PROOF. The start of queued jobs and the end of a switch: what a job's finish, the next head's start and a switch's
completion leave (R96, R97, R101, R122 to R124). -/

namespace Sys2Proof.Machine

open Sys2Proof

/-! ### Relations between the states of an event -/

/-- No job runs: nothing is locked, and no switch drain is open. -/
structure Idle (s : State) : Prop where
  running : s.engine.running = none
  lock : s.engine.lock = none
  step : s.engine.blockStep = none
  timer : s.engine.switchTimer = none
  span : s.ift.switchSpan = none

/-- What releases and the close of an event leave of the map, the copy engine and the log. -/
structure Trails (s t : State) : Prop where
  mu : t.mu = s.mu
  health : t.health = s.health
  seq : s.hp.seq = .opened → t.hp.seq = .opened
  log : s.hp.seq = .opened → t.log = s.log
  span : t.ift.switchSpan = s.ift.switchSpan
  running : t.engine.running = s.engine.running
  queue : t.engine.queue = s.engine.queue
  jobs : t.engine.jobs = s.engine.jobs
  lock : t.engine.lock = s.engine.lock
  block : t.engine.blockStep.map BlockStep.block = s.engine.blockStep.map BlockStep.block
  timer : t.engine.switchTimer = s.engine.switchTimer

theorem Trails.refl (s : State) : Trails s s := ⟨rfl, rfl, id, fun _ => rfl, rfl, rfl, rfl, rfl, rfl, rfl, rfl⟩

theorem Trails.trans {s t u : State} (h : Trails s t) (k : Trails t u) : Trails s u :=
  ⟨k.mu.trans h.mu, k.health.trans h.health, k.seq ∘ h.seq, fun o => (k.log (h.seq o)).trans (h.log o),
   k.span.trans h.span, k.running.trans h.running, k.queue.trans h.queue, k.jobs.trans h.jobs, k.lock.trans h.lock,
   k.block.trans h.block, k.timer.trans h.timer⟩

theorem Trails.jobOf {s t : State} (k : Trails s t) (h : Nat) : jobOf t.engine h = jobOf s.engine h := by
  rw [Machine.jobOf, Machine.jobOf, k.jobs]

theorem Trails.step {s t : State} (k : Trails s t) (h : s.engine.blockStep = none) : t.engine.blockStep = none := by
  have b := k.block
  rw [h] at b
  cases e : t.engine.blockStep with
  | none => rfl
  | some st => rw [e] at b; cases b

theorem Decoded.trails {s t : State} (k : Decoded s t) (same : Same s t) : Trails s t := by
  have engine := k.engine
  refine ⟨k.mu, k.health, fun o => k.seq.trans o, fun _ => k.log, k.switchSpan, same.engine.running, same.engine.queue,
    ?_, same.engine.lock, same.engine.block, ?_⟩
  · have h := congrArg Engine.jobs engine
    exact h
  · have h := congrArg Engine.switchTimer engine
    exact h

theorem trails_releaseHeld (kind : Hold) (sp : Span) (s : State) : Trails s (releaseHeld kind sp s) :=
  (decoded_releaseHeld kind sp s).trails (same_releaseHeld kind sp s)

theorem settle_seq_opened {s : State} (o : s.hp.seq = .opened) (d : (s.mu.commit.drain.any fun d => d.stale) = false) :
    (settle s).hp.seq = .opened := by
  have drain : drainStep (refreshPhases (grantAll s)) = refreshPhases (grantAll s) :=
    if_neg fun c => by have k : s.hp.seq = .entryDrain := c.1; rw [o] at k; cases k
  rw [settle_fresh d, advanceSequence, drain]
  have quiesce : ∀ t : State, t.hp.seq = .opened → quiesceStep t = t := fun t k => if_neg fun c => by rw [k] at c; cases c.1
  have hold : ∀ t : State, t.hp.seq = .opened → holdStep t = t := fun t k => if_neg fun c => by rw [k] at c; cases c.1
  rw [quiesce _ (by exact o), hold _ (by exact o)]
  exact o

theorem trails_settle {s : State} (h : (s.mu.commit.drain.any fun d => d.stale) = false) : Trails s (settle s) := by
  obtain ⟨mu, engine, health⟩ := settle_blocks h
  exact ⟨mu, health, fun o => settle_seq_opened o h, fun o => (settle_open o h).log, settle_switchSpan h,
    by rw [engine], by rw [engine], by rw [engine], by rw [engine], by rw [engine], by rw [engine]⟩

/-! ### The base of a statement about what follows a job -/

/-- Two states in which the same is said of what follows a job: their sequence, drain limit, entries and lane states are
alike. -/
structure SameBase (s u : State) : Prop where
  seq : u.hp.seq = s.hp.seq
  limit : u.hp.drainLimit = s.hp.drainLimit
  entries : identities u = identities s
  health : u.health = s.health

theorem SameBase.refl (s : State) : SameBase s s := ⟨rfl, rfl, rfl, rfl⟩

theorem SameBase.trans {s t u : State} (h : SameBase s t) (k : SameBase t u) : SameBase s u :=
  ⟨k.seq.trans h.seq, k.limit.trans h.limit, k.entries.trans h.entries, k.health.trans h.health⟩

/-- The slots of the entries that lie in ranges, by what entries keep. -/
theorem counted_identities (ranges : List Range) (entries : List Entry) :
    (entries.filter fun e => inRanges ranges e.line).map Entry.slot
      = ((entries.map Entry.identity).filter fun x => inRanges ranges x.2.2.2).map fun x => x.1 := by
  rw [List.filter_map, List.map_map]
  rfl

theorem any_identities (ranges : List Range) (entries : List Entry) :
    (∃ e ∈ entries, inRanges ranges e.line = true)
      ↔ ∃ x ∈ entries.map Entry.identity, inRanges ranges x.2.2.2 = true := by
  simp [Entry.identity]

theorem none_identities (ranges : List Range) (entries : List Entry) :
    (∀ e ∈ entries, inRanges ranges e.line = false)
      ↔ ∀ x ∈ entries.map Entry.identity, inRanges ranges x.2.2.2 = false := by
  simp [Entry.identity]

/-- What a switch leaves is said alike of a state with the same base, and stays through what trails. -/
theorem EntersSwitch.mono {s u t t' : State} {h : Nat} {j : Job} {m : MapSlot} {d : Descriptor} {queue : List Nat}
    {generation : Count16} {log : FaultLog} {after after' : Count16 → FaultLog → Prop} (base : SameBase s u)
    (trails : Trails t t') (opened : s.hp.seq = .opened → t.hp.seq = .opened)
    (mono : ∀ g l, after g l → after' g l) (k : EntersSwitch u t h j m d queue generation log after) :
    EntersSwitch s t' h j m d queue generation log after' := by
  obtain ⟨opens, ends⟩ := k
  have entries : u.ift.entries.map Entry.identity = s.ift.entries.map Entry.identity := base.entries
  refine ⟨fun busy => ?_, fun free target keptA keptB verify work => ?_⟩
  · obtain ⟨h1, h2, h3, h4, h5, h6, h7, h8, h9, h10⟩ := opens (by rwa [any_identities, entries, ← any_identities])
    rw [counted_identities, entries, ← counted_identities] at h7
    exact ⟨trails.running.trans h1, trails.queue.trans h2, (trails.jobOf h).trans h3, trails.lock.trans h4,
      trails.step h5, trails.timer.trans (base.limit ▸ h6), trails.span.trans h7, by rw [trails.mu, h8],
      by rw [trails.mu, h9], fun o => (trails.log (opened o)).trans (h10 (base.seq.trans o))⟩
  · obtain ⟨lost, retired, done⟩ := ends (by rwa [none_identities, entries, ← none_identities]) target keptA keptB verify work
    rw [base.health] at retired done
    have finish : ∀ {outcome slot g}, (jobOf t.engine h = some { j with life := .finished outcome }
        ∧ t.mu.slots[j.region]? = some slot ∧ after g (takeNotice g (.jobFinished h outcome.kind) log)) →
        jobOf t'.engine h = some { j with life := .finished outcome } ∧ t'.mu.slots[j.region]? = some slot
        ∧ after' g (takeNotice g (.jobFinished h outcome.kind) log) := fun ⟨h1, h2, h3⟩ =>
      ⟨(trails.jobOf h).trans h1, by rw [trails.mu, h2], mono _ _ h3⟩
    exact ⟨fun c => finish (lost c), fun c r => finish (retired c r), fun c r => finish (done c r)⟩

theorem NoneRuns.mono {s u t t' : State} {generation : Count16} {log : FaultLog} (base : SameBase s u)
    (trails : Trails t t') (opened : s.hp.seq = .opened → t.hp.seq = .opened) (k : NoneRuns u t generation log) :
    NoneRuns s t' generation log := by
  obtain ⟨h1, h2, h3, h4, h5, h6, h7, h8⟩ := k
  exact ⟨trails.running.trans h1, trails.queue.trans h2, trails.lock.trans h3, trails.step h4, trails.timer.trans h5,
    trails.span.trans h6, by rw [trails.mu, h7], fun o => (trails.log (opened o)).trans (h8 (base.seq.trans o))⟩

/-- What follows a finished job is said alike of a state with the same base in which the head of the queue, and the slot
of its region when it starts in SWITCH, are the same; and it stays through what trails. -/
theorem NextRuns.mono {s u t t' : State} {queue : List Nat} {generation : Count16} {log : FaultLog}
    (base : SameBase s u) (trails : Trails t t') (opened : s.hp.seq = .opened → t.hp.seq = .opened)
    (head : ∀ k, queue.head? = some k → jobOf u.engine k = jobOf s.engine k)
    (slot : ∀ r, SwitchHead s queue r → u.mu.slots[r]? = s.mu.slots[r]?)
    (k : NextRuns u t queue generation log) : NextRuns s t' queue generation log := by
  cases queue with
  | nil => exact NoneRuns.mono base trails opened k
  | cons q rest =>
    intro i at_
    obtain ⟨plain, switch⟩ := k i ((head q rfl).trans at_)
    refine ⟨fun phase => ?_, fun phase m d hm hd => ?_⟩
    · obtain ⟨h1, h2, h3, h4, h5, h6, h7⟩ := plain phase
      exact ⟨trails.running.trans h1, trails.queue.trans h2, (trails.jobOf q).trans h3, trails.timer.trans h4,
        trails.span.trans h5, by rw [trails.mu, h6], fun o => (trails.log (opened o)).trans (h7 (base.seq.trans o))⟩
    · exact EntersSwitch.mono base trails opened (fun g l => NoneRuns.mono base trails opened)
        (switch phase m d ((slot i.region ⟨q, i, rfl, at_, rfl, phase⟩).trans hm) hd)

/-! ### A running job finishes -/

/-- What the finish of the running job leaves (R101): its slot FINISHED, no job running, its region's job field clear. -/
def finished (h : Nat) (j : Job) (outcome : JobOutcome) (s : State) : State := { s with
  engine := { s.engine with
    jobs := s.engine.jobs.set h (some { j with life := .finished outcome })
    running := none, lock := none, blockStep := none, stopping := false, switchTimer := none }
  mu.slots := clearedSlots j.region h s.mu.slots
  log := takeNotice s.mu.generation (.jobFinished h outcome.kind) s.log }

theorem finishJob_running {h : Nat} {j : Job} {s : State} (runs : runningJob s.engine = some (h, j))
    (outcome : JobOutcome) : finishJob h outcome s = finished h j outcome s := by
  obtain ⟨running, at_⟩ := runningJob_eq.mp runs
  rw [finishJob_eq at_, Engine.release, if_pos running]
  rfl

theorem jobOf_setAt {e : Engine} {h : Nat} {j : Job} (at_ : jobOf e h = some j) (x : Option Job) (n : Nat) :
    jobOf { e with jobs := e.jobs.set h x } n = if n = h then x else jobOf e n := by
  rw [jobOf_set]
  by_cases k : n = h
  · rw [if_pos ⟨k, jobOf_lt at_⟩, if_pos k]
  · rw [if_neg fun c => k c.1, if_neg k]

theorem finished_job {h : Nat} {j : Job} {s : State} (runs : runningJob s.engine = some (h, j)) (outcome : JobOutcome)
    (n : Nat) : jobOf (finished h j outcome s).engine n
      = if n = h then some { j with life := .finished outcome } else jobOf s.engine n :=
  jobOf_setAt (e := s.engine) (runningJob_eq.mp runs).2 _ n

theorem finished_slot (h : Nat) (j : Job) (outcome : JobOutcome) (s : State) (i : Nat) :
    (finished h j outcome s).mu.slots[i]? =
      if i = j.region then (s.mu.slots[i]?).map (fun m => { m with desc := m.desc.map (Descriptor.leaves h) })
      else s.mu.slots[i]? := clearedSlots_get j.region h s.mu.slots i

theorem finished_keeps (h : Nat) (j : Job) (outcome : JobOutcome) (s : State) :
    KeepsMap s (finished h j outcome s) fun _ => False := fun i _ => by
  obtain ⟨body, revision, _⟩ := clearedSlots_keeps j.region h s.mu.slots i
  exact ⟨body, revision⟩

theorem finished_base (h : Nat) (j : Job) (outcome : JobOutcome) (s : State) : SameBase s (finished h j outcome s) :=
  ⟨rfl, rfl, rfl, rfl⟩

theorem finished_idle (h : Nat) (j : Job) (outcome : JobOutcome) {s : State} (span : s.ift.switchSpan = none) :
    Idle (finished h j outcome s) := ⟨rfl, rfl, rfl, rfl, span⟩

theorem leaves_eq (h : Nat) (d : Descriptor) :
    d.leaves h = { d with job := if d.job = some h then none else d.job } := by
  unfold Descriptor.leaves
  by_cases k : d.job = some h
  · rw [if_pos k, if_pos k]
  · rw [if_neg k, if_neg k]

/-! ### Start checks -/

theorem startCheck_congr {i : Job} {s u : State} (health : u.health = s.health)
    (body : (descOf u.mu.slots i.region).map Descriptor.body = (descOf s.mu.slots i.region).map Descriptor.body) :
    startCheck i u = startCheck i s := by
  unfold startCheck
  rw [health]
  cases hu : descOf u.mu.slots i.region with
  | none =>
    cases hs : descOf s.mu.slots i.region with
    | none => rfl
    | some d => rw [hu, hs] at body; cases body
  | some d =>
    cases hs : descOf s.mu.slots i.region with
    | none => rw [hu, hs] at body; cases body
    | some d' =>
      rw [hu, hs] at body
      have same : d.body = d'.body := Option.some.inj body
      cases i.work <;> simp only [same]

/-- A job that starts in SWITCH is a relocation of a region that is valid. -/
theorem startCheck_switch {i : Job} {s : State} (check : startCheck i s = none) (phase : firstPhase i.work = .switch) :
    (∃ m d, s.mu.slots[i.region]? = some m ∧ m.desc = some d)
    ∧ ∃ target keptA keptB verify, i.work = .relocate target keptA keptB verify := by
  cases work : i.work with
  | audit repair a b => rw [work] at phase; cases phase
  | relocate target keptA keptB verify =>
    refine ⟨?_, target, keptA, keptB, verify, rfl⟩
    unfold startCheck at check
    rw [work] at check
    cases slot : s.mu.slots[i.region]? with
    | none => rw [descOf, slot] at check; cases check
    | some m =>
      cases desc : m.desc with
      | none => rw [descOf, slot, Option.bind_some, desc] at check; cases check
      | some d => exact ⟨m, d, rfl, desc⟩

/-! ### Completion of a switch drain (R18, R123) -/

/-- The map unit's answer to a switch request, by its first failing test (R18). -/
theorem switchInstall_cases {work : JobWork} {region : Nat} {s : State} {m : MapSlot} {d : Descriptor}
    (slot : s.mu.slots[region]? = some m) (desc : m.desc = some d) {target : Target} {keptA keptB verify : Bool}
    (relocates : work = .relocate target keptA keptB verify) :
    let kept := ∀ leg ∈ work.kept, leg ∈ d.body.legs
    let retired := target.legB ≠ none ∧ ∃ leg ∈ target.legs, (s.health.lanes.get leg.lane).state = .retired
    (¬kept → switchInstall work region s = (.failed .targetLegLost none, s))
    ∧ (kept → retired → switchInstall work region s = (.failed .targetRetired none, s))
    ∧ (kept → ¬retired → switchInstall work region s = (.done, { s with
        mu.slots := s.mu.slots.set region
          { desc := some { d with
              body := { d.body with legA := target.legA, legB := target.legB, pref := target.pref }, degraded := false }
            revision := m.revision + 1 }
        mu.generation := s.mu.generation + 1 })) := by
  subst relocates
  intro kept retired
  have lost : ((JobWork.relocate target keptA keptB verify).kept.any fun leg => !d.body.legs.contains leg) = true ↔ ¬kept := by
    simp [kept]
  have out : (target.legB.isSome && target.legs.any fun leg => (s.health.lanes.get leg.lane).state == .retired) = true
      ↔ retired := by
    simp [retired, Option.isSome_iff_ne_none]
  unfold switchInstall
  rw [slot]
  dsimp only
  rw [desc]
  dsimp only
  refine ⟨fun k => if_pos (lost.mpr k), fun k r => ?_, fun k r => ?_⟩
  · rw [if_neg fun c => lost.mp c k, if_pos (out.mpr r)]
  · rw [if_neg fun c => lost.mp c k, if_neg (mt out.mp r)]

/-- A job in SWITCH whose drain has just opened (R122): nothing is locked, the span counts the entries of its region's
host range, and the timer runs at the drain limit. -/
structure Switching (w : State) (h : Nat) (j : Job) (m : MapSlot) (d : Descriptor) : Prop where
  runs : runningJob w.engine = some (h, j)
  lock : w.engine.lock = none
  step : w.engine.blockStep = none
  timer : w.engine.switchTimer = some w.hp.drainLimit
  span : w.ift.switchSpan = some (openSpan [d.body.range] w.ift.entries)
  slot : w.mu.slots[j.region]? = some m
  desc : m.desc = some d

theorem openSpan_empty (ranges : List Range) (entries : List Entry) :
    (openSpan ranges entries).counted.isEmpty = true ↔ ∀ e ∈ entries, inRanges ranges e.line = false := by
  simp [openSpan]

/-- The map unit's answer to a switch request leaves everything but the map. -/
theorem switchInstall_rest (work : JobWork) (region : Nat) (s : State) :
    (switchInstall work region s).2 = { s with mu := { s.mu with
      slots := (switchInstall work region s).2.mu.slots, generation := (switchInstall work region s).2.mu.generation } }
    ∧ ∀ i, i ≠ region → (switchInstall work region s).2.mu.slots[i]? = s.mu.slots[i]? := by
  unfold switchInstall
  split
  · split
    · exact ⟨rfl, fun _ _ => rfl⟩
    · split
      · exact ⟨rfl, fun _ _ => rfl⟩
      · split
        · exact ⟨rfl, fun _ _ => rfl⟩
        · exact ⟨rfl, fun i k => List.getElem?_set_ne k.symm⟩
  · exact ⟨rfl, fun _ _ => rfl⟩

/-- The state in which a switch has been decided, its span closed and its job finished. -/
def switchFinished (h : Nat) (j : Job) (w : State) : State :=
  finished h j (switchInstall j.work j.region w).1 { (switchInstall j.work j.region w).2 with ift.switchSpan := none }

/-- What the decision of a switch and its job's finish leave alone: everything but the job, its region's slot, the
generation and the log. -/
structure Decides (w f : State) (h region : Nat) : Prop where
  base : SameBase w f
  idle : Idle f
  queue : f.engine.queue = w.engine.queue
  jobs : ∀ n, n ≠ h → jobOf f.engine n = jobOf w.engine n
  slots : ∀ i, i ≠ region → f.mu.slots[i]? = w.mu.slots[i]?
  commit : f.mu.commit = w.mu.commit

theorem switchFinished_decides {h : Nat} {j : Job} {w : State} (runs : runningJob w.engine = some (h, j)) :
    Decides w (switchFinished h j w) h j.region := by
  obtain ⟨same, others⟩ := switchInstall_rest j.work j.region w
  have engine : (switchInstall j.work j.region w).2.engine = w.engine := by rw [same]
  have runs' : runningJob { (switchInstall j.work j.region w).2 with ift.switchSpan := none }.engine = some (h, j) := by
    rw [← runs, ← engine]
  unfold switchFinished
  refine ⟨?_, finished_idle _ _ _ rfl, ?_, fun n k => ?_, fun i k => ?_, ?_⟩
  · refine SameBase.trans ?_ (finished_base _ _ _ _)
    rw [same]
    exact ⟨rfl, rfl, rfl, rfl⟩
  · show (switchInstall j.work j.region w).2.engine.queue = _
    rw [engine]
  · rw [finished_job runs', if_neg k]
    show jobOf (switchInstall j.work j.region w).2.engine n = _
    rw [engine]
  · rw [finished_slot, if_neg k]
    exact others i k
  · show (switchInstall j.work j.region w).2.mu.commit = _
    rw [same]

/-- What a job leaves as it enters SWITCH, its completion taken in the event when nothing is counted: `t` is the state
with the drain open, or one that trails the finish and what follows it. -/
theorem entersSwitch_of {w t : State} {h : Nat} {j : Job} {m : MapSlot} {d : Descriptor}
    {after : Count16 → FaultLog → Prop} (k : Switching w h j m d)
    (opens : (∃ e ∈ w.ift.entries, inRanges [d.body.range] e.line = true) → t = w)
    (ends : (∀ e ∈ w.ift.entries, inRanges [d.body.range] e.line = false) →
      jobOf t.engine h = jobOf (switchFinished h j w).engine h
      ∧ t.mu.slots[j.region]? = (switchFinished h j w).mu.slots[j.region]?
      ∧ after (switchFinished h j w).mu.generation (switchFinished h j w).log) :
    EntersSwitch w t h j m d w.engine.queue w.mu.generation w.log after := by
  obtain ⟨runs, lock, step, timer, span, slot, desc⟩ := k
  obtain ⟨running, at_⟩ := runningJob_eq.mp runs
  refine ⟨fun busy => ?_, fun free target keptA keptB verify work => ?_⟩
  · rw [opens busy]
    exact ⟨running, rfl, at_, lock, step, timer, span, slot, rfl, fun _ => rfl⟩
  · obtain ⟨lost, retired, done⟩ := switchInstall_cases slot desc work
    obtain ⟨job, slotAfter, follows⟩ := ends free
    have finish : ∀ {outcome : JobOutcome} {v : State} {x : MapSlot}, switchInstall j.work j.region w = (outcome, v) →
        v.engine = w.engine → v.log = w.log → (v.mu.slots[j.region]?).map (fun m =>
          { m with desc := m.desc.map (Descriptor.leaves h) }) = some x →
        jobOf t.engine h = some { j with life := .finished outcome } ∧ t.mu.slots[j.region]? = some x
        ∧ after v.mu.generation (takeNotice v.mu.generation (.jobFinished h outcome.kind) w.log) := by
      intro outcome v x decided engine log slot'
      have is : switchFinished h j w = finished h j outcome { v with ift.switchSpan := none } := by
        rw [switchFinished, decided]
      rw [is] at job slotAfter follows
      have runs' : runningJob { v with ift.switchSpan := none }.engine = some (h, j) := by rw [← runs, ← engine]
      refine ⟨by rw [job, finished_job runs', if_pos rfl], ?_, ?_⟩
      · rw [slotAfter, finished_slot, if_pos rfl]
        exact slot'
      · rw [← log]
        exact follows
    have lt : j.region < w.mu.slots.length := List.getElem?_eq_some_iff.mp slot |>.1
    refine ⟨fun c => finish (lost c) rfl rfl ?_, fun c r => finish (retired c r) rfl rfl ?_,
      fun c r => finish (done c r) rfl rfl ?_⟩
    · rw [slot, Option.map_some, desc, Option.map_some, leaves_eq]
    · rw [slot, Option.map_some, desc, Option.map_some, leaves_eq]
    · rw [List.getElem?_set_self lt, Option.map_some, Option.map_some, leaves_eq]

/-! ### The start of the queue's head (R96, R97) -/

/-- A job's record as it starts (R97). -/
def Job.firstRecord (i : Job) : Job := { i with life := .running none, phase := some (firstPhase i.work), cursor := 0 }

theorem firstPhase_cases (w : JobWork) : firstPhase w = .switch ∨ firstPhase w = .copy ∨ firstPhase w = .scan := by
  cases w with
  | audit _ _ _ => exact .inr (.inr rfl)
  | relocate target keptA keptB verify =>
    unfold firstPhase
    dsimp only
    split
    · exact .inl rfl
    · exact .inr (.inl rfl)

theorem firstRecord_switch {i : Job} (h : firstPhase i.work = .switch) :
    { i.firstRecord with phase := some .switch } = i.firstRecord := by
  rw [Job.firstRecord, h]

/-- The state in which the queue's head has become RUNNING (R96, R97). -/
def headStarted (k : Nat) (i : Job) (rest : List Nat) (u : State) : State := { u with engine := { u.engine with
  queue := rest, running := some k, stopping := false, jobs := u.engine.jobs.set k (some i.firstRecord) } }

/-- The state in which the running job has entered SWITCH, its drain open (R122). -/
def switchOpened (h : Nat) (j : Job) (d : Descriptor) (s : State) : State := { s with
  ift.switchSpan := some (openSpan [d.body.range] s.ift.entries)
  engine := { s.engine with
    switchTimer := some s.hp.drainLimit, jobs := s.engine.jobs.set h (some { j with phase := some .switch }) } }

theorem openSwitch_eq {h : Nat} {j : Job} {d : Descriptor} {s : State} (runs : runningJob s.engine = some (h, j))
    (desc : descOf s.mu.slots j.region = some d) : openSwitch s = switchOpened h j d s := by
  rw [openSwitch, runs]
  dsimp only
  rw [desc]
  rfl

theorem switchOpened_runs {h : Nat} {j : Job} {s : State} (runs : runningJob s.engine = some (h, j)) (d : Descriptor) :
    runningJob (switchOpened h j d s).engine = some (h, { j with phase := some .switch }) := by
  obtain ⟨running, at_⟩ := runningJob_eq.mp runs
  exact runningJob_eq.mpr ⟨running, (jobOf_setAt (e := s.engine) at_ _ h).trans (if_pos rfl)⟩

theorem switchOpened_switching {h : Nat} {j : Job} {m : MapSlot} {d : Descriptor} {s : State}
    (runs : runningJob s.engine = some (h, j)) (lock : s.engine.lock = none) (step : s.engine.blockStep = none)
    (slot : s.mu.slots[j.region]? = some m) (desc : m.desc = some d) :
    Switching (switchOpened h j d s) h { j with phase := some .switch } m d :=
  ⟨switchOpened_runs runs d, lock, step, rfl, rfl, slot, desc⟩

theorem startQueue_empty (n : Nat) {s : State} (h : s.engine.queue = []) : startQueue n s = s := by
  cases n with
  | zero => rfl
  | succ n =>
    rw [startQueue, h]
    cases s.engine.running <;> rfl

/-- A head that passes its start checks runs: in COPY or SCAN it begins its first block step; in SWITCH its drain opens,
and it completes in the event when nothing is counted. -/
theorem startQueue_head {n k : Nat} {rest : List Nat} {i : Job} {u : State} (running : u.engine.running = none)
    (queue : u.engine.queue = k :: rest) (at_ : jobOf u.engine k = some i) (check : startCheck i u = none) :
    (firstPhase i.work ≠ .switch → startQueue (n + 1) u = beginStep (headStarted k i rest u))
    ∧ (firstPhase i.work = .switch → ∀ d, descOf u.mu.slots i.region = some d →
      let w := switchOpened k i.firstRecord d (headStarted k i rest u)
      let sp := openSpan [d.body.range] u.ift.entries
      startQueue (n + 1) u = if sp.counted.isEmpty then
        releaseHeld .switch sp (startQueue n (switchFinished k i.firstRecord w)) else w) := by
  have enters : startQueue (n + 1) u =
      match firstPhase i.work with
      | .copy => beginStep (headStarted k i rest u)
      | .scan => beginStep (headStarted k i rest u)
      | .verify => headStarted k i rest u
      | .switch =>
        match (openSwitch (headStarted k i rest u)).ift.switchSpan with
        | none => openSwitch (headStarted k i rest u)
        | some sp =>
          if sp.counted.isEmpty then
            releaseHeld .switch sp (startQueue n (finishJob k
              (switchInstall i.work i.region (openSwitch (headStarted k i rest u))).1
              { (switchInstall i.work i.region (openSwitch (headStarted k i rest u))).2 with ift.switchSpan := none }))
          else openSwitch (headStarted k i rest u) := by
    have job : jobOf { u.engine with queue := rest } k = some i := at_
    have passes : startCheck i { u with engine.queue := rest } = none := check
    rw [startQueue, running, queue]
    dsimp only
    rw [job]
    dsimp only
    rw [passes]
    rfl
  have runs : runningJob (headStarted k i rest u).engine = some (k, i.firstRecord) :=
    runningJob_eq.mpr ⟨rfl, (jobOf_setAt (e := u.engine) at_ _ k).trans (if_pos rfl)⟩
  refine ⟨fun phase => ?_, fun phase d desc => ?_⟩
  · rw [enters]
    rcases firstPhase_cases i.work with first | first | first
    · exact absurd first phase
    · rw [first]
    · rw [first]
  · intro w sp
    have opened : openSwitch (headStarted k i rest u) = w := openSwitch_eq runs desc
    rw [enters, phase]
    dsimp only
    rw [opened]
    show (if sp.counted.isEmpty then _ else _) = _
    have runsW : runningJob w.engine = some (k, i.firstRecord) :=
      (switchOpened_runs runs d).trans (by rw [firstRecord_switch phase])
    have fin : finishJob k (switchInstall i.work i.region w).1
        { (switchInstall i.work i.region w).2 with ift.switchSpan := none } = switchFinished k i.firstRecord w := by
      refine finishJob_running (j := i.firstRecord) ?_ _
      rw [← runsW]
      exact congrArg runningJob (by rw [(switchInstall_rest _ _ _).1])
    rw [fin]
    rfl

/-- What the start of the queue's head leaves: it has left the queue and runs, or nothing runs; no other job and no other
slot of the map has changed. -/
structure Starts (u t : State) : Prop where
  next : NextRuns u t u.engine.queue u.mu.generation u.log
  jobs : ∀ n, u.engine.queue.head? ≠ some n → jobOf t.engine n = jobOf u.engine n
  slots : ∀ r, ¬SwitchHead u u.engine.queue r → t.mu.slots[r]? = u.mu.slots[r]?
  commit : t.mu.commit = u.mu.commit
  seq : t.hp.seq = u.hp.seq

theorem starts_refl {u : State} (idle : Idle u) (queue : u.engine.queue = []) : Starts u u := by
  refine ⟨?_, fun _ _ => rfl, fun _ _ => rfl, rfl, rfl⟩
  rw [queue]
  exact ⟨idle.running, queue, idle.lock, idle.step, idle.timer, idle.span, rfl, fun _ => rfl⟩

theorem Starts.trails {u t t' : State} (k : Starts u t) (h : Trails t t') (seq : t'.hp.seq = t.hp.seq) : Starts u t' :=
  ⟨k.next.mono (SameBase.refl u) h (fun o => k.seq.trans o) (fun _ _ => rfl) fun _ _ => rfl,
   fun n c => (h.jobOf n).trans (k.jobs n c), fun r c => by rw [h.mu]; exact k.slots r c, by rw [h.mu, k.commit],
   seq.trans k.seq⟩

/-- A head that starts in COPY or SCAN. -/
theorem starts_plain {k : Nat} {rest : List Nat} {i : Job} {u : State} (idle : Idle u)
    (queue : u.engine.queue = k :: rest) (at_ : jobOf u.engine k = some i) (phase : firstPhase i.work ≠ .switch) :
    Starts u (beginStep (headStarted k i rest u)) := by
  have begun := decoded_beginStep (headStarted k i rest u)
  have engine := begun.engine
  have running : (beginStep (headStarted k i rest u)).engine.running = some k := by
    have h := congrArg Engine.running engine
    exact h
  have queued : (beginStep (headStarted k i rest u)).engine.queue = rest := by
    have h := congrArg Engine.queue engine
    exact h
  have jobs : (beginStep (headStarted k i rest u)).engine.jobs = u.engine.jobs.set k (some i.firstRecord) := by
    have h := congrArg Engine.jobs engine
    exact h
  have timer : (beginStep (headStarted k i rest u)).engine.switchTimer = u.engine.switchTimer := by
    have h := congrArg Engine.switchTimer engine
    exact h
  have job : ∀ n, jobOf (beginStep (headStarted k i rest u)).engine n
      = if n = k then some i.firstRecord else jobOf u.engine n := fun n => by
    rw [← jobOf_setAt (e := u.engine) at_, jobOf, jobs]
    rfl
  refine ⟨?_, fun n c => ?_, fun r _ => by rw [begun.mu]; rfl, by rw [begun.mu]; rfl, begun.seq⟩
  · rw [queue]
    intro x hx
    obtain rfl : i = x := Option.some.inj (at_.symm.trans hx)
    refine ⟨fun _ => ⟨running, queued, (job k).trans (if_pos rfl), timer.trans idle.timer,
      begun.switchSpan.trans idle.span, by rw [begun.mu]; rfl, fun _ => begun.log⟩, fun c => absurd c phase⟩
  · rw [job, if_neg fun e => c (by rw [queue, e]; rfl)]

/-- A head that starts in SWITCH, with an entry in its region's host range or nothing behind it. -/
theorem starts_switch {k : Nat} {rest : List Nat} {i : Job} {u t : State} {m : MapSlot} {d : Descriptor}
    (lock : u.engine.lock = none) (step : u.engine.blockStep = none) (queue : u.engine.queue = k :: rest) (at_ : jobOf u.engine k = some i) (phase : firstPhase i.work = .switch)
    (slot : u.mu.slots[i.region]? = some m) (desc : m.desc = some d)
    (opens : (∃ e ∈ u.ift.entries, inRanges [d.body.range] e.line = true) →
      t = switchOpened k i.firstRecord d (headStarted k i rest u))
    (ends : (∀ e ∈ u.ift.entries, inRanges [d.body.range] e.line = false) → rest = []
      ∧ Trails (switchFinished k i.firstRecord (switchOpened k i.firstRecord d (headStarted k i rest u))) t
      ∧ t.hp.seq = u.hp.seq) : Starts u t := by
  have runs : runningJob (headStarted k i rest u).engine = some (k, i.firstRecord) :=
    runningJob_eq.mpr ⟨rfl, (jobOf_setAt (e := u.engine) at_ _ k).trans (if_pos rfl)⟩
  have switching := switchOpened_switching (s := headStarted k i rest u) runs lock step slot desc
  rw [firstRecord_switch phase] at switching
  have decides := switchFinished_decides switching.runs
  have opened : ∀ n, n ≠ k → jobOf (switchOpened k i.firstRecord d (headStarted k i rest u)).engine n = jobOf u.engine n :=
    fun n c => (jobOf_setAt (e := (headStarted k i rest u).engine) (runningJob_eq.mp runs).2 _ n).trans
      ((if_neg c).trans ((jobOf_setAt (e := u.engine) at_ _ n).trans (if_neg c)))
  have base : SameBase u (switchOpened k i.firstRecord d (headStarted k i rest u)) := ⟨rfl, rfl, rfl, rfl⟩
  by_cases busy : ∃ e ∈ u.ift.entries, inRanges [d.body.range] e.line = true
  · rw [opens busy]
    refine ⟨?_, fun n c => opened n fun e => c (by rw [queue, e]; rfl), fun _ _ => rfl, rfl, rfl⟩
    rw [queue]
    intro x hx
    obtain rfl : i = x := Option.some.inj (at_.symm.trans hx)
    refine ⟨fun c => absurd phase c, fun _ m' d' hm hd => ?_⟩
    obtain rfl : m = m' := Option.some.inj (slot.symm.trans hm)
    obtain rfl : d = d' := Option.some.inj (desc.symm.trans hd)
    refine EntersSwitch.mono (after := fun _ _ => False) base (Trails.refl _) id (fun _ _ => False.elim) ?_
    exact entersSwitch_of switching (fun _ => rfl) fun free => by
      obtain ⟨e, he, c⟩ := busy
      exact absurd c (by rw [free e he]; decide)
  · have free : ∀ e ∈ u.ift.entries, inRanges [d.body.range] e.line = false := fun e he =>
      Bool.eq_false_iff.mpr fun c => busy ⟨e, he, c⟩
    obtain ⟨last, trails, seq⟩ := ends free
    refine ⟨?_, fun n c => ?_, fun r c => ?_, by rw [trails.mu, decides.commit]; rfl, seq⟩
    · rw [queue]
      intro x hx
      obtain rfl : i = x := Option.some.inj (at_.symm.trans hx)
      refine ⟨fun c => absurd phase c, fun _ m' d' hm hd => ?_⟩
      obtain rfl : m = m' := Option.some.inj (slot.symm.trans hm)
      obtain rfl : d = d' := Option.some.inj (desc.symm.trans hd)
      refine EntersSwitch.mono (after := NoneRuns u t) base (Trails.refl t) (fun o => seq.trans o) (fun _ _ => id) ?_
      refine entersSwitch_of switching (fun c => absurd c busy) fun _ => ⟨trails.jobOf k, by rw [trails.mu]; rfl, ?_⟩
      have idle' := decides.idle
      refine NoneRuns.mono (base.trans decides.base) trails (fun o => decides.base.seq.trans o) ?_
      exact ⟨idle'.running, decides.queue.trans last, idle'.lock, idle'.step, idle'.timer, idle'.span, rfl, fun _ => rfl⟩
    · have other : n ≠ k := fun e => c (by rw [queue, e]; rfl)
      rw [trails.jobOf, decides.jobs n other, opened n other]
    · have other : r ≠ i.region := fun e => c ⟨k, i, by rw [queue]; rfl, at_, e.symm, phase⟩
      rw [trails.mu, decides.slots r other]
      rfl

/-- A head that starts in SWITCH with nothing locked, no job running. -/
theorem startNext_switch {k : Nat} {rest : List Nat} {i : Job} {u : State} {m : MapSlot} {d : Descriptor}
    (running : u.engine.running = none) (lock : u.engine.lock = none) (step : u.engine.blockStep = none)
    (queue : u.engine.queue = k :: rest) (at_ : jobOf u.engine k = some i) (check : startCheck i u = none)
    (phase : firstPhase i.work = .switch) (slot : u.mu.slots[i.region]? = some m) (desc : m.desc = some d)
    (last : rest = [] ∨ ∃ e ∈ u.ift.entries, inRanges [d.body.range] e.line = true) : Starts u (startNext u) := by
  have opens := (startQueue_head (n := rest.length) running queue at_ check).2 phase d (descOf_of_slot slot desc)
  have is : startNext u = startQueue (rest.length + 1) u := by rw [startNext, queue]; rfl
  rw [is]
  refine starts_switch lock step queue at_ phase slot desc (fun busy => ?_) fun free => ?_
  · rw [opens, if_neg fun c => ?_]
    obtain ⟨e, he, k⟩ := busy
    rw [(openSpan_empty _ _).mp c e he] at k
    cases k
  · have last : rest = [] := by
      rcases last with h | ⟨e, he, k⟩
      · exact h
      · rw [free e he] at k
        cases k
    have runs : runningJob (headStarted k i rest u).engine = some (k, i.firstRecord) :=
      runningJob_eq.mpr ⟨rfl, (jobOf_setAt (e := u.engine) at_ _ k).trans (if_pos rfl)⟩
    have runsW := (switchOpened_runs runs d).trans (by rw [firstRecord_switch phase])
    have decides := switchFinished_decides runsW
    rw [opens, if_pos ((openSpan_empty _ _).mpr free), startQueue_empty _ (decides.queue.trans last)]
    exact ⟨last, trails_releaseHeld _ _ _, (decoded_releaseHeld _ _ _).seq.trans decides.base.seq⟩

/-- The queue's head, when it passes its start checks, starts (R96). -/
theorem startNext_starts {u : State} (idle : Idle u) (ready : QueueReady u u.engine.queue [] []) :
    Starts u (startNext u) := by
  rcases ready with queue | ⟨k, i, rest, queue, _, at_, check, switch⟩
  · rw [startNext_empty queue]
    exact starts_refl idle queue
  · by_cases phase : firstPhase i.work = .switch
    · obtain ⟨⟨m, d, slot, desc⟩, _⟩ := startCheck_switch check phase
      exact startNext_switch idle.running idle.lock idle.step queue at_ check phase slot desc
        ((switch phase).2 d (descOf_of_slot slot desc))
    · have is : startNext u = startQueue (rest.length + 1) u := by rw [startNext, queue]; rfl
      rw [is, (startQueue_head (n := rest.length) idle.running queue at_ check).1 phase]
      exact starts_plain idle queue at_ phase

/-! ### A finished job and the next head (R101 step 6) -/

/-- The queue stays ready in a state in which its jobs, the lane states, the entries and the body of its head's region are
the same. -/
theorem QueueReady.mono {s u : State} {queue gone regions gone' regions' : List Nat} (base : SameBase s u)
    (jobs : ∀ k, k ∉ gone → jobOf u.engine k = jobOf s.engine k)
    (body : ∀ k i, queue.head? = some k → jobOf s.engine k = some i →
      (descOf u.mu.slots i.region).map Descriptor.body = (descOf s.mu.slots i.region).map Descriptor.body)
    (ready : QueueReady s queue gone regions) (fewer : gone' ⊆ gone) (within : regions' ⊆ regions) :
    QueueReady u queue gone' regions' := by
  rcases ready with empty | ⟨k, i, rest, queue, notGone, at_, check, switch⟩
  · exact .inl empty
  · have same := body k i (by rw [queue]; rfl) at_
    refine .inr ⟨k, i, rest, queue, fun c => notGone (fewer c), (jobs k notGone).trans at_,
      (startCheck_congr base.health same).trans check, fun phase => ⟨fun c => (switch phase).1 (within c), fun d hd => ?_⟩⟩
    obtain ⟨_, busy⟩ := switch phase
    rw [hd] at same
    cases hs : descOf s.mu.slots i.region with
    | none => rw [hs] at same; cases same
    | some d' =>
      rw [hs] at same
      have range : d.body = d'.body := Option.some.inj same
      have entries : u.ift.entries.map Entry.identity = s.ift.entries.map Entry.identity := base.entries
      rw [range, any_identities, entries, ← any_identities]
      exact busy d' hs

theorem QueueReady.head {s : State} {queue gone regions : List Nat} (ready : QueueReady s queue gone regions) {n : Nat}
    (h : queue.head? = some n) : n ∉ gone := by
  rcases ready with empty | ⟨k, _, _, queue, notGone, _⟩
  · rw [empty] at h; cases h
  · rw [queue] at h
    obtain rfl : k = n := Option.some.inj h
    exact notGone

theorem QueueReady.away {s : State} {queue gone regions : List Nat} (ready : QueueReady s queue gone regions) {r : Nat}
    (h : SwitchHead s queue r) : r ∉ regions := by
  obtain ⟨n, i, head, at_, region, phase⟩ := h
  rcases ready with empty | ⟨k, i', _, queue, _, at', _, switch⟩
  · rw [empty] at head; cases head
  · rw [queue] at head
    obtain rfl : k = n := Option.some.inj head
    obtain rfl : i' = i := Option.some.inj (at'.symm.trans at_)
    exact region ▸ (switch phase).1

/-- A switch ends with a job finished, its span closed, and the next head started before the span's entries go on. -/
theorem endSwitch_eq {h : Nat} {j : Job} {sp : Span} {s : State} (runs : runningJob s.engine = some (h, j))
    (span : s.ift.switchSpan = some sp) (outcome : JobOutcome) : endSwitch outcome s
      = releaseHeld .switch sp (startNext (finished h j outcome { s with ift.switchSpan := none })) := by
  have fin := finishJob_running (s := { s with ift.switchSpan := none }) runs outcome
  rw [endSwitch, runs, span]
  dsimp only
  rw [fin]

/-- What a finished job `h` and the start of the next head leave, once the event has closed. `u` is the state in which the
job has finished. -/
structure Ended (s u t : State) (h : Nat) (j : Job) (outcome : JobOutcome) (generation : Count16) (log : FaultLog) : Prop where
  job : jobOf t.engine h = some { j with life := .finished outcome }
  next : NextRuns s t s.engine.queue generation (takeNotice generation (.jobFinished h outcome.kind) log)
  slots : ∀ r, ¬SwitchHead s s.engine.queue r → t.mu.slots[r]? = u.mu.slots[r]?

/-- The running job of a state `v`, with the base of `s`, finishes, and the next head starts. -/
theorem ended_of {s v t : State} {h : Nat} {j : Job} (outcome : JobOutcome) (base : SameBase s v)
    (runs : runningJob v.engine = some (h, j)) (span : v.ift.switchSpan = none) (queue : v.engine.queue = s.engine.queue)
    (jobs : ∀ n, n ≠ h → jobOf v.engine n = jobOf s.engine n)
    (slots : ∀ r, r ≠ j.region → v.mu.slots[r]? = s.mu.slots[r]?)
    (body : ∀ k i, s.engine.queue.head? = some k → jobOf s.engine k = some i →
      (descOf v.mu.slots i.region).map Descriptor.body = (descOf s.mu.slots i.region).map Descriptor.body)
    (ready : QueueReady s s.engine.queue [h] [j.region])
    (trails : (startNext (finished h j outcome v)).mu.commit = v.mu.commit →
      Trails (startNext (finished h j outcome v)) t) :
    Ended s (finished h j outcome v) t h j outcome v.mu.generation v.log := by
  have baseU : SameBase s (finished h j outcome v) := base.trans (finished_base _ _ _ _)
  have jobsU : ∀ n, n ≠ h → jobOf (finished h j outcome v).engine n = jobOf s.engine n := fun n c => by
    rw [finished_job runs, if_neg c, jobs n c]
  have readyU : QueueReady (finished h j outcome v) (finished h j outcome v).engine.queue [] [] := by
    show QueueReady _ v.engine.queue [] []
    rw [queue]
    exact ready.mono baseU (fun k c => jobsU k (by simpa using c)) (fun k i head at_ =>
      ((finished_keeps h j outcome v) i.region id).1.trans (body k i head at_))
      (List.nil_subset _) (List.nil_subset _)
  have starts := startNext_starts (finished_idle h j outcome span) readyU
  have head : ∀ k, s.engine.queue.head? = some k → k ≠ h := fun k c => by simpa using ready.head c
  have away : ∀ r, SwitchHead s s.engine.queue r → r ≠ j.region := fun r c => by simpa using ready.away c
  have slotU : ∀ r, r ≠ j.region → (finished h j outcome v).mu.slots[r]? = s.mu.slots[r]? := fun r c => by
    rw [finished_slot, if_neg c, slots r c]
  have queueU : (finished h j outcome v).engine.queue = s.engine.queue := queue
  have switchU : ∀ r, SwitchHead (finished h j outcome v) s.engine.queue r → SwitchHead s s.engine.queue r := by
    rintro r ⟨k, i, c, at_, rest⟩
    exact ⟨k, i, c, (jobsU k (head k c)).symm.trans at_, rest⟩
  obtain ⟨next, others, kept, commit, seq⟩ := starts
  have trails := trails commit
  rw [queueU] at next others kept
  refine ⟨?_, ?_, fun r c => ?_⟩
  · rw [trails.jobOf, others h fun c => head h c rfl, finished_job runs, if_pos rfl]
  · exact next.mono baseU trails (fun o => seq.trans (baseU.seq.trans o)) (fun k c => jobsU k (head k c))
      fun r c => slotU r (away r c)
  · rw [trails.mu, kept r fun k => c (switchU r k)]

/-- A switch of `s` ends with an outcome in a state `w` in which only the map may differ; the event closes. -/
theorem endSwitch_ended {s w : State} {h : Nat} {j : Job} {sp : Span} (outcome : JobOutcome) (base : SameBase s w)
    (engine : w.engine = s.engine) (commit : w.mu.commit = s.mu.commit) (span : w.ift.switchSpan = some sp)
    (runs : runningJob s.engine = some (h, j)) (fresh : (s.mu.commit.drain.any fun c => c.stale) = false)
    (slots : ∀ r, r ≠ j.region → w.mu.slots[r]? = s.mu.slots[r]?)
    (body : ∀ k i, s.engine.queue.head? = some k → jobOf s.engine k = some i →
      (descOf w.mu.slots i.region).map Descriptor.body = (descOf s.mu.slots i.region).map Descriptor.body)
    (ready : QueueReady s s.engine.queue [h] [j.region]) :
    Ended s (finished h j outcome w) (settle (endSwitch outcome w)) h j outcome w.mu.generation w.log := by
  have runsW : runningJob w.engine = some (h, j) := engine ▸ runs
  have baseV : SameBase s { w with ift.switchSpan := none } := base.trans ⟨rfl, rfl, rfl, rfl⟩
  have released := trails_releaseHeld .switch sp (startNext (finished h j outcome { w with ift.switchSpan := none }))
  rw [endSwitch_eq runsW span]
  have ended := ended_of (v := { w with ift.switchSpan := none }) outcome baseV runsW rfl (congrArg Engine.queue engine)
    (fun n _ => by show jobOf w.engine n = _; rw [engine]) slots body ready fun kept => by
      refine released.trans (trails_settle ?_)
      rw [released.mu, kept]
      show (w.mu.commit.drain.any _) = false
      rw [commit, fresh]
  exact ⟨ended.job, ended.next, ended.slots⟩

theorem Ended.keepsMap {s u t : State} {h : Nat} {j : Job} {outcome : JobOutcome} {generation : Count16} {log : FaultLog}
    (k : Ended s u t h j outcome generation log) (same : KeepsMap s u fun _ => False) :
    KeepsMap s t (SwitchHead s s.engine.queue) := fun r c => by
  have slot := k.slots r c
  obtain ⟨body, revision⟩ := same r id
  rw [descOf_eq slot, revisionOf_eq slot]
  exact ⟨body, revision⟩

theorem Ended.cleared {s w t : State} {h : Nat} {j : Job} {outcome : JobOutcome} {generation : Count16} {log : FaultLog}
    (k : Ended s (finished h j outcome w) t h j outcome generation log) (other : ¬SwitchHead s s.engine.queue j.region) :
    (descOf t.mu.slots j.region).bind Descriptor.job ≠ some h := by
  rw [descOf_eq (k.slots _ other)]
  exact clearedSlots_field j.region h w.mu.slots

theorem expireSwitch_eq {h : Nat} {j : Job} {s : State} (runs : runningJob s.engine = some (h, j)) {stop : Option Stop}
    (life : j.life = .running stop) :
    expireSwitch s = endSwitch ((stop.map Stop.outcome).getD (.failed .switchTimeout none)) s := by
  rw [expireSwitch, runs]
  dsimp only
  rw [Job.stop, life]

theorem completeSwitch_eq {h : Nat} {j : Job} {s : State} (runs : runningJob s.engine = some (h, j)) :
    (∀ stop, j.life = .running (some stop) → completeSwitch s = endSwitch stop.outcome s)
    ∧ (j.life = .running none → completeSwitch s
        = endSwitch (switchInstall j.work j.region s).1 (switchInstall j.work j.region s).2) := by
  rw [completeSwitch, runs]
  dsimp only
  refine ⟨fun stop life => ?_, fun life => ?_⟩
  · rw [switchDecide, Job.stop, life]
  · rw [switchDecide, Job.stop, life]

/-- Settles O24: every end of a switch drain, by the outcome decided. -/
theorem switchDrainEndsInstalledOrTimedOut : Obligations.SwitchDrainEndsInstalledOrTimedOut := by
  intro s h j sp power runs fresh span ready apart ends fails
  have other : ¬SwitchHead s s.engine.queue j.region := by
    rintro ⟨k, i, head, at_, region, _⟩
    exact apart k i head at_ region
  have failing : ∀ outcome, fails outcome (settle (endSwitch outcome s)) := fun outcome => by
    have ended := endSwitch_ended (w := s) outcome (SameBase.refl s) rfl rfl span runs fresh (fun _ _ => rfl)
      (fun _ _ _ _ => rfl) ready
    exact ⟨⟨ended.job, ended.cleared other, ended.next, ((kept_endSwitch outcome s).trans (kept_settle _)).entries⟩,
      ended.keepsMap (finished_keeps _ _ _ _)⟩
  refine ⟨fun stop life timer => ⟨_, event_taken power timer, ?_⟩, fun done => ?_⟩
  · rw [expireSwitch_eq runs life]
    cases stop with
    | none => exact failing _
    | some r => exact failing _
  · obtain ⟨stopped, decides⟩ := completeSwitch_eq runs
    have possible : switchReported s = true := by rw [switchReported, span, Option.any_some, done]; rfl
    refine ⟨fun stop life => ⟨_, event_taken power possible, ?_⟩, ?_⟩
    · rw [stopped stop life]
      exact failing _
    · intro target keptA keptB verify m d life work slot desc kept retired
      obtain ⟨lost, out, installed⟩ := switchInstall_cases slot desc work
      refine ⟨fun c => ⟨_, event_taken power possible, ?_⟩, fun c r => ⟨_, event_taken power possible, ?_⟩,
        fun c r => ⟨_, event_taken power possible, ?_⟩⟩
      · rw [decides life, lost c]
        exact failing _
      · rw [decides life, out c r]
        exact failing _
      · have lt : j.region < s.mu.slots.length := (List.getElem?_eq_some_iff.mp slot).1
        have kept := (kept_completeSwitch s).trans (kept_settle _)
        rw [decides life, installed c r] at kept ⊢
        have ended := endSwitch_ended (s := s) (w := { s with
          mu.slots := s.mu.slots.set j.region
            { desc := some { d with
                body := { d.body with legA := target.legA, legB := target.legB, pref := target.pref }, degraded := false }
              revision := m.revision + 1 }
          mu.generation := s.mu.generation + 1 }) .done ⟨rfl, rfl, rfl, rfl⟩ rfl rfl span runs fresh
          (fun r c => List.getElem?_set_ne c.symm)
          (fun k i head at_ => by rw [descOf_eq (List.getElem?_set_ne (apart k i head at_).symm)]) ready
        refine ⟨⟨ended.job, ended.cleared other, ended.next, kept.entries⟩, ?_, fun i c away => ?_⟩
        · rw [ended.slots _ other, finished_slot, if_pos rfl]
          show (s.mu.slots.set j.region _)[j.region]?.map _ = _
          rw [List.getElem?_set_self lt, Option.map_some, Option.map_some, leaves_eq]
        · rw [ended.slots _ away, finished_slot, if_neg c]
          exact List.getElem?_set_ne (Ne.symm c)

/-! ### A start check that fails (O25) -/

/-- The start checks of R97, in their order. -/
theorem startCheck_tests {i : Job} {s : State} {d : Descriptor} (desc : descOf s.mu.slots i.region = some d) :
    let retired := fun leg : Leg => (s.health.lanes.get leg.lane).state = .retired
    (∀ target keptA keptB verify, i.work = .relocate target keptA keptB verify →
      let lost := ∃ leg ∈ i.work.kept, leg ∉ d.body.legs
      let out := (∃ leg ∈ i.work.shadows, retired leg) ∨ (target.legB ≠ none ∧ ∃ leg ∈ i.work.kept, retired leg)
      (lost → startCheck i s = some .targetLegLost) ∧ (¬lost → out → startCheck i s = some .targetRetired)
      ∧ (¬lost → ¬out → startCheck i s = none))
    ∧ (∀ repair mismatches repaired, i.work = .audit repair mismatches repaired →
      (d.body.legB = none → startCheck i s = some .regionDegraded)
      ∧ (d.body.legB ≠ none → startCheck i s = none)) := by
  intro retired
  refine ⟨fun target keptA keptB verify work => ?_, fun repair mismatches repaired work => ?_⟩
  · intro lost out
    have lostIff : (i.work.kept.any fun leg => !d.body.legs.contains leg) = true ↔ lost := by simp [lost]
    have outIff : ((i.work.shadows.any fun leg : Leg => (s.health.lanes.get leg.lane).state == .retired)
        || (target.legB.isSome && i.work.kept.any fun leg : Leg => (s.health.lanes.get leg.lane).state == .retired)) = true
        ↔ out := by
      simp [out, retired, Option.isSome_iff_ne_none]
    rw [work] at lostIff outIff
    unfold startCheck
    rw [work, desc]
    dsimp only
    refine ⟨fun c => if_pos (lostIff.mpr c), fun c o => ?_, fun c o => ?_⟩
    · rw [if_neg (mt lostIff.mp c), if_pos (outIff.mpr o)]
    · rw [if_neg (mt lostIff.mp c), if_neg (mt outIff.mp o)]
  · unfold startCheck
    rw [work, desc]
    dsimp only
    cases d.body.legB <;> simp

/-- The state in which the queue's head has finished FAILED without starting (R97). -/
def headFailed (k : Nat) (i : Job) (reason : Reason) (rest : List Nat) (u : State) : State := { u with
  engine := { u.engine with
    queue := rest, jobs := u.engine.jobs.set k (some { i with life := .finished (.failed reason none) }) }
  mu.slots := clearedSlots i.region k u.mu.slots
  log := takeNotice u.mu.generation (.jobFinished k .failed) u.log }

theorem startNext_failed {k : Nat} {rest : List Nat} {i : Job} {u : State} {reason : Reason} (idle : Idle u)
    (queue : u.engine.queue = k :: rest) (at_ : jobOf u.engine k = some i) (check : startCheck i u = some reason) :
    startNext u = startNext (headFailed k i reason rest u) := by
  have job : jobOf { u.engine with queue := rest } k = some i := at_
  have fails : startCheck i { u with engine.queue := rest } = some reason := check
  have fin : finishJob k (.failed reason none) { u with engine.queue := rest } = headFailed k i reason rest u := by
    rw [finishJob_eq (s := { u with engine.queue := rest }) at_,
      Engine.release_other (by show u.engine.running ≠ _; rw [idle.running]; nofun)]
    rfl
  show startQueue u.engine.queue.length u = _
  rw [queue, List.length_cons, startQueue, idle.running, queue]
  dsimp only
  rw [job]
  dsimp only
  rw [fails]
  dsimp only
  rw [fin]
  rfl

theorem headFailed_job {k : Nat} {i : Job} {u : State} (at_ : jobOf u.engine k = some i) (reason : Reason)
    (rest : List Nat) (n : Nat) : jobOf (headFailed k i reason rest u).engine n
      = if n = k then some { i with life := .finished (.failed reason none) } else jobOf u.engine n :=
  jobOf_setAt (e := u.engine) at_ _ n

theorem headFailed_slot (k : Nat) (i : Job) (reason : Reason) (rest : List Nat) (u : State) (r : Nat) :
    r ≠ i.region → (headFailed k i reason rest u).mu.slots[r]? = u.mu.slots[r]? := fun c =>
  (clearedSlots_keeps i.region k u.mu.slots r).2.2 c

theorem headFailed_keeps (k : Nat) (i : Job) (reason : Reason) (rest : List Nat) (u : State) :
    KeepsMap u (headFailed k i reason rest u) fun _ => False := fun r _ => by
  obtain ⟨body, revision, _⟩ := clearedSlots_keeps i.region k u.mu.slots r
  exact ⟨body, revision⟩

theorem KeepsMap.trans {s t u : State} (h : KeepsMap s t fun _ => False) (k : KeepsMap t u fun _ => False) :
    KeepsMap s u fun _ => False := fun r _ =>
  ⟨(k r id).1.trans (h r id).1, (k r id).2.trans (h r id).2⟩

/-- A head that fails its check finishes without starting, and the next one starts. -/
theorem startNext_afterFailed {k : Nat} {rest : List Nat} {i : Job} {v : State} {reason : Reason} (idle : Idle v)
    (queue : v.engine.queue = k :: rest) (at_ : jobOf v.engine k = some i) (check : startCheck i v = some reason)
    (ready : QueueReady v rest [k] [i.region]) :
    jobOf (startNext v).engine k = some { i with life := .finished (.failed reason none) }
    ∧ (∀ n, n ≠ k → rest.head? ≠ some n → jobOf (startNext v).engine n = jobOf v.engine n)
    ∧ NextRuns v (startNext v) rest v.mu.generation (takeNotice v.mu.generation (.jobFinished k .failed) v.log)
    ∧ (∀ r, ¬SwitchHead v rest r → (startNext v).mu.slots[r]? = (clearedSlots i.region k v.mu.slots)[r]?)
    ∧ (startNext v).mu.commit = v.mu.commit ∧ (startNext v).hp.seq = v.hp.seq := by
  have base : SameBase v (headFailed k i reason rest v) := ⟨rfl, rfl, rfl, rfl⟩
  have job := headFailed_job at_ reason rest
  have idleU : Idle (headFailed k i reason rest v) := ⟨idle.running, idle.lock, idle.step, idle.timer, idle.span⟩
  have others : ∀ n, rest.head? = some n → n ≠ k := fun n c => by simpa using ready.head c
  have starts := startNext_starts idleU (ready.mono base (fun n c => (job n).trans (if_neg (by simpa using c)))
    (fun n x _ _ => (headFailed_keeps k i reason rest v x.region id).1) (List.nil_subset _) (List.nil_subset _))
  have switchV : ∀ r, SwitchHead (headFailed k i reason rest v) rest r → SwitchHead v rest r := by
    rintro r ⟨n, x, c, atN, more⟩
    exact ⟨n, x, c, ((job n).trans (if_neg (others n c))).symm.trans atN, more⟩
  rw [startNext_failed idle queue at_ check]
  refine ⟨?_, fun n c head => ?_, ?_, fun r c => starts.slots r fun x => c (switchV r x), starts.commit, starts.seq⟩
  · rw [starts.jobs k fun c => others k c rfl, job, if_pos rfl]
  · rw [starts.jobs n head, job, if_neg c]
  · exact starts.next.mono base (Trails.refl _) (fun o => starts.seq.trans o)
      (fun n c => (job n).trans (if_neg (others n c)))
      fun r c => headFailed_slot k i reason rest v r (by simpa using ready.away c)

/-- Settles O25: the running job's switch ends, the head fails its check, and the next one starts. -/
theorem failedStartChecksFinishTheJob : Obligations.FailedStartChecksFinishTheJob := by
  refine ⟨fun s i d desc => startCheck_tests desc, fun s h k j i sp reason rest power opened runs life fresh span timer
    queue other at_ check ready => ⟨_, event_taken power timer, ?_⟩⟩
  have keptAll := ((kept_expireSwitch s).trans (kept_settle _)).entries
  rw [expireSwitch_eq runs life, endSwitch_eq runs span] at keptAll ⊢
  obtain ⟨v, hv⟩ : ∃ v, v = finished h j (.failed .switchTimeout none) { s with ift.switchSpan := none } := ⟨_, rfl⟩
  have job : ∀ n, jobOf v.engine n = if n = h then some { j with life := .finished (.failed .switchTimeout none) }
      else jobOf s.engine n := fun n => hv ▸ finished_job (s := { s with ift.switchSpan := none }) runs _ n
  have keep : KeepsMap s v fun _ => False := hv ▸ finished_keeps h j _ { s with ift.switchSpan := none }
  have base : SameBase s v := hv ▸ ⟨rfl, rfl, rfl, rfl⟩
  have slot : ∀ r, r ≠ j.region → v.mu.slots[r]? = s.mu.slots[r]? := fun r c => by
    rw [hv, finished_slot, if_neg c]
  have idle : Idle v := hv ▸ finished_idle h j _ rfl
  have queueV : v.engine.queue = k :: rest := by rw [hv]; exact queue
  have stale : (v.mu.commit.drain.any fun c => c.stale) = false := by rw [hv]; exact fresh
  have log : v.mu.generation = s.mu.generation
      ∧ v.log = takeNotice s.mu.generation (.jobFinished h .failed) s.log := by rw [hv]; exact ⟨rfl, rfl⟩
  show jobOf (settle (releaseHeld .switch sp (startNext (finished h j (.failed .switchTimeout none)
    { s with ift.switchSpan := none })))).engine h = _ ∧ _
  rw [Option.map_none, Option.getD_none, ← hv] at keptAll ⊢
  clear hv
  have readyV : QueueReady v rest [k] [i.region] := ready.mono base
    (fun n c => (job n).trans (if_neg fun e => c (by simp [e]))) (fun n x _ _ => (keep x.region id).1) (by simp) (by simp)
  obtain ⟨failed, others, next, slots, commit, seq⟩ := startNext_afterFailed idle queueV ((job k).trans ((if_neg other).trans at_))
    ((startCheck_congr (s := s) base.health (keep i.region id).1).trans check) readyV
  have released := trails_releaseHeld .switch sp (startNext v)
  have trails : Trails (startNext v) (settle (releaseHeld .switch sp (startNext v))) := by
    refine released.trans (trails_settle ?_)
    rw [released.mu, commit, stale]
  have head : ∀ n, rest.head? = some n → n ≠ h := fun n c e => ready.head c (by simp [e])
  have switchV : ∀ r, SwitchHead v rest r → SwitchHead s rest r := by
    rintro r ⟨n, x, c, atN, more⟩
    exact ⟨n, x, c, ((job n).trans (if_neg (head n c))).symm.trans atN, more⟩
  refine ⟨?_, (trails.jobOf k).trans failed, ?_, ?_, fun r c => ?_, keptAll⟩
  · rw [trails.jobOf, others h (Ne.symm other) fun c => head h c rfl, job, if_pos rfl]
  · rw [trails.mu, descOf_eq (slots i.region fun c => ready.away (switchV _ c) (by simp))]
    exact clearedSlots_field i.region k v.mu.slots
  · rw [log.1, log.2] at next
    exact next.mono base trails (fun o => seq.trans (base.seq.trans o)) (fun n c => (job n).trans (if_neg (head n c)))
      fun r c => slot r fun e => ready.away c (by simp [e])
  · have same := slots r fun x => c (switchV r x)
    obtain ⟨body, revision, _⟩ := clearedSlots_keeps i.region k v.mu.slots r
    rw [trails.mu, descOf_eq same, revisionOf_eq same]
    exact ⟨body.trans (keep r id).1, revision.trans (keep r id).2⟩

end Sys2Proof.Machine

/-! PROOF. A submitted job that starts at once (O44). -/

namespace Sys2Proof.Machine

open Sys2Proof

/-- Entering TRANSFER with a valid region in a phase of a block step (R111). -/
theorem enterTransfer_stage {s : State} {h : Nat} {j : Job} {st : BlockStep} {d : Descriptor} {phase : JobPhase}
    (runs : runningJob s.engine = some (h, j)) (step : s.engine.blockStep = some st) (goes : s.engine.stopping = false)
    (desc : descOf s.mu.slots j.region = some d) (at_ : j.phase = some phase) (walks : phase ≠ .switch) :
    (enterTransfer s).engine.blockStep.map BlockStep.stage = some .transfer := by
  have reads : ∀ (block : Nat) (legs : List Leg) (i : Nat) (s : State),
      (presentVerifyReads block i legs s).engine = s.engine := fun block legs => by
    induction legs with
    | nil => exact fun _ _ => rfl
    | cons leg rest ih => exact fun i s => ih (i + 1) _
  unfold enterTransfer
  rw [runs, step]
  dsimp only
  rw [if_neg (by simp [goes]), desc, at_]
  cases phase with
  | copy => rfl
  | verify => dsimp only; rw [reads]; rfl
  | scan => rfl
  | switch => exact absurd rfl walks

/-- The block lock and the step record as a block step begins (R110). -/
def stepBegun (j : Job) (wait : Nat) (s : State) : State := { s with
  engine.lock := some { region := j.region, block := j.cursor }
  engine.blockStep := some
    { block := j.cursor, stage := .lockWait, writeWait := wait
      lines := List.replicate Config.blockLines (freshLine j.work.shadows.length) } }

/-- With no write open in its block, a block step is in TRANSFER as it begins (R110, R111). -/
theorem beginStep_transfers {s : State} {h : Nat} {j : Job} {d : Descriptor} {phase : JobPhase}
    (runs : runningJob s.engine = some (h, j)) (table : s.ift.entries = []) (more : j.cursor < j.blockCount)
    (goes : s.engine.stopping = false) (desc : descOf s.mu.slots j.region = some d) (at_ : j.phase = some phase)
    (walks : phase ≠ .switch) : (beginStep s).engine.lock = some { region := j.region, block := j.cursor }
      ∧ (beginStep s).engine.blockStep.map BlockStep.stage = some .transfer := by
  have is : beginStep s = enterTransfer (stepBegun j 0 s) := by
    have none : (openWrites s.ift.entries j.region j.cursor).length = 0 := by rw [table]; rfl
    rw [beginStep, runs]
    dsimp only
    rw [if_pos more, none]
    rfl
  rw [is]
  exact ⟨(same_enterTransfer (stepBegun j 0 s)).engine.lock,
    enterTransfer_stage (s := stepBegun j 0 s) runs rfl goes desc at_ walks⟩

/-- A submitted job that no other runs before starts in a block step, the table empty. -/
theorem startNext_walks {u : State} {h : Nat} {i : Job} {d : Descriptor} (running : u.engine.running = none)
    (queue : u.engine.queue = [h]) (at_ : jobOf u.engine h = some i) (check : startCheck i u = none)
    (walks : firstPhase i.work ≠ .switch) (table : u.ift.entries = []) (more : 0 < i.blockCount)
    (desc : descOf u.mu.slots i.region = some d) :
    (startNext u).engine.running = some h ∧ (startNext u).engine.queue = []
    ∧ jobOf (startNext u).engine h = some i.firstRecord
    ∧ (startNext u).engine.lock = some { region := i.region, block := 0 }
    ∧ (startNext u).engine.blockStep.map BlockStep.stage = some .transfer ∧ (startNext u).mu = u.mu := by
  have is : startNext u = beginStep (headStarted h i [] u) := by
    rw [startNext, queue]
    exact (startQueue_head (n := 0) running queue at_ check).1 walks
  have job : jobOf (headStarted h i [] u).engine h = some i.firstRecord :=
    (jobOf_setAt (e := u.engine) at_ _ h).trans (if_pos rfl)
  have runs : runningJob (headStarted h i [] u).engine = some (h, i.firstRecord) := runningJob_eq.mpr ⟨rfl, job⟩
  have begun := decoded_beginStep (headStarted h i [] u)
  obtain ⟨lock, stage⟩ := beginStep_transfers runs table more rfl desc rfl walks
  have trailed := begun.engine
  rw [is]
  refine ⟨?_, ?_, ?_, lock, stage, begun.mu⟩
  · have k := congrArg Engine.running trailed
    exact k
  · have k := congrArg Engine.queue trailed
    exact k
  · have k := congrArg Engine.jobs trailed
    have same : (beginStep (headStarted h i [] u)).engine.jobs = (headStarted h i [] u).engine.jobs := k
    rw [jobOf, same]
    exact job

/-! ### The start checks of a submitted job pass (R93, R97) -/

theorem keptLegs (target : Target) (verify : Bool) (d : Descriptor) :
    ∀ leg ∈ (relocateWork target verify d).kept, leg ∈ d.body.legs ∧ leg ∈ target.legs := by
  obtain ⟨a, b, pref⟩ := target
  intro leg
  unfold relocateWork JobWork.kept Target.legs legList
  cases b with
  | none => by_cases ka : a ∈ d.body.legs <;> simp +contextual [ka]
  | some x =>
    by_cases ka : a ∈ d.body.legs <;> by_cases kb : x ∈ d.body.legs <;>
      simp +contextual [ka, kb, or_imp]

theorem shadows_eq (target : Target) (verify : Bool) (d : Descriptor) :
    (relocateWork target verify d).shadows = target.legs.filter fun leg => !d.body.legs.contains leg := by
  obtain ⟨a, b, pref⟩ := target
  unfold relocateWork JobWork.shadows Target.legs legList
  cases b with
  | none => by_cases ka : a ∈ d.body.legs <;> simp [ka]
  | some x => by_cases ka : a ∈ d.body.legs <;> by_cases kb : x ∈ d.body.legs <;> simp [ka, kb]

theorem mem_targetLegs {t : Target} {leg : Leg} (h : leg ∈ t.legs) : ∃ n, (n, leg) ∈ targetLegs t := by
  obtain ⟨a, b, pref⟩ := t
  rcases List.mem_cons.mp h with rfl | h
  · exact ⟨0, List.mem_cons_self ..⟩
  · refine ⟨1, List.mem_cons_of_mem _ ?_⟩
    cases b with
    | none => cases h
    | some x => simpa using h

/-- A target that passes its tests has no shadow leg on a RETIRED lane, and no leg on one when it is MIRROR. -/
theorem targetFailure_lanes {t : Target} {d : Descriptor} {s : State} (passes : targetFailure t d s = none) {leg : Leg}
    (mem : leg ∈ t.legs) (strict : leg ∉ d.body.legs ∨ t.legB ≠ none) :
    (s.health.lanes.get leg.lane).state ≠ .retired := by
  intro retired
  obtain ⟨n, h⟩ := mem_targetLegs mem
  have empty : failsLaneState t d s = [] := targetFailure_none.mp passes 2
  have fails : (n, leg) ∈ failsLaneState t d s := mem_failsLaneState.mpr ⟨h, by
    rcases strict with shadow | mirror
    · exact .inl ⟨shadow, .inr retired⟩
    · exact .inr ⟨mirror, retired⟩⟩
  rw [empty] at fails
  exact List.not_mem_nil fails

/-- The queued relocation of a target that passed its tests passes its start checks. -/
theorem startCheck_submitted {target : Target} {verify : Bool} {d d' : Descriptor} {i : Job} {s u : State}
    (passes : targetFailure target d s = none) (work : i.work = relocateWork target verify d)
    (desc : descOf u.mu.slots i.region = some d') (body : d'.body = d.body) (health : u.health = s.health) :
    startCheck i u = none := by
  obtain ⟨tests, _⟩ := startCheck_tests desc
  obtain ⟨_, _, pass⟩ := tests target _ _ verify work
  rw [work, body, health] at pass
  refine pass (fun ⟨leg, mem, away⟩ => away (keptLegs target verify d leg mem).1) ?_
  rintro (⟨leg, mem, retired⟩ | ⟨mirror, leg, mem, retired⟩)
  · rw [shadows_eq] at mem
    obtain ⟨mem, shadow⟩ := List.mem_filter.mp mem
    exact targetFailure_lanes passes mem (.inl (by simpa using shadow)) retired
  · exact targetFailure_lanes passes (keptLegs target verify d leg mem).2 (.inr mirror) retired

/-! ### The submission -/

theorem queuedState_job {region h : Nat} {m : MapSlot} {d : Descriptor} {work : JobWork} {s : State}
    (free : s.engine.jobs[h]? = some none) : jobOf (queuedState region h m d work s).engine h = some
      { life := .queued, work := work, region := region, blockCount := 512 * d.body.length, phase := none, cursor := 0 } := by
  have lt : h < s.engine.jobs.length := (List.getElem?_eq_some_iff.mp free).1
  exact (jobOf_set s.engine h h _).trans (if_pos ⟨rfl, lt⟩)

theorem queuedState_slot {region h : Nat} {m : MapSlot} {d : Descriptor} {work : JobWork} {s : State}
    (slot : s.mu.slots[region]? = some m) : (queuedState region h m d work s).mu.slots[region]?
      = some { m with desc := some { d with job := some h } } :=
  List.getElem?_set_self (List.getElem?_eq_some_iff.mp slot).1

theorem startIfIdle_idle {s : State} (h : s.engine.running = none) : startIfIdle s = settle (startNext s) := by
  rw [startIfIdle, if_pos (by simp [h])]

theorem kept_submitted {region h : Nat} {m : MapSlot} {d : Descriptor} {work : JobWork} {s : State}
    (slot : s.mu.slots[region]? = some m) (desc : m.desc = some d) :
    Kept s (startIfIdle (queuedState region h m d work s)) := by
  rw [← queueJob_eq slot desc]
  exact (kept_queueJob h region d work s).trans (kept_startIfIdle _)

/-- Settles O44: a submitted job starts in its own event when no other runs. -/
theorem submittedJobStartsWhenNoneRuns : Obligations.SubmittedJobStartsWhenNoneRuns := by
  intro tag payload region h m d s r opened le drain running queue free lowest slot desc noJob blocks record quiet started
  have unclaimed : ¬(d.job ≠ none ∨ inCommitSet s.listening.mu region = true) := by
    simp [noJob, inCommitSet, drain]
  have tests := fun f => ((submission_tests region f s.listening).2 h free lowest).2 d (descOf_of_slot slot desc) |>.2 unclaimed
  have job := fun work => queuedState_job (region := region) (m := m) (d := d) (work := work) (s := s.listening) free
  have held := fun work => queuedState_slot (h := h) (d := d) (work := work) (s := s.listening) slot
  have valid : ∀ work (i : Job), i.region = region → descOf (queuedState region h m d work s.listening).mu.slots i.region
      = some { d with job := some h } := fun work i at_ => by
    rw [at_]
    exact descOf_of_slot (held work) rfl
  have idle := fun work => startIfIdle_idle (s := queuedState region h m d work s.listening) running
  have quietly : ∀ work, quiet (startIfIdle (queuedState region h m d work s.listening)) := fun work => by
    have kept := kept_submitted (h := h) (work := work) (s := s.listening) slot desc
    exact ⟨fun k => ⟨kept.errors k, kept.budgets k⟩, kept.config, kept.entries⟩
  have link : ∀ work, (startIfIdle (queuedState region h m d work s.listening)).link = s.listening.link := fun work =>
    (kept_submitted (h := h) (work := work) (s := s.listening) slot desc).link
  have walks : ∀ work, s.ift.entries = [] → firstPhase work ≠ .switch →
      (∀ i : Job, i.work = work → i.region = region → startCheck i (queuedState region h m d work s.listening) = none) →
      started work (firstPhase work) (startIfIdle (queuedState region h m d work s.listening)) := by
    intro work table first check
    have descU := descOf_of_slot (held work) rfl
    obtain ⟨h1, h2, h3, h4, h5, h6⟩ := startNext_walks (u := queuedState region h m d work s.listening) running
      (by show s.engine.queue ++ [h] = _; rw [queue]; rfl) (job work) (check _ rfl rfl) first table
      (by show 0 < 512 * d.body.length; omega) descU
    have still : ((startNext (queuedState region h m d work s.listening)).mu.commit.drain.any fun c => c.stale) = false := by
      rw [h6]
      show (s.mu.commit.drain.any _) = false
      rw [drain]
      rfl
    obtain ⟨mu, engine, _⟩ := settle_blocks still
    have done := quietly work
    rw [idle work] at done ⊢
    refine ⟨by rw [engine, h1], by rw [engine, h2], by rw [engine]; exact h3, by rw [engine, h4], by rw [engine, h5], ?_, done⟩
    rw [mu, h6, descU]
    rfl
  refine ⟨fun repair table parse mirror => ?_, fun target verify parse differs passes => ?_⟩
  · obtain ⟨_, answers⟩ := auditBody_tests (s := s.listening) region repair h slot desc
    have reply := (bodyJobSubmitAudit_open (s := s.listening) opened parse).trans ((tests _).trans (answers mirror))
    refine ⟨_, commandFrame_reply r le reply (link _), walks (.audit repair 0 0) table nofun fun i work at_ => ?_⟩
    obtain ⟨_, checks⟩ := startCheck_tests (i := i) (valid _ i at_)
    exact (checks repair 0 0 work).2 mirror
  · intro shadows work bytes held'
    obtain ⟨_, answers⟩ := relocateBody_tests (s := s.listening) region target verify h slot desc
    have shadowLegs : (relocateWork target verify d).shadows = shadows := shadows_eq target verify d
    have reply := (bodyJobSubmitRelocate_open (s := s.listening) opened parse).trans
      ((tests _).trans ((answers differs).2 passes))
    rw [shadowLegs] at reply
    have check : ∀ i : Job, i.work = work → i.region = region →
        startCheck i (queuedState region h m d work s.listening) = none := fun i w at_ =>
      startCheck_submitted (s := s.listening) passes w (valid work i at_) rfl rfl
    have first : firstPhase work = if shadows = [] then .switch else .copy := by
      show (if (relocateWork target verify d).shadows.isEmpty then _ else _) = _
      rw [shadowLegs]
      cases shadows <;> rfl
    refine ⟨fun table shadowed => ⟨_, commandFrame_reply r le reply (link work), ?_⟩, fun none lock step =>
      ⟨_, commandFrame_reply r le reply (link work), ?_, fun n c => ?_, quietly work⟩⟩
    · rw [if_neg shadowed] at first
      have begun := walks work table (by rw [first]; nofun) check
      rwa [first] at begun
    all_goals
      rw [if_pos none] at first
      have starts := startNext_switch (u := queuedState region h m d work s.listening) running lock step
        (by show s.engine.queue ++ [h] = _; rw [queue]; rfl) (job work) (check _ rfl rfl) first (held work) rfl (.inl rfl)
      have trails : Trails (startNext (queuedState region h m d work s.listening))
          (startIfIdle (queuedState region h m d work s.listening)) := by
        rw [idle work]
        refine trails_settle ?_
        rw [starts.commit]
        exact stale_none (s := s) drain
      have base : SameBase s (queuedState region h m d work s.listening) := ⟨rfl, rfl, rfl, rfl⟩
      have queued : (queuedState region h m d work s.listening).engine.queue = [h] := by
        show s.engine.queue ++ [h] = _
        rw [queue]
        rfl
      obtain ⟨next, others, slots, commit, seq⟩ := starts
      rw [queued] at next slots
    · have switch := (next _ (job work)).2 first _ _ (held work) rfl
      rw [first] at switch
      exact switch.mono base trails (fun o => seq.trans o) fun g l k => k.mono base trails fun o => seq.trans o
    · have same : (startNext (queuedState region h m d work s.listening)).mu.slots[n]? = s.mu.slots[n]? := by
        rw [slots n fun ⟨k, i, head, at_, region', _⟩ => ?_]
        · exact List.getElem?_set_ne (Ne.symm c)
        · obtain rfl : h = k := Option.some.inj head
          obtain rfl := Option.some.inj ((job work).symm.trans at_)
          exact c region'.symm
      rw [← trails.mu] at same
      exact ⟨congrArg (Option.map Descriptor.body) (descOf_eq same), revisionOf_eq same⟩

end Sys2Proof.Machine

/-! PROOF. Resets end jobs and commits (O52). -/

namespace Sys2Proof.Machine

open Sys2Proof

/-! ### Queued jobs end (R106 step 1) -/

/-- The log once notices have been posted, one after another, at one generation. -/
def posted (generation : Count16) (infos : List NoticeInfo) (log : FaultLog) : FaultLog :=
  infos.foldl (fun log info => takeNotice generation info log) log

theorem posted_append (generation : Count16) (a b : List NoticeInfo) (log : FaultLog) :
    posted generation (a ++ b) log = posted generation b (posted generation a log) := List.foldl_append ..

/-- The notices of jobs that a reset finishes in queue order. -/
def abortNotices (handles : List Nat) : List NoticeInfo := handles.map fun k => .jobFinished k .resetAborted

theorem clearedSlots_unnamed {region h k i : Nat} {slots : List MapSlot} (away : (descOf slots i).bind Descriptor.job ≠ some k) :
    (descOf (clearedSlots region h slots) i).bind Descriptor.job ≠ some k := by
  rw [descOf, clearedSlots_get]
  split
  · rw [descOf] at away
    cases at_ : slots[i]? with
    | none => nofun
    | some m =>
      rw [at_] at away
      cases hd : m.desc with
      | none => simp [hd]
      | some d =>
        by_cases job : d.job = some h
        · simp [hd, job, Descriptor.leaves]
        · simpa [hd, job, Descriptor.leaves] using away
  · exact away

/-- What the end of several jobs that do not run leaves. -/
structure QueuedEnd (handles : List Nat) (s t : State) : Prop where
  rest : t = { s with engine := { s.engine with jobs := t.engine.jobs }, mu := { s.mu with slots := t.mu.slots }
                      log := posted s.mu.generation (abortNotices handles) s.log }
  jobs : ∀ k, jobOf t.engine k = if k ∈ handles then (jobOf s.engine k).map fun j => { j with life := .finished .resetAborted }
    else jobOf s.engine k
  bodies : KeepsMap s t fun _ => False
  cleared : ∀ k ∈ handles, ∀ j, jobOf s.engine k = some j → (descOf t.mu.slots j.region).bind Descriptor.job ≠ some k
  unnamed : ∀ i k, (descOf s.mu.slots i).bind Descriptor.job ≠ some k → (descOf t.mu.slots i).bind Descriptor.job ≠ some k

theorem abortQueued_end (handles : List Nat) : ∀ s : State, handles.Nodup →
    (∀ h ∈ handles, jobOf s.engine h ≠ none ∧ s.engine.running ≠ some h) → QueuedEnd handles s (abortQueued handles s) := by
  induction handles with
  | nil => exact fun s _ _ => ⟨rfl, fun _ => rfl, fun _ _ => ⟨rfl, rfl⟩, nofun, fun _ _ k => k⟩
  | cons h rest ih =>
    intro s distinct live
    obtain ⟨fresh, distinct⟩ := List.nodup_cons.mp distinct
    obtain ⟨some, away⟩ := live h (List.mem_cons_self ..)
    obtain ⟨j, at_⟩ := Option.ne_none_iff_exists'.mp some
    have fin := finishJob_eq (s := s) at_ .resetAborted
    rw [Engine.release_other (by exact away)] at fin
    have job : ∀ n, jobOf (finishJob h .resetAborted s).engine n
        = if n = h then Option.some { j with life := .finished .resetAborted } else jobOf s.engine n := fun n => by
      rw [fin]
      exact jobOf_setAt (e := s.engine) at_ _ n
    have slots : (finishJob h .resetAborted s).mu.slots = clearedSlots j.region h s.mu.slots := by rw [fin]
    obtain ⟨same, jobs, bodies, cleared, unnamed⟩ := ih (finishJob h .resetAborted s) distinct fun n m => by
      have other : n ≠ h := fun e => fresh (e ▸ m)
      obtain ⟨k, k'⟩ := live n (List.mem_cons_of_mem _ m)
      refine ⟨by rwa [job, if_neg other], ?_⟩
      rw [fin]
      exact k'
    refine ⟨?_, fun k => ?_, fun i _ => ?_, fun k m q hq => ?_, fun i k c => unnamed i k ?_⟩
    · rw [abortQueued, same, fin]
      rfl
    · rw [abortQueued, jobs, job]
      by_cases e : k = h
      · subst e
        rw [if_neg fresh, if_pos rfl, if_pos (List.mem_cons_self ..), at_]
        rfl
      · simp only [List.mem_cons, e, false_or, if_false]
    · obtain ⟨b, r⟩ := bodies i id
      obtain ⟨b', r', _⟩ := clearedSlots_keeps j.region h s.mu.slots i
      rw [slots] at b r
      exact ⟨b.trans b', r.trans r'⟩
    · rcases List.mem_cons.mp m with rfl | m
      · obtain rfl : j = q := Option.some.inj (at_.symm.trans hq)
        refine unnamed _ _ ?_
        rw [slots]
        exact clearedSlots_field _ _ _
      · refine cleared k m q ?_
        rw [job, if_neg fun e : k = h => fresh (e ▸ m), hq]
    · rw [slots]
      exact clearedSlots_unnamed c

/-! ### The running job ends or stops (R106 step 2) -/

/-- A reset finishes a running job in its event: it is in SWITCH with its span open, or none of its requests is
OUTSTANDING. -/
def ResetFinishes (s : State) (j : Job) : Prop :=
  (j.phase = some .switch ∧ s.ift.switchSpan ≠ none)
    ∨ (j.phase ≠ some .switch ∧ ∀ n : Lane, ∀ o ∈ (s.lanes.get n).outstanding, o.req.fromEngine = true → o.timer = none)

/-- What the reset signal leaves of the copy engine, of the map's bodies and job fields, and of the log. -/
structure ResetEnds (s t : State) (logs : List NoticeInfo → Prop) : Prop where
  queue : t.engine.queue = []
  queued : ∀ k q, k ∈ s.engine.queue → jobOf s.engine k = some q →
    jobOf t.engine k = some { q with life := .finished .resetAborted }
      ∧ (descOf t.mu.slots q.region).bind Descriptor.job ≠ some k
  generation : t.mu.generation = s.mu.generation
  bodies : KeepsMap s t fun _ => False
  idle : s.engine.running = none → t.engine.running = none ∧ logs []
  ends : ∀ h j, runningJob s.engine = some (h, j) → ResetFinishes s j →
    jobOf t.engine h = some { j with life := .finished .resetAborted }
      ∧ (descOf t.mu.slots j.region).bind Descriptor.job ≠ some h ∧ t.engine.running = none ∧ t.engine.lock = none
      ∧ t.engine.blockStep = none ∧ t.engine.stopping = false ∧ t.engine.switchTimer = none
      ∧ (j.phase = some .switch → t.ift.switchSpan = none) ∧ logs [.jobFinished h .resetAborted]
  stops : ∀ h j, runningJob s.engine = some (h, j) → j.phase ≠ some .switch → ¬ResetFinishes s j →
    jobOf t.engine h = some { j with life := .running (some .reset) } ∧ t.engine.running = some h
      ∧ t.engine.stopping = true ∧ (∀ n : Lane, ∀ w ∈ (t.lanes.get n).waiting, w.req.fromEngine = false) ∧ logs []

/-- RESET replaces the stop request of the running job, which stops (R98, R106). -/
def stoppingState (h : Nat) (j : Job) (s : State) : State := { s with engine := { s.engine with
  stopping := true, jobs := s.engine.jobs.set h (some { j with life := .running (some .reset) }) } }

theorem raiseReset_running {h : Nat} {j : Job} {s : State} (runs : runningJob s.engine = some (h, j))
    (live : j.isRunning = true) : raiseReset { s with engine.stopping := true } = stoppingState h j s := by
  have runs' : runningJob { s.engine with stopping := true } = some (h, j) := runs
  unfold raiseReset modifyRunning
  dsimp only
  rw [runs']
  dsimp only
  cases life : j.life with
  | queued => rw [Job.isRunning, life] at live; cases live
  | running stop => rfl
  | finished o => rw [Job.isRunning, life] at live; cases live

theorem stoppingState_runs {h : Nat} {j : Job} {s : State} (runs : runningJob s.engine = some (h, j)) :
    runningJob (stoppingState h j s).engine = some (h, { j with life := .running (some .reset) }) := by
  obtain ⟨running, at_⟩ := runningJob_eq.mp runs
  exact runningJob_eq.mpr ⟨running, (jobOf_setAt (e := s.engine) at_ _ h).trans (if_pos rfl)⟩

theorem withdraw_lane (sel : Request → Bool) (s : State) (n : Lane) : (withdraw sel s).lanes.get n
    = { s.lanes.get n with waiting := (s.lanes.get n).waiting.filter fun w => !sel w.req } := PerLane.get_map ..

theorem engineOpen_zero {lanes : PerLane LanePort} : engineOpen lanes = 0 ↔ ∀ n : Lane, (lanes.get n).engineOpen = 0 := by
  unfold engineOpen
  constructor
  · intro h n
    cases n <;> simp only [PerLane.get] <;> omega
  · intro h
    have h0 := h .l0
    have h1 := h .l1
    have h2 := h .l2
    have h3 := h .l3
    simp only [PerLane.get] at h0 h1 h2 h3
    omega

/-- With the waiting requests of the engine withdrawn, none is open exactly when none is OUTSTANDING. -/
theorem engineOpen_withdrawn (s : State) : engineOpen (withdraw Request.fromEngine s).lanes = 0 ↔
    ∀ n : Lane, ∀ o ∈ (s.lanes.get n).outstanding, o.req.fromEngine = true → o.timer = none := by
  rw [engineOpen_zero]
  refine forall_congr' fun n => ?_
  rw [withdraw_lane, LanePort.engineOpen]
  have single : ∀ o : Outstanding, (o.timer.isSome = true → o.req.fromEngine = false)
      ↔ (o.req.fromEngine = true → o.timer = none) := fun o => by
    cases o.timer <;> cases o.req.fromEngine <;> simp
  simp [List.filter_eq_nil_iff, Outstanding.running, single]

/-- What a reset's treatment of the running job `h` leaves of the other jobs and of the map. -/
structure Spares (h : Nat) (s t : State) : Prop where
  queue : t.engine.queue = s.engine.queue
  jobs : ∀ n, n ≠ h → jobOf t.engine n = jobOf s.engine n
  bodies : KeepsMap s t fun _ => False
  unnamed : ∀ i k, (descOf s.mu.slots i).bind Descriptor.job ≠ some k → (descOf t.mu.slots i).bind Descriptor.job ≠ some k
  generation : t.mu.generation = s.mu.generation

theorem spares_finished {h : Nat} {j : Job} {s : State} (runs : runningJob s.engine = some (h, j)) (outcome : JobOutcome) :
    Spares h s (finished h j outcome s) :=
  ⟨rfl, fun n c => (finished_job runs outcome n).trans (if_neg c), finished_keeps h j outcome s,
   fun _ _ c => clearedSlots_unnamed c, rfl⟩

theorem spares_stopping {h : Nat} {j : Job} {s : State} (runs : runningJob s.engine = some (h, j)) :
    Spares h s (stoppingState h j s) :=
  ⟨rfl, fun n c => (jobOf_setAt (e := s.engine) (runningJob_eq.mp runs).2 _ n).trans (if_neg c), fun _ _ => ⟨rfl, rfl⟩,
   fun _ _ c => c, rfl⟩

theorem Spares.trans {h : Nat} {s t u : State} (a : Spares h s t) (b : Spares h t u) : Spares h s u :=
  ⟨b.queue.trans a.queue, fun n c => (b.jobs n c).trans (a.jobs n c), a.bodies.trans b.bodies,
   fun i k c => b.unnamed i k (a.unnamed i k c), b.generation.trans a.generation⟩

theorem Spares.congr {h : Nat} {s t u : State} (a : Spares h s t) (engine : u.engine = t.engine) (mu : u.mu = t.mu) :
    Spares h s u :=
  ⟨by rw [engine, a.queue], fun n c => by rw [engine, a.jobs n c], fun i _ => by rw [mu]; exact a.bodies i id,
   fun i k c => by rw [mu]; exact a.unnamed i k c, by rw [mu, a.generation]⟩

theorem Decoded.jobs {s t : State} (k : Decoded s t) : t.engine.jobs = s.engine.jobs := by
  have h := congrArg Engine.jobs k.engine
  exact h

theorem Decoded.running {s t : State} (k : Decoded s t) : t.engine.running = s.engine.running := by
  have h := congrArg Engine.running k.engine
  exact h

theorem Decoded.stopping {s t : State} (k : Decoded s t) : t.engine.stopping = s.engine.stopping := by
  have h := congrArg Engine.stopping k.engine
  exact h

theorem Decoded.runningJob {s t : State} (k : Decoded s t) : runningJob t.engine = runningJob s.engine := by
  unfold Machine.runningJob jobOf
  rw [k.running, k.jobs]

theorem Decoded.spares {s t : State} (k : Decoded s t) (h : Nat) : Spares h s t :=
  ⟨k.aborted.queue, fun n _ => by rw [jobOf, k.jobs]; rfl, fun i _ => by rw [k.mu]; exact ⟨rfl, rfl⟩,
   fun i n c => by rwa [k.mu], by rw [k.mu]⟩

/-- The end of a stop with nothing queued: the lock is released and the job finishes with its stop request's outcome
(R100, R101). -/
theorem stopFinish_eq {h : Nat} {j : Job} {s : State} (runs : runningJob s.engine = some (h, j))
    {stop : Stop} (life : j.life = .running (some stop)) : ∃ v, Decoded { s with engine.stopping := true } v
      ∧ stopFinish s = startNext (finished h j stop.outcome v) := by
  have released := decoded_releaseLock { s with engine.stopping := true }
  have runsV := released.runningJob.trans (show runningJob { s with engine.stopping := true }.engine = _ from runs)
  refine ⟨_, released, ?_⟩
  rw [stopFinish]
  dsimp only
  rw [runsV]
  dsimp only
  rw [Job.stop, life]
  dsimp only
  rw [finishJob_running runsV]

/-- The reset signal at the running job: what it leaves, by its phase and its requests. -/
theorem abortRunning_ends {s : State} {h : Nat} {j : Job} (runs : runningJob s.engine = some (h, j))
    (live : j.isRunning = true) (queue : s.engine.queue = []) :
    Spares h s (abortRunning s)
    ∧ (ResetFinishes s j → jobOf (abortRunning s).engine h = some { j with life := .finished .resetAborted }
      ∧ (descOf (abortRunning s).mu.slots j.region).bind Descriptor.job ≠ some h ∧ (abortRunning s).engine.running = none
      ∧ (abortRunning s).engine.lock = none ∧ (abortRunning s).engine.blockStep = none
      ∧ (abortRunning s).engine.stopping = false ∧ (abortRunning s).engine.switchTimer = none
      ∧ (j.phase = some .switch → (abortRunning s).ift.switchSpan = none)
      ∧ (abortRunning s).log = takeNotice s.mu.generation (.jobFinished h .resetAborted) s.log)
    ∧ (j.phase ≠ some .switch → ¬ResetFinishes s j →
      jobOf (abortRunning s).engine h = some { j with life := .running (some .reset) }
      ∧ (abortRunning s).engine.running = some h ∧ (abortRunning s).engine.stopping = true
      ∧ (∀ n : Lane, ∀ w ∈ ((abortRunning s).lanes.get n).waiting, w.req.fromEngine = false)
      ∧ (abortRunning s).log = s.log) := by
  have runs' := stoppingState_runs runs
  have spares := spares_stopping runs
  have is : abortRunning s = if j.phase = some .switch then endSwitch .resetAborted (stoppingState h j s)
      else if engineOpen (withdraw Request.fromEngine (stoppingState h j s)).lanes = 0 then
        stopFinish (withdraw Request.fromEngine (stoppingState h j s))
      else withdraw Request.fromEngine (stoppingState h j s) := by
    rw [abortRunning, runs]
    dsimp only
    rw [raiseReset_running runs live]
  by_cases phase : j.phase = some .switch
  · rw [is, if_pos phase]
    cases span : s.ift.switchSpan with
    | none =>
      have stays : endSwitch .resetAborted (stoppingState h j s) = stoppingState h j s := by
        have none : (stoppingState h j s).ift.switchSpan = none := span
        rw [endSwitch, runs', none]
      rw [stays]
      refine ⟨spares, fun fin => ?_, fun c => absurd phase c⟩
      rcases fin with ⟨_, c⟩ | ⟨c, _⟩
      · exact absurd span c
      · exact absurd phase c
    | some sp =>
      have ended := endSwitch_eq (s := stoppingState h j s) runs' span .resetAborted
      rw [startNext_empty (by exact queue)] at ended
      have released := trails_releaseHeld .switch sp
        (finished h { j with life := .running (some .reset) } .resetAborted { stoppingState h j s with ift.switchSpan := none })
      have decoded := decoded_releaseHeld .switch sp
        (finished h { j with life := .running (some .reset) } .resetAborted { stoppingState h j s with ift.switchSpan := none })
      have fin := spares_finished (s := { stoppingState h j s with ift.switchSpan := none }) runs' .resetAborted
      rw [ended]
      refine ⟨((spares.congr (u := { stoppingState h j s with ift.switchSpan := none }) rfl rfl).trans fin).trans
          (decoded.spares h),
        fun _ => ⟨?_, ?_, released.running, released.lock, released.step rfl, decoded.stopping, released.timer,
          fun _ => released.span, decoded.log⟩, fun c => absurd phase c⟩
      · rw [released.jobOf, finished_job (s := { stoppingState h j s with ift.switchSpan := none }) runs', if_pos rfl]
      · rw [released.mu]
        exact clearedSlots_field j.region h _
  · rw [is, if_neg phase]
    have openIff := engineOpen_withdrawn (stoppingState h j s)
    have finIff : ResetFinishes s j ↔ engineOpen (withdraw Request.fromEngine (stoppingState h j s)).lanes = 0 := by
      rw [openIff]
      exact ⟨fun k => k.elim (fun c => absurd c.1 phase) fun c => c.2, fun k => .inr ⟨phase, k⟩⟩
    by_cases over_ : engineOpen (withdraw Request.fromEngine (stoppingState h j s)).lanes = 0
    · rw [if_pos over_]
      obtain ⟨v, decoded, ended⟩ := stopFinish_eq (s := withdraw Request.fromEngine (stoppingState h j s)) runs' rfl
      have runsV : runningJob v.engine = some (h, { j with life := .running (some .reset) }) :=
        decoded.runningJob.trans runs'
      have queueV : v.engine.queue = [] := decoded.aborted.queue.trans queue
      rw [startNext_empty (by exact queueV)] at ended
      have withdrawn : Spares h s
          { withdraw Request.fromEngine (stoppingState h j s) with engine.stopping := true } := spares.congr rfl rfl
      have first : Spares h s v := withdrawn.trans (decoded.spares h)
      rw [ended]
      refine ⟨first.trans (spares_finished runsV _), fun _ => ⟨?_, clearedSlots_field j.region h _, rfl, rfl, rfl, rfl, rfl,
        fun c => absurd c phase, ?_⟩, fun _ c => absurd (finIff.mpr over_) c⟩
      · rw [finished_job runsV, if_pos rfl]
        rfl
      · show takeNotice v.mu.generation _ v.log = _
        rw [decoded.mu, decoded.log]
        rfl
    · rw [if_neg over_]
      refine ⟨spares.congr rfl rfl, fun c => absurd (finIff.mp c) over_, fun _ _ => ⟨(runningJob_eq.mp runs').2, (runningJob_eq.mp runs').1,
        rfl, fun n w m => ?_, rfl⟩⟩
      rw [withdraw_lane] at m
      simpa using (List.mem_filter.mp m).2

/-- The reset signal at the copy engine (R106). -/
theorem resetJobs_ends {s : State} (wf : s.engine.Wf) : ResetEnds s (resetJobs s) fun last =>
    (resetJobs s).log = posted s.mu.generation (abortNotices s.engine.queue ++ last) s.log := by
  obtain ⟨run, _, distinct, queued, _⟩ := wf
  have waits : ∀ k ∈ s.engine.queue, jobOf s.engine k ≠ none ∧ s.engine.running ≠ some k := fun k m => by
    have q := (queued k).mp m
    refine ⟨fun e => (by rw [e] at q; cases q), fun e => ?_⟩
    have r := (run k).mp e
    cases at_ : jobOf s.engine k with
    | none => rw [at_] at q; cases q
    | some j =>
      rw [at_, Option.any_some] at q r
      unfold Job.isQueued at q
      unfold Job.isRunning at r
      cases life : j.life <;> simp [life] at q r
  obtain ⟨v, hv⟩ : ∃ v, v = abortQueued s.engine.queue { s with engine.queue := [] } := ⟨_, rfl⟩
  have first : QueuedEnd s.engine.queue { s with engine.queue := [] } v :=
    hv ▸ abortQueued_end s.engine.queue { s with engine.queue := [] } distinct waits
  have is : resetJobs s = abortRunning v := by rw [hv]; rfl
  rw [is]
  clear is hv
  obtain ⟨same, jobs, bodies, cleared, _⟩ := first
  have log : v.log = posted s.mu.generation (abortNotices s.engine.queue) s.log := by rw [same]
  have generation : v.mu.generation = s.mu.generation := by rw [same]
  have queue : v.engine.queue = [] := by rw [same]
  have running : v.engine.running = s.engine.running := by rw [same]
  have told : ∀ info, takeNotice v.mu.generation info v.log
      = posted s.mu.generation (abortNotices s.engine.queue ++ [info]) s.log := fun info => by
    rw [generation, log, posted_append]
    rfl
  have done : ∀ k q, k ∈ s.engine.queue → jobOf s.engine k = some q →
      jobOf v.engine k = some { q with life := .finished .resetAborted } := fun k q m at_ => by
    rw [jobs, if_pos m]
    show (jobOf s.engine k).map _ = _
    rw [at_]
    rfl
  cases r : s.engine.running with
  | none =>
    have none : runningJob v.engine = Option.none := by rw [runningJob, running, r]; rfl
    have stays : abortRunning v = v := by rw [abortRunning, none]
    have noJob : ∀ h j, runningJob s.engine = some (h, j) → False := fun h j c => by
      rw [runningJob, r] at c; cases c
    rw [stays]
    exact ⟨queue, fun k q m at_ => ⟨done k q m at_, cleared k m q at_⟩, generation, bodies,
      fun _ => ⟨running.trans r, by rw [log, List.append_nil]⟩, fun h j c => (noJob h j c).elim,
      fun h j c => (noJob h j c).elim⟩
  | some h =>
    have live := (run h).mp r
    cases at_ : jobOf s.engine h with
    | none => rw [at_] at live; cases live
    | some j =>
      rw [at_, Option.any_some] at live
      have notQueued : h ∉ s.engine.queue := fun m => (waits h m).2 r
      have runsV : runningJob v.engine = some (h, j) := by
        refine runningJob_eq.mpr ⟨running.trans r, ?_⟩
        rw [jobs, if_neg notQueued]
        exact at_
      have only : ∀ n q, runningJob s.engine = some (n, q) → n = h ∧ q = j := fun n q c => by
        rw [runningJob, r, Option.bind_some, at_] at c
        cases c
        exact ⟨rfl, rfl⟩
      have same' : ResetFinishes v j ↔ ResetFinishes s j := by rw [same]; rfl
      obtain ⟨spares, ends, stops⟩ := abortRunning_ends runsV live queue
      refine ⟨spares.queue.trans queue, fun k q m c => ⟨?_, ?_⟩, spares.generation.trans generation,
        KeepsMap.trans (t := v) bodies spares.bodies, fun c => absurd (r.symm.trans c) nofun, fun n q c fin => ?_, fun n q c phase stays => ?_⟩
      · rw [spares.jobs k fun e => notQueued (e ▸ m), done k q m c]
      · exact spares.unnamed _ _ (cleared k m q c)
      · obtain ⟨rfl, rfl⟩ := only n q c
        obtain ⟨h1, h2, h3, h4, h5, h6, h7, h8, h9⟩ := ends (same'.mpr fin)
        exact ⟨h1, h2, h3, h4, h5, h6, h7, h8, h9.trans (told _)⟩
      · obtain ⟨rfl, rfl⟩ := only n q c
        obtain ⟨h1, h2, h3, h4, h5⟩ := stops phase (mt same'.mp stays)
        exact ⟨h1, h2, h3, h4, by rw [h5, log, List.append_nil]⟩

/-! ### A stopping job presents nothing (R100) -/

/-- While a job stops, whatever newly waits at a lane comes from the host. -/
def HostOnly (s t : State) : Prop := s.engine.stopping = true → t.engine.stopping = true
  ∧ ∀ n : Lane, ∀ w ∈ (t.lanes.get n).waiting, w ∈ (s.lanes.get n).waiting ∨ w.req.fromEngine = false

theorem HostOnly.refl (s : State) : HostOnly s s := fun k => ⟨k, fun _ _ m => .inl m⟩

theorem HostOnly.trans {s t u : State} (h : HostOnly s t) (k : HostOnly t u) : HostOnly s u := fun stops => by
  obtain ⟨stopsT, fromT⟩ := h stops
  obtain ⟨stopsU, fromU⟩ := k stopsT
  refine ⟨stopsU, fun n w m => ?_⟩
  rcases fromU n w m with c | c
  · exact fromT n w c
  · exact .inr c

theorem hostOnly_of {s t : State} (lanes : t.lanes = s.lanes) (stopping : t.engine.stopping = s.engine.stopping) :
    HostOnly s t := fun k => ⟨stopping.trans k, fun n w m => .inl (by rwa [lanes] at m)⟩

theorem present_lane (n : Lane) (reqs : List Request) (s : State) (m : Lane) : (present n reqs s).lanes.get m =
    if m = n then { s.lanes.get n with waiting := (s.lanes.get n).waiting ++ reqs.map fun r =>
      { req := r, timer := (s.lanes.get n).timeout } } else s.lanes.get m := PerLane.get_modify ..

theorem hostOnly_present (n : Lane) {r : Request} (host : r.fromEngine = false) (s : State) :
    HostOnly s (present n [r] s) := fun k => ⟨k, fun m w mem => by
  rw [present_lane] at mem
  split at mem
  · rename_i same
    subst same
    rcases List.mem_append.mp mem with c | c
    · exact .inl c
    · obtain rfl := List.mem_singleton.mp c
      exact .inr host
  · exact .inl mem⟩

theorem enterTransfer_stopping {s : State} (h : s.engine.stopping = true) : enterTransfer s = s := by
  unfold enterTransfer
  split
  · rw [if_pos h]
  · rfl

theorem hostOnly_writeWaitFalls (s : State) : HostOnly s (writeWaitFalls s) := by
  unfold writeWaitFalls
  split
  · exact HostOnly.refl s
  · dsimp only
    split
    · intro k
      rw [enterTransfer_stopping (by exact k)]
      exact hostOnly_of rfl rfl k
    · exact hostOnly_of rfl rfl

theorem hostOnly_presentLegs (e : Entry) (legs : List LegUse) : ∀ s : State, HostOnly s (presentLegs e legs s) := by
  induction legs with
  | nil => exact HostOnly.refl
  | cons u rest ih => exact fun s => (hostOnly_present _ rfl s).trans (ih _)

theorem hostOnly_presentShadows (e : Entry) (legs : List ShadowUse) :
    ∀ (i : Nat) (s : State), HostOnly s (presentShadows e i legs s) := by
  induction legs with
  | nil => exact fun _ s => HostOnly.refl s
  | cons u rest ih => exact fun i s => (hostOnly_present _ rfl s).trans (ih (i + 1) _)

theorem hostOnly_continueDecode (slot : Nat) (s : State) : HostOnly s (continueDecode slot s) := by
  unfold continueDecode
  split
  · exact HostOnly.refl s
  · split
    · exact HostOnly.refl s
    · split
      · exact hostOnly_of rfl rfl
      · split
        · exact hostOnly_of rfl rfl
        · refine HostOnly.trans ?_ (hostOnly_presentShadows _ _ _ _)
          refine HostOnly.trans ?_ (hostOnly_presentLegs _ _ _)
          exact hostOnly_of rfl rfl

theorem hostOnly_continueDecodes (slots : List Nat) : ∀ s : State, HostOnly s (continueDecodes slots s) := by
  induction slots with
  | nil => exact HostOnly.refl
  | cons n rest ih => exact fun s => (hostOnly_continueDecode n s).trans (ih _)

theorem hostOnly_becomeKnown (slot : Nat) (code : Code) (data : LineData) (s : State) :
    HostOnly s (becomeKnown slot code data s) := by
  have first : ∀ f slots, HostOnly s (continueDecodes slots (modifyEntry slot f s)) := fun f slots =>
    HostOnly.trans (t := modifyEntry slot f s) (hostOnly_of rfl rfl) (hostOnly_continueDecodes _ _)
  unfold becomeKnown
  split
  · exact HostOnly.refl s
  · dsimp only
    split
    · exact (first _ _).trans (hostOnly_writeWaitFalls _)
    · exact first _ _

theorem hostOnly_fullDecode (slot : Nat) (s : State) : HostOnly s (fullDecode slot s) := by
  unfold fullDecode
  split
  · exact HostOnly.refl s
  · split
    · exact hostOnly_of rfl rfl
    · split
      · refine HostOnly.trans ?_ (hostOnly_becomeKnown _ _ _ _)
        exact hostOnly_of rfl rfl
      · dsimp only
        split
        · refine HostOnly.trans ?_ (hostOnly_becomeKnown _ _ _ _)
          exact hostOnly_of rfl rfl
        · refine HostOnly.trans ?_ (hostOnly_continueDecode _ _)
          exact hostOnly_of rfl rfl

theorem hostOnly_fullDecodes (slots : List Nat) : ∀ s : State, HostOnly s (fullDecodes slots s) := by
  induction slots with
  | nil => exact HostOnly.refl
  | cons n rest ih => exact fun s => (hostOnly_fullDecode n s).trans (ih _)

/-- The end of a commit leaves the copy engine's lock and step, and while a job stops only host requests join. -/
theorem endCommit_engine {s : State} {d : CommitDrain} (h : s.mu.commit.drain = some d) (result : CommitResult) :
    EngineSame s.engine (endCommit result s).engine ∧ HostOnly s (endCommit result s) := by
  have closed : HostOnly s { s with mu.commit := { drain := none, last := result }, ift.commitSpan := none } :=
    hostOnly_of rfl rfl
  unfold endCommit
  rw [h]
  cases s.ift.commitSpan with
  | none => exact ⟨EngineSame.refl _, closed.trans (hostOnly_of rfl rfl)⟩
  | some sp =>
    have released := same_releaseHeld .commit sp
      { s with mu.commit := { drain := none, last := result }, ift.commitSpan := none }
    exact ⟨released.engine, closed.trans ((hostOnly_fullDecodes _ _).trans (hostOnly_of rfl rfl))⟩

/-! ### The close of a reset's event -/

theorem grantMany_waiting (entries : List Entry) (share n : Nat) :
    ∀ p : LanePort, ∀ w ∈ (grantMany entries share n p).waiting, w ∈ p.waiting := by
  induction n with
  | zero => exact fun _ _ m => m
  | succ n ih =>
    intro p w m
    rw [grantMany] at m
    cases granted : grantOne entries share p with
    | none => rwa [granted] at m
    | some q =>
      rw [granted] at m
      obtain ⟨_, v, _, rfl | ⟨b, rfl⟩⟩ := grantOne_some granted
      · exact List.mem_of_mem_erase (ih _ w m)
      · rw [← (windowAfter_fields b p).1]
        exact List.mem_of_mem_erase (ih _ w m)

/-- Moving the sequence on leaves no lane with a request it did not have. -/
theorem advanceSequence_waiting (s : State) (n : Lane) :
    ((advanceSequence s).lanes.get n).waiting = (s.lanes.get n).waiting := by
  have drain : ((drainStep s).lanes.get n).waiting = (s.lanes.get n).waiting := by
    unfold drainStep
    split
    · rw [leaveEntryDrain, startQuiesce_lane]
      split <;> rfl
    · rfl
  have complete : ((completeQuiesces (drainStep s)).lanes.get n).waiting = ((drainStep s).lanes.get n).waiting := by
    rw [completeQuiesces_lane]
    split <;> rfl
  have quiesce : ∀ u : State, (quiesceStep u).lanes = u.lanes := fun u => by
    unfold quiesceStep
    split
    · split <;> rfl
    · rfl
  have hold : ∀ u : State, (holdStep u).lanes = u.lanes := fun u => by
    unfold holdStep
    split <;> rfl
  rw [advanceSequence, hold, quiesce, complete, drain]

theorem settle_waiting {s : State} (fresh : (s.mu.commit.drain.any fun d => d.stale) = false) (n : Lane) :
    ∀ w ∈ ((settle s).lanes.get n).waiting, w ∈ (s.lanes.get n).waiting := by
  intro w m
  rw [settle_fresh fresh] at m
  have m : w ∈ ((advanceSequence (refreshPhases (grantAll s))).lanes.get n).waiting := m
  rw [advanceSequence_waiting] at m
  have m : w ∈ ((s.lanes.map (grantLane s.ift.entries s.engine.share)).get n).waiting := m
  rw [PerLane.get_map] at m
  exact grantMany_waiting _ _ _ _ w m

theorem advanceSequence_log {s : State} (held : s.srst = true ∨ s.ift.entries ≠ []) : (advanceSequence s).log = s.log := by
  have drain : (drainStep s).log = s.log ∧ (drainStep s).srst = s.srst := by
    unfold drainStep
    split <;> exact ⟨rfl, rfl⟩
  have rest : (completeQuiesces (drainStep s)).srst = true ∨ (completeQuiesces (drainStep s)).ift.entries ≠ [] := by
    have srst : (completeQuiesces (drainStep s)).srst = s.srst := drain.2
    have table : (completeQuiesces (drainStep s)).ift = s.ift := drainStep_ift s
    rwa [srst, table]
  have quiesce : ∀ u : State, u.srst = true ∨ u.ift.entries ≠ [] →
      (quiesceStep u).log = u.log ∧ (quiesceStep u).srst = u.srst := fun u k => by
    unfold quiesceStep
    rw [if_pos (c := u.srst = true ∨ u.ift.entries ≠ []) k]
    split <;> exact ⟨rfl, rfl⟩
  have hold : ∀ u : State, u.srst = true ∨ u.ift.entries ≠ [] → (holdStep u).log = u.log := fun u k => by
    unfold holdStep
    refine if_neg (fun c => ?_) |>.symm ▸ rfl
    rcases k with k | k
    · exact absurd (k.symm.trans c.2.1) nofun
    · exact k c.2.2
  obtain ⟨log, srst⟩ := quiesce _ rest
  have table := quiesceStep_ift (completeQuiesces (drainStep s))
  rw [advanceSequence, hold _ (by rwa [srst, table]), log]
  exact drain.1

/-- The close of an event posts nothing while a reset keeps the sequence from ending. -/
theorem settle_log {s : State} (fresh : (s.mu.commit.drain.any fun d => d.stale) = false)
    (held : s.srst = true ∨ s.ift.entries ≠ []) : (settle s).log = s.log := by
  rw [settle_fresh fresh]
  have kept : (refreshPhases (grantAll s)).srst = true ∨ (refreshPhases (grantAll s)).ift.entries ≠ [] :=
    held.imp_right fun k c => k (List.map_eq_nil_iff.mp c)
  exact advanceSequence_log kept

/-- What follows the reset signal in its event: the copy engine, the map's slots and the switch span stay, and while a
job stops only host requests join the wait lists. -/
structure Follows (s t : State) : Prop where
  jobs : t.engine.jobs = s.engine.jobs
  queue : t.engine.queue = s.engine.queue
  running : t.engine.running = s.engine.running
  stopping : t.engine.stopping = s.engine.stopping
  timer : t.engine.switchTimer = s.engine.switchTimer
  lock : t.engine.lock = s.engine.lock
  step : s.engine.blockStep = none → t.engine.blockStep = none
  slots : t.mu.slots = s.mu.slots
  generation : t.mu.generation = s.mu.generation
  span : t.ift.switchSpan = s.ift.switchSpan
  waiting : HostOnly s t

theorem Follows.trans {s t u : State} (h : Follows s t) (k : Follows t u) : Follows s u :=
  ⟨k.jobs.trans h.jobs, k.queue.trans h.queue, k.running.trans h.running, k.stopping.trans h.stopping, k.timer.trans h.timer,
   k.lock.trans h.lock, fun c => k.step (h.step c), k.slots.trans h.slots, k.generation.trans h.generation,
   k.span.trans h.span, h.waiting.trans k.waiting⟩

theorem follows_of {s t : State} (engine : t.engine = s.engine) (slots : t.mu.slots = s.mu.slots)
    (generation : t.mu.generation = s.mu.generation) (span : t.ift.switchSpan = s.ift.switchSpan)
    (waiting : ∀ n : Lane, ∀ w ∈ (t.lanes.get n).waiting, w ∈ (s.lanes.get n).waiting) : Follows s t :=
  ⟨by rw [engine], by rw [engine], by rw [engine], by rw [engine], by rw [engine], by rw [engine], fun c => by rwa [engine],
   slots, generation, span, fun k => ⟨by rwa [engine], fun n w m => .inl (waiting n w m)⟩⟩

theorem follows_settle {s : State} (fresh : (s.mu.commit.drain.any fun d => d.stale) = false) : Follows s (settle s) := by
  obtain ⟨mu, engine, _⟩ := settle_blocks fresh
  exact follows_of engine (by rw [mu]) (by rw [mu]) (settle_switchSpan fresh) (settle_waiting fresh)

theorem follows_startQuiesce (s : State) : Follows s (startQuiesce s) :=
  follows_of rfl rfl rfl rfl fun n w m => by
    rw [startQuiesce_lane] at m
    split at m <;> exact m

theorem follows_endCommit (result : CommitResult) (s : State) : Follows s (endCommit result s) := by
  cases h : s.mu.commit.drain with
  | none =>
    rw [endCommit_idle h]
    exact follows_of rfl rfl rfl rfl fun _ _ m => m
  | some d =>
    have ends := endCommit_decoded h result
    obtain ⟨engine, waiting⟩ := endCommit_engine h result
    refine ⟨ends.jobs, ends.aborted.queue, ends.running, ends.stopping, ?_, engine.lock, fun c => ?_, by rw [ends.mu],
      by rw [ends.mu], ends.switchSpan, waiting⟩
    · have k := congrArg Engine.switchTimer ends.engine
      exact k
    · have k := engine.block
      rw [c] at k
      exact Option.map_eq_none_iff.mp k

/-! ### Resets end jobs and the commit (O52) -/

theorem ResetEnds.follows {s t u : State} {logs logs' : List NoticeInfo → Prop} (h : ResetEnds s t logs) (k : Follows t u)
    (log : ∀ last, logs last → logs' last) : ResetEnds s u logs' := by
  have job : ∀ n, jobOf u.engine n = jobOf t.engine n := fun n => by rw [jobOf, k.jobs]; rfl
  refine ⟨k.queue.trans h.queue, fun n q m at_ => ?_, k.generation.trans h.generation, fun i c => ?_, fun c => ?_,
    fun n j runs fin => ?_, fun n j runs phase stays => ?_⟩
  · rw [job, k.slots]
    exact h.queued n q m at_
  · rw [k.slots]
    exact h.bodies i c
  · obtain ⟨none, l⟩ := h.idle c
    exact ⟨k.running.trans none, log _ l⟩
  · obtain ⟨at_, field, running, lock, step, stopping, timer, span, l⟩ := h.ends n j runs fin
    rw [job, k.slots, k.running, k.lock, k.stopping, k.timer, k.span]
    exact ⟨at_, field, running, lock, k.step step, stopping, timer, span, log _ l⟩
  · obtain ⟨at_, running, stopping, waiting, l⟩ := h.stops n j runs phase stays
    rw [job, k.running, k.stopping]
    refine ⟨at_, running, stopping, fun m w hw => ?_, log _ l⟩
    rcases (k.waiting stopping).2 m w hw with c | c
    · exact waiting m w c
    · exact c

theorem ResetEnds.base {b s t : State} {logs : List NoticeInfo → Prop} (h : ResetEnds b t logs) (engine : b.engine = s.engine)
    (slots : b.mu.slots = s.mu.slots) (generation : b.mu.generation = s.mu.generation)
    (fin : ∀ j, ResetFinishes b j ↔ ResetFinishes s j) : ResetEnds s t logs := by
  obtain ⟨queue, queued, gen, bodies, idle, ends, stops⟩ := h
  unfold KeepsMap at bodies
  rw [engine] at queued idle ends stops
  rw [slots] at bodies
  exact ⟨queue, queued, gen.trans generation, bodies, idle, fun n j runs c => ends n j runs ((fin j).mpr c),
    fun n j runs phase c => stops n j runs phase (mt (fin j).mp c)⟩

/-- The notice of an abandoned commit (R87). -/
def abandonNotice (s : State) : List NoticeInfo :=
  (s.mu.commit.drain.bind fun c => c.members.head?).toList.map fun m => .commitFinished m.slot .resetAborted

/-- The commit's part of a reset: what it leaves of the record, of the span and of the log. -/
theorem endCommit_reset {s : State} (members : ∀ c, s.mu.commit.drain = some c → c.members ≠ []) :
    (endCommit .resetAborted s).mu.commit
      = (if s.mu.commit.drain = none then s.mu.commit else { drain := none, last := .resetAborted })
    ∧ (s.mu.commit.drain ≠ none → (endCommit .resetAborted s).ift.commitSpan = none)
    ∧ (endCommit .resetAborted s).log = posted s.mu.generation (abandonNotice s) s.log := by
  cases h : s.mu.commit.drain with
  | none =>
    rw [endCommit_idle h]
    refine ⟨(if_pos rfl).symm, fun c => absurd rfl c, ?_⟩
    rw [abandonNotice, h]
    rfl
  | some d =>
    have ends := endCommit_decoded h .resetAborted
    refine ⟨by rw [ends.mu, if_neg nofun], fun _ => ends.commitSpan, ?_⟩
    rw [ends.log, abandonNotice, h, Option.bind_some]
    cases m : d.members with
    | nil => exact absurd m (members d h)
    | cons a rest =>
      rw [CommitDrain.subject, m]
      rfl

/-- A reset taken in OPEN, from the jobs' end on: the commit is abandoned, and `close` is what follows in the event. -/
theorem reset_ended {s b t : State} {whole : Prop} (wf : s.engine.Wf)
    (members : ∀ c, s.mu.commit.drain = some c → c.members ≠ []) (engine : b.engine = s.engine)
    (slots : b.mu.slots = s.mu.slots) (generation : b.mu.generation = s.mu.generation) (commit : b.mu.commit = s.mu.commit)
    (log : b.log = s.log) (fin : ∀ j, ResetFinishes b j ↔ ResetFinishes s j)
    (close : Follows (endCommit .resetAborted (resetJobs b)) t)
    (closeCommit : t.mu.commit = (endCommit .resetAborted (resetJobs b)).mu.commit)
    (closeSpan : t.ift.commitSpan = (endCommit .resetAborted (resetJobs b)).ift.commitSpan)
    (closeLog : whole → t.log = (endCommit .resetAborted (resetJobs b)).log) :
    ResetEnds s t (fun last => whole → t.log
      = posted s.mu.generation (abortNotices s.engine.queue ++ last ++ abandonNotice s) s.log)
    ∧ t.mu.commit = (if s.mu.commit.drain = none then s.mu.commit else { drain := none, last := .resetAborted })
    ∧ (s.mu.commit.drain ≠ none → t.ift.commitSpan = none) := by
  have ends := (resetJobs_ends (s := b) (engine ▸ wf)).base engine slots generation fin
  have same : (resetJobs b).mu.commit = s.mu.commit := (aborted_resetJobs b).commit.trans commit
  obtain ⟨record, span, logged⟩ := endCommit_reset (s := resetJobs b) (by rw [same]; exact members)
  rw [same] at record span
  refine ⟨ends.follows ((follows_endCommit _ _).trans close) fun last l w => ?_, closeCommit.trans record,
    fun c => closeSpan.trans (span c)⟩
  have notice : abandonNotice (resetJobs b) = abandonNotice s := by rw [abandonNotice, same]; rfl
  rw [closeLog w, logged, l, notice, ends.generation, posted_append _ (_ ++ last), engine, generation, log]

/-- Settles O52: by the end of each queued job, the end or the stop of the running one, and the commit's. -/
theorem resetEndsJobsAndCommit : Obligations.ResetEndsJobsAndCommit := by
  intro s power opened wf members finishes told logs ended
  have whole : ∀ {t : State} {w : Prop}, ResetEnds s t (fun last => w → t.log
        = posted s.mu.generation (abortNotices s.engine.queue ++ last ++ abandonNotice s) s.log)
      ∧ t.mu.commit = (if s.mu.commit.drain = none then s.mu.commit else { drain := none, last := .resetAborted })
      ∧ (s.mu.commit.drain ≠ none → t.ift.commitSpan = none) → ended t w := fun ⟨h, commit, span⟩ =>
    ⟨h.queue, h.queued, commit, span, h.generation, fun i => h.bodies i id, h.idle, fun n j runs =>
      ⟨h.ends n j runs, h.stops n j runs⟩⟩
  refine ⟨fun pin => ?_, fun tag r => ?_⟩
  · have taken : exec .srstNAssert s = .next (settle (warmReset { s with srst := true })) := by
      show execSrstNAssert s = _
      unfold execSrstNAssert
      simp [pin, power, isOpen, opened]
    refine ⟨_, taken, whole ?_⟩
    obtain ⟨drain, _, _, _⟩ := abandoned (resetJobs (discardEntries { s with srst := true }))
    have fresh := stale_none (s := warmReset { s with srst := true }) drain
    have reset := (inReset_warmReset (s := { s with srst := true }) rfl)
    have lane : ∀ n : Lane, ((discardEntries { s with srst := true }).lanes.get n).outstanding
        = (s.lanes.get n).outstanding.map fun o => { o with req := o.req.orphan fun _ => true } := fun n => by
      cases n <;> rfl
    refine reset_ended (b := discardEntries { s with srst := true }) wf members rfl rfl rfl rfl rfl (fun j => ?_)
      (((follows_startQuiesce (endCommit .resetAborted (resetJobs (discardEntries { s with srst := true })))).trans
        (u := warmReset { s with srst := true }) (follows_of rfl rfl rfl rfl fun _ _ m => m)).trans
        (follows_settle fresh)) ?_ ?_ fun _ => settle_log fresh (.inl reset.1)
    · have own : ∀ r : Request, (r.orphan fun _ => true).fromEngine = r.fromEngine := fun r => by
        unfold Request.orphan
        cases q : r.requester <;> simp [Request.fromEngine, q]
      have span : (discardEntries { s with srst := true }).ift.switchSpan ≠ none ↔ s.ift.switchSpan ≠ none := by
        show s.ift.switchSpan.map _ ≠ none ↔ _
        rw [Ne, Option.map_eq_none_iff]
      unfold ResetFinishes
      rw [span]
      refine or_congr Iff.rfl (and_congr_right fun _ => forall_congr' fun n => ?_)
      rw [lane]
      simp [own]
    · rw [(settle_blocks fresh).1]
      rfl
    · rw [settle_commitSpan fresh]
      rfl
  · refine ⟨_, exec_bridgeReset tag r opened, whole ?_⟩
    obtain ⟨drain, _, _, _⟩ := abandoned (resetJobs s.listening)
    have fresh := stale_none (s := commandReset s.listening) drain
    have entries : (commandReset s.listening).ift.entries.map Entry.identity = s.ift.entries.map Entry.identity :=
      (kept_commandReset s.listening).entries
    refine reset_ended (b := s.listening) wf members rfl rfl rfl rfl rfl (fun j => Iff.rfl)
      (Follows.trans (t := commandReset s.listening) (follows_of rfl rfl rfl rfl fun _ _ m => m) (follows_settle fresh)) ?_ ?_ fun w => settle_log fresh (.inr ?_)
    · rw [(settle_blocks fresh).1]
      rfl
    · rw [settle_commitSpan fresh]
      rfl
    · intro c
      rw [c] at entries
      exact w (List.map_eq_nil_iff.mp entries.symm)

end Sys2Proof.Machine

/-! PROOF. The outcomes of one engine request at its line of the block step (O46, O47). -/

namespace Sys2Proof.Machine

open Sys2Proof

/-! ### The state an engine request's outcome finds and leaves -/

/-- The running job h with its record j stands at line i of its block step and does not stop. -/
structure AtLine (s : State) (h : Nat) (j : Job) (st : BlockStep) (i : Nat) (l : LineState) (d : Descriptor)
    (stop : Option Stop) : Prop where
  runs : runningJob s.engine = some (h, j)
  step : s.engine.blockStep = some st
  line : st.lines[i]? = some l
  region : descOf s.mu.slots j.region = some d
  goes : s.engine.stopping = false
  life : j.life = .running stop

/-- The record of the copy engine about a line (R129). -/
def engineFault (kind : FaultKind) (lane : Lane) (region : Nat) (hostLine : Option Nat) (line h : Nat) : FaultInfo :=
  { kind := kind, lane := some lane, region := some region, hostLine := hostLine, laneLine := some line, job := some h }

/-- A state with line i of its block step as l, the running job's record as j, and a log and lanes as given. -/
def outcomeState (h i : Nat) (st : BlockStep) (l : LineState) (j : Job) (log : FaultLog) (lanes : PerLane LanePort)
    (s : State) : State :=
  { s with
    engine := { s.engine with
      blockStep := some { st with lines := st.lines.set i l }
      jobs := s.engine.jobs.set h (some j) }
    log := log, lanes := lanes }

/-- What the outcome of an engine request leaves: the line, the job's record, the log, and the requests asked. -/
structure LineOutcome (s t : State) (h i : Nat) (st : BlockStep) (l : LineState) (j : Job) (log : FaultLog)
    (asked : List (Lane × Request)) : Prop where
  rest : t = outcomeState h i st l j log t.lanes s
  asks : ∀ q ∈ asked, (t.lanes.get q.1).Has q.2
  open_ : engineOpen s.lanes ≤ engineOpen t.lanes
  still : asked = [] → t.lanes = s.lanes

theorem lineOutcome_of {s t : State} {h i : Nat} {st : BlockStep} {l : LineState} {j : Job} {log : FaultLog}
    (e : t = outcomeState h i st l j log s.lanes s) : LineOutcome s t h i st l j log [] := by
  have lanes : t.lanes = s.lanes := by rw [e]; rfl
  exact ⟨by rw [lanes]; exact e, fun _ m => absurd m List.not_mem_nil, by rw [lanes], fun _ => lanes⟩

section
variable {s : State} {h i : Nat} {j : Job} {st : BlockStep} {l : LineState} {d : Descriptor} {stop : Option Stop}

theorem AtLine.same_job (a : AtLine s h j st i l d stop) : s.engine.jobs.set h (some j) = s.engine.jobs := by
  have at_ := (runningJob_eq.mp a.runs).2
  refine set_same ?_
  rw [jobOf] at at_
  cases k : s.engine.jobs[h]? with
  | none => rw [k] at at_; cases at_
  | some x =>
    rw [k] at at_
    exact congrArg some at_

theorem AtLine.job_unchanged (a : AtLine s h j st i l d stop) (x : LineState) (log : FaultLog) (lanes : PerLane LanePort) :
    outcomeState h i st x j log lanes s
      = { s with engine.blockStep := some { st with lines := st.lines.set i x }, log := log, lanes := lanes } := by
  rw [outcomeState, a.same_job]

theorem AtLine.modifyLine (a : AtLine s h j st i l d stop) (f : LineState → LineState) :
    modifyLine i f s = outcomeState h i st (f l) j s.log s.lanes s := by
  rw [modifyLine_line a.step a.line, a.job_unchanged]
  rfl

theorem AtLine.lineState (a : AtLine s h j st i l d stop) : lineState s i = some l := lineState_eq a.step a.line

theorem AtLine.hostLine (a : AtLine s h j st i l d stop) :
    stepHostLine j.region i s = some (d.body.base * 32768 + (64 * st.block + i)) := by
  rw [stepHostLine, a.region, stepBlock, a.step]
  rfl

/-- The outcome changes its line alone. -/
theorem AtLine.outcome_line (a : AtLine s h j st i l d stop) (f : LineState → LineState) :
    LineOutcome s (Machine.modifyLine i f s) h i st (f l) j s.log [] :=
  lineOutcome_of (a.modifyLine f)

end

section
variable {s : State} {h i : Nat} {j : Job} {st : BlockStep} {d : Descriptor} {stop : Option Stop} {x : LineState}
  {log : FaultLog} {lanes : PerLane LanePort}

theorem outcomeState_runs (runs : runningJob s.engine = some (h, j)) (k : Job) :
    runningJob (outcomeState h i st x k log lanes s).engine = some (h, k) := by
  obtain ⟨running, at_⟩ := runningJob_eq.mp runs
  exact runningJob_eq.mpr ⟨running, (jobOf_setAt at_ _ h).trans (if_pos rfl)⟩

/-- A failure raised on a job that has stood at its line replaces its record alone. -/
theorem raiseFailure_outcome (runs : runningJob s.engine = some (h, j)) {k : Job} (life : k.life = .running stop)
    (reason : Reason) (lane : Lane) (line : Nat) :
    raiseFailure reason lane line (outcomeState h i st x k log lanes s)
      = outcomeState h i st x (k.stopped stop (.failed reason (some { lane := lane, line := line }))) log lanes s := by
  obtain ⟨running, at_⟩ := runningJob_eq.mp (outcomeState_runs (i := i) (st := st) (x := x) (log := log) (lanes := lanes) runs k)
  rw [raiseFailure, raiseStop_running running at_ life]
  simp only [outcomeState, List.set_set]
  rfl

theorem engineRecord_outcome (kind : FaultKind) (region : Nat) (hostLine : Option Nat) (lane : Lane) (line : Nat) (k : Job) :
    engineRecord kind h region hostLine lane line none (outcomeState h i st x k log lanes s)
      = outcomeState h i st x k (takeRecord s.mu.generation (engineFault kind lane region hostLine line h)
        log) lanes s := rfl

theorem stepHostLine_outcome (region : descOf s.mu.slots j.region = some d) (k : Job) (n : Nat) :
    stepHostLine j.region n (outcomeState h i st x k log lanes s) = some (d.body.base * 32768 + (64 * st.block + n)) := by
  rw [stepHostLine, show (outcomeState h i st x k log lanes s).mu = s.mu from rfl, region]
  rfl

end

theorem presentCopies_rest (i : Nat) (data : LineData) (legs : List Leg) : ∀ (k : Nat) (s : State),
    presentCopies i data k legs s = { s with
      engine := (presentCopies i data k legs s).engine, lanes := (presentCopies i data k legs s).lanes } := by
  induction legs with
  | nil => exact fun _ _ => rfl
  | cons leg rest ih =>
    intro k s
    have first : ∀ r, modifySide i k { state := .pending, data := none } (present leg.lane r s) = { s with
        engine := (modifySide i k { state := .pending, data := none } (present leg.lane r s)).engine
        lanes := (modifySide i k { state := .pending, data := none } (present leg.lane r s)).lanes } := fun r => by
      unfold modifySide modifyLine
      split <;> rfl
    rw [presentCopies, ih, first]

/-! ### OK answers in COPY and VERIFY (R112, R114, R119, R120) -/

section
variable {s : State} {h i : Nat} {j : Job} {st : BlockStep} {l : LineState} {d : Descriptor} {stop : Option Stop}

theorem source_copies (a : AtLine s h j st i l d stop) (lane : Lane) (line : Nat) (data : LineData)
    (phase : j.phase = some .copy) (sides : l.sides.length = j.work.shadows.length) :
    LineOutcome s (engineOk h j .source i lane line data s) h i st
      { l with data := some data, readA := .ok, sides := j.work.shadows.map fun _ => { state := .pending, data := none } }
      j s.log (j.work.shadows.mapIdx fun k leg => (leg.lane, { kind := .write (BitVec.allOnes 64) data, line := leg.base * 32768 + (64 * st.block + i), requester := .engine (.shadowWrite k) i })) := by
  have is : engineOk h j .source i lane line data s = presentCopies i data 0 j.work.shadows
      (modifyLine i (fun l => { l with data := some data, readA := .ok }) s) := by
    have goes : (modifyLine i (fun l => { l with data := some data, readA := .ok }) s).engine.stopping = false := by
      rw [a.modifyLine]; exact a.goes
    show sourceOk h j i data s = _
    rw [sourceOk, a.lineState]
    dsimp only
    rw [phase]
    dsimp only
    rw [goes]
    rfl
  have lt : i < st.lines.length := (List.getElem?_eq_some_iff.mp a.line).1
  rw [is, a.modifyLine]
  obtain ⟨engine, _, _, _, _, opened, _, asked⟩ := presentCopies_spec i data j.work.shadows 0
    (outcomeState h i st { l with data := some data, readA := .ok } j s.log s.lanes s)
    { st with lines := st.lines.set i { l with data := some data, readA := .ok } } { l with data := some data, readA := .ok }
    rfl (by simp [lt]) (by simpa using sides.symm)
  refine ⟨?_, fun q m => ?_, opened, fun none => ?_⟩
  · rw [presentCopies_rest, engine]
    simp only [outcomeState, List.set_set, List.take_zero, List.nil_append]
  · rw [List.mem_mapIdx] at m
    obtain ⟨k, lt, rfl⟩ := m
    have presented := asked k _ (List.getElem?_eq_getElem lt)
    rw [Nat.zero_add] at presented
    exact presented
  · have none : j.work.shadows = [] := by simpa using none
    rw [none]
    rfl

theorem shadowWrite_ok (a : AtLine s h j st i l d stop) (k : Nat) (lane : Lane) (line : Nat) (data : LineData) :
    LineOutcome s (engineOk h j (.shadowWrite k) i lane line data s) h i st
      { l with sides := l.sides.set k { state := .ok, data := none } } j s.log [] :=
  a.outcome_line fun l => { l with sides := l.sides.set k { state := .ok, data := none } }

/-- The line of a shadow leg in the running block. -/
def shadowLine (st : BlockStep) (i : Nat) (leg : Leg) : Nat := leg.base * 32768 + (64 * st.block + i)

/-- The record of a difference at a shadow leg (R120). -/
def mismatchRecord (s : State) (h i : Nat) (j : Job) (st : BlockStep) (d : Descriptor) (log : FaultLog) (leg : Leg) : FaultLog :=
  takeRecord s.mu.generation (engineFault .verifyMismatch leg.lane j.region
    (some (d.body.base * 32768 + (64 * st.block + i))) (shadowLine st i leg) h) log

/-- The stop request of a difference at a shadow leg (R120). -/
def mismatchStop (st : BlockStep) (i : Nat) (leg : Leg) : Stop :=
  .failed .verifyMismatch (some { lane := leg.lane, line := shadowLine st i leg })

/-- One comparison that differs records it and raises it. -/
theorem verifyCompare_differs (a : AtLine s h j st i l d stop) (x : LineState) {k : Job} {now : Option Stop}
    (life : k.life = .running now) (log : FaultLog) (leg : Leg) {source copy : LineData} (differ : source ≠ copy) :
    verifyCompare h j.region i leg source copy (outcomeState h i st x k log s.lanes s)
      = outcomeState h i st x (k.stopped now (mismatchStop st i leg)) (mismatchRecord s h i j st d log leg) s.lanes s := by
  rw [verifyCompare, if_neg differ, stepHostLine_outcome a.region]
  dsimp only
  rw [engineRecord_outcome, raiseFailure_outcome a.runs life]
  rfl

/-- The shadow legs whose reads differ from the source (R120). -/
def differing (legs : List Leg) (sides : List SideState) (source : LineData) : List Leg :=
  (legs.zip sides).filterMap fun x => x.2.data.bind fun copy => if source = copy then none else some x.1

/-- The comparisons of one event record every difference, and the first of them is raised. -/
theorem verifySides_outcome (a : AtLine s h j st i l d stop) (x : LineState) (source : LineData) (legs : List Leg) :
    ∀ (sides : List SideState) (k : Job) (now : Option Stop) (log : FaultLog), k.life = .running now →
      verifySides h j.region i source legs sides (outcomeState h i st x k log s.lanes s)
        = outcomeState h i st x
            (match differing legs sides source with
              | [] => k
              | leg :: _ => k.stopped now (mismatchStop st i leg))
            ((differing legs sides source).foldl (mismatchRecord s h i j st d) log) s.lanes s := by
  induction legs with
  | nil => exact fun _ _ _ _ _ => rfl
  | cons leg legs ih =>
    intro sides k now log life
    cases sides with
    | nil => rfl
    | cons side sides =>
      rw [verifySides]
      cases copy : side.data with
      | none =>
        have same : differing (leg :: legs) (side :: sides) source = differing legs sides source := by
          simp [differing, copy]
        rw [same]
        exact ih sides k now log life
      | some copy' =>
        by_cases differ : source = copy'
        · have same : differing (leg :: legs) (side :: sides) source = differing legs sides source := by
            simp [differing, copy, differ]
          rw [same]
          dsimp only
          rw [verifyCompare, if_pos differ]
          exact ih sides k now log life
        · have more : differing (leg :: legs) (side :: sides) source = leg :: differing legs sides source := by
            simp [differing, copy, differ]
          rw [more]
          dsimp only
          rw [verifyCompare_differs a x life log leg differ, ih sides _ _ _ rfl]
          congr 1
          split <;> rfl

theorem source_verifies (a : AtLine s h j st i l d stop) (lane : Lane) (line : Nat) (data : LineData)
    (phase : j.phase = some .verify) :
    LineOutcome s (engineOk h j .source i lane line data s) h i st { l with data := some data, readA := .ok }
      (match differing j.work.shadows l.sides data with
        | [] => j
        | leg :: _ => j.stopped stop (mismatchStop st i leg))
      ((differing j.work.shadows l.sides data).foldl (mismatchRecord s h i j st d) s.log) [] := by
  refine lineOutcome_of ?_
  show sourceOk h j i data s = _
  rw [sourceOk, a.lineState]
  dsimp only
  rw [phase]
  dsimp only
  rw [a.modifyLine]
  exact verifySides_outcome a _ data j.work.shadows l.sides j stop s.log a.life

/-- With the source read, a verify read is compared with it. -/
theorem verifyRead_compares (a : AtLine s h j st i l d stop) (k : Nat) (lane : Lane) (line : Nat) (data : LineData) {leg : Leg}
    (shadow : j.work.shadows[k]? = some leg) {source : LineData} (ok : l.readA = .ok) (at_ : l.data = some source) :
    engineOk h j (.verifyRead k) i lane line data s = verifyCompare h j.region i leg source data
      (outcomeState h i st { l with sides := l.sides.set k { state := .ok, data := some data } } j s.log s.lanes s) := by
  show verifyReadOk h j k i data s = _
  rw [verifyReadOk, a.lineState, shadow]
  dsimp only
  rw [modifySide, a.modifyLine, ok, at_]

theorem verifyRead_agrees (a : AtLine s h j st i l d stop) (k : Nat) (lane : Lane) (line : Nat) (data : LineData) {leg : Leg}
    (shadow : j.work.shadows[k]? = some leg) (agree : l.readA = .ok → l.data = some data) :
    LineOutcome s (engineOk h j (.verifyRead k) i lane line data s) h i st
      { l with sides := l.sides.set k { state := .ok, data := some data } } j s.log [] := by
  refine lineOutcome_of ?_
  by_cases ok : l.readA = .ok
  · rw [verifyRead_compares a k lane line data shadow ok (agree ok), verifyCompare, if_pos rfl]
  · show verifyReadOk h j k i data s = _
    rw [verifyReadOk, a.lineState, shadow]
    dsimp only
    rw [modifySide, a.modifyLine]
    split
    · exact absurd ‹_› ok
    · rfl

theorem verifyRead_differs (a : AtLine s h j st i l d stop) (k : Nat) (lane : Lane) (line : Nat) (data : LineData) {leg : Leg}
    (shadow : j.work.shadows[k]? = some leg) {source : LineData} (ok : l.readA = .ok) (at_ : l.data = some source)
    (differ : source ≠ data) :
    LineOutcome s (engineOk h j (.verifyRead k) i lane line data s) h i st
      { l with sides := l.sides.set k { state := .ok, data := some data } } (j.stopped stop (mismatchStop st i leg))
      (mismatchRecord s h i j st d s.log leg) [] :=
  lineOutcome_of ((verifyRead_compares a k lane line data shadow ok at_).trans
    (verifyCompare_differs a _ a.life s.log leg differ))

/-! ### Failures in COPY and VERIFY (R113, R118, R119) -/

/-- The failure a request of a lane raises, with its lane and line as the detail (R98). -/
def lineFailure (reason : Reason) (lane : Lane) (line : Nat) : Stop := .failed reason (some { lane := lane, line := line })

theorem source_retried (a : AtLine s h j st i l d stop) (lane : Lane) (line : Nat) {leg : Leg}
    (left : d.body.legs.find? (fun x => !l.tried.contains x) = some leg) :
    LineOutcome s (engineFailed h j .source i lane line s) h i st { l with tried := l.tried ++ [leg] } j s.log
      [(leg.lane, { kind := .read, line := leg.base * 32768 + (64 * st.block + i), requester := .engine .source i })] := by
  have block : stepBlock s = st.block := by rw [stepBlock, a.step]; rfl
  have is : engineFailed h j .source i lane line s = present leg.lane
      [{ kind := .read, line := leg.base * 32768 + (64 * st.block + i), requester := .engine .source i }]
      (outcomeState h i st { l with tried := l.tried ++ [leg] } j s.log s.lanes s) := by
    show sourceFailed h j i lane line s = _
    rw [sourceFailed, a.lineState, a.region]
    dsimp only [Option.map_some, Option.getD_some]
    rw [left]
    dsimp only
    rw [if_neg (by rw [a.goes]; nofun), a.modifyLine, block]
    rfl
  rw [is]
  refine ⟨rfl, fun q m => ?_, engineOpen_present _ _ (outcomeState h i st { l with tried := l.tried ++ [leg] } j s.log s.lanes s),
    nofun⟩
  obtain rfl := List.mem_singleton.mp m
  exact (present_has _ _ _).1

theorem source_exhausted (a : AtLine s h j st i l d stop) (lane : Lane) (line : Nat)
    (none : d.body.legs.find? (fun x => !l.tried.contains x) = none) :
    LineOutcome s (engineFailed h j .source i lane line s) h i st { l with readA := .failed }
      (j.stopped stop (lineFailure .sourceRead lane line))
      (takeRecord s.mu.generation (engineFault .copySourceFailed lane j.region
        (some (d.body.base * 32768 + (64 * st.block + i))) line h) s.log) [] := by
  refine lineOutcome_of ?_
  show sourceFailed h j i lane line s = _
  rw [sourceFailed, a.lineState, a.region]
  dsimp only [Option.map_some, Option.getD_some]
  rw [none]
  dsimp only
  rw [a.modifyLine, a.hostLine, engineRecord_outcome, raiseFailure_outcome a.runs a.life]
  rfl

theorem verifyRead_fails (a : AtLine s h j st i l d stop) (k : Nat) (lane : Lane) (line : Nat) :
    LineOutcome s (engineFailed h j (.verifyRead k) i lane line s) h i st
      { l with sides := l.sides.set k { state := .failed, data := none } } (j.stopped stop (lineFailure .verifyRead lane line))
      s.log [] := by
  refine lineOutcome_of ?_
  show raiseFailure .verifyRead lane line (modifySide i k { state := .failed, data := none } s) = _
  rw [modifySide, a.modifyLine, raiseFailure_outcome a.runs a.life]
  rfl

theorem shadowWrite_fails (a : AtLine s h j st i l d stop) (k : Nat) (lane : Lane) (line : Nat) {target : Target}
    {keptA keptB verify : Bool} (work : j.work = .relocate target keptA keptB verify) :
    LineOutcome s (engineFailed h j (.shadowWrite k) i lane line s) h i st
      { l with sides := l.sides.set k { state := .failed, data := none } } (j.stopped stop (lineFailure .shadowWrite lane line))
      (takeRecord s.mu.generation (engineFault .shadowWriteFailed lane j.region
        (some (d.body.base * 32768 + (64 * st.block + i))) line h) s.log) [] := by
  refine lineOutcome_of ?_
  show shadowFailure j.region (stepHostLine j.region i s) lane line none
    (modifySide i k { state := .failed, data := none } s) = _
  rw [modifySide, a.modifyLine, shadowFailure, outcomeState_runs a.runs]
  dsimp only
  rw [work]
  dsimp only
  rw [if_pos rfl, a.hostLine, engineRecord_outcome, raiseFailure_outcome a.runs a.life]
  rfl

/-! ### An audit's outcomes (R132 to R135) -/

theorem auditA_goesOn (a : AtLine s h j st i l d stop) (lane : Lane) (line : Nat) (data : LineData) {leg : Leg}
    (none : stop = none) (legB : d.body.legB = some leg) :
    LineOutcome s (engineOk h j .auditA i lane line data s) h i st { l with data := some data, readA := .ok, readB := .pending }
      j s.log [(leg.lane, { kind := .read, line := leg.base * 32768 + (64 * st.block + i), requester := .engine .auditB i })] := by
  have block : stepBlock s = st.block := by rw [stepBlock, a.step]; rfl
  have stops : j.stop = Option.none := by rw [Job.stop, a.life]; exact none
  have is : engineOk h j .auditA i lane line data s = present leg.lane
      [{ kind := .read, line := leg.base * 32768 + (64 * st.block + i), requester := .engine .auditB i }]
      (outcomeState h i st { l with data := some data, readA := .ok, readB := .pending } j s.log s.lanes s) := by
    show auditAOk j i data s = _
    rw [auditAOk, a.region, stops]
    dsimp only [Option.bind_some]
    rw [legB]
    dsimp only
    rw [a.modifyLine, block]
    rfl
  rw [is]
  refine ⟨rfl, fun q m => ?_, engineOpen_present _ _
    (outcomeState h i st { l with data := some data, readA := .ok, readB := .pending } j s.log s.lanes s), nofun⟩
  obtain rfl := List.mem_singleton.mp m
  exact (present_has _ _ _).1

theorem auditA_ends (a : AtLine s h j st i l d stop) (lane : Lane) (line : Nat) (data : LineData)
    (ends : stop ≠ none ∨ d.body.legB = none) :
    LineOutcome s (engineOk h j .auditA i lane line data s) h i st { l with data := some data, readA := .ok, finished := true }
      j s.log [] := by
  have stops : j.stop = stop := by rw [Job.stop, a.life]
  refine lineOutcome_of ?_
  show auditAOk j i data s = _
  rw [auditAOk, a.region, stops]
  dsimp only [Option.bind_some]
  rw [← a.modifyLine fun l => { l with data := some data, readA := .ok, finished := true }]
  split
  · rename_i legB
    rcases ends with c | c
    · exact absurd rfl c
    · rw [c] at legB; cases legB
  · rfl

/-- Raise a count of an audit, to 65,535 at most (R133, R134). -/
def more (n : Nat) : Nat := if n < 65535 then n + 1 else n

theorem modifyRunning_outcome (runs : runningJob s.engine = some (h, j)) (x : LineState) (k : Job) (log : FaultLog)
    (f : Job → Job) : modifyRunning f (outcomeState h i st x k log s.lanes s) = outcomeState h i st x (f k) log s.lanes s := by
  rw [modifyRunning, outcomeState_runs runs]
  simp only [setJob, outcomeState, List.set_set]

theorem auditB_equal (a : AtLine s h j st i l d stop) (lane : Lane) (line : Nat) (data : LineData) (same : l.data = some data) :
    LineOutcome s (engineOk h j .auditB i lane line data s) h i st { l with readB := .ok, comparison := .equal, finished := true }
      j s.log [] := by
  have is : engineOk h j .auditB i lane line data s
      = modifyLine i (fun l => { l with readB := .ok, comparison := .equal, finished := true }) s := by
    show auditBOk h j i lane line data s = _
    rw [auditBOk, a.lineState, Option.bind_some, same]
    exact if_pos rfl
  exact lineOutcome_of (is.trans (a.modifyLine _))

/-- A leg B read that differs is recorded and counted (R133). -/
theorem auditB_counted (a : AtLine s h j st i l d stop) (lane : Lane) (line : Nat) {repair : Bool} {mismatches repaired : Nat}
    (work : j.work = .audit repair mismatches repaired) (f : LineState → LineState) :
    modifyLine i f (modifyRunning countMismatch (engineRecord .auditMismatch h j.region (stepHostLine j.region i s) lane line none s))
      = outcomeState h i st (f l) { j with work := .audit repair (more mismatches) repaired }
        (takeRecord s.mu.generation (engineFault .auditMismatch lane j.region
          (some (d.body.base * 32768 + (64 * st.block + i))) line h) s.log) s.lanes s := by
  have counted : countMismatch j = { j with work := .audit repair (more mismatches) repaired } := by
    rw [countMismatch, work]
    rfl
  rw [a.hostLine, modifyRunning]
  rw [show runningJob (engineRecord .auditMismatch h j.region
    (some (d.body.base * 32768 + (64 * st.block + i))) lane line none s).engine = _ from a.runs]
  dsimp only
  rw [counted]
  exact modifyLine_line (s := setJob h _ (engineRecord _ h j.region _ lane line none s)) a.step a.line f

theorem auditB_differs (a : AtLine s h j st i l d stop) (lane : Lane) (line : Nat) (data : LineData) {source : LineData}
    (at_ : l.data = some source) (differ : source ≠ data) {repair : Bool} {mismatches repaired : Nat}
    (work : j.work = .audit repair mismatches repaired) : engineOk h j .auditB i lane line data s =
      let counted : LineState → State := fun x => outcomeState h i st x
        { j with work := .audit repair (more mismatches) repaired }
        (takeRecord s.mu.generation (engineFault .auditMismatch lane j.region
          (some (d.body.base * 32768 + (64 * st.block + i))) line h) s.log) s.lanes s
      if repairs j then present lane [{ kind := wholeLine source, line := line, requester := .engine .repair i }]
        (counted { l with readB := .ok, comparison := .different, repair := .pending })
      else counted { l with readB := .ok, comparison := .different, finished := true } := by
  have is : engineOk h j .auditB i lane line data s = if repairs j then
        present lane [{ kind := wholeLine source, line := line, requester := .engine .repair i }]
          (modifyLine i (fun l => { l with readB := .ok, comparison := .different, repair := .pending })
            (modifyRunning countMismatch
              (engineRecord .auditMismatch h j.region (stepHostLine j.region i s) lane line none s)))
      else modifyLine i (fun l => { l with readB := .ok, comparison := .different, finished := true })
        (modifyRunning countMismatch
          (engineRecord .auditMismatch h j.region (stepHostLine j.region i s) lane line none s)) := by
    show auditBOk h j i lane line data s = _
    rw [auditBOk, a.lineState, Option.bind_some, at_]
    exact if_neg differ
  rw [is, auditB_counted a lane line work, auditB_counted a lane line work]

theorem auditB_repairs (a : AtLine s h j st i l d stop) (lane : Lane) (line : Nat) (data : LineData) {source : LineData}
    (at_ : l.data = some source) (differ : source ≠ data) {mismatches repaired : Nat}
    (work : j.work = .audit true mismatches repaired) (none : stop = none) :
    LineOutcome s (engineOk h j .auditB i lane line data s) h i st
      { l with readB := .ok, comparison := .different, repair := .pending }
      { j with work := .audit true (more mismatches) repaired }
      (takeRecord s.mu.generation (engineFault .auditMismatch lane j.region
        (some (d.body.base * 32768 + (64 * st.block + i))) line h) s.log)
      [(lane, { kind := .write (BitVec.allOnes 64) source, line := line, requester := .engine .repair i })] := by
  have repairs : repairs j = true := by rw [Machine.repairs, work, Job.stop, a.life, none]; rfl
  have is : engineOk h j .auditB i lane line data s = present lane
      [{ kind := .write (BitVec.allOnes 64) source, line := line, requester := .engine .repair i }]
      (outcomeState h i st { l with readB := .ok, comparison := .different, repair := .pending }
        { j with work := .audit true (more mismatches) repaired }
        (takeRecord s.mu.generation (engineFault .auditMismatch lane j.region
          (some (d.body.base * 32768 + (64 * st.block + i))) line h) s.log) s.lanes s) := by
    rw [auditB_differs a lane line data at_ differ work]
    exact if_pos repairs
  rw [is]
  refine ⟨rfl, fun q m => ?_, engineOpen_present _ _ (outcomeState h i st _ _ _ s.lanes s), nofun⟩
  obtain rfl := List.mem_singleton.mp m
  exact (present_has _ _ _).1

theorem auditB_ends (a : AtLine s h j st i l d stop) (lane : Lane) (line : Nat) (data : LineData) {source : LineData}
    (at_ : l.data = some source) (differ : source ≠ data) {repair : Bool} {mismatches repaired : Nat}
    (work : j.work = .audit repair mismatches repaired) (ends : repair = false ∨ stop ≠ none) :
    LineOutcome s (engineOk h j .auditB i lane line data s) h i st
      { l with readB := .ok, comparison := .different, finished := true }
      { j with work := .audit repair (more mismatches) repaired }
      (takeRecord s.mu.generation (engineFault .auditMismatch lane j.region
        (some (d.body.base * 32768 + (64 * st.block + i))) line h) s.log) [] := by
  have rests : repairs j = false := by
    rw [Machine.repairs, work, Job.stop, a.life]
    rcases ends with rfl | c
    · rfl
    · cases stop with
      | none => exact absurd rfl c
      | some x => simp
  refine lineOutcome_of ((auditB_differs a lane line data at_ differ work).trans ?_)
  exact if_neg (by rw [rests]; nofun)

theorem repair_ok (a : AtLine s h j st i l d stop) (lane : Lane) (line : Nat) (data : LineData) {repair : Bool}
    {mismatches repaired : Nat} (work : j.work = .audit repair mismatches repaired) :
    LineOutcome s (engineOk h j .repair i lane line data s) h i st { l with repair := .ok, finished := true }
      { j with work := .audit repair mismatches (more repaired) }
      (takeRecord s.mu.generation (engineFault .auditRepaired lane j.region
        (some (d.body.base * 32768 + (64 * st.block + i))) line h) s.log) [] := by
  have counted : countRepaired j = { j with work := .audit repair mismatches (more repaired) } := by
    rw [countRepaired, work]
    rfl
  refine lineOutcome_of ?_
  show repairOk h j i lane line s = _
  rw [repairOk, a.modifyLine, a.hostLine, engineRecord_outcome, modifyRunning_outcome a.runs, counted]

theorem auditRead_fails (a : AtLine s h j st i l d stop) (lane : Lane) (line : Nat) (f : LineState → LineState) :
    LineOutcome s (raiseFailure .legRead lane line (modifyLine i f s)) h i st (f l)
      (j.stopped stop (lineFailure .legRead lane line)) s.log [] := by
  refine lineOutcome_of ?_
  rw [a.modifyLine, raiseFailure_outcome a.runs a.life]
  rfl

end

/-! ### Failures at a lane that stays ACTIVE (R57, R58, R59, R61, R140) -/

/-- A weight that leaves its lane ACTIVE raises the budget alone. -/
theorem addWeight_stays {s : State} {lane : Lane} {weight : Nat} (stays : StaysActive s lane weight) :
    addWeight lane weight s = { s with health.lanes := s.health.lanes.modify lane fun h =>
      { h with budget := weighed weight h.budget } } := by
  obtain ⟨active, suspect, retire⟩ := stays
  unfold weighed budgetOf at suspect retire
  unfold addWeight
  rw [evaluateLane]
  dsimp only
  rw [PerLane.get_modify, if_pos rfl, active]
  dsimp only
  rw [if_neg (Nat.not_le.mpr retire), if_neg (Nat.not_le.mpr suspect)]
  rfl

/-- What the failure of a request leaves before its requester is told: the lanes' counters, the budgets, and the log
with the record of the lane error. -/
structure Failed (s v : State) (log : FaultLog) : Prop where
  rest : v = { s with lanes := v.lanes, health := v.health, log := log }
  states : ∀ n : Lane, (v.health.lanes.get n).state = (s.health.lanes.get n).state

theorem Failed.log {s v : State} {log : FaultLog} (failed : Failed s v log) : v.log = log := by
  have h := congrArg State.log failed.rest
  exact h

/-- A lane error, from the counter to the weight (R61). -/
def failing (lane : Lane) (count : LaneCounters → LaneCounters) (kind : FaultKind) (weight : Nat) (r : Request) (s : State) :
    State :=
  addWeight lane weight (writeRecord (errorRecord kind lane r (countLane lane count s)) (countLane lane count s))

theorem failing_failed {s u : State} {lane : Lane} {weight : Nat} (stays : StaysActive s lane weight)
    (rest : u = { s with lanes := u.lanes }) (count : LaneCounters → LaneCounters) (kind : FaultKind) (r : Request) :
    Failed s (failing lane count kind weight r u) (takeRecord s.mu.generation (errorRecord kind lane r s) s.log) := by
  have health : u.health = s.health := by rw [rest]
  have record : errorRecord kind lane r (countLane lane count u) = errorRecord kind lane r s := by
    rw [rest]
    unfold errorRecord
    rfl
  have log : takeRecord u.mu.generation (errorRecord kind lane r s) u.log
      = takeRecord s.mu.generation (errorRecord kind lane r s) s.log := by rw [rest]
  have stays' : StaysActive (writeRecord (errorRecord kind lane r (countLane lane count u)) (countLane lane count u)) lane
      weight := by
    show StaysActive u lane weight
    rw [rest]
    exact stays
  rw [failing, addWeight_stays stays', record]
  refine ⟨?_, fun n => ?_⟩
  · rw [writeRecord, ← log]
    conv_lhs => rw [rest]
    rw [rest]
    rfl
  · show ((u.health.lanes.modify lane _).get n).state = _
    rw [PerLane.get_modify, health]
    split
    · rename_i same
      subst same
      rfl
    · rfl

theorem failing_lanes {s u : State} {lane : Lane} {weight : Nat} (stays : StaysActive s lane weight)
    (rest : u = { s with lanes := u.lanes }) (count : LaneCounters → LaneCounters) (kind : FaultKind) (r : Request) :
    (failing lane count kind weight r u).lanes = (countLane lane count u).lanes := by
  have stays' : StaysActive (writeRecord (errorRecord kind lane r (countLane lane count u)) (countLane lane count u)) lane
      weight := by
    show StaysActive u lane weight
    rw [rest]
    exact stays
  rw [failing, addWeight_stays stays']
  rfl

theorem engineOpen_congr {a b : PerLane LanePort} (h : ∀ n : Lane, (a.get n).engineOpen = (b.get n).engineOpen) :
    engineOpen a = engineOpen b :=
  Nat.le_antisymm (engineOpen_mono fun n => (h n).le) (engineOpen_mono fun n => (h n).ge)

theorem engineOpen_count (lane : Lane) (count : LaneCounters → LaneCounters) (s : State) :
    engineOpen (countLane lane count s).lanes = engineOpen s.lanes := by
  refine engineOpen_congr fun n => ?_
  show ((s.lanes.modify lane _).get n).engineOpen = _
  rw [PerLane.get_modify]
  split
  · rename_i same
    subst same
    rfl
  · rfl

/-- Lanes of which one has one engine request fewer without an outcome. -/
theorem engineOpen_modify {s : State} {lane : Lane} {f : LanePort → LanePort}
    (h : (f (s.lanes.get lane)).engineOpen + 1 = (s.lanes.get lane).engineOpen) :
    engineOpen (modifyLane lane f s).lanes + 1 = engineOpen s.lanes := by
  unfold modifyLane PerLane.modify engineOpen
  cases lane <;> simp only [PerLane.get, PerLane.set] at * <;> omega

/-- A request whose response timer expires stays issued and has its outcome (R59). -/
def timedOut (number : Count16) (outstanding : List Outstanding) : List Outstanding :=
  outstanding.map fun x => if x.number = number then { x with timer := none } else x

theorem timedOut_other {number : Count16} {l : List Outstanding} (h : ∀ x ∈ l, x.number ≠ number) : timedOut number l = l := by
  unfold timedOut
  conv_rhs => rw [← List.map_id l]
  exact List.map_congr_left fun x m => if_neg (h x m)

theorem timedOut_length {number : Count16} {l : List Outstanding} {o : Outstanding} (p : Outstanding → Bool)
    (distinct : (l.map Outstanding.number).Nodup) (found : l.find? (fun x => x.number == number) = some o)
    (counted : p o = true) (over_ : p { o with timer := none } = false) :
    ((timedOut number l).filter p).length + 1 = (l.filter p).length := by
  induction l with
  | nil => cases found
  | cons x rest ih =>
    obtain ⟨fresh, distinct⟩ := List.nodup_cons.mp (by simpa using distinct : (x.number :: rest.map Outstanding.number).Nodup)
    by_cases same : x.number = number
    · rw [List.find?_cons_of_pos (by simpa using same)] at found
      obtain rfl : x = o := Option.some.inj found
      have others : timedOut number rest = rest :=
        timedOut_other fun y m e => fresh (List.mem_map.mpr ⟨y, m, e.trans same.symm⟩)
      have step : timedOut number (x :: rest) = { x with timer := none } :: timedOut number rest := by
        simp [timedOut, same]
      rw [step, others, List.filter_cons_of_pos counted, List.filter_cons_of_neg (by rw [over_]; nofun)]
      rfl
    · rw [List.find?_cons_of_neg (by simpa using same)] at found
      have step : timedOut number (x :: rest) = x :: timedOut number rest := by simp [timedOut, same]
      rw [step, List.filter_cons, List.filter_cons]
      have later := ih distinct found
      split
      · simpa using later
      · exact later

theorem find_running {l : List Outstanding} {number : Count16} {o : Outstanding}
    (found : l.find? (fun x => x.number == number) = some o) (runs : o.running = true) :
    l.find? (fun x => x.number == number && x.running) = some o := by
  induction l with
  | nil => cases found
  | cons x rest ih =>
    by_cases same : x.number = number
    · rw [List.find?_cons_of_pos (by simpa using same)] at found
      obtain rfl : x = o := Option.some.inj found
      exact List.find?_cons_of_pos (by simp [same, runs])
    · rw [List.find?_cons_of_neg (by simpa using same)] at found
      rw [List.find?_cons_of_neg (by simp [same])]
      exact ih found

theorem filter_eraseIdx {α : Type} (p : α → Bool) {l : List α} {n : Nat} {a : α} (h : l[n]? = some a) (k : p a = true) :
    ((l.eraseIdx n).filter p).length + 1 = (l.filter p).length := by
  have perm := (List.getElem_cons_eraseIdx_perm (List.getElem?_eq_some_iff.mp h).1).filter p
  rw [(List.getElem?_eq_some_iff.mp h).2, List.filter_cons_of_pos k] at perm
  simpa using perm.length_eq

/-- The failure of an engine request on a lane that stays ACTIVE: its lane error, and then the copy engine is told. -/
theorem engineFailure_told {c : Instr} {s : State} {h : Nat} {j : Job} {st : BlockStep} {lane : Lane} {part : EnginePart}
    {i : Nat} {req : Request} {kind : FaultKind} {weight : Nat} (a : Transferring s h j st)
    (failure : EngineFailure c s lane part i req kind weight) (stays : StaysActive s lane weight) :
    ∃ v, Failed s v (takeRecord s.mu.generation { kind := kind, lane := some lane, region := some j.region
                                                  laneLine := some req.line, job := some h } s.log)
      ∧ engineOpen v.lanes + 1 = engineOpen s.lanes
      ∧ exec c s = .next (settle (engineAdvance (engineFailed h j part i lane req.line v))) := by
  obtain ⟨power, opened, fresh, runs, step, stage, goes⟩ := a
  obtain ⟨asker, ways⟩ := failure
  have record : errorRecord kind lane req s = { kind := kind, lane := some lane, region := some j.region
                                                laneLine := some req.line, job := some h } := by
    rw [errorRecord, asker]
    dsimp only
    rw [runs]
  have fails : ∀ u count, u = { s with lanes := u.lanes } → engineOpen u.lanes + 1 = engineOpen s.lanes →
      Failed s (failing lane count kind weight req u) (takeRecord s.mu.generation
        { kind := kind, lane := some lane, region := some j.region, laneLine := some req.line, job := some h } s.log)
      ∧ engineOpen (failing lane count kind weight req u).lanes + 1 = engineOpen s.lanes := fun u count rest fewer => by
    refine ⟨record ▸ failing_failed stays rest count kind req, ?_⟩
    rw [failing_lanes stays rest, engineOpen_count, fewer]
  have told : ∀ v outcome log, Failed s v log → outcome ≠ .ok → tellRequester lane req outcome 0 v
      = engineAdvance (engineFailed h j part i lane req.line v) := fun v outcome log failed notOk => by
    have runs' : runningJob v.engine = some (h, j) := by rw [failed.rest]; exact runs
    rw [tellRequester, asker]
    dsimp only
    rw [tellEngine, runs']
    cases outcome with
    | ok => exact absurd rfl notOk
    | error => rfl
    | timeout => rfl
  have open_ : req.fromEngine = true := by rw [Request.fromEngine, asker]
  rcases ways with ⟨number, resp, data, o, rfl, bad, asked, rfl, kinds⟩ | ⟨number, o, rfl, ⟨found, timer, _⟩, rfl, distinct, rfl, rfl⟩
    | ⟨place, w, rfl, at_, rfl, rfl, rfl⟩
  · have fewer := engineOpen_free (List.mem_of_find?_eq_some asked.1) asked.2.1 open_
    have notOk : respondsOk resp = false := by rcases bad with rfl | rfl <;> rfl
    have taken := exec_engine resp data ⟨power, opened, fresh, runs, step, stage, goes⟩ asked
    rw [notOk] at taken
    rcases kinds with ⟨read, rfl, rfl⟩ | ⟨write, rfl, rfl⟩
    · obtain ⟨failed, left⟩ := fails (freeCredit lane o s) (fun c => { c with readErrors := bump c.readErrors }) rfl fewer
      refine ⟨_, failed, left, taken.trans ?_⟩
      rw [← told _ .error _ failed nofun, if_neg nofun, laneError, read]
      rfl
    · obtain ⟨failed, left⟩ := fails (freeCredit lane o s) (fun c => { c with writeErrors := bump c.writeErrors }) rfl fewer
      refine ⟨_, failed, left, taken.trans ?_⟩
      rw [← told _ .error _ failed nofun, if_neg nofun, laneError]
      cases k : o.req.kind with
      | read => exact absurd k write
      | write mask bytes => rfl
  · have fewer : engineOpen (modifyLane lane (fun p => { p with outstanding := timedOut number p.outstanding }) s).lanes + 1
        = engineOpen s.lanes := by
      refine engineOpen_modify ?_
      have less := timedOut_length (fun o : Outstanding => o.running && o.req.fromEngine) distinct found
        (by simp [Outstanding.running, timer, open_]) (by simp [Outstanding.running])
      unfold LanePort.engineOpen
      dsimp only
      omega
    obtain ⟨failed, left⟩ := fails _ (fun c => { c with timeouts := bump c.timeouts }) rfl fewer
    have possible : ((s.lanes.get lane).outstanding.any fun o => o.number == number && o.running) = true :=
      List.any_eq_true.mpr ⟨o, List.mem_of_find?_eq_some found, by
        have same := List.find?_some found
        simpa [Outstanding.running, timer] using same⟩
    refine ⟨_, failed, left, (event_taken power possible).trans ?_⟩
    rw [← told _ .timeout _ failed nofun, expireResponse, find_running found timer]
    rfl
  · have fewer : engineOpen (modifyLane lane (fun p => { p with waiting := p.waiting.eraseIdx place }) s).lanes + 1
        = engineOpen s.lanes := by
      refine engineOpen_modify ?_
      have less := filter_eraseIdx (fun w : Waiting => w.req.fromEngine) at_ open_
      unfold LanePort.engineOpen
      dsimp only
      omega
    obtain ⟨failed, left⟩ := fails _ (fun c => { c with timeouts := bump c.timeouts }) rfl fewer
    have possible : ((s.lanes.get lane).waiting[place]?).isSome = true := by rw [at_]; rfl
    refine ⟨_, failed, left, (event_taken power possible).trans ?_⟩
    rw [← told _ .timeout _ failed nofun, expireWait, at_]
    rfl

/-! ### The answer of the whole command (O46, O47) -/

theorem Transferring.atLine {s : State} {h : Nat} {j : Job} {st : BlockStep} {i : Nat} {l : LineState} {d : Descriptor}
    {stop : Option Stop} (a : Transferring s h j st) (line : st.lines[i]? = some l)
    (region : descOf s.mu.slots j.region = some d) (life : j.life = .running stop) : AtLine s h j st i l d stop := by
  obtain ⟨_, _, _, runs, step, _, goes⟩ := a
  exact ⟨runs, step, line, region, goes, life⟩

theorem AtLine.failed {s v : State} {log : FaultLog} (failed : Failed s v log) {h : Nat} {j : Job} {st : BlockStep} {i : Nat}
    {l : LineState} {d : Descriptor} {stop : Option Stop} (a : AtLine s h j st i l d stop) : AtLine v h j st i l d stop := by
  obtain ⟨runs, step, line, region, goes, life⟩ := a
  rw [failed.rest]
  exact ⟨runs, step, line, region, goes, life⟩

/-- With another engine request open, an outcome at a line is the whole answer. -/
theorem LineOutcome.answers {c : Instr} {s v t : State} {h i : Nat} {j k : Job} {st : BlockStep} {l : LineState}
    {log before : FaultLog} {asked : List (Lane × Request)} (a : Transferring s h j st)
    (failed : Failed s v before) (left : engineOpen v.lanes + 1 = engineOpen s.lanes)
    (more : 1 < engineOpen s.lanes) (out : LineOutcome v t h i st l k log asked)
    (e : exec c s = .next (settle (engineAdvance t))) : StepAnswer c s h st i l k log asked := by
  obtain ⟨_, opened, fresh, runs, _, _, _⟩ := a
  have stays : engineAdvance t = t := engineAdvance_open (by have := out.open_; omega)
  rw [stays] at e
  have runsV : runningJob v.engine = some (h, j) := by rw [failed.rest]; exact runs
  have engine : t.engine = (outcomeState h i st l k log t.lanes v).engine := by
    have := congrArg State.engine out.rest
    exact this
  have rest : t = outcomeState h i st l k log t.lanes v := out.rest
  refine stepAnswer_of e ?_ ?_ ?_ ?_ ?_ ?_ ?_ ?_ ?_ out.asks
  · rw [rest, failed.rest]; exact opened
  · rw [rest, failed.rest]; exact fresh
  · rw [rest]; rfl
  · rw [rest]; exact (runningJob_eq.mp (outcomeState_runs runsV k)).2
  · rw [rest]; exact (runningJob_eq.mp (outcomeState_runs runsV k)).1
  · rw [rest, failed.rest]; rfl
  · rw [rest]; rfl
  · rw [rest, failed.rest]; rfl
  · rw [rest, failed.rest]; rfl

/-- An OK answer to an engine request, with another one open. -/
theorem ok_answers {s : State} {lane : Lane} {number : Count16} {resp : AxiResp} {data : LineData} {o : Outstanding}
    {part : EnginePart} {i h : Nat} {j k : Job} {st : BlockStep} {l : LineState} {log : FaultLog}
    {asked : List (Lane × Request)} (a : Transferring s h j st) (ok : resp = .okay ∨ resp = .exokay)
    (asks : EngineRequest s lane number o part i) (more : 1 < engineOpen s.lanes)
    (out : LineOutcome (freeCredit lane o s) (engineOk h j part i lane o.req.line data (freeCredit lane o s)) h i st l k log asked) :
    StepAnswer (.laneResponse lane number resp data) s h st i l k log asked := by
  have okay : respondsOk resp = true := by rcases ok with rfl | rfl <;> rfl
  have taken := exec_engine resp data a asks
  have runs : runningJob (freeCredit lane o s).engine = some (h, j) := a.2.2.2.1
  rw [okay, if_pos rfl, tellEngine, runs] at taken
  exact LineOutcome.answers a (v := freeCredit lane o s) (before := s.log) ⟨rfl, fun _ => rfl⟩
    (engineOpen_free (List.mem_of_find?_eq_some asks.1) asks.2.1 (by rw [Request.fromEngine, asks.2.2])) more out taken

/-- A failure of an engine request on a lane that stays ACTIVE, with another one open. -/
theorem failure_answers {c : Instr} {s : State} {lane : Lane} {part : EnginePart} {i h : Nat} {j : Job} {st : BlockStep}
    {req : Request} {kind : FaultKind} {weight : Nat} (a : Transferring s h j st) (more : 1 < engineOpen s.lanes)
    (failure : EngineFailure c s lane part i req kind weight) (stays : StaysActive s lane weight) :
    ∃ v, Failed s v (takeRecord s.mu.generation { kind := kind, lane := some lane, region := some j.region
                                                  laneLine := some req.line, job := some h } s.log)
      ∧ ∀ l k log asked, LineOutcome v (engineFailed h j part i lane req.line v) h i st l k log asked →
          StepAnswer c s h st i l k log asked := by
  obtain ⟨v, failed, left, taken⟩ := engineFailure_told a failure stays
  exact ⟨v, failed, fun l k log asked out => LineOutcome.answers a failed left more out taken⟩

/-- Settles O46: each outcome of a source read, a shadow write or a verify read, by the lemma of that outcome. -/
theorem copyAndVerifyRequestOutcomes : Obligations.CopyAndVerifyRequestOutcomes := by
  intro s lane part i h j st l d stop a line more region life offset record raised side shadowLine
  have at_ := a.atLine line region life
  refine ⟨fun number resp data o ok asks => ?_, fun c req kind weight failure stays => ?_⟩
  · have here : AtLine (freeCredit lane o s) h j st i l d stop := ⟨at_.runs, at_.step, at_.line, at_.region, at_.goes, at_.life⟩
    refine ⟨fun p phase sides => ?_, fun k p => ?_, fun p phase => ?_, fun k leg p shadow => ⟨fun read => ?_, fun read same => ?_,
      fun source read stored differ => ?_⟩⟩
    · subst p
      exact ok_answers a ok asks more (source_copies here lane o.req.line data phase sides)
    · subst p
      exact ok_answers a ok asks more (shadowWrite_ok here k lane o.req.line data)
    · subst p
      exact ok_answers a ok asks more (source_verifies here lane o.req.line data phase)
    · subst p
      exact ok_answers a ok asks more (verifyRead_agrees here k lane o.req.line data shadow fun c => absurd c read)
    · subst p
      exact ok_answers a ok asks more (verifyRead_agrees here k lane o.req.line data shadow fun _ => same)
    · subst p
      exact ok_answers a ok asks more (verifyRead_differs here k lane o.req.line data shadow read stored differ)
  · obtain ⟨v, failed, answers⟩ := failure_answers a more failure stays
    have here := at_.failed failed
    have log := failed.log
    have generation : v.mu.generation = s.mu.generation := by rw [failed.rest]
    refine ⟨fun p => ⟨fun leg left => ?_, fun none => ?_⟩, fun k p => ?_, fun k target keptA keptB verify p work => ?_⟩
    · subst p
      have out := source_retried here lane req.line left
      rw [log] at out
      exact answers _ _ _ _ out
    · subst p
      have out := source_exhausted here lane req.line none
      rw [log, generation] at out
      exact answers _ _ _ _ out
    · subst p
      have out := verifyRead_fails here k lane req.line
      rw [log] at out
      exact answers _ _ _ _ out
    · subst p
      have out := shadowWrite_fails here k lane req.line work
      rw [log, generation] at out
      exact answers _ _ _ _ out

/-- Settles O47: each outcome of an audit's reads and repair writes, by the lemma of that outcome. -/
theorem auditRequestOutcomes : Obligations.AuditRequestOutcomes := by
  intro s lane part i h j st l d stop repair mismatches repaired a line more region life work offset more'
  have at_ := a.atLine line region life
  refine ⟨fun number resp data o ok asks => ?_, fun c req kind weight failure stays => ?_⟩
  · intro record answers
    have here : AtLine (freeCredit lane o s) h j st i l d stop := ⟨at_.runs, at_.step, at_.line, at_.region, at_.goes, at_.life⟩
    refine ⟨fun p => ⟨fun leg none legB => ?_, fun ends => ?_⟩, fun source p stored => ⟨fun same => ?_, fun differ =>
      ⟨fun repairs none => ?_, fun ends => ?_⟩⟩, fun p => ?_⟩
    · subst p
      exact ok_answers a ok asks more (auditA_goesOn here lane o.req.line data none legB)
    · subst p
      exact ok_answers a ok asks more (auditA_ends here lane o.req.line data ends)
    · subst p
      exact ok_answers a ok asks more (auditB_equal here lane o.req.line data (same ▸ stored))
    · subst p
      subst repairs
      exact ok_answers a ok asks more (auditB_repairs here lane o.req.line data stored differ work none)
    · subst p
      exact ok_answers a ok asks more (auditB_ends here lane o.req.line data stored differ work ends)
    · subst p
      exact ok_answers a ok asks more (repair_ok here lane o.req.line data work)
  · intro error raised answers
    obtain ⟨v, failed, answers⟩ := failure_answers a more failure stays
    have here := at_.failed failed
    have log : v.log = error := failed.log
    refine ⟨fun p => ?_, fun p => ?_, fun p => ?_⟩
    · subst p
      exact answers _ _ _ _ (log ▸ auditRead_fails here lane req.line fun l => { l with readA := .failed, finished := true })
    · subst p
      exact answers _ _ _ _ (log ▸ auditRead_fails here lane req.line fun l => { l with readB := .failed, finished := true })
    · subst p
      exact answers _ _ _ _ (log ▸ here.outcome_line fun l => { l with repair := .failed, finished := true })

end Sys2Proof.Machine

/-! PROOF. A block step of a job that is not RUNNING (O48). -/

namespace Sys2Proof.Machine

open Sys2Proof

/-! ### A running handle that names a QUEUED job

R98 records a stop request on a RUNNING job alone. BlockStepEnds speaks of the job that the running handle names, and
asks no law that this job is RUNNING: at a QUEUED one a failed read raises nothing, and the audit ends DONE. -/

/-- An audit of slot 0 at its one block, QUEUED. -/
def unruly : Job :=
  { life := .queued, work := .audit false 0 0, region := 0, blockCount := 1, phase := some .scan, cursor := 0 }

/-- Its one line, the leg A read OUTSTANDING. -/
def unrulyLine : LineState :=
  { tried := [], data := none, readA := .pending, sides := [], readB := .notPresented, comparison := .none
    repair := .notPresented, finished := false }

/-- Its block step. -/
def unrulyStep : BlockStep := { block := 0, stage := .transfer, writeWait := 0, lines := [unrulyLine] }

/-- Its region, the bring-up region of lane L0. -/
def unrulyDesc : Descriptor :=
  { body := { base := 0, length := 4096, legA := { lane := .l0, base := 0 }, legB := none, pref := .aFirst
              access := .readWrite }
    degraded := false, job := some 0 }

/-- Its leg A read. -/
def unrulyRead : Outstanding :=
  { req := { kind := .read, line := 0, requester := .engine .auditA 0 }, number := 0, timer := some 2000 }

/-- The reset state with the running handle on the QUEUED audit. -/
def unrulyState : State :=
  { State.reset with
    mu.slots := State.reset.mu.slots.set 0 { desc := some unrulyDesc, revision := 0 }
    lanes.l0.outstanding := [unrulyRead]
    engine := { State.reset.engine with
      jobs := some unruly :: List.replicate 7 none, running := some 0, blockStep := some unrulyStep } }

/-- Refutes O48: at `unrulyState` an SLVERR answer to the leg A read raises no stop request, and the audit finishes DONE,
not FAILED LEG_READ. -/
theorem not_blockStepEnds : ¬ Obligations.BlockStepEnds := by
  intro claim
  have failure : EngineFailure (.laneResponse .l0 0 .slverr 0) unrulyState .l0 .auditA 0 unrulyRead.req .laneReadError 64 :=
    ⟨rfl, .inl ⟨0, .slverr, 0, unrulyRead, rfl, .inl rfl, ⟨by decide +kernel, rfl, rfl⟩, rfl, .inl ⟨rfl, rfl, rfl⟩⟩⟩
  have stays : StaysActive unrulyState .l0 64 := by unfold StaysActive; decide +kernel
  obtain ⟨t, taken, _, _, finishes, _⟩ := claim (.laneResponse .l0 0 .slverr 0) unrulyState 0 0 unruly
    (unruly.stopped none (.failed .legRead (some { lane := .l0, line := 0 }))) unrulyStep unrulyLine
    { unrulyLine with readA := .failed, finished := true } { desc := some unrulyDesc, revision := 0 } unrulyDesc .scan _
    (by unfold Transferring; decide +kernel) rfl (by decide +kernel) (by decide +kernel) rfl rfl rfl
    (.inr ⟨.l0, .auditA, unrulyRead.req, .laneReadError, 64, failure, stays, rfl, rfl, rfl, rfl⟩) (by decide +kernel)
  have promised := (finishes _ rfl (.inl (by decide +kernel))).1
  have done : (match exec (.laneResponse .l0 0 .slverr 0) unrulyState with
    | .next t => (jobOf t.engine 0).map Job.life
    | .fault _ => none
    | .refused _ => none) = some (.finished .done) := by decide +kernel
  rw [taken] at done
  dsimp only at done
  rw [promised] at done
  exact absurd done (by decide)

end Sys2Proof.Machine

/-! PROOF. Waiting entries go on (O49). -/

namespace Sys2Proof.Machine

open Sys2Proof

/-! ### Decodes leave the log alone, and do not read it -/

/-- A state with another fault log. -/
def State.logged (log : FaultLog) (s : State) : State := { s with log := log }

section
variable (log : FaultLog)

theorem present_logged (n : Lane) (reqs : List Request) (s : State) :
    present n reqs (s.logged log) = (present n reqs s).logged log := rfl

theorem presentVerifyReads_logged (block : Nat) (legs : List Leg) : ∀ (i : Nat) (s : State),
    presentVerifyReads block i legs (s.logged log) = (presentVerifyReads block i legs s).logged log := by
  induction legs with
  | nil => exact fun _ _ => rfl
  | cons leg rest ih => exact fun i s => ih (i + 1) (present leg.lane (blockReads leg (.verifyRead i) block) s)

theorem enterTransfer_logged (s : State) : enterTransfer (s.logged log) = (enterTransfer s).logged log := by
  unfold enterTransfer
  rw [show (s.logged log).engine = s.engine from rfl, show (s.logged log).mu = s.mu from rfl]
  cases runningJob s.engine with
  | none => rfl
  | some r =>
    cases s.engine.blockStep with
    | none => rfl
    | some st =>
      dsimp only
      split
      · rfl
      · cases descOf s.mu.slots r.2.region with
        | none => rfl
        | some d =>
          cases r.2.phase with
          | none => rfl
          | some phase =>
            cases phase with
            | copy => rfl
            | verify =>
              dsimp only
              refine Eq.trans ?_ (presentVerifyReads_logged log _ _ _ _)
              rfl
            | scan => rfl
            | switch => rfl

theorem writeWaitFalls_logged (s : State) : writeWaitFalls (s.logged log) = (writeWaitFalls s).logged log := by
  unfold writeWaitFalls
  cases h : s.engine.blockStep with
  | none => rw [show (s.logged log).engine.blockStep = none from h]
  | some st =>
    rw [show (s.logged log).engine.blockStep = some st from h]
    dsimp only
    split
    · refine Eq.trans ?_ (enterTransfer_logged log _)
      rfl
    · rfl

theorem presentLegs_logged (e : Entry) (legs : List LegUse) : ∀ s : State,
    presentLegs e legs (s.logged log) = (presentLegs e legs s).logged log := by
  induction legs with
  | nil => exact fun _ => rfl
  | cons u rest ih => exact fun s => ih (present u.leg.lane _ s)

theorem presentShadows_logged (e : Entry) (legs : List ShadowUse) : ∀ (i : Nat) (s : State),
    presentShadows e i legs (s.logged log) = (presentShadows e i legs s).logged log := by
  induction legs with
  | nil => exact fun _ _ => rfl
  | cons u rest ih => exact fun i s => ih (i + 1) (present u.leg.lane _ s)

theorem issueEntry_logged (e : Entry) (l : Lookup) (s : State) :
    issueEntry e l (s.logged log) = (issueEntry e l s).logged log :=
  (congrArg _ (presentLegs_logged log e _ (modifyEntry e.slot _ s))).trans (presentShadows_logged log e _ 0 _)

theorem continueDecode_logged (slot : Nat) (s : State) :
    continueDecode slot (s.logged log) = (continueDecode slot s).logged log := by
  unfold continueDecode
  cases h : entryAt s.ift.entries slot with
  | none => rw [show entryAt (s.logged log).ift.entries slot = none from h]
  | some e =>
    rw [show entryAt (s.logged log).ift.entries slot = some e from h]
    dsimp only
    split
    · rfl
    · show ite (hazard s.ift.entries e = true) _ (ite ((e.isWrite && s.engine.lock == _) = true) _ _) = _
      split
      · rfl
      · split
        · rfl
        · exact issueEntry_logged log ..

theorem continueDecodes_logged (slots : List Nat) : ∀ s : State,
    continueDecodes slots (s.logged log) = (continueDecodes slots s).logged log := by
  induction slots with
  | nil => exact fun _ => rfl
  | cons n rest ih => exact fun s => (congrArg _ (continueDecode_logged log n s)).trans (ih _)

theorem becomeKnown_logged (slot : Nat) (code : Code) (data : LineData) (s : State) :
    becomeKnown slot code data (s.logged log) = (becomeKnown slot code data s).logged log := by
  unfold becomeKnown
  cases h : entryAt s.ift.entries slot with
  | none => rw [show entryAt (s.logged log).ift.entries slot = none from h]
  | some e =>
    rw [show entryAt (s.logged log).ift.entries slot = some e from h]
    dsimp only
    have goes := continueDecodes_logged log (waitersOn (modifyEntry slot (fun e =>
      { e with code := some code, data := data, phase := .orderWait }) s).ift.entries e)
      (modifyEntry slot (fun e => { e with code := some code, data := data, phase := .orderWait }) s)
    show ite (countedByLock s.engine e = true) _ _ = _
    split
    · exact (congrArg writeWaitFalls goes).trans (writeWaitFalls_logged log _)
    · exact goes

theorem fullDecode_logged (slot : Nat) (s : State) : fullDecode slot (s.logged log) = (fullDecode slot s).logged log := by
  unfold fullDecode
  cases h : entryAt s.ift.entries slot with
  | none => rw [show entryAt (s.logged log).ift.entries slot = none from h]
  | some e =>
    rw [show entryAt (s.logged log).ift.entries slot = some e from h]
    dsimp only
    cases held : holdingSpan s.ift e.line with
    | some kind => rw [show holdingSpan (s.logged log).ift e.line = some kind from held]; rfl
    | none =>
      rw [show holdingSpan (s.logged log).ift e.line = none from held]
      cases found : lookup s.mu.slots e.line with
      | none =>
        rw [show lookup (s.logged log).mu.slots e.line = none from found]
        dsimp only
        refine Eq.trans ?_ (becomeKnown_logged log slot .decerr 0 _)
        rfl
      | some l =>
        rw [show lookup (s.logged log).mu.slots e.line = some l from found]
        dsimp only
        split
        · refine Eq.trans ?_ (becomeKnown_logged log slot .slverr 0 _)
          rfl
        · refine Eq.trans ?_ (continueDecode_logged log slot _)
          rfl

theorem releaseHeld_logged (kind : Hold) (sp : Span) (s : State) :
    releaseHeld kind sp (s.logged log) = (releaseHeld kind sp s).logged log := by
  have goes : ∀ (slots : List Nat) (u : State), fullDecodes slots (u.logged log) = (fullDecodes slots u).logged log :=
    fun slots => by
      induction slots with
      | nil => exact fun _ => rfl
      | cons n rest ih => exact fun u => (congrArg _ (fullDecode_logged log n u)).trans (ih _)
  exact goes _ s

end

/-! ### A HELD entry (R28) -/

/-- A state with another in-flight table. -/
def State.withTable (entries : List Entry) (s : State) : State := { s with ift.entries := entries }

/-- At rest with the port open, an empty table leaves nothing to the close of an event. -/
theorem settle_empty {s : State} (opened : s.hp.seq = .opened) (fresh : (s.mu.commit.drain.any fun d => d.stale) = false)
    (rest : ∀ n : Lane, (s.lanes.get n).Settled) (table : s.ift.entries = []) : settle s = s := by
  rw [settle_opened opened fresh fun n => (rest n).2, grantAll_rest fun n => (rest n).1,
    refreshPhases_rest fun e m => absurd (table ▸ m) List.not_mem_nil, presentResponses_empty table]

/-! ### The decode of the one entry of a table (R27) -/

/-- A decode that has not issued: no lock wait counts the entry. -/
def Entry.unissued (e : Entry) : Prop := e.phase ≠ .issuing ∧ e.phase ≠ .issued

section
variable {e : Entry} {s : State}

theorem entryAt_lone (table : s.ift.entries = [e]) : entryAt s.ift.entries e.slot = some e := by
  rw [table, entryAt, List.find?_cons_of_pos (by simp)]

theorem modifyEntry_lone (table : s.ift.entries = [e]) (f : Entry → Entry) :
    modifyEntry e.slot f s = s.withTable [f e] := by
  rw [modifyEntry, table, List.map_singleton, if_pos (by simp)]
  rfl

theorem becomeKnown_lone (table : s.ift.entries = [e]) (off : countedByLock s.engine e = false) (code : Code) (data : LineData) :
    becomeKnown e.slot code data s = s.withTable [{ e with code := some code, data := data, phase := .orderWait }] := by
  rw [becomeKnown, entryAt_lone table, modifyEntry_lone table]
  dsimp only
  have waiters : waitersOn (s.withTable [{ e with code := some code, data := data, phase := .orderWait }]).ift.entries e = [] := by
    simp [waitersOn, youngerThan, State.withTable]
  rw [waiters, if_neg (by rw [off]; nofun)]
  rfl

theorem hazard_lone : hazard [e] e = false := by simp [hazard, olderThan]

theorem unissued_off (k : e.unissued) : countedByLock s.engine e = false := by
  simp [countedByLock, k.1, k.2]

/-- The requests of an entry as it issues (R32). -/
def issued (e : Entry) (l : Lookup) (s : State) : State :=
  presentShadows e 0 (issueShadows s.engine e l) (presentLegs e (issueLegs e l) (s.withTable
    [{ e with phase := .issuing, legs := issueLegs e l, shadows := issueShadows s.engine e l }]))

theorem continueDecode_lone (table : s.ift.entries = [e]) {l : Lookup} (found : e.lookup = some l) :
    continueDecode e.slot s = if e.isWrite && s.engine.lock == some { region := l.region, block := l.block } then
      s.withTable [{ e with phase := .parked }] else issued e l s := by
  rw [continueDecode, entryAt_lone table]
  dsimp only
  split
  · rename_i none
    exact absurd (none.symm.trans found) nofun
  · rename_i l' found'
    obtain rfl : l' = l := Option.some.inj (found'.symm.trans found)
    rw [table, hazard_lone, if_neg nofun, setPhase, modifyEntry_lone table, issueEntry, modifyEntry_lone table]
    rfl

theorem fullDecode_held (table : s.ift.entries = [e]) {hold : Hold} (span : holdingSpan s.ift e.line = some hold) :
    fullDecode e.slot s = s.withTable [{ e with phase := .held, hold := some hold }] := by
  rw [fullDecode, entryAt_lone table]
  dsimp only
  rw [span]
  exact modifyEntry_lone table _

theorem fullDecode_unmapped (table : s.ift.entries = [e]) (k : e.unissued) (span : holdingSpan s.ift e.line = none)
    (miss : lookup s.mu.slots e.line = none) : fullDecode e.slot s = { s with
      hp.unmapped := bump s.hp.unmapped
      ift.entries := [{ e with hold := none, region := none, lookup := none, code := some .decerr, data := 0
                               phase := .orderWait }] } := by
  rw [fullDecode, entryAt_lone table]
  dsimp only
  rw [span]
  dsimp only
  rw [miss]
  dsimp only
  rw [modifyEntry_lone (s := { s with hp.unmapped := bump s.hp.unmapped }) table]
  exact becomeKnown_lone (e := { e with hold := none, region := none, lookup := none }) rfl
    (unissued_off (e := { e with hold := none, region := none, lookup := none }) k) _ _

/-- An entry with a lookup result (R27 step 2). -/
def Entry.mapped (e : Entry) (l : Lookup) : Entry := { e with hold := none, region := some l.region, lookup := some l }

theorem fullDecode_readOnly (table : s.ift.entries = [e]) (k : e.unissued) (span : holdingSpan s.ift e.line = none)
    {l : Lookup} (found : lookup s.mu.slots e.line = some l) (write : e.isWrite = true) (access : l.access = .readOnly) :
    fullDecode e.slot s = { s with
      hp.readOnly := bump s.hp.readOnly
      ift.entries := [{ e.mapped l with code := some .slverr, data := 0, phase := .orderWait }] } := by
  rw [fullDecode, entryAt_lone table]
  dsimp only
  rw [span]
  dsimp only
  rw [found]
  dsimp only
  rw [modifyEntry_lone table, write, access]
  exact becomeKnown_lone (e := e.mapped l) (s := { s.withTable [e.mapped l] with hp.readOnly := bump s.hp.readOnly }) rfl
    (unissued_off (e := e.mapped l) k) _ _

theorem fullDecode_mapped (table : s.ift.entries = [e]) (span : holdingSpan s.ift e.line = none) {l : Lookup}
    (found : lookup s.mu.slots e.line = some l) (passes : e.isWrite = true → l.access = .readWrite) :
    fullDecode e.slot s = if e.isWrite && s.engine.lock == some { region := l.region, block := l.block } then
      s.withTable [{ e.mapped l with phase := .parked }] else issued (e.mapped l) l s := by
  rw [fullDecode, entryAt_lone table]
  dsimp only
  rw [span]
  dsimp only
  rw [found]
  dsimp only
  rw [modifyEntry_lone table, if_neg fun c => ?_]
  · exact continueDecode_lone (e := e.mapped l) (s := s.withTable [e.mapped l]) rfl rfl
  · rw [Bool.and_eq_true, beq_iff_eq] at c
    rw [passes c.1] at c
    exact absurd c.2 nofun

end

theorem presentLegs_congr {e e' : Entry} (kind : e'.reqKind = e.reqKind) (slot : e'.slot = e.slot) (legs : List LegUse) :
    ∀ s : State, presentLegs e' legs s = presentLegs e legs s := by
  induction legs with
  | nil => exact fun _ => rfl
  | cons u rest ih => exact fun s => by rw [presentLegs, presentLegs, ih, kind, slot]

theorem presentShadows_congr {e e' : Entry} (kind : e'.reqKind = e.reqKind) (slot : e'.slot = e.slot) (legs : List ShadowUse) :
    ∀ (i : Nat) (s : State), presentShadows e' i legs s = presentShadows e i legs s := by
  induction legs with
  | nil => exact fun _ _ => rfl
  | cons u rest ih => exact fun i s => by rw [presentShadows, presentShadows, ih, kind, slot]

/-- The phase an entry had does not matter to its issue. -/
theorem issued_phase (e : Entry) (phase : Phase) (l : Lookup) (s : State) :
    issued { e with phase := phase } l s = issued e l s := by
  have legs := presentLegs_congr (e := e) (e' := { e with phase := phase }) rfl rfl (issueLegs e l) (s.withTable
    [{ e with phase := .issuing, legs := issueLegs e l, shadows := issueShadows s.engine e l }])
  exact (presentShadows_congr (e := e) (e' := { e with phase := phase }) rfl rfl _ _ _).trans (congrArg _ legs)

/-- An access decoded after a hold is decoded as one just accepted. -/
theorem fullDecode_released {e : Entry} (hold : Hold) (k : e.unissued) (s : State) :
    fullDecode e.slot (s.withTable [{ e with phase := .held, hold := some hold }]) = fullDecode e.slot (s.withTable [e]) := by
  have kept : ({ e with phase := .held, hold := some hold } : Entry).unissued := ⟨nofun, nofun⟩
  cases span : holdingSpan s.ift e.line with
  | some kind =>
    rw [fullDecode_held (e := e) (s := s.withTable [e]) rfl span]
    exact fullDecode_held (e := { e with phase := .held, hold := some hold })
      (s := s.withTable [{ e with phase := .held, hold := some hold }]) rfl span
  | none =>
    cases found : lookup s.mu.slots e.line with
    | none =>
      rw [fullDecode_unmapped (e := e) (s := s.withTable [e]) rfl k span found]
      exact fullDecode_unmapped (e := { e with phase := .held, hold := some hold })
        (s := s.withTable [{ e with phase := .held, hold := some hold }]) rfl kept span found
    | some l =>
      by_cases ro : e.isWrite = true ∧ l.access = .readOnly
      · rw [fullDecode_readOnly (e := e) (s := s.withTable [e]) rfl k span found ro.1 ro.2]
        exact fullDecode_readOnly (e := { e with phase := .held, hold := some hold })
          (s := s.withTable [{ e with phase := .held, hold := some hold }]) rfl kept span found ro.1 ro.2
      · have passes : e.isWrite = true → l.access = .readWrite := fun w => by
          cases access : l.access with
          | readOnly => exact absurd ⟨w, access⟩ ro
          | readWrite => rfl
        rw [fullDecode_mapped (e := e) (s := s.withTable [e]) rfl span found passes]
        refine (fullDecode_mapped (e := { e with phase := .held, hold := some hold })
          (s := s.withTable [{ e with phase := .held, hold := some hold }]) rfl span found passes).trans ?_
        exact if_congr Iff.rfl rfl (issued_phase (e.mapped l) .held l (s.withTable [e]))

/-- An event that ends a drain leaves, whatever the table holds, what its release makes of a state `k`: then it leaves with
the one access it held what HOST_ACCEPT of that access makes of the event on the empty table. -/
theorem held_goesOn {f : State → State} {s k : State} {txn : HostTxn} {hold : Hold} {sp : Span}
    (ends : ∀ table, f (s.withTable table) = releaseHeld hold sp (k.withTable table)) (opened : k.hp.seq = .opened)
    (fresh : (k.mu.commit.drain.any fun d => d.stale) = false) (rest : ∀ n : Lane, (k.lanes.get n).Settled)
    (formed : HostTxn.malformed txn = false) (inside : inRanges sp.ranges (txn.address / 64) = true) :
    acceptTxn txn (settle (f (s.withTable [])))
      = settle (f (s.withTable [{ newEntry 0 txn.id txn.address (txnKind txn) with phase := .held, hold := some hold }])) := by
  have emptied : f (s.withTable []) = k.withTable [] := by rw [ends]; rfl
  have only : heldBy (k.withTable [{ newEntry 0 txn.id txn.address (txnKind txn) with
      phase := .held, hold := some hold }]).ift.entries hold sp.ranges = [0] := by
    simp [heldBy, State.withTable, newEntry, inside]
  have free : freeSlot (k.withTable []).ift.entries = some 0 := freeSlot_eq (by omega)
    (fun _ m => absurd m List.not_mem_nil) fun _ m => absurd m (Nat.not_lt_zero _)
  rw [emptied, settle_empty (s := k.withTable []) opened fresh rest rfl, acceptTxn_open (s := k.withTable []) opened free, formed,
    if_neg nofun, ends, releaseHeld, only]
  exact congrArg settle (fullDecode_released (e := newEntry 0 txn.id txn.address (txnKind txn)) hold ⟨nofun, nofun⟩ k).symm

theorem endCommit_release {s : State} {d : CommitDrain} {sp : Span} (drain : s.mu.commit.drain = some d)
    (span : s.ift.commitSpan = some sp) (result : CommitResult) (table : List Entry) :
    endCommit result (s.withTable table) = releaseHeld .commit sp (State.withTable table { s with
      mu.commit := { drain := none, last := result }
      ift.commitSpan := none
      log := takeNotice s.mu.generation (.commitFinished d.subject result) s.log }) := by
  obtain ⟨v, closed⟩ : ∃ v, v = State.withTable table
      { s with mu.commit := { drain := none, last := result }, ift.commitSpan := none } := ⟨_, rfl⟩
  have ends : endCommit result (s.withTable table)
      = postNotice (.commitFinished d.subject result) (releaseHeld .commit sp v) := by
    rw [endCommit, show (s.withTable table).mu.commit.drain = some d from drain,
      show (s.withTable table).ift.commitSpan = some sp from span, closed]
    rfl
  have released := decoded_releaseHeld .commit sp v
  have told : takeNotice (releaseHeld .commit sp v).mu.generation (.commitFinished d.subject result) (releaseHeld .commit sp v).log
      = takeNotice s.mu.generation (.commitFinished d.subject result) s.log := by
    rw [released.mu, released.log, closed]
    rfl
  rw [ends, postNotice, told]
  subst closed
  exact (releaseHeld_logged _ .commit sp _).symm

theorem endSwitch_release {s : State} {h : Nat} {j : Job} {sp : Span} (runs : runningJob s.engine = some (h, j))
    (span : s.ift.switchSpan = some sp) (queue : s.engine.queue = []) (outcome : JobOutcome) (table : List Entry) :
    endSwitch outcome (s.withTable table)
      = releaseHeld .switch sp (State.withTable table (finished h j outcome { s with ift.switchSpan := none })) := by
  rw [endSwitch_eq (s := s.withTable table) runs span, startNext_empty (by exact queue)]
  rfl

theorem switchInstall_table (work : JobWork) (region : Nat) (table : List Entry) (s : State) :
    switchInstall work region (s.withTable table)
      = ((switchInstall work region s).1, State.withTable table (switchInstall work region s).2) := by
  unfold switchInstall
  rw [show (s.withTable table).mu = s.mu from rfl, show (s.withTable table).health = s.health from rfl]
  cases work with
  | audit => rfl
  | relocate t keptA keptB verify =>
    cases s.mu.slots[region]? with
    | none => rfl
    | some m =>
      obtain ⟨desc, revision⟩ := m
      cases desc with
      | none => rfl
      | some d =>
        dsimp only
        split
        · rfl
        · split <;> rfl

/-- An event that ends a drain releases what it held from a state that does not depend on the table. -/
theorem drainEnd_release {s : State} {c : Instr} {hold : Hold} {sp : Span} (power : s.porst = false)
    (fresh : (s.mu.commit.drain.any fun d => d.stale) = false) (queue : s.engine.queue = [])
    (way : (hold = .commit ∧ s.ift.commitSpan = some sp ∧ s.mu.commit.drain ≠ none
        ∧ (c = .commitDrainTimeout ∨ (c = .commitCompletionTaken ∧ sp.counted = [])))
      ∨ (hold = .switch ∧ s.ift.switchSpan = some sp ∧ (runningJob s.engine).isSome = true
        ∧ ((c = .switchTimerExpiry ∧ s.engine.switchTimer.isSome = true)
          ∨ (c = .switchCompletionTaken ∧ sp.counted = [])))) :
    ∃ (f : State → State) (k : State), (∀ table, exec c (s.withTable table) = .next (settle (f (s.withTable table)))
        ∧ f (s.withTable table) = releaseHeld hold sp (k.withTable table))
      ∧ k.hp = s.hp ∧ k.lanes = s.lanes ∧ k.porst = false ∧ (k.mu.commit.drain.any fun d => d.stale) = false := by
  rcases way with ⟨rfl, span, drains, ways⟩ | ⟨rfl, span, runs, ways⟩
  · obtain ⟨d, drain⟩ := Option.ne_none_iff_exists'.mp drains
    rcases ways with rfl | ⟨rfl, nothing⟩
    · have possible : ∀ table, (s.withTable table).mu.commit.drain.isSome = true := fun table => by
        rw [show (s.withTable table).mu.commit.drain = some d from drain]
        rfl
      exact ⟨endCommit .timeout, _, fun table => ⟨event_taken (s := s.withTable table) power (possible table),
        endCommit_release drain span .timeout table⟩,
        rfl, rfl, power, rfl⟩
    · have goes : d.stale = false := by rw [drain] at fresh; exact fresh
      have completes : ∀ table, completeCommit (s.withTable table)
          = endCommit .done (State.withTable table (installCommit d.members s)) := fun table => by
        rw [completeCommit, show (s.withTable table).mu.commit.drain = some d from drain]
        dsimp only
        rw [goes]
        rfl
      have possible : ∀ table,
          ((s.withTable table).mu.commit.drain.isSome && commitReported (s.withTable table)) = true := fun table => by
        rw [commitReported, show (s.withTable table).ift.commitSpan = some sp from span,
          show (s.withTable table).mu.commit.drain = some d from drain]
        simp [nothing]
      refine ⟨completeCommit, _, fun table => ⟨event_taken (s := s.withTable table) power (possible table),
        (completes table).trans (endCommit_release (s := installCommit d.members s) drain span .done table)⟩,
        rfl, rfl, power, rfl⟩
  · obtain ⟨⟨h, j⟩, runs⟩ := Option.isSome_iff_exists.mp runs
    rcases ways with ⟨rfl, timer⟩ | ⟨rfl, nothing⟩
    · refine ⟨expireSwitch, finished h j ((j.stop.map Stop.outcome).getD (.failed .switchTimeout none))
        { s with ift.switchSpan := none }, fun table => ⟨event_taken (s := s.withTable table) power timer, ?_⟩, rfl, rfl, power, fresh⟩
      rw [expireSwitch, show runningJob (s.withTable table).engine = some (h, j) from runs]
      exact endSwitch_release runs span queue _ table
    · have possible : ∀ table, switchReported (s.withTable table) = true := fun table => by
        rw [switchReported, show (s.withTable table).ift.switchSpan = some sp from span]
        simp [nothing]
      have decided : ∀ table, switchDecide j (s.withTable table)
          = ((switchDecide j s).1, State.withTable table (switchDecide j s).2) := fun table => by
        rw [switchDecide, switchDecide]
        split
        · rfl
        · exact switchInstall_table ..
      have rest := switchInstall_rest j.work j.region s
      have left : (switchDecide j s).2.engine = s.engine ∧ (switchDecide j s).2.ift = s.ift ∧ (switchDecide j s).2.hp = s.hp
          ∧ (switchDecide j s).2.lanes = s.lanes ∧ (switchDecide j s).2.porst = s.porst
          ∧ (switchDecide j s).2.mu.commit = s.mu.commit := by
        unfold switchDecide
        split
        · exact ⟨rfl, rfl, rfl, rfl, rfl, rfl⟩
        · rw [rest.1]
          exact ⟨rfl, rfl, rfl, rfl, rfl, rfl⟩
      obtain ⟨engine, ift, hp, lanes, porst, commit⟩ := left
      refine ⟨completeSwitch, finished h j (switchDecide j s).1 { (switchDecide j s).2 with ift.switchSpan := none },
        fun table => ⟨event_taken (s := s.withTable table) power (possible table), ?_⟩, hp, lanes, porst.trans power, ?_⟩
      · rw [completeSwitch, show runningJob (s.withTable table).engine = some (h, j) from runs]
        dsimp only
        rw [decided]
        exact endSwitch_release (by rw [engine]; exact runs) (by rw [ift]; exact span) (by rw [engine]; exact queue) _ table
      · show ((switchDecide j s).2.mu.commit.drain.any fun d => d.stale) = false
        rw [commit]
        exact fresh

/-! ### Requests that wait or are OUTSTANDING stay so -/

/-- No request of a state is lost in another. -/
def KeepsRequests (s t : State) : Prop := ∀ (n : Lane) (r : Request), (s.lanes.get n).Has r → (t.lanes.get n).Has r

theorem keepsRequests_of {s t : State} (lanes : t.lanes = s.lanes) : KeepsRequests s t := fun n r k => by rwa [lanes]

theorem KeepsRequests.trans {s t u : State} (h : KeepsRequests s t) (k : KeepsRequests t u) : KeepsRequests s u :=
  fun n r a => k n r (h n r a)

theorem keepsRequests_present (n : Lane) (reqs : List Request) (s : State) : KeepsRequests s (present n reqs s) := by
  intro m r has
  rw [present_lane]
  split
  · rename_i same
    subst same
    rcases has with ⟨w, a, b⟩ | y
    · exact .inl ⟨w, List.mem_append_left _ a, b⟩
    · exact .inr y
  · exact has

theorem keepsRequests_enterTransfer (s : State) : KeepsRequests s (enterTransfer s) := by
  have reads : ∀ (block : Nat) (legs : List Leg) (i : Nat) (s : State),
      KeepsRequests s (presentVerifyReads block i legs s) := fun block legs => by
    induction legs with
    | nil => exact fun _ s => keepsRequests_of rfl
    | cons leg rest ih => exact fun i s => (keepsRequests_present _ _ s).trans (ih (i + 1) _)
  have first : ∀ (n : Lane) (reqs : List Request) (st : Option BlockStep), KeepsRequests s (present n reqs (setStep st s)) :=
    fun n reqs st => KeepsRequests.trans (t := setStep st s) (keepsRequests_of rfl) (keepsRequests_present _ _ _)
  unfold enterTransfer
  split
  · split
    · exact keepsRequests_of rfl
    · split
      · exact first _ _ _
      · exact (first _ _ _).trans (reads _ _ _ _)
      · exact first _ _ _
      · exact keepsRequests_of rfl
  · exact keepsRequests_of rfl

theorem keepsRequests_beginStep (s : State) : KeepsRequests s (beginStep s) := by
  unfold beginStep
  split
  · exact keepsRequests_of rfl
  · split
    · dsimp only
      split
      · exact fun n r has => keepsRequests_enterTransfer _ n r has
      · exact keepsRequests_of rfl
    · exact keepsRequests_of rfl

theorem beginStep_ift (s : State) : (beginStep s).ift = s.ift := by
  unfold beginStep
  split
  · rfl
  · split
    · dsimp only
      split
      · exact enterTransfer_ift _
      · rfl
    · rfl

/-- Everything that presenting a leg set does. -/
theorem presentLegs_spec (e : Entry) (legs : List LegUse) : ∀ s : State,
    KeepsRequests s (presentLegs e legs s) ∧ presentLegs e legs s = { s with lanes := (presentLegs e legs s).lanes }
    ∧ ∀ u ∈ legs, ((presentLegs e legs s).lanes.get u.leg.lane).Has
        { kind := e.reqKind, line := u.line, requester := .host e.slot (.current u.pos) } := by
  induction legs with
  | nil => exact fun s => ⟨keepsRequests_of rfl, rfl, nofun⟩
  | cons v rest ih =>
    intro s
    obtain ⟨keeps, only, asks⟩ := ih (present v.leg.lane
      [{ kind := e.reqKind, line := v.line, requester := .host e.slot (.current v.pos) }] s)
    refine ⟨(keepsRequests_present _ _ s).trans keeps, only, fun u m => ?_⟩
    rcases List.mem_cons.mp m with rfl | m
    · exact keeps _ _ (present_has _ _ s).1
    · exact asks u m

/-- Everything that presenting a shadow set does. -/
theorem presentShadows_spec (e : Entry) (legs : List ShadowUse) : ∀ (k : Nat) (s : State),
    KeepsRequests s (presentShadows e k legs s) ∧ presentShadows e k legs s = { s with lanes := (presentShadows e k legs s).lanes }
    ∧ ∀ i u, legs[i]? = some u → ((presentShadows e k legs s).lanes.get u.leg.lane).Has
        { kind := e.reqKind, line := u.line, requester := .host e.slot (.shadow (k + i)) } := by
  induction legs with
  | nil => exact fun k s => ⟨keepsRequests_of rfl, rfl, nofun⟩
  | cons v rest ih =>
    intro k s
    obtain ⟨keeps, only, asks⟩ := ih (k + 1) (present v.leg.lane
      [{ kind := e.reqKind, line := v.line, requester := .host e.slot (.shadow k) }] s)
    refine ⟨(keepsRequests_present _ _ s).trans keeps, only, fun i u m => ?_⟩
    cases i with
    | zero =>
      cases m
      exact keeps _ _ (present_has _ _ s).1
    | succ i =>
      have later := asks i u m
      rw [Nat.add_assoc, Nat.add_comm 1] at later
      exact later

/-! ### An entry that has issued (R32, R109) -/

/-- The shadow set of an entry that takes shadow legs (R109). -/
def shadowSet (w : Entry) (l : Lookup) (shadows : List Leg) : List ShadowUse :=
  match w.dir with
  | .read => []
  | .write => shadows.map fun leg => { leg := leg, line := leg.base * 32768 + l.offset, outcome := none }

/-- An entry w has issued as x: it holds its leg set and shadow set, and their requests wait or are OUTSTANDING. -/
structure Asked (s : State) (w x : Entry) (l : Lookup) (shadows : List Leg) : Prop where
  entry : x = { w with lookup := some l, region := x.region, hold := x.hold, phase := .issuing, legs := issueLegs w l
                       shadows := shadowSet w l shadows }
  open_ : w.code = none
  legs : ∀ u ∈ issueLegs w l, (s.lanes.get u.leg.lane).Has
    { kind := w.reqKind, line := u.line, requester := .host w.slot (.current u.pos) }
  shadowLegs : ∀ i u, (shadowSet w l shadows)[i]? = some u → (s.lanes.get u.leg.lane).Has
    { kind := w.reqKind, line := u.line, requester := .host w.slot (.shadow i) }

theorem Asked.mono {s t : State} {w x : Entry} {l : Lookup} {shadows : List Leg} (h : Asked s w x l shadows)
    (keeps : KeepsRequests s t) : Asked t w x l shadows :=
  ⟨h.entry, h.open_, fun u m => keeps _ _ (h.legs u m), fun i u m => keeps _ _ (h.shadowLegs i u m)⟩

/-- An entry once the grants of an event are made (R32). -/
def refreshed (lanes : PerLane LanePort) (e : Entry) : Entry :=
  if e.phase = .issuing ∧ slotWaits lanes e.slot = false then { e with phase := .issued } else e

theorem slotWaits_congr {a b : PerLane LanePort} (h : ∀ n : Lane, (a.get n).waiting = (b.get n).waiting) (slot : Nat) :
    slotWaits a slot = slotWaits b slot := by
  have h0 := h .l0
  have h1 := h .l1
  have h2 := h .l2
  have h3 := h .l3
  simp only [PerLane.get] at h0 h1 h2 h3
  unfold slotWaits PerLane.all
  dsimp only
  rw [h0, h1, h2, h3]

/-- The table at the close of an event: entries with no request left waiting are ISSUED. -/
theorem settle_entries {s : State} (fresh : (s.mu.commit.drain.any fun d => d.stale) = false) :
    (settle s).ift.entries = s.ift.entries.map (refreshed (settle s).lanes) := by
  have waits : ∀ slot, slotWaits (settle s).lanes slot = slotWaits (grantAll s).lanes slot := fun slot => by
    refine slotWaits_congr (fun n => ?_) slot
    rw [settle_fresh fresh]
    exact advanceSequence_waiting (refreshPhases (grantAll s)) n
  rw [settle_ift fresh]
  refine List.map_congr_left fun e _ => ?_
  rw [refreshed, waits]

theorem issueLegs_eq (w : Entry) (l : Lookup) : issueLegs w l =
    let use := fun (pos : LegPos) (leg : Leg) =>
      ({ pos := pos, leg := leg, line := leg.base * 32768 + l.offset, outcome := none } : LegUse)
    match w.dir, l.legB, l.pref with
    | .write, b, _ => use .a l.legA :: (b.map (use .b)).toList
    | .read, none, _ => [use .a l.legA]
    | .read, some _, .aFirst => [use .a l.legA]
    | .read, some b, .bFirst => [use .b b]
    | .read, some b, .split => if l.offset / 64 % 2 = 0 then [use .a l.legA] else [use .b b] := by
  unfold issueLegs Entry.isWrite
  cases w.dir with
  | write => rfl
  | read =>
    cases legB : l.legB with
    | none => simp only [firstPos, legB]; rfl
    | some b =>
      cases pref : l.pref with
      | aFirst => simp only [firstPos, legB, pref]; rfl
      | bFirst => simp only [firstPos, legB, pref, Lookup.legAt]; rfl
      | split =>
        by_cases even : l.offset / 64 % 2 = 0
        · have first : firstPos l = .a := by simp only [firstPos, legB, pref]; exact if_pos even
          rw [first]
          exact (if_pos even).symm
        · have first : firstPos l = .b := by simp only [firstPos, legB, pref]; exact if_neg even
          rw [first, Lookup.legAt, legB]
          exact (if_neg even).symm

/-- The close of the event leaves an entry that has asked for its legs as issued. -/
theorem Asked.issued {s : State} {w x : Entry} {l : Lookup} {shadows : List Leg} (h : Asked s w x l shadows)
    (opened : s.hp.seq = .opened) (fresh : (s.mu.commit.drain.any fun d => d.stale) = false) :
    Issued (settle s) w (refreshed (settle s).lanes x) l shadows := by
  have keeps : KeepsRequests s (settle s) := (settle_open opened fresh).lanes
  obtain ⟨entry, open_, legs, shadowLegs⟩ := h.mono keeps
  have same : refreshed (settle s).lanes x
      = { x with phase := if slotWaits (settle s).lanes w.slot then .issuing else .issued } := by
    rw [entry, refreshed]
    dsimp only
    by_cases waits : slotWaits (settle s).lanes w.slot = true
    · rw [if_neg fun c => absurd (c.2.symm.trans waits) nofun, if_pos waits]
    · rw [if_pos ⟨rfl, by simpa using waits⟩, if_neg waits]
  rw [same, entry]
  exact ⟨rfl, open_, rfl, issueLegs_eq w l, rfl, legs, shadowLegs, rfl⟩

/-- Presenting an entry's requests changes lanes alone, and the entry has then asked for its legs. -/
theorem asked_presented (w : Entry) (l : Lookup) (engine : Engine) (v : State) (open_ : w.code = none) :
    let u := presentShadows w 0 (issueShadows engine w l) (presentLegs w (issueLegs w l) v)
    u = { v with lanes := u.lanes }
    ∧ Asked u w { w with lookup := some l, phase := .issuing, legs := issueLegs w l, shadows := issueShadows engine w l } l
        (shadowLegs engine l) := by
  intro u
  obtain ⟨_, legsOnly, legsAsk⟩ := presentLegs_spec w (issueLegs w l) v
  obtain ⟨keeps, only, ask⟩ := presentShadows_spec w (issueShadows engine w l) 0 (presentLegs w (issueLegs w l) v)
  have set : issueShadows engine w l = shadowSet w l (shadowLegs engine l) := by
    unfold issueShadows shadowSet Entry.isWrite
    cases w.dir <;> rfl
  refine ⟨only.trans (congrArg (fun p : State => { p with lanes := u.lanes }) legsOnly), by rw [set], open_,
    fun x m => keeps _ _ (legsAsk x m), fun i x m => ?_⟩
  have asks := ask i x (by rw [set]; exact m)
  rw [Nat.zero_add] at asks
  exact asks

/-- An entry alone in its table that issues has asked for its legs. -/
theorem asked_issued (e : Entry) (l : Lookup) (s : State) (found : e.lookup = some l) (open_ : e.code = none) :
    ∃ x, issued e l s = { s.withTable [x] with lanes := (issued e l s).lanes }
      ∧ Asked (issued e l s) e x l (shadowLegs s.engine l) := by
  obtain ⟨only, asked⟩ := asked_presented e l s.engine (s.withTable
    [{ e with phase := .issuing, legs := issueLegs e l, shadows := issueShadows s.engine e l }]) open_
  exact ⟨_, only, by rw [← found] at asked; exact asked⟩

/-! ### LINE_WAIT entries behind an answered access (R30) -/

section
variable {e w : Entry} {rest : List Entry} {s : State}

theorem modifyEntry_first (table : s.ift.entries = e :: rest) (later : ∀ y ∈ rest, y.slot ≠ e.slot) (f : Entry → Entry) :
    modifyEntry e.slot f s = s.withTable (f e :: rest) := by
  have same : (rest.map fun y => if y.slot == e.slot then f y else y) = rest := by
    conv_rhs => rw [← List.map_id rest]
    exact List.map_congr_left fun y m => if_neg (by simpa using later y m)
  rw [modifyEntry, table, List.map_cons, same, if_pos (by simp)]
  rfl

theorem entryAt_second (other : e.slot ≠ w.slot) : entryAt (e :: w :: rest) w.slot = some w := by
  rw [entryAt, List.find?_cons_of_neg (by simpa using other), List.find?_cons_of_pos (by simp)]

theorem modifyEntry_second (table : s.ift.entries = e :: w :: rest) (other : e.slot ≠ w.slot)
    (later : ∀ y ∈ rest, y.slot ≠ w.slot) (f : Entry → Entry) :
    modifyEntry w.slot f s = s.withTable (e :: f w :: rest) := by
  have same : (rest.map fun y => if y.slot == w.slot then f y else y) = rest := by
    conv_rhs => rw [← List.map_id rest]
    exact List.map_congr_left fun y m => if_neg (by simpa using later y m)
  rw [modifyEntry, table, List.map_cons, List.map_cons, same, if_neg (by simpa using other), if_pos (by simp)]
  rfl

/-- Behind an answered entry an entry goes on; entries further behind do not matter to it. -/
theorem continueDecode_second (table : s.ift.entries = e :: w :: rest) (answered : e.unanswered = false)
    (other : e.slot ≠ w.slot) (later : ∀ y ∈ rest, y.slot ≠ w.slot) {l : Lookup} (found : w.lookup = some l) :
    continueDecode w.slot s = if w.isWrite && s.engine.lock == some { region := l.region, block := l.block } then
      s.withTable (e :: { w with phase := .parked } :: rest)
    else presentShadows w 0 (issueShadows s.engine w l) (presentLegs w (issueLegs w l) (s.withTable
      (e :: { w with phase := .issuing, legs := issueLegs w l, shadows := issueShadows s.engine w l } :: rest))) := by
  have clear : hazard s.ift.entries w = false := by
    have older : olderThan s.ift.entries w.slot = [e] := by
      rw [table]
      simp [olderThan, other]
    rw [hazard, older]
    simp [answered]
  rw [continueDecode, table, entryAt_second other, ← table]
  dsimp only
  split
  · rename_i none
    exact absurd (none.symm.trans found) nofun
  · rename_i l' found'
    obtain rfl : l' = l := Option.some.inj (found'.symm.trans found)
    rw [clear, if_neg nofun, setPhase, modifyEntry_second table other later, issueEntry, modifyEntry_second table other later]

end

theorem same_slot {entries : List Entry} (slots : (entries.map Entry.slot).Nodup) {x y : Entry} (a : x ∈ entries)
    (b : y ∈ entries) (same : x.slot = y.slot) : x = y := List.inj_on_of_nodup_map slots a b same

theorem entryAt_mem {entries : List Entry} (slots : (entries.map Entry.slot).Nodup) {y : Entry} (m : y ∈ entries) :
    entryAt entries y.slot = some y := by
  cases found : entryAt entries y.slot with
  | none => exact absurd (List.find?_eq_none.mp found y m) (by simp)
  | some x =>
    have slot := List.find?_some found
    rw [same_slot slots (List.mem_of_find?_eq_some found) m (by simpa using slot)]

theorem modifyEntry_same {s : State} {y : Entry} (slots : (s.ift.entries.map Entry.slot).Nodup) (m : y ∈ s.ift.entries)
    {f : Entry → Entry} (fixed : f y = y) : modifyEntry y.slot f s = s := by
  have same : (s.ift.entries.map fun e => if e.slot == y.slot then f e else e) = s.ift.entries := by
    conv_rhs => rw [← List.map_id s.ift.entries]
    refine List.map_congr_left fun x a => ?_
    by_cases slot : x.slot = y.slot
    · rw [same_slot slots a m slot, if_pos (by simp), fixed]
      rfl
    · exact if_neg (by simpa using slot)
  rw [modifyEntry, same]

/-- A LINE_WAIT entry with an open conflicting entry before it stays. -/
theorem continueDecode_waits {s : State} {y : Entry} (slots : (s.ift.entries.map Entry.slot).Nodup) (m : y ∈ s.ift.entries)
    (phase : y.phase = .lineWait) (blocked : hazard s.ift.entries y = true) : continueDecode y.slot s = s := by
  have same : modifyEntry y.slot (fun e => { e with phase := .lineWait }) s = s :=
    modifyEntry_same slots m (by rw [← phase])
  rw [continueDecode, entryAt_mem slots m]
  dsimp only
  split
  · rfl
  · rw [if_pos blocked, setPhase, same]

theorem continueDecodes_wait {e w : Entry} {rest : List Entry} {s : State} (table : s.ift.entries = e :: w :: rest)
    (slots : (s.ift.entries.map Entry.slot).Nodup) (open_ : w.unanswered = true)
    (waits : ∀ y ∈ rest, y.phase = .lineWait ∧ y.line = w.line ∧ (w.isWrite = true ∨ y.isWrite = true)) :
    ∀ ys : List Entry, (∀ y ∈ ys, y ∈ rest) → continueDecodes (ys.map Entry.slot) s = s := by
  intro ys sub
  induction ys with
  | nil => rfl
  | cons y ys ih =>
    have m := sub y (List.mem_cons_self ..)
    obtain ⟨phase, line, conflict⟩ := waits y m
    have apart : e.slot ≠ y.slot ∧ w.slot ≠ y.slot := by
      rw [table] at slots
      obtain ⟨first, second⟩ := List.nodup_cons.mp slots
      obtain ⟨second, _⟩ := List.nodup_cons.mp second
      exact ⟨fun c => first (c ▸ List.mem_cons_of_mem _ (List.mem_map_of_mem m)), fun c => second (c ▸ List.mem_map_of_mem m)⟩
    have blocked : hazard s.ift.entries y = true := by
      refine List.any_eq_true.mpr ⟨w, ?_, by simpa [open_, line] using conflict⟩
      rw [table, olderThan, List.takeWhile_cons_of_pos (by simpa using apart.1),
        List.takeWhile_cons_of_pos (by simpa using apart.2)]
      exact List.mem_cons_of_mem _ (List.mem_cons_self ..)
    rw [List.map_cons, continueDecodes, continueDecode_waits slots (by rw [table]; simp [m]) phase blocked]
    exact ih fun z k => sub z (List.mem_cons_of_mem _ k)

/-- An answered entry. -/
def Entry.answered (e : Entry) (code : Code) (data : LineData) : Entry :=
  { e with code := some code, data := data, phase := .orderWait }

/-- The oldest LINE_WAIT entry behind an access goes on as the access is answered; those behind it that conflict with it
stay. -/
theorem becomeKnown_waiter {e w : Entry} {rest : List Entry} {s : State} (table : s.ift.entries = e :: w :: rest)
    (slots : (s.ift.entries.map Entry.slot).Nodup) (off : countedByLock s.engine e = false) (phase : w.phase = .lineWait)
    (line : w.line = e.line) (open_ : w.code = none) {l : Lookup} (found : w.lookup = some l)
    (waits : ∀ y ∈ rest, y.phase = .lineWait ∧ y.line = e.line ∧ (w.isWrite = true ∨ y.isWrite = true))
    (code : Code) (data : LineData) :
    ∃ w', becomeKnown e.slot code data s = { s.withTable (e.answered code data :: w' :: rest) with
        lanes := (becomeKnown e.slot code data s).lanes }
      ∧ (w.isWrite = true → s.engine.lock = some { region := l.region, block := l.block } → w' = { w with phase := .parked })
      ∧ ((w.isWrite = false ∨ s.engine.lock ≠ some { region := l.region, block := l.block }) →
          Asked (becomeKnown e.slot code data s) w w' l (shadowLegs s.engine l)) := by
  have distinct := slots
  rw [table] at distinct
  obtain ⟨first, second⟩ := List.nodup_cons.mp distinct
  obtain ⟨second', _⟩ := List.nodup_cons.mp second
  have other : e.slot ≠ w.slot := fun c => first (c ▸ List.mem_cons_self ..)
  have later : ∀ y ∈ rest, y.slot ≠ w.slot := fun y m c => second' (c ▸ List.mem_map_of_mem m)
  have known : modifyEntry e.slot (fun e => { e with code := some code, data := data, phase := .orderWait }) s
      = s.withTable (e.answered code data :: w :: rest) :=
    modifyEntry_first table (fun y m c => first (c ▸ List.mem_map_of_mem m)) _
  have waiters : waitersOn (s.withTable (e.answered code data :: w :: rest)).ift.entries e = w.slot :: rest.map Entry.slot := by
    have kept : ((w :: rest).filter fun y => y.phase == .lineWait && y.line == e.line) = w :: rest :=
      List.filter_eq_self.mpr fun y m => by
        rcases List.mem_cons.mp m with rfl | m
        · simp [phase, line]
        · simp [(waits y m).1, (waits y m).2.1]
    have younger : youngerThan (s.withTable (e.answered code data :: w :: rest)).ift.entries e.slot = w :: rest := by
      simp [youngerThan, State.withTable, Entry.answered]
    rw [waitersOn, younger, kept]
    rfl
  have is : becomeKnown e.slot code data s
      = continueDecodes (rest.map Entry.slot) (continueDecode w.slot (s.withTable (e.answered code data :: w :: rest))) := by
    rw [becomeKnown, table, show entryAt (e :: w :: rest) e.slot = some e by simp [entryAt]]
    dsimp only
    rw [known, waiters, off, if_neg nofun]
    rfl
  have stays : ∀ (w' : Entry) (u : State), u.ift.entries = e.answered code data :: w' :: rest → w'.slot = w.slot →
      w'.unanswered = true → w'.line = w.line → w'.isWrite = w.isWrite →
      continueDecodes (rest.map Entry.slot) u = u := fun w' u entries slot known sameLine dir => by
    refine continueDecodes_wait entries ?_ known (fun y m => ?_) rest fun _ m => m
    · rw [entries, List.map_cons, List.map_cons, slot]
      exact distinct
    · obtain ⟨a, b, c⟩ := waits y m
      rw [sameLine, dir, line]
      exact ⟨a, b, c⟩
  have open' : w.unanswered = true := by rw [Entry.unanswered, open_]; rfl
  have goes : continueDecode w.slot (s.withTable (e.answered code data :: w :: rest))
      = if w.isWrite && s.engine.lock == some { region := l.region, block := l.block } then
        s.withTable (e.answered code data :: { w with phase := .parked } :: rest)
      else presentShadows w 0 (issueShadows s.engine w l) (presentLegs w (issueLegs w l) (s.withTable (e.answered code data ::
        { w with phase := .issuing, legs := issueLegs w l, shadows := issueShadows s.engine w l } :: rest))) :=
    continueDecode_second (e := e.answered code data) (s := s.withTable (e.answered code data :: w :: rest)) rfl rfl
      other later found
  by_cases locked : w.isWrite = true ∧ s.engine.lock = some { region := l.region, block := l.block }
  · rw [if_pos (by simpa using locked)] at goes
    refine ⟨{ w with phase := .parked }, ?_, fun _ _ => rfl, fun c => ?_⟩
    · rw [is, goes, stays { w with phase := .parked } _ rfl rfl open' rfl rfl]
    · rcases c with c | c
      · rw [locked.1] at c; cases c
      · exact absurd locked.2 c
  · rw [if_neg (by simpa using locked)] at goes
    obtain ⟨only, asked⟩ := asked_presented w l s.engine (s.withTable (e.answered code data ::
      { w with phase := .issuing, legs := issueLegs w l, shadows := issueShadows s.engine w l } :: rest)) open_
    rw [is, goes, stays { w with phase := .issuing, legs := issueLegs w l, shadows := issueShadows s.engine w l } _
      (by rw [only]; rfl) rfl open' rfl rfl]
    refine ⟨_, only, fun a b => absurd ⟨a, b⟩ locked, fun _ => ?_⟩
    rw [← found] at asked
    exact asked

/-! ### LANE_RESPONSE to an OUTSTANDING request (R58) -/

theorem exec_laneResponse {s : State} {lane : Lane} {number : Count16} {o : Outstanding} (power : s.porst = false)
    (found : (s.lanes.get lane).outstanding.find? (fun x => x.number == number) = some o) (timer : o.timer.isSome = true)
    (resp : AxiResp) (data : LineData) : exec (.laneResponse lane number resp data) s = .next (settle
      (if respondsOk resp then tellRequester lane o.req .ok data (freeCredit lane o s)
       else laneError lane o.req (freeCredit lane o s))) := by
  refine (event_taken (f := takeResponse lane number resp data) power rfl).trans ?_
  rw [takeResponse]
  dsimp only
  rw [found]
  dsimp only
  rw [if_pos (show o.running = true from timer)]

/-- An OK answer to the first entry of the table, all of whose requests then have outcomes, makes it known. -/
theorem tellRequester_okay {s : State} {e : Entry} {rest : List Entry} {lane : Lane} {r : Request} {pos : LegPos}
    (table : s.ift.entries = e :: rest) (later : ∀ y ∈ rest, y.slot ≠ e.slot) (open_ : e.code = none)
    (asker : r.requester = .host e.slot (.current pos)) (data : LineData)
    (kind : (e.kind = .read ∧ e.fallback = false)
      ∨ ∃ mask bytes n d u, e.kind = .write mask bytes ∧ e.region = some n ∧ descOf s.mu.slots n = some d
        ∧ e.legs = [u] ∧ u.pos = pos ∧ u.leg ∈ d.body.legs ∧ e.shadows = []) :
    ∃ x, tellRequester lane r .ok data s = becomeKnown e.slot .okay x
      (s.withTable (recordOutcome (.current pos) .ok e :: rest)) := by
  have known : e.unanswered = true := by rw [Entry.unanswered, open_]; rfl
  have told : tellRequester lane r .ok data s = formCode (recordOutcome (.current pos) .ok e) (.current pos) .ok data
      (s.withTable (recordOutcome (.current pos) .ok e :: rest)) := by
    rw [tellRequester, asker]
    dsimp only
    rw [tellHost, table, show entryAt (e :: rest) e.slot = some e by simp [entryAt]]
    dsimp only
    rw [if_pos known, modifyEntry_first table later]
  rw [told]
  rcases kind with ⟨read, first⟩ | ⟨mask, bytes, n, d, u, write, region, desc, legs, at_, live, shadows⟩
  · refine ⟨data, ?_⟩
    have dir : (recordOutcome (.current pos) .ok e).dir = .read := by
      show e.dir = .read
      rw [Entry.dir, read]
    unfold formCode
    rw [dir]
    dsimp only
    rw [formRead, show (recordOutcome (.current pos) .ok e).fallback = false from first, if_neg nofun]
    rfl
  · refine ⟨0, ?_⟩
    have dir : (recordOutcome (.current pos) .ok e).dir = .write := by
      show e.dir = .write
      rw [Entry.dir, write]
    have leg : (recordOutcome (.current pos) .ok e).legs = [{ u with outcome := some .ok }] := by
      rw [recordOutcome, legs, List.map_singleton, if_pos at_]
    have settled : (recordOutcome (.current pos) .ok e).settled = true := by
      rw [Entry.settled, leg, show (recordOutcome (.current pos) .ok e).shadows = [] from shadows]
      rfl
    have alive : liveLegs (some d) [{ u with outcome := some .ok }] = [{ u with outcome := some .ok }] := by
      rw [liveLegs, List.filter_cons_of_pos (by simpa using live)]
      rfl
    unfold formCode
    rw [dir]
    dsimp only
    rw [settled, if_pos rfl, formWrite]
    dsimp only
    rw [leg, show (recordOutcome (.current pos) .ok e).region = some n from region, Option.getD_some,
      show descOf (s.withTable (recordOutcome (.current pos) .ok e :: rest)).mu.slots n = some d from desc, alive]
    rfl

theorem shadowLegs_eq (engine : Engine) (l : Lookup) : shadowLegs engine l =
    match runningJob engine with
    | none => []
    | some (_, j) =>
      if j.region = l.region ∧ engine.stopping = false
          ∧ (j.phase = some .verify ∨ j.phase = some .switch ∨ (j.phase = some .copy ∧ l.offset / 64 < j.cursor)) then
        j.work.shadows
      else [] := by
  unfold shadowLegs
  cases runningJob engine with
  | none => rfl
  | some r =>
    dsimp only
    by_cases own : r.2.region = l.region ∧ engine.stopping = false
    · rw [if_pos own]
      cases phase : r.2.phase with
      | none => simp
      | some p =>
        cases p with
        | copy =>
          have block : l.block = l.offset / 64 := rfl
          simp [own, block]
        | verify => exact (if_pos ⟨own.1, own.2, .inl rfl⟩).symm
        | switch => exact (if_pos ⟨own.1, own.2, .inr (.inl rfl)⟩).symm
        | scan => simp
    · rw [if_neg own, if_neg fun c => own ⟨c.1, c.2.1⟩]

/-- LINE_WAIT: the oldest entry behind an access on its line goes on as the access is answered OKAY. -/
theorem lineWait_goesOn {s : State} {lane : Lane} {number : Count16} {o : Outstanding} {pos : LegPos} {e w : Entry}
    {rest : List Entry} {l : Lookup} (power : s.porst = false) (opened : s.hp.seq = .opened) (drain : s.mu.commit.drain = none)
    (table : s.ift.entries = e :: w :: rest) (slots : (s.ift.entries.map Entry.slot).Nodup) (open_ : e.code = none)
    (found : (s.lanes.get lane).outstanding.find? (fun x => x.number == number) = some o) (timer : o.timer.isSome = true)
    (asker : o.req.requester = .host e.slot (.current pos))
    (kind : (e.kind = .read ∧ e.fallback = false)
      ∨ ∃ mask bytes n d u, e.kind = .write mask bytes ∧ e.region = some n ∧ descOf s.mu.slots n = some d
        ∧ e.legs = [u] ∧ u.pos = pos ∧ u.leg ∈ d.body.legs ∧ e.shadows = [])
    (walks : (s.engine.blockStep.any fun st => st.stage == .lockWait) = false) (phase : w.phase = .lineWait)
    (line : w.line = e.line) (wOpen : w.code = none) (result : w.lookup = some l)
    (waits : ∀ y ∈ rest, y.phase = .lineWait ∧ y.line = e.line ∧ (w.isWrite = true ∨ y.isWrite = true)) (data : LineData) :
    ∃ t e' w', exec (.laneResponse lane number .okay data) s = .next t ∧ t.ift.entries = e' :: w' :: rest ∧ e'.slot = e.slot
      ∧ e'.code = some .okay
      ∧ (w.isWrite = true → s.engine.lock = some { region := l.region, block := l.block } → w' = { w with phase := .parked })
      ∧ ((w.isWrite = false ∨ s.engine.lock ≠ some { region := l.region, block := l.block }) →
          Issued t w w' l (shadowLegs s.engine l)) := by
  have distinct := slots
  rw [table] at distinct
  obtain ⟨first, _⟩ := List.nodup_cons.mp distinct
  have later : ∀ y ∈ w :: rest, y.slot ≠ e.slot := fun y m c => first (c ▸ List.mem_map_of_mem m)
  obtain ⟨x, told⟩ := tellRequester_okay (s := freeCredit lane o s) (lane := lane) table later open_ asker data kind
  obtain ⟨v, known⟩ : ∃ v, v = (freeCredit lane o s).withTable (recordOutcome (.current pos) .ok e :: w :: rest) := ⟨_, rfl⟩
  have slots' : (v.ift.entries.map Entry.slot).Nodup := by rw [known]; exact distinct
  have off : countedByLock v.engine (recordOutcome (.current pos) .ok e) = false := by
    have engine : v.engine = s.engine := by rw [known]; rfl
    rw [countedByLock, engine, walks]
    simp
  have entries : v.ift.entries = recordOutcome (.current pos) .ok e :: w :: rest := by rw [known]; rfl
  obtain ⟨w', only, parked, asked⟩ := becomeKnown_waiter entries slots' off phase line wOpen result waits .okay x
  have is := exec_laneResponse power found timer .okay data
  rw [if_pos (show respondsOk .okay = true from rfl), told, ← known] at is
  have slot : (recordOutcome (.current pos) .ok e).slot = e.slot := rfl
  rw [slot] at only asked
  obtain ⟨u, is_u⟩ : ∃ u, u = becomeKnown e.slot .okay x v := ⟨_, rfl⟩
  rw [← is_u] at only asked is
  have hp : u.hp = s.hp := by rw [only, known]; rfl
  have fresh : (u.mu.commit.drain.any fun d => d.stale) = false := by
    have commit : u.mu = s.mu := by rw [only, known]; rfl
    rw [commit, drain]
    rfl
  have engine : v.engine = s.engine := by rw [known]; rfl
  have table' : u.ift.entries = (recordOutcome (.current pos) .ok e).answered .okay x :: w' :: rest := by rw [only]; rfl
  have stays : ∀ y ∈ rest, refreshed (settle u).lanes y = y := fun y m => by
    rw [refreshed, if_neg fun c => by rw [(waits y m).1] at c; cases c.1]
  refine ⟨_, (recordOutcome (.current pos) .ok e).answered .okay x, refreshed (settle u).lanes w', is, ?_, rfl, rfl,
    fun write locked => ?_, fun free => ?_⟩
  · rw [settle_entries fresh, table', List.map_cons, List.map_cons, List.map_congr_left stays]
    simp [refreshed, Entry.answered]
  · rw [parked write (by rw [engine]; exact locked), refreshed, if_neg fun c => by cases c.1]
  · rw [engine] at asked
    exact (asked free).issued (by rw [hp]; exact opened) fresh

/-! ### PARKED writes (R31) -/

/-- After the last outcome of a block, its step ends. -/
theorem LineOutcome.ends {v t : State} {h i : Nat} {j k : Job} {st : BlockStep} {l : LineState} {log : FaultLog}
    {phase : JobPhase} (out : LineOutcome v t h i st l k log []) (runs : runningJob v.engine = some (h, j))
    (goes : v.engine.stopping = false) (stage : st.stage = .transfer) (last : engineOpen v.lanes = 0)
    (at_ : k.phase = some phase) (finished : ∀ x ∈ st.lines.set i l, lineFinished phase x = true) :
    engineAdvance t = stepEnd t := by
  have none : engineOpen t.lanes = 0 := by rw [out.still rfl]; exact last
  have goes' : t.engine.stopping = false := by rw [out.rest]; exact goes
  have over_ : stepOver t = true := by
    have runs' : runningJob t.engine = some (h, k) := by rw [out.rest]; exact outcomeState_runs runs k
    have step : t.engine.blockStep = some { st with lines := st.lines.set i l } := by rw [out.rest]; rfl
    rw [stepOver, runs', step]
    simpa [stage, at_] using finished
  rw [engineAdvance, if_pos none, goes', if_neg nofun, if_pos over_]

/-- The OK answer of a line's last request, in the model. -/
theorem lastOutcome_outcome {v : State} {h i : Nat} {j : Job} {st : BlockStep} {l l' : LineState} {d : Descriptor}
    {stop : Option Stop} (a : AtLine v h j st i l d stop) {part : EnginePart} {data : LineData} (lane : Lane) (line : Nat)
    (last : lastOutcome j part l data = some l') :
    LineOutcome v (engineOk h j part i lane line data v) h i st l' j v.log [] := by
  unfold lastOutcome at last
  split at last
  · cases last
    exact shadowWrite_ok a _ lane line data
  · split at last
    · rename_i same
      cases last
      exact verifyRead_agrees a _ lane line data (List.getElem?_eq_getElem same.2.2) fun _ => same.2.1
    · cases last
  · split at last
    · rename_i same
      cases last
      exact auditB_equal a lane line data same
    · cases last
  · cases last

/-- The one entry of a table, parked on the locked block, is decoded in full and issued as the lock is released. -/
theorem releaseLock_issues {s : State} {w : Entry} {lock : Lock} {k l : Lookup} (held : s.engine.lock = some lock)
    (table : s.ift.entries = [w]) (phase : w.phase = .parked) (parked : w.lookup = some k) (region : k.region = lock.region)
    (block : k.block = lock.block) (span : holdingSpan s.ift w.line = none) (found : lookup s.mu.slots w.line = some l)
    (access : l.access = .readWrite) :
    releaseLock s = issued (w.mapped l) l { s with engine.lock := none, engine.blockStep := none } := by
  have only : parkedOn s.ift.entries lock = [w.slot] := by
    simp [parkedOn, table, phase, parked, region, block]
  rw [releaseLock, held]
  dsimp only
  rw [only]
  refine (fullDecode_mapped (e := w) (s := { s with engine.lock := none, engine.blockStep := none }) table span found
    fun _ => access).trans (if_neg ?_)
  rw [Bool.and_eq_true, beq_iff_eq]
  exact fun c => absurd c.2 nofun

/-- A state whose one entry has asked for its legs, and that keeps its table and requests until the event closes. -/
theorem parked_closes {r u : State} {w x : Entry} {l : Lookup} {shadows : List Leg} (asked : Asked r w x l shadows)
    (table : r.ift.entries = [x]) (ift : u.ift = r.ift) (keeps : KeepsRequests r u) (opened : u.hp.seq = .opened)
    (fresh : (u.mu.commit.drain.any fun d => d.stale) = false) :
    ∃ w', (settle u).ift.entries = [w'] ∧ Issued (settle u) w w' l shadows := by
  refine ⟨_, ?_, (asked.mono keeps).issued opened fresh⟩
  rw [settle_entries fresh, ift, table]
  rfl

/-- PARKED: a write parked on the block goes on as the last OK outcome ends the block step. -/
theorem parked_goesOn {s : State} {lane : Lane} {number : Count16} {resp : AxiResp} {data : LineData} {o : Outstanding}
    {part : EnginePart} {i h : Nat} {j : Job} {st : BlockStep} {line line' : LineState} {d : Descriptor} {phase : JobPhase}
    {w : Entry} {k l : Lookup} (a : Transferring s h j st) (asks : EngineRequest s lane number o part i)
    (at_ : st.lines[i]? = some line) (one : engineOpen s.lanes = 1) (desc : descOf s.mu.slots j.region = some d)
    (ok : resp = .okay ∨ resp = .exokay) (phases : j.phase = some phase) (last : lastOutcome j part line data = some line')
    (finished : ∀ x ∈ st.lines.set i line', lineFinished phase x = true)
    (lock : s.engine.lock = some { region := j.region, block := j.cursor }) (table : s.ift.entries = [w])
    (parked : w.phase = .parked) (open_ : w.code = none) (old : w.lookup = some k) (region : k.region = j.region)
    (block : k.offset / 64 = j.cursor) (span : holdingSpan s.ift w.line = none) (found : lookup s.mu.slots w.line = some l)
    (region' : l.region = j.region) (block' : l.offset / 64 = j.cursor) (access : l.access = .readWrite) :
    ∃ t, exec (.laneResponse lane number resp data) s = .next t
      ∧ (j.life = .running none → j.cursor + 1 < j.blockCount →
          ∃ w', t.ift.entries = [w'] ∧ Issued t w w' l (if phase = .scan then [] else j.work.shadows))
      ∧ (∀ stop, j.life = .running (some stop) → s.engine.queue = [] → ∃ w', t.ift.entries = [w'] ∧ Issued t w w' l []) := by
  have okay : respondsOk resp = true := by rcases ok with rfl | rfl <;> rfl
  have taken := exec_engine resp data a asks
  obtain ⟨_, opened, fresh, runs, step, stage, goes⟩ := a
  obtain ⟨v, hv⟩ : ∃ v, v = freeCredit lane o s := ⟨_, rfl⟩
  have runsV : runningJob v.engine = some (h, j) := by rw [hv]; exact runs
  rw [okay, if_pos rfl, ← hv, tellEngine, runsV] at taken
  dsimp only at taken
  have left : engineOpen v.lanes = 0 := by
    have fewer := engineOpen_free (List.mem_of_find?_eq_some asks.1) asks.2.1 (by rw [Request.fromEngine, asks.2.2])
    rw [hv]
    omega
  have here : ∀ stop, j.life = .running stop → AtLine v h j st i line d stop := fun stop life => by
    rw [hv]
    exact ⟨runs, step, at_, desc, goes, life⟩
  refine ⟨_, taken, fun life more => ?_, fun stop life queue => ?_⟩
  · have out := lastOutcome_outcome (here _ life) lane o.req.line last
    rw [out.ends runsV (by rw [hv]; exact goes) stage left phases finished]
    obtain ⟨t, ht⟩ : ∃ t, t = engineOk h j part i lane o.req.line data v := ⟨_, rfl⟩
    rw [← ht]
    have rest : t = outcomeState h i st line' j s.log v.lanes s := by
      have lanes := out.still rfl
      have only := out.rest
      rw [lanes] at only
      rw [ht, only, hv]
      rfl
    obtain ⟨q, hq⟩ : ∃ q, q = setJob h (some { j with cursor := j.cursor + 1 }) t := ⟨_, rfl⟩
    have runsT : runningJob t.engine = some (h, j) := by rw [rest]; exact outcomeState_runs runs j
    have runsQ : runningJob q.engine = some (h, { j with cursor := j.cursor + 1 }) := by
      obtain ⟨running, job⟩ := runningJob_eq.mp runsT
      rw [hq]
      exact runningJob_eq.mpr ⟨running, (jobOf_setAt job _ h).trans (if_pos rfl)⟩
    have ends : stepEnd t = afterStep (releaseLock q) := by
      have stops : j.stop = none := by rw [Job.stop, life]
      rw [stepEnd, runsT]
      dsimp only
      rw [stops, hq]
    have lockQ : q.engine.lock = some { region := j.region, block := j.cursor } := by rw [hq, rest]; exact lock
    have released := releaseLock_issues (s := q) (w := w) lockQ (by rw [hq, rest]; exact table) parked old region block
      (by rw [hq, rest]; exact span) (by rw [hq, rest]; exact found) access
    obtain ⟨x, only, asked⟩ := asked_issued (w.mapped l) l { q with engine.lock := none, engine.blockStep := none } rfl open_
    rw [← released] at only asked
    have shadows : shadowLegs { q.engine with lock := none, blockStep := none } l
        = if phase = .scan then [] else j.work.shadows := by
      have runs' : runningJob { q.engine with lock := none, blockStep := none } = _ := runsQ
      have still : ({ q.engine with lock := none, blockStep := none } : Engine).stopping = false := by
        rw [hq, rest]; exact goes
      rw [shadowLegs_eq, runs']
      dsimp only
      rw [still]
      cases phase with
      | copy => exact if_pos ⟨region'.symm, rfl, .inr (.inr ⟨phases, by omega⟩)⟩
      | verify => exact if_pos ⟨region'.symm, rfl, .inl phases⟩
      | switch => exact if_pos ⟨region'.symm, rfl, .inr (.inl phases)⟩
      | scan => exact if_neg fun c => by simp [phases] at c
    obtain ⟨r, hr⟩ : ∃ r, r = releaseLock q := ⟨_, rfl⟩
    rw [← hr] at only asked
    have after : afterStep r = beginStep r := by
      have runsR : runningJob r.engine = some (h, { j with cursor := j.cursor + 1 }) := by rw [only]; exact runsQ
      rw [afterStep, runsR]
      exact if_pos more
    have hpR : r.hp = s.hp := by rw [only, hq, rest]; rfl
    have muR : r.mu = s.mu := by rw [only, hq, rest]; rfl
    rw [ends, ← hr, after]
    have begun := decoded_beginStep r
    have result := parked_closes (u := beginStep r) asked (by rw [only]; rfl) (beginStep_ift r) (keepsRequests_beginStep r)
      (by rw [begun.seq, hpR]; exact opened) (by rw [begun.mu, muR]; exact fresh)
    rw [shadows] at result
    exact result
  · have out := lastOutcome_outcome (here _ life) lane o.req.line last
    rw [out.ends runsV (by rw [hv]; exact goes) stage left phases finished]
    obtain ⟨t, ht⟩ : ∃ t, t = engineOk h j part i lane o.req.line data v := ⟨_, rfl⟩
    rw [← ht]
    have rest : t = outcomeState h i st line' j s.log v.lanes s := by
      have lanes := out.still rfl
      have only := out.rest
      rw [lanes] at only
      rw [ht, only, hv]
      rfl
    have runsT : runningJob t.engine = some (h, j) := by rw [rest]; exact outcomeState_runs runs j
    obtain ⟨q, hq⟩ : ∃ q, q = { t with engine.stopping := true } := ⟨_, rfl⟩
    have released := releaseLock_issues (s := q) (w := w) (lock := { region := j.region, block := j.cursor })
      (by rw [hq, rest]; exact lock) (by rw [hq, rest]; exact table) parked
      old region block (by rw [hq, rest]; exact span) (by rw [hq, rest]; exact found) access
    obtain ⟨x, only, asked⟩ := asked_issued (w.mapped l) l { q with engine.lock := none, engine.blockStep := none } rfl open_
    rw [← released] at only asked
    obtain ⟨r, hr⟩ : ∃ r, r = releaseLock q := ⟨_, rfl⟩
    rw [← hr] at only asked
    have runsR : runningJob r.engine = some (h, j) := by rw [only, hq]; exact runsT
    have ends : stepEnd t = Machine.finished h j stop.outcome r := by
      have none : (Machine.finished h j stop.outcome r).engine.queue = [] := by
        show r.engine.queue = []
        rw [only, hq, rest]
        exact queue
      rw [stepEnd, runsT]
      dsimp only
      rw [Job.stop, life]
      dsimp only
      rw [stopFinish, ← hq, ← hr]
      rw [runsR]
      dsimp only
      rw [Job.stop, life]
      dsimp only
      rw [finishJob_running runsR, startNext_empty none]
    have shadows : shadowLegs { q.engine with lock := none, blockStep := none } l = [] := by
      have runs' : runningJob { q.engine with lock := none, blockStep := none } = some (h, j) := by rw [hq]; exact runsT
      rw [shadowLegs_eq, runs']
      exact if_neg fun c => by rw [hq] at c; cases c.2.1
    have hpR : r.hp = s.hp := by rw [only, hq, rest]; rfl
    have muR : r.mu = s.mu := by rw [only, hq, rest]; rfl
    rw [ends]
    have result := parked_closes (u := Machine.finished h j stop.outcome r) asked (by rw [only]; rfl) rfl (keepsRequests_of rfl)
      (by show r.hp.seq = _; rw [hpR]; exact opened)
      (by show (r.mu.commit.drain.any fun d => d.stale) = false; rw [muR]; exact fresh)
    rw [shadows] at result
    exact result

/-- Settles O49: the HELD, the LINE_WAIT and the PARKED entry. -/
theorem waitingEntriesGoOn : Obligations.WaitingEntriesGoOn := by
  refine ⟨fun s c txn hold sp power opened lanes fresh queue aligned size beats table inside way => ?_,
    fun s lane number data o pos e w rest l power opened drain lanes table slots open_ phase found timer asker kind walks
      waits line wOpen result _ later => ?_,
    fun s lane number resp data o part i h j st line line' d phase w k l mask bytes a asks at_ one desc _ ok phases last
      finished lock table parked open_ _ old region block span found region' block' access =>
      parked_goesOn a asks at_ one desc ok phases last finished lock table parked open_ old region block span found region'
        block' access⟩
  · have formed : HostTxn.malformed txn = false := by simp [HostTxn.malformed, aligned, size, beats]
    obtain ⟨f, k, ends, hp, lanes', power', fresh'⟩ := drainEnd_release power fresh queue way
    have released := held_goesOn (fun t => (ends t).2) (by rw [hp]; exact opened) fresh' (by rw [lanes']; exact lanes) formed inside
    have same : s.withTable [{ newEntry 0 txn.id txn.address (txnKind txn) with phase := .held, hold := some hold }] = s := by
      rw [← table]
      rfl
    refine ⟨_, _, (ends []).1, same ▸ (ends _).1, ?_⟩
    have stays : settle (f (s.withTable [])) = k.withTable [] := by
      rw [(ends []).2]
      exact settle_empty (s := k.withTable []) (by show k.hp.seq = _; rw [hp]; exact opened) fresh'
        (by show ∀ n : Lane, (k.lanes.get n).Settled; rw [lanes']; exact lanes) rfl
    show whilePowered (acceptTxn txn) (settle (f (s.withTable []))) = _
    have powered : ¬(k.withTable []).porst = true := by
      show ¬k.porst = true
      rw [power']
      nofun
    rw [whilePowered, if_neg (by rw [stays]; exact powered), released, same]
  · have goesOn := lineWait_goesOn power opened drain table slots open_ found timer asker kind walks waits line wOpen result
      (fun y m => by
        obtain ⟨a, b, _, c⟩ := later y m
        exact ⟨a, b, c⟩) data
    rw [shadowLegs_eq] at goesOn
    exact goesOn

end Sys2Proof.Machine

/-! PROOF. Accesses answered without a lane (O9). -/

namespace Sys2Proof.Machine

open Sys2Proof

/-! ### An access accepted on an empty table (R24, R25) -/

section
variable {s : State}

theorem whilePowered_on (power : s.porst = false) (f : State → State) : whilePowered f s = .next (f s) := by
  rw [whilePowered, if_neg (by rw [power]; nofun)]

theorem takeBeat_open {b : WriteBurst} {slot : Nat} (opened : s.hp.seq = .opened) (free : freeSlot s.ift.entries = some slot)
    (many : 2 ≤ b.beats) : takeBeat b s =
      if s.hp.writeBeats + 1 < b.beats then { s with hp.writeBeats := s.hp.writeBeats + 1 }
      else settle (acceptBad (newEntry slot b.id b.address .badWrite) { s with hp.writeBeats := 0 }) := by
  rw [takeBeat, show isOpen s = true by rw [isOpen, opened]; rfl, free]
  exact if_neg (by omega)

theorem exec_accepted (quiet : Quiet s) {txn : HostTxn} (formed : HostTxn.malformed txn = false) :
    exec (.hostAccept txn) s
      = .next (settle (fullDecode 0 (s.withTable [newEntry 0 txn.id txn.address (txnKind txn)]))) := by
  obtain ⟨power, opened, table, _, _⟩ := quiet
  have free : freeSlot s.ift.entries = some 0 := by rw [table]; rfl
  refine (whilePowered_on power (acceptTxn txn)).trans ?_
  rw [acceptTxn_open opened free, formed, if_neg nofun, acceptGood, table]
  rfl

/-- An entry alone in the table, answered as it is accepted, is presented as the event closes. -/
theorem settle_answered {e : Entry} (quiet : Quiet s) (hp : HostPort) (seq : hp.seq = s.hp.seq) (code : e.unanswered = false)
    (phase : e.phase ≠ .issuing) :
    settle { s.withTable [e] with hp := hp } = answering e { s with hp := hp } := by
  obtain ⟨_, opened, _, drain, rest⟩ := quiet
  exact settle_lone (s := { s.withTable [e] with hp := hp }) (seq.trans opened) drain rest rfl code phase

theorem exec_malformed (quiet : Quiet s) {txn : HostTxn} (bad : HostTxn.malformed txn = true) :
    exec (.hostAccept txn) s = .next (answering { newEntry 0 txn.id txn.address (txnKind txn) with code := some .slverr }
      { s with hp := { s.hp with
          malformed := bump s.hp.malformed
          writeBeats :=
            match txn.kind with
            | .read => s.hp.writeBeats
            | .write _ _ => if 1 < txn.beats then 0 else s.hp.writeBeats } }) := by
  obtain ⟨power, opened, table, _, _⟩ := id quiet
  have free : freeSlot s.ift.entries = some 0 := by rw [table]; rfl
  have accepted : acceptBad (newEntry 0 txn.id txn.address (txnKind txn)) (finishBeats txn s)
      = { s.withTable [{ newEntry 0 txn.id txn.address (txnKind txn) with code := some .slverr }] with hp := { s.hp with
          malformed := bump s.hp.malformed
          writeBeats :=
            match txn.kind with
            | .read => s.hp.writeBeats
            | .write _ _ => if 1 < txn.beats then 0 else s.hp.writeBeats } } := by
    unfold acceptBad finishBeats
    cases txn.kind with
    | read => simp only [table]; rfl
    | write mask data =>
      dsimp only
      split <;> (simp only [table]; rfl)
  refine (whilePowered_on power (acceptTxn txn)).trans (congrArg Host.Outcome.next ?_)
  rw [acceptTxn_open opened free, bad, if_pos rfl, accepted]
  exact settle_answered quiet _ rfl rfl nofun

theorem malformed_of {txn : HostTxn} (bad : txn.address % 64 ≠ 0 ∨ txn.size ≠ 64 ∨ 1 < txn.beats) :
    HostTxn.malformed txn = true := by
  rcases bad with c | c | c <;> simp [HostTxn.malformed, c]

theorem formed_of {txn : HostTxn} (aligned : txn.address % 64 = 0) (size : txn.size = 64) (beats : txn.beats ≤ 1) :
    HostTxn.malformed txn = false := by simp [HostTxn.malformed, aligned, size, beats]

theorem txnKind_formed {txn : HostTxn} (formed : HostTxn.malformed txn = false) : txnKind txn =
    match txn.kind with
    | .read => .read
    | .write mask data => .write mask data := by
  unfold txnKind
  rw [formed]
  cases txn.kind <;> rfl

end

/-- Settles O9: each of the four accesses is answered as it is accepted. -/
theorem accessesAnsweredWithoutALane : Obligations.AccessesAnsweredWithoutALane := by
  intro s quiet
  obtain ⟨power, opened, table, drain, rest⟩ := id quiet
  refine ⟨fun txn bad => exec_malformed quiet (malformed_of bad), fun txn bad read free => ?_, fun b many => ⟨fun more => ?_,
    fun last => ?_⟩, fun txn aligned size beats span => ?_⟩
  · have kind : txnKind txn = .badRead txn.beats := by
      rw [txnKind, read]
      exact if_pos (malformed_of bad)
    refine ⟨_, readBeats .slverr 0 txn.beats, exec_malformed quiet (malformed_of bad), ?_, readBeats_length .., fun i lt =>
      readBeats_getElem? .slverr 0 txn.beats i lt⟩
    have dir : ({ newEntry 0 txn.id txn.address (txnKind txn) with code := some .slverr } : Entry).dir = .read := by
      rw [kind]
      rfl
    refine (presentedResponse_of (slot := 0) (e := { newEntry 0 txn.id txn.address (txnKind txn) with code := some .slverr })
      ?_ ?_).trans ?_
    · rw [answering, presented]
      dsimp only
      rw [dir]
      dsimp only
      rw [free]
      rfl
    · simp [answering, entryAt, newEntry]
    · rw [kind]
      rfl
  · refine (whilePowered_on power (takeBeat b)).trans (congrArg Host.Outcome.next ?_)
    rw [takeBeat_open opened (by rw [table]; rfl) many, if_pos more]
  · refine (whilePowered_on power (takeBeat b)).trans (congrArg Host.Outcome.next ?_)
    have accepted : acceptBad (newEntry 0 b.id b.address .badWrite) { s with hp.writeBeats := 0 }
        = { s.withTable [{ newEntry 0 b.id b.address .badWrite with code := some .slverr }] with
            hp := { s.hp with malformed := bump s.hp.malformed, writeBeats := 0 } } := by
      rw [acceptBad]
      dsimp only
      rw [table]
      rfl
    rw [takeBeat_open (slot := 0) opened (by rw [table]; rfl) many, if_neg (by omega), accepted]
    exact settle_answered quiet _ rfl rfl nofun
  · have formed := formed_of aligned size beats
    refine ⟨fun miss => ?_, fun l mask data found access write => ?_⟩
    · have is := fullDecode_unmapped (e := newEntry 0 txn.id txn.address (txnKind txn))
        (s := s.withTable [newEntry 0 txn.id txn.address (txnKind txn)]) rfl ⟨nofun, nofun⟩ span miss
      refine (exec_accepted quiet formed).trans ((congrArg (fun t => Host.Outcome.next (settle t)) is).trans ?_)
      exact congrArg Host.Outcome.next (settle_answered quiet { s.hp with unmapped := bump s.hp.unmapped } rfl
        (e := { newEntry 0 txn.id txn.address (txnKind txn) with code := some .decerr }) rfl nofun)
    · have kind : txnKind txn = .write mask data := by rw [txnKind_formed formed, write]
      have is := fullDecode_readOnly (e := newEntry 0 txn.id txn.address (txnKind txn))
        (s := s.withTable [newEntry 0 txn.id txn.address (txnKind txn)]) rfl ⟨nofun, nofun⟩ span found (by rw [kind]; rfl)
        access
      refine (exec_accepted quiet formed).trans ((congrArg (fun t => Host.Outcome.next (settle t)) is).trans ?_)
      rw [kind]
      exact congrArg Host.Outcome.next (settle_answered quiet { s.hp with readOnly := bump s.hp.readOnly } rfl
        (e := { newEntry 0 txn.id txn.address (.write mask data) with
          region := some l.region, lookup := some l, code := some .slverr }) rfl nofun)

end Sys2Proof.Machine

/-! PROOF. Accesses that issue, wait or are held as they are accepted (O11, O13). -/

namespace Sys2Proof.Machine

open Sys2Proof

/-! ### Requests presented one after another (R53) -/

/-- Requests presented at their lanes, one after another. -/
def presentAll (reqs : List (Lane × Request)) (s : State) : State := reqs.foldl (fun s q => present q.1 [q.2] s) s

/-- The requests that fall to a lane. -/
def requestsAt (n : Lane) (reqs : List (Lane × Request)) : List Request := (reqs.filter fun q => q.1 == n).map Prod.snd

theorem requestsAt_cons (n : Lane) (q : Lane × Request) (reqs : List (Lane × Request)) :
    requestsAt n (q :: reqs) = if q.1 = n then q.2 :: requestsAt n reqs else requestsAt n reqs := by
  unfold requestsAt
  by_cases at_ : q.1 = n
  · rw [if_pos at_, List.filter_cons_of_pos (by simpa using at_), List.map_cons]
  · rw [if_neg at_, List.filter_cons_of_neg (by simpa using at_)]

theorem mem_requestsAt {n : Lane} {reqs : List (Lane × Request)} {r : Request} (m : r ∈ requestsAt n reqs) :
    ∃ q ∈ reqs, q.2 = r := by
  obtain ⟨q, mem, is⟩ := List.mem_map.mp m
  exact ⟨q, (List.mem_filter.mp mem).1, is⟩

theorem presentAll_append (a b : List (Lane × Request)) (s : State) : presentAll (a ++ b) s = presentAll b (presentAll a s) :=
  List.foldl_append ..

theorem presentAll_rest (reqs : List (Lane × Request)) : ∀ s : State,
    presentAll reqs s = { s with lanes := (presentAll reqs s).lanes } := by
  induction reqs with
  | nil => exact fun _ => rfl
  | cons q reqs ih => exact fun s => ih (present q.1 [q.2] s)

theorem presentAll_lane (reqs : List (Lane × Request)) (n : Lane) : ∀ s : State, (presentAll reqs s).lanes.get n =
    { s.lanes.get n with waiting := (s.lanes.get n).waiting ++ queued (s.lanes.get n) (requestsAt n reqs) } := by
  induction reqs with
  | nil =>
    intro s
    rw [requestsAt, queued]
    simp only [List.filter_nil, List.map_nil, List.append_nil]
    rfl
  | cons q reqs ih =>
    intro s
    refine (ih (present q.1 [q.2] s)).trans ?_
    rw [present_lane, requestsAt_cons]
    by_cases at_ : q.1 = n
    · subst at_
      simp
    · rw [if_neg (Ne.symm at_), if_neg at_]

theorem presentLegs_all (e : Entry) (legs : List LegUse) : ∀ s : State,
    presentLegs e legs s = presentAll (legs.map fun u =>
      (u.leg.lane, { kind := e.reqKind, line := u.line, requester := .host e.slot (.current u.pos) })) s := by
  induction legs with
  | nil => exact fun _ => rfl
  | cons u rest ih => exact fun s => ih _

theorem presentShadows_all (e : Entry) (legs : List ShadowUse) : ∀ (k : Nat) (s : State),
    presentShadows e k legs s = presentAll (legs.mapIdx fun i u =>
      (u.leg.lane, { kind := e.reqKind, line := u.line, requester := .host e.slot (.shadow (k + i)) })) s := by
  induction legs with
  | nil => exact fun _ _ => rfl
  | cons u rest ih =>
    intro k s
    rw [List.mapIdx_cons]
    refine (ih (k + 1) _).trans ?_
    have next : ∀ i, k + 1 + i = k + (i + 1) := fun i => by omega
    simp only [next]
    rfl

/-- The requests of an entry that issues, in the order it presents them (R32). -/
def asksOf (e : Entry) (legs : List LegUse) (shadows : List ShadowUse) : List (Lane × Request) :=
  (legs.map fun u => (u.leg.lane, { kind := e.reqKind, line := u.line, requester := .host e.slot (.current u.pos) }))
  ++ shadows.mapIdx fun i u =>
    (u.leg.lane, { kind := e.reqKind, line := u.line, requester := .host e.slot (.shadow i) })

theorem issued_all (e : Entry) (l : Lookup) (s : State) : issued e l s =
    presentAll (asksOf e (issueLegs e l) (issueShadows s.engine e l)) (s.withTable
      [{ e with phase := .issuing, legs := issueLegs e l, shadows := issueShadows s.engine e l }]) := by
  rw [issued, presentLegs_all, presentShadows_all, asksOf, presentAll_append]
  simp only [Nat.zero_add]

/-! ### What a lane takes (R52, R54) -/

theorem taking_waiting (p : LanePort) (r : Request) (w : Waiting) (m : w ∈ (p.taking r).waiting) :
    w ∈ p.waiting ∨ w.req = r := by
  unfold LanePort.taking at m
  split at m
  · exact .inl m
  · rcases List.mem_append.mp m with m | m
    · exact .inl m
    · rw [List.mem_singleton.mp m]
      exact .inr rfl

theorem takings_waiting (reqs : List Request) : ∀ (p : LanePort) (w : Waiting),
    w ∈ (reqs.foldl LanePort.taking p).waiting → w ∈ p.waiting ∨ w.req ∈ reqs := by
  induction reqs with
  | nil => exact fun _ _ m => .inl m
  | cons r reqs ih =>
    intro p w m
    rcases ih (p.taking r) w m with m | m
    · rcases taking_waiting p r w m with m | m
      · exact .inl m
      · exact .inr (m ▸ List.mem_cons_self ..)
    · exact .inr (List.mem_cons_of_mem _ m)

theorem slotWaits_false {lanes : PerLane LanePort} {slot : Nat} (rest : ∀ n : Lane, (lanes.get n).waiting = []) :
    slotWaits lanes slot = false := by
  have h0 := rest .l0
  have h1 := rest .l1
  have h2 := rest .l2
  have h3 := rest .l3
  simp only [PerLane.get] at h0 h1 h2 h3
  simp [slotWaits, PerLane.all, h0, h1, h2, h3]

theorem slotWaits_true {lanes : PerLane LanePort} {slot : Nat} {n : Lane} {w : Waiting} (m : w ∈ (lanes.get n).waiting)
    (is : w.req.ofSlot slot = true) : slotWaits lanes slot = true := by
  have any : ((lanes.get n).waiting.any fun w => w.req.ofSlot slot) = true := List.any_eq_true.mpr ⟨w, m, is⟩
  unfold slotWaits PerLane.all
  cases n <;> simp only [PerLane.get] at any <;> simp [any]

/-- A state whose one entry asks for its requests at lanes at rest: the event closes with them taken, in their order. -/
theorem settle_issuing {s : State} {x : Entry} {reqs : List (Lane × Request)} (opened : s.hp.seq = .opened)
    (drain : s.mu.commit.drain = none) (rest : ∀ n : Lane, (s.lanes.get n).Settled) (phase : x.phase = .issuing)
    (code : x.code = none) (asks : ∀ q ∈ reqs, ∃ part, q.2.requester = .host x.slot part)
    (order : reqs.Pairwise fun a b => placeBefore (hostPlace [x] b.2) (hostPlace [x] a.2) = false) :
    ∃ lanes phase, settle (presentAll reqs (s.withTable [x])) = { s with
        ift.entries := [{ x with phase := phase }]
        lanes := lanes }
      ∧ (∀ n : Lane, lanes.get n = (requestsAt n reqs).foldl LanePort.taking (s.lanes.get n))
      ∧ ((∀ n : Lane, (lanes.get n).waiting = []) → phase = .issued)
      ∧ ((∃ n : Lane, (lanes.get n).waiting ≠ []) → phase = .issuing) := by
  obtain ⟨t, ht⟩ : ∃ t, t = presentAll reqs (s.withTable [x]) := ⟨_, rfl⟩
  have only : t = { s.withTable [x] with lanes := t.lanes } := by rw [ht]; exact presentAll_rest _ _
  have lane : ∀ n : Lane, t.lanes.get n = { s.lanes.get n with waiting := queued (s.lanes.get n) (requestsAt n reqs) } :=
    fun n => by
      rw [ht, presentAll_lane]
      have none : (s.withTable [x]).lanes.get n = s.lanes.get n := rfl
      rw [none, (rest n).1, List.nil_append]
  have host : ∀ (n : Lane) (r : Request), r ∈ requestsAt n reqs → ∃ part, r.requester = .host x.slot part := fun n r m => by
    obtain ⟨q, mem, is⟩ := mem_requestsAt m
    exact is ▸ asks q mem
  have granted : ∀ n : Lane, grantLane t.ift.entries t.engine.share (t.lanes.get n)
      = (requestsAt n reqs).foldl LanePort.taking (s.lanes.get n) := fun n => by
    have table : t.ift.entries = [x] := by rw [only]; rfl
    have none : ∀ r ∈ requestsAt n reqs, r.fromEngine = false := fun r m => by
      obtain ⟨part, is⟩ := host n r m
      simp [Request.fromEngine, is]
    have falls : (requestsAt n reqs).Pairwise fun a b =>
        placeBefore (hostPlace t.ift.entries b) (hostPlace t.ift.entries a) = false := by
      rw [table]
      exact List.pairwise_map.mpr (order.filter _)
    have empty : ({ s.lanes.get n with waiting := [] } : LanePort) = s.lanes.get n := by rw [← (rest n).1]
    rw [grantLane_taking (by rw [lane n]) none falls, lane n]
    exact congrArg (fun p => (requestsAt n reqs).foldl LanePort.taking p) empty
  obtain ⟨lanes, hlanes⟩ : ∃ lanes, lanes = t.lanes.map (grantLane t.ift.entries t.engine.share) := ⟨_, rfl⟩
  have each : ∀ n : Lane, lanes.get n = (requestsAt n reqs).foldl LanePort.taking (s.lanes.get n) := fun n => by
    rw [hlanes, PerLane.get_map, granted]
  have settled : settle t = presentResponses (refreshPhases (grantAll t)) :=
    settle_opened (by rw [only]; exact opened) (by rw [only]; show (s.mu.commit.drain.any _) = false; rw [drain]; rfl)
      fun n => by rw [lane n]; exact (rest n).2
  obtain ⟨y, hy⟩ : ∃ y, y = if slotWaits lanes x.slot = false then { x with phase := .issued } else x := ⟨_, rfl⟩
  have refresh : refreshPhases (grantAll t) = { s.withTable [y] with lanes := lanes } := by
    have table : (grantAll t).ift.entries = [x] := by rw [grantAll, only]; rfl
    have ports : (grantAll t).lanes = lanes := by rw [hlanes]; rfl
    unfold refreshPhases
    rw [table, ports, hy]
    simp only [phase, List.map_cons, List.map_nil, true_and]
    rw [grantAll, ← hlanes, only]
    rfl
  have open_ : y.unanswered = true := by
    rw [hy]
    split <;> simp [Entry.unanswered, code]
  refine ⟨lanes, y.phase, ?_, each, fun none => ?_, fun ⟨n, waits⟩ => ?_⟩
  · rw [← ht, settled, refresh, presentResponses_none (e := y) rfl open_]
    have same : y = { x with phase := y.phase } := by
      rw [hy]
      split <;> rfl
    rw [← same]
    rfl
  · rw [hy, if_pos (slotWaits_false none)]
  · obtain ⟨w, m⟩ := List.exists_mem_of_ne_nil _ waits
    have from_ := m
    rw [each n] at from_
    rcases takings_waiting _ _ _ from_ with c | c
    · rw [(rest n).1] at c
      cases c
    · obtain ⟨part, is⟩ := host n _ c
      have of : w.req.ofSlot x.slot = true := by simp [Request.ofSlot, is]
      rw [hy, if_neg (by rw [slotWaits_true m of]; nofun), phase]

/-- One request of the one entry: it is issued with a credit free, and waits with none. -/
theorem settle_asking {s : State} {x : Entry} {m : Lane} {r : Request} {part : HostPart} (opened : s.hp.seq = .opened)
    (drain : s.mu.commit.drain = none) (rest : ∀ n : Lane, (s.lanes.get n).Settled) (phase : x.phase = .issuing)
    (code : x.code = none) (asks : r.requester = .host x.slot part) :
    settle (present m [r] (s.withTable [x])) = { s with
      ift.entries := [{ x with phase := if (s.lanes.get m).outstanding.length < 16 then .issued else .issuing }]
      lanes := s.lanes.set m ((s.lanes.get m).taking r) } := by
  obtain ⟨lanes, phase', is, each, rests, waits⟩ := settle_issuing (reqs := [(m, r)]) opened drain rest phase code
    (fun q mem => ⟨part, by rw [List.mem_singleton.mp mem]; exact asks⟩) (List.pairwise_singleton ..)
  have lane : ∀ n : Lane, lanes.get n = if n = m then (s.lanes.get m).taking r else s.lanes.get n := fun n => by
    rw [each n, requestsAt_cons]
    by_cases at_ : n = m
    · subst at_
      rw [if_pos rfl, if_pos rfl]
      rfl
    · rw [if_neg (Ne.symm at_), if_neg at_]
      rfl
  have phases : phase' = if (s.lanes.get m).outstanding.length < 16 then .issued else .issuing := by
    split
    · rename_i room
      refine rests fun n => ?_
      rw [lane n]
      split
      · rw [LanePort.taking, if_pos room]
        exact (rest m).1
      · exact (rest n).1
    · rename_i full
      refine waits ⟨m, ?_⟩
      rw [lane m, if_pos rfl, LanePort.taking, if_neg full]
      simp
  have ports : lanes = s.lanes.set m ((s.lanes.get m).taking r) :=
    PerLane.ext_get fun n => (lane n).trans (PerLane.get_set ..).symm
  rw [← ports, ← phases]
  exact is

/-! ### The decode of an access into a quiet part (R32) -/

theorem asksOf_order {e x : Entry} {legs : List LegUse} (shadows : List ShadowUse) (slot : x.slot = e.slot)
    (order : legs.Pairwise fun a b => partPlace (.current a.pos) ≤ partPlace (.current b.pos)) :
    (asksOf e legs shadows).Pairwise fun a b => placeBefore (hostPlace [x] b.2) (hostPlace [x] a.2) = false := by
  have place : ∀ (kind : ReqKind) (line : Nat) (part : HostPart),
      hostPlace [x] { kind := kind, line := line, requester := .host e.slot part } = (0, partPlace part) := fun _ _ _ => by
    simp [hostPlace, olderThan, slot]
  have before : ∀ a b : Nat, a ≤ b → placeBefore (0, b) (0, a) = false := fun a b le => by simp [placeBefore, le]
  have early : ∀ pos : LegPos, partPlace (.current pos) ≤ 2 := fun pos => by cases pos <;> simp [partPlace]
  refine List.pairwise_append.mpr ⟨List.pairwise_map.mpr (order.imp fun le => ?_), List.pairwise_iff_getElem.mpr fun i k _ _ lt => ?_,
    fun a ma b mb => ?_⟩
  · rw [place, place]
    exact before _ _ le
  · simp only [List.getElem_mapIdx]
    rw [place, place]
    exact before _ _ (by simp only [partPlace]; omega)
  · obtain ⟨u, _, rfl⟩ := List.mem_map.mp ma
    obtain ⟨i, _, rfl⟩ := List.mem_mapIdx.mp mb
    rw [place, place]
    exact before _ _ (Nat.le_trans (early u.pos) (by simp only [partPlace]; omega))

theorem asksOf_host {e : Entry} {legs : List LegUse} {shadows : List ShadowUse} :
    ∀ q ∈ asksOf e legs shadows, ∃ part, q.2.requester = .host e.slot part := fun q m => by
  rcases List.mem_append.mp m with m | m
  · obtain ⟨u, _, rfl⟩ := List.mem_map.mp m
    exact ⟨_, rfl⟩
  · obtain ⟨i, _, rfl⟩ := List.mem_mapIdx.mp m
    exact ⟨_, rfl⟩

theorem issueLegs_order (e : Entry) (l : Lookup) :
    (issueLegs e l).Pairwise fun a b => partPlace (.current a.pos) ≤ partPlace (.current b.pos) := by
  rw [issueLegs_eq]
  dsimp only
  split
  · cases l.legB with
    | none => exact List.pairwise_singleton ..
    | some b => simp [partPlace]
  · exact List.pairwise_singleton ..
  · exact List.pairwise_singleton ..
  · exact List.pairwise_singleton ..
  · split <;> exact List.pairwise_singleton ..

theorem settle_issued {s : State} {e : Entry} {l : Lookup} (opened : s.hp.seq = .opened) (drain : s.mu.commit.drain = none)
    (rest : ∀ n : Lane, (s.lanes.get n).Settled) (code : e.code = none) :
    ∃ lanes phase, settle (issued e l s) = { s with
        ift.entries := [{ e with legs := issueLegs e l, shadows := issueShadows s.engine e l, phase := phase }]
        lanes := lanes }
      ∧ (∀ n : Lane, lanes.get n
          = (requestsAt n (asksOf e (issueLegs e l) (issueShadows s.engine e l))).foldl LanePort.taking (s.lanes.get n))
      ∧ ((∀ n : Lane, (lanes.get n).waiting = []) → phase = .issued)
      ∧ ((∃ n : Lane, (lanes.get n).waiting ≠ []) → phase = .issuing) := by
  rw [issued_all]
  exact settle_issuing (x := { e with phase := .issuing, legs := issueLegs e l, shadows := issueShadows s.engine e l })
    opened drain rest rfl code asksOf_host (asksOf_order _ rfl (issueLegs_order e l))

/-- Entries that wait for their outcome and issue nothing: the event leaves nothing to its close. -/
theorem settle_still {s : State} {table : List Entry} (opened : s.hp.seq = .opened) (drain : s.mu.commit.drain = none)
    (rest : ∀ n : Lane, (s.lanes.get n).Settled) (waits : ∀ x ∈ table, x.unanswered = true ∧ x.phase ≠ .issuing) :
    settle (s.withTable table) = s.withTable table := by
  have silent : ∀ d, nextResponse table d = none := fun d => by
    rw [nextResponse, List.find?_eq_none.mpr fun x m => ?_]
    · rfl
    · simp [eligible, (waits x m).1]
  have stays : presentResponses (s.withTable table) = s.withTable table := by
    unfold presentResponses
    have read : nextResponse (s.withTable table).ift.entries .read = none := silent .read
    have write : nextResponse (s.withTable table).ift.entries .write = none := silent .write
    rw [read, write]
    simp
  rw [settle_opened (s := s.withTable table) opened (by show (s.mu.commit.drain.any _) = false; rw [drain]; rfl)
    fun n => (rest n).2, grantAll_rest (s := s.withTable table) fun n => (rest n).1,
    refreshPhases_rest (s := s.withTable table) fun x m => (waits x m).2, stays]

/-- A mapped access accepted in a quiet part parks on a locked block, and issues otherwise. -/
theorem exec_mapped {s : State} (quiet : Quiet s) {txn : HostTxn} {l : Lookup} (formed : HostTxn.malformed txn = false)
    (span : holdingSpan s.ift (txn.address / 64) = none) (found : lookup s.mu.slots (txn.address / 64) = some l)
    (passes : txn.kind = .read ∨ l.access = .readWrite) :
    let e := (newEntry 0 txn.id txn.address (txnKind txn)).mapped l
    exec (.hostAccept txn) s = .next (settle
      (if e.isWrite && s.engine.lock == some { region := l.region, block := l.offset / 64 } then
        s.withTable [{ e with phase := .parked }] else issued e l (s.withTable [e]))) := by
  intro e
  refine (exec_accepted quiet formed).trans (congrArg (fun t => Host.Outcome.next (settle t)) ?_)
  refine (fullDecode_mapped (e := newEntry 0 txn.id txn.address (txnKind txn))
    (s := s.withTable [newEntry 0 txn.id txn.address (txnKind txn)]) rfl span found fun write => ?_).trans rfl
  rcases passes with read | access
  · rw [Entry.isWrite, newEntry, txnKind_formed formed, read] at write
    exact absurd write nofun
  · exact access

/-- Settles O13: the write parks, or its legs and shadow legs are presented and granted in their order. -/
theorem writesTakeEveryCurrentAndShadowLeg : Obligations.WritesTakeEveryCurrentAndShadowLeg := by
  intro s txn l mask data quiet aligned size beats write span found access entry locked
  have formed := formed_of aligned size beats
  have kind : txnKind txn = .write mask data := by rw [txnKind_formed formed, write]
  have is := exec_mapped quiet formed span found (.inr access)
  rw [kind] at is
  obtain ⟨_, opened, _, drain, rest⟩ := quiet
  refine ⟨fun lock => ?_, fun free => ?_⟩
  · refine is.trans (congrArg Host.Outcome.next ?_)
    have here : s.engine.lock = some { region := l.region, block := l.offset / 64 } := lock
    rw [if_pos (by rw [here]; simp [Entry.isWrite, Entry.mapped, newEntry, Entry.dir])]
    exact settle_still opened drain rest fun x m => by rw [List.mem_singleton.mp m]; exact ⟨rfl, nofun⟩
  · intro uses shadows reqs
    obtain ⟨lanes, phase, settled, each, phases⟩ := settle_issued (s := s) (e := entry) (l := l) opened drain rest rfl
    have legs : issueLegs entry l = uses := issueLegs_eq entry l
    have shadow : issueShadows s.engine entry l = shadows := by
      have write : entry.isWrite = true := rfl
      rw [issueShadows, if_pos write, shadowLegs_eq]
      simp only [shadows]
      cases runningJob s.engine with
      | none => rfl
      | some r => exact (apply_ite _ _ _ _).trans rfl
    rw [legs, shadow] at settled each
    refine ⟨lanes, phase, is.trans (congrArg Host.Outcome.next ?_), each, phases⟩
    rw [if_neg fun c => free (beq_iff_eq.mp (Bool.and_eq_true_iff.mp c).2)]
    exact settled

/-- A decode behind an older open access of its line, one of the two a WRITE, waits with its lookup result (R27, R30). -/
theorem fullDecode_waits {s : State} {e w : Entry} {l : Lookup} (table : s.ift.entries = [e, w]) (other : e.slot ≠ w.slot)
    (code : e.code = none) (line : e.line = w.line) (conflict : e.isWrite = true ∨ w.isWrite = true)
    (span : holdingSpan s.ift w.line = none) (found : lookup s.mu.slots w.line = some l)
    (passes : w.isWrite = true → l.access = .readWrite) :
    fullDecode w.slot s = s.withTable [e, { w.mapped l with phase := .lineWait }] := by
  have at_ : entryAt s.ift.entries w.slot = some w := by rw [table, entryAt_second other]
  have mapped : modifyEntry w.slot (fun e => { e with hold := none, region := some l.region, lookup := some l }) s
      = s.withTable [e, w.mapped l] := modifyEntry_second table other
        (fun _ m => absurd m List.not_mem_nil) _
  have blocked : hazard [e, w.mapped l] (w.mapped l) = true := by
    have older : olderThan [e, w.mapped l] (w.mapped l).slot = [e] := by simp [olderThan, Entry.mapped, other]
    have write : (w.mapped l).isWrite = w.isWrite := rfl
    rw [hazard, older, List.any_cons, write]
    rcases conflict with c | c <;> simp [Entry.unanswered, code, c, Entry.mapped, line]
  have waits : continueDecode w.slot (s.withTable [e, w.mapped l]) = s.withTable [e, { w.mapped l with phase := .lineWait }] := by
    have here : entryAt (s.withTable [e, w.mapped l]).ift.entries w.slot = some (w.mapped l) :=
      entryAt_second (w := w.mapped l) other
    have hazards : hazard (s.withTable [e, w.mapped l]).ift.entries (w.mapped l) = true := blocked
    rw [continueDecode, here]
    dsimp only
    exact (if_pos hazards).trans (modifyEntry_second (w := w.mapped l) (s := s.withTable [e, w.mapped l]) rfl other
      (fun _ m => absurd m List.not_mem_nil) _)
  have writable : ¬(w.isWrite && l.access == .readOnly) = true := fun c => by
    obtain ⟨write, access⟩ := Bool.and_eq_true_iff.mp c
    rw [passes write] at access
    exact absurd access nofun
  rw [fullDecode, at_]
  dsimp only
  rw [span]
  dsimp only
  rw [found]
  dsimp only
  rw [mapped, if_neg writable, waits]

/-- READ: it is presented at the leg its read preference puts first. -/
theorem exec_read {s : State} {txn : HostTxn} {l : Lookup} {pos : LegPos} {leg : Leg} (quiet : Quiet s)
    (formed : HostTxn.malformed txn = false) (read : txn.kind = .read) (span : holdingSpan s.ift (txn.address / 64) = none)
    (found : lookup s.mu.slots (txn.address / 64) = some l)
    (first : match l.legB, l.pref with
      | none, _ => pos = .a ∧ leg = l.legA
      | some _, .aFirst => pos = .a ∧ leg = l.legA
      | some b, .bFirst => pos = .b ∧ leg = b
      | some b, .split => if l.offset / 64 % 2 = 0 then pos = .a ∧ leg = l.legA else pos = .b ∧ leg = b) :
    exec (.hostAccept txn) s = .next { s with
      ift.entries := [{ newEntry 0 txn.id txn.address .read with
        region := some l.region, lookup := some l
        legs := [{ pos := pos, leg := leg, line := leg.base * 32768 + l.offset, outcome := none }]
        phase := if (s.lanes.get leg.lane).outstanding.length < 16 then .issued else .issuing }]
      lanes := s.lanes.set leg.lane ((s.lanes.get leg.lane).taking
        { kind := .read, line := leg.base * 32768 + l.offset, requester := .host 0 (.current pos) }) } := by
  have kind : txnKind txn = .read := by rw [txnKind_formed formed, read]
  have is := exec_mapped quiet formed span found (.inl read)
  rw [kind] at is
  obtain ⟨_, opened, _, drain, rest⟩ := quiet
  obtain ⟨e, he⟩ : ∃ e, e = (newEntry 0 txn.id txn.address .read).mapped l := ⟨_, rfl⟩
  have legs : issueLegs e l = [{ pos := pos, leg := leg, line := leg.base * 32768 + l.offset, outcome := none }] := by
    rw [issueLegs_eq, show e.dir = .read by rw [he]; rfl]
    revert first
    cases l.legB with
    | none =>
      rintro ⟨rfl, rfl⟩
      rfl
    | some b =>
      cases l.pref with
      | aFirst =>
        rintro ⟨rfl, rfl⟩
        rfl
      | bFirst =>
        rintro ⟨rfl, rfl⟩
        rfl
      | split =>
        intro first
        dsimp only at first ⊢
        split at first <;> (obtain ⟨rfl, rfl⟩ := first; simp [*])
  have goes : issued e l (s.withTable [e]) = present leg.lane
      [{ kind := .read, line := leg.base * 32768 + l.offset, requester := .host 0 (.current pos) }] (s.withTable [{ e with
        phase := .issuing
        legs := [{ pos := pos, leg := leg, line := leg.base * 32768 + l.offset, outcome := none }] }]) := by
    rw [issued_all, legs, he]
    rfl
  have settled := settle_asking (m := leg.lane) (part := .current pos)
    (r := { kind := .read, line := leg.base * 32768 + l.offset, requester := .host 0 (.current pos) })
    (x := { e with
      phase := .issuing
      legs := [{ pos := pos, leg := leg, line := leg.base * 32768 + l.offset, outcome := none }] })
    opened drain rest rfl (by rw [he]; rfl) (by rw [he]; rfl)
  rw [← goes] at settled
  rw [he] at settled
  exact is.trans (congrArg Host.Outcome.next settled)

/-- LINE_WAIT: the access takes the lowest free slot behind the entry it waits for. -/
theorem exec_lineWait {s : State} {txn : HostTxn} {e : Entry} {l : Lookup} (lone : LoneEntry s e) (phase : e.phase ≠ .issuing)
    (formed : HostTxn.malformed txn = false) (same : e.line = txn.address / 64) (conflict : e.dir = .write ∨ txn.kind ≠ .read)
    (span : holdingSpan s.ift (txn.address / 64) = none) (found : lookup s.mu.slots (txn.address / 64) = some l)
    (passes : txn.kind = .read ∨ l.access = .readWrite) :
    exec (.hostAccept txn) s = .next { s with ift.entries :=
      [e, { newEntry (if e.slot = 0 then 1 else 0) txn.id txn.address (txnKind txn) with
        region := some l.region, lookup := some l, phase := .lineWait }] } := by
  obtain ⟨power, opened, table, code, drain, rest⟩ := lone
  have free : freeSlot s.ift.entries = some (if e.slot = 0 then 1 else 0) := by
    rw [table]
    split
    · rename_i zero
      exact freeSlot_eq (by omega) (by simp [zero]) fun m lt => ⟨e, List.mem_singleton_self e, by omega⟩
    · rename_i nonzero
      exact freeSlot_eq (by omega) (by simpa using nonzero) fun m lt => absurd lt (Nat.not_lt_zero _)
  have other : e.slot ≠ if e.slot = 0 then 1 else 0 := by split <;> omega
  obtain ⟨w, hw⟩ : ∃ w, w = newEntry (if e.slot = 0 then 1 else 0) txn.id txn.address (txnKind txn) := ⟨_, rfl⟩
  have kind : w.isWrite = true ↔ txn.kind ≠ .read := by
    rw [hw, Entry.isWrite, Entry.dir, newEntry, txnKind_formed formed]
    cases txn.kind <;> simp
  refine (whilePowered_on power (acceptTxn txn)).trans (congrArg Host.Outcome.next ?_)
  rw [acceptTxn_open opened free, formed, if_neg nofun, acceptGood, table, ← hw]
  have is := fullDecode_waits (s := s.withTable [e, w]) (e := e) (w := w) (l := l) rfl (by rw [hw]; exact other) code
    (by rw [hw]; exact same) (conflict.imp (fun d => by rw [Entry.isWrite, d]; rfl) kind.mpr) (by rw [hw]; exact span)
    (by rw [hw]; exact found) fun write => passes.resolve_left (kind.mp write)
  refine (congrArg settle is).trans ?_
  refine (settle_still opened drain rest fun x m => ?_).trans (by rw [hw]; rfl)
  rcases List.mem_cons.mp m with rfl | m
  · exact ⟨by rw [Entry.unanswered, code]; rfl, phase⟩
  · rw [List.mem_singleton.mp m, hw]
    exact ⟨rfl, nofun⟩

/-- Settles O11: the issue of a read, the hold of a drain span and the wait behind a line. -/
theorem readsAreIssuedAndDecodesWait : Obligations.ReadsAreIssuedAndDecodesWait := by
  refine ⟨fun s txn l pos leg quiet aligned size beats read span found first => ?_,
    fun s txn hold quiet aligned size beats span => ?_, fun s txn e l lone phase aligned size beats same conflict span found
      passes => exec_lineWait lone phase (formed_of aligned size beats) same conflict span found passes⟩
  · have is := exec_read quiet (formed_of aligned size beats) read span found first
    obtain ⟨_, _, _, _, rest⟩ := id quiet
    have empty := (rest leg.lane).1
    refine ⟨fun room => ?_, fun full => ?_⟩
    · rw [if_pos room, LanePort.taking, if_pos room] at is
      exact is
    · rw [if_neg (Nat.not_lt.mpr full), LanePort.taking, if_neg (Nat.not_lt.mpr full), empty] at is
      exact is
  · refine (exec_accepted quiet (formed_of aligned size beats)).trans (congrArg Host.Outcome.next ?_)
    obtain ⟨_, opened, _, drain, rest⟩ := quiet
    have is := fullDecode_held (e := newEntry 0 txn.id txn.address (txnKind txn))
      (s := s.withTable [newEntry 0 txn.id txn.address (txnKind txn)]) rfl span
    refine (congrArg settle is).trans ?_
    exact settle_still opened drain rest fun x m => by rw [List.mem_singleton.mp m]; exact ⟨rfl, nofun⟩

end Sys2Proof.Machine

/-! PROOF. Outcomes of the requests of an access alone in its table (O15, O18, O19). -/

namespace Sys2Proof.Machine

open Sys2Proof

/-! ### Failures of a request (R57, R58, R59, R61) -/

theorem PerLane.modify_modify {α : Type} (p : PerLane α) (n : Lane) (f g : α → α) :
    (p.modify n f).modify n g = p.modify n fun x => g (f x) :=
  PerLane.ext_get fun m => by
    rw [PerLane.get_modify, PerLane.get_modify, PerLane.get_modify, PerLane.get_modify, if_pos rfl]
    split <;> rfl

theorem PerLane.modify_congr {α : Type} {p : PerLane α} {n : Lane} {f g : α → α} (same : f (p.get n) = g (p.get n)) :
    p.modify n f = p.modify n g :=
  PerLane.ext_get fun m => by
    rw [PerLane.get_modify, PerLane.get_modify, same]

/-- What a request's failure leaves, on a lane that stays ACTIVE, before its requester is told: the lane port as `f` leaves
it, the weight and the record. -/
def State.failing (lane : Lane) (f : LanePort → LanePort) (weight : Nat) (info : FaultInfo) (s : State) : State :=
  { s with
    lanes := s.lanes.modify lane f
    health.lanes := s.health.lanes.modify lane fun h => { h with budget := weighed weight h.budget }
    log := takeRecord s.mu.generation info s.log }

theorem failing_stays {s : State} {lane : Lane} {weight : Nat} (stays : StaysActive s lane weight) (f : LanePort → LanePort)
    (count : LaneCounters → LaneCounters) (kind : FaultKind) (r : Request) :
    failing lane count kind weight r { s with lanes := s.lanes.modify lane f }
      = s.failing lane (fun p => { f p with counters := count (f p).counters }) weight (errorRecord kind lane r s) := by
  have stays' : StaysActive (writeRecord (errorRecord kind lane r (countLane lane count
      { s with lanes := s.lanes.modify lane f })) (countLane lane count { s with lanes := s.lanes.modify lane f })) lane weight :=
    stays
  rw [failing, addWeight_stays stays', countLane, modifyLane]
  dsimp only
  rw [PerLane.modify_modify]
  rfl

theorem exec_laneError {s : State} {lane : Lane} {number : Count16} {o : Outstanding} {resp : AxiResp} (power : s.porst = false)
    (found : (s.lanes.get lane).outstanding.find? (fun x => x.number == number) = some o) (timer : o.timer.isSome = true)
    (bad : resp = .slverr ∨ resp = .decerr) (data : LineData) :
    exec (.laneResponse lane number resp data) s = .next (settle (laneError lane o.req (freeCredit lane o s))) := by
  have fails : respondsOk resp = false := by rcases bad with rfl | rfl <;> rfl
  refine (exec_laneResponse power found timer resp data).trans (congrArg (fun t => Host.Outcome.next (settle t)) ?_)
  rw [fails]
  exact if_neg nofun

theorem exec_readError {s : State} {lane : Lane} {number : Count16} {o : Outstanding} {resp : AxiResp} (power : s.porst = false)
    (found : (s.lanes.get lane).outstanding.find? (fun x => x.number == number) = some o) (timer : o.timer.isSome = true)
    (bad : resp = .slverr ∨ resp = .decerr) (data : LineData) (kind : o.req.kind = .read) (stays : StaysActive s lane 64) :
    exec (.laneResponse lane number resp data) s = .next (settle (tellRequester lane o.req .error 0 (s.failing lane (fun p =>
      { p with
        outstanding := p.outstanding.erase o
        counters := { p.counters with readErrors := bump p.counters.readErrors } })
      64 (errorRecord .laneReadError lane o.req s)))) := by
  refine (exec_laneError power found timer bad data).trans (congrArg (fun t => Host.Outcome.next (settle t)) ?_)
  rw [laneError, kind]
  exact congrArg (tellRequester lane o.req .error 0) (failing_stays stays (fun p => { p with outstanding := p.outstanding.erase o })
    (fun c => { c with readErrors := bump c.readErrors }) .laneReadError o.req)

theorem exec_writeError {s : State} {lane : Lane} {number : Count16} {o : Outstanding} {resp : AxiResp} (power : s.porst = false)
    (found : (s.lanes.get lane).outstanding.find? (fun x => x.number == number) = some o) (timer : o.timer.isSome = true)
    (bad : resp = .slverr ∨ resp = .decerr) (data : LineData) (kind : o.req.kind ≠ .read) (stays : StaysActive s lane 128) :
    exec (.laneResponse lane number resp data) s = .next (settle (tellRequester lane o.req .error 0 (s.failing lane (fun p =>
      { p with
        outstanding := p.outstanding.erase o
        counters := { p.counters with writeErrors := bump p.counters.writeErrors } })
      128 (errorRecord .laneWriteError lane o.req s)))) := by
  refine (exec_laneError power found timer bad data).trans (congrArg (fun t => Host.Outcome.next (settle t)) ?_)
  obtain ⟨mask, bytes, write⟩ : ∃ mask bytes, o.req.kind = .write mask bytes := by
    revert kind
    cases o.req.kind with
    | read => exact fun kind => absurd rfl kind
    | write mask bytes => exact fun _ => ⟨mask, bytes, rfl⟩
  rw [laneError, write]
  exact congrArg (tellRequester lane o.req .error 0) (failing_stays stays (fun p => { p with outstanding := p.outstanding.erase o })
    (fun c => { c with writeErrors := bump c.writeErrors }) .laneWriteError o.req)

theorem exec_responseExpiry {s : State} {lane : Lane} {number : Count16} {o : Outstanding} (power : s.porst = false)
    (found : (s.lanes.get lane).outstanding.find? (fun x => x.number == number && x.timer.isSome) = some o)
    (stays : StaysActive s lane 256) :
    exec (.responseTimeout lane number) s = .next (settle (tellRequester lane o.req .timeout 0 (s.failing lane (fun p =>
      { p with
        outstanding := p.outstanding.map fun x => if x.number = number then { x with timer := none } else x
        counters := { p.counters with timeouts := bump p.counters.timeouts } })
      256 (errorRecord .laneTimeout lane o.req s)))) := by
  have found' : (s.lanes.get lane).outstanding.find? (fun x => x.number == number && x.running) = some o := found
  have possible : ((s.lanes.get lane).outstanding.any fun x => x.number == number && x.running) = true :=
    List.any_eq_true.mpr ⟨o, List.mem_of_find?_eq_some found',
      List.find?_some (p := fun x : Outstanding => x.number == number && x.running) found'⟩
  refine (event_taken (f := expireResponse lane number) power possible).trans
    (congrArg (fun t => Host.Outcome.next (settle t)) ?_)
  rw [expireResponse, found']
  exact congrArg (tellRequester lane o.req .timeout 0) (failing_stays stays (fun p => { p with
    outstanding := p.outstanding.map fun x => if x.number = number then { x with timer := none } else x })
    (fun c => { c with timeouts := bump c.timeouts }) .laneTimeout o.req)

theorem exec_waitExpiry {s : State} {lane : Lane} {w : Waiting} (power : s.porst = false)
    (waits : (s.lanes.get lane).waiting = [w]) (stays : StaysActive s lane 256) :
    exec (.creditWaitTimeout lane 0) s = .next (settle (tellRequester lane w.req .timeout 0 (s.failing lane (fun p =>
      { p with
        waiting := []
        counters := { p.counters with timeouts := bump p.counters.timeouts } })
      256 (errorRecord .laneTimeout lane w.req s)))) := by
  have place : (s.lanes.get lane).waiting[0]? = some w := by rw [waits]; rfl
  have possible : ((s.lanes.get lane).waiting[0]?).isSome = true := by rw [place]; rfl
  refine (event_taken (f := expireWait lane 0) power possible).trans (congrArg (fun t => Host.Outcome.next (settle t)) ?_)
  rw [expireWait, place]
  have leaves : modifyLane lane (fun p => { p with waiting := p.waiting.eraseIdx 0 }) s
      = { s with lanes := s.lanes.modify lane fun p => { p with waiting := [] } } := by
    rw [modifyLane, PerLane.modify_congr (g := fun p => { p with waiting := [] }) (by rw [waits]; rfl)]
  dsimp only
  rw [leaves]
  exact congrArg (tellRequester lane w.req .timeout 0) (failing_stays stays (fun p => { p with waiting := [] })
    (fun c => { c with timeouts := bump c.timeouts }) .laneTimeout w.req)

/-! ### The entry is told (R63, R64) -/

section
variable {s : State} {e : Entry} {lane : Lane} {r : Request} {pos : LegPos}

theorem errorRecord_lone (table : s.ift.entries = [e]) (asker : r.requester = .host e.slot (.current pos)) (kind : FaultKind) :
    errorRecord kind lane r s = { kind := kind, lane := some lane, region := e.region, hostLine := some e.line
                                  laneLine := some r.line, id := some e.id } := by
  rw [errorRecord, asker]
  dsimp only
  rw [entryAt_lone table]

theorem tellRequester_lone (table : s.ift.entries = [e]) (open_ : e.code = none)
    (asker : r.requester = .host e.slot (.current pos)) (outcome : LaneOutcome) (data : LineData) :
    tellRequester lane r outcome data s = formCode (recordOutcome (.current pos) outcome e) (.current pos) outcome data
      (s.withTable [recordOutcome (.current pos) outcome e]) := by
  have known : e.unanswered = true := by rw [Entry.unanswered, open_]; rfl
  rw [tellRequester, asker]
  dsimp only
  rw [tellHost, entryAt_lone table]
  dsimp only
  rw [if_pos known, modifyEntry_lone table]

/-- An entry alone in its table that no lock wait counts, answered: with nothing else in progress its channel presents it. -/
theorem settle_known (table : s.ift.entries = [e]) (off : countedByLock s.engine e = false) (opened : s.hp.seq = .opened)
    (drain : s.mu.commit.drain = none) (rest : ∀ n : Lane, (s.lanes.get n).Settled) (code : Code) (data : LineData) :
    settle (becomeKnown e.slot code data s)
      = answering { e with code := some code, data := data, phase := .orderWait } s := by
  rw [becomeKnown_lone table off]
  exact settle_lone (s := s.withTable [{ e with code := some code, data := data, phase := .orderWait }]) opened drain rest rfl rfl
    nofun

theorem read_off (kind : e.kind = .read) (engine : Engine) : countedByLock engine e = false := by
  simp [countedByLock, Entry.isWrite, Entry.dir, kind]

theorem formCode_read (kind : e.kind = .read) (outcome : LaneOutcome) (data : LineData) :
    formCode e (.current pos) outcome data s = formRead e pos outcome data s := by
  unfold formCode
  rw [Entry.dir, kind]

theorem formRead_fails {outcome : LaneOutcome} (fails : outcome ≠ .ok) (data : LineData) : formRead e pos outcome data s =
    match fallbackLeg e pos s with
    | some leg => if e.fallback then becomeKnown e.slot .slverr 0 s else presentFallback e pos leg s
    | none => becomeKnown e.slot .slverr 0 s := by
  cases outcome with
  | ok => exact absurd rfl fails
  | error => rfl
  | timeout => rfl

/-- A READ with no leg left to try becomes known as its leg fails (R63). -/
theorem tellRequester_readFailed {outcome : LaneOutcome} {l : Lookup} (table : s.ift.entries = [e]) (open_ : e.code = none)
    (asker : r.requester = .host e.slot (.current pos)) (kind : e.kind = .read) (found : e.lookup = some l)
    (left : e.fallback = true ∨ l.legB = none
      ∨ ∀ leg d, l.legAt pos.other = some leg → descOf s.mu.slots l.region = some d → leg ∉ d.body.legs)
    (fails : outcome ≠ .ok) (data : LineData) :
    tellRequester lane r outcome data s
      = becomeKnown e.slot .slverr 0 (s.withTable [recordOutcome (.current pos) outcome e]) := by
  obtain ⟨x, hx⟩ : ∃ x, x = recordOutcome (.current pos) outcome e := ⟨_, rfl⟩
  have kind' : x.kind = .read := by rw [hx]; exact kind
  have slot : x.slot = e.slot := by rw [hx]; rfl
  rw [tellRequester_lone table open_ asker, ← hx, formCode_read kind', formRead_fails fails, slot]
  split
  · rename_i leg is
    refine if_pos (left.elim (fun c => by rw [hx]; exact c) fun c => ?_)
    unfold fallbackLeg at is
    rw [show x.lookup = some l by rw [hx]; exact found] at is
    dsimp only at is
    split at is
    · rename_i b leg' d legB at_ desc
      rcases c with c | c
      · rw [c] at legB
        cases legB
      · have absent : ¬(d.body.legs.contains leg') = true := by simpa using c leg' d at_ desc
        rw [if_neg absent] at is
        cases is
    · cases is
  · rfl

/-- With nothing else in progress that READ is answered SLVERR as the event closes. -/
theorem settle_readFailed {outcome : LaneOutcome} {l : Lookup} (table : s.ift.entries = [e]) (open_ : e.code = none)
    (opened : s.hp.seq = .opened) (drain : s.mu.commit.drain = none) (rest : ∀ n : Lane, (s.lanes.get n).Settled)
    (asker : r.requester = .host e.slot (.current pos)) (kind : e.kind = .read) (found : e.lookup = some l)
    (left : e.fallback = true ∨ l.legB = none
      ∨ ∀ leg d, l.legAt pos.other = some leg → descOf s.mu.slots l.region = some d → leg ∉ d.body.legs)
    (fails : outcome ≠ .ok) :
    settle (tellRequester lane r outcome 0 s) = answering { e with
      legs := e.legs.map fun u => if u.pos = pos then { u with outcome := some outcome } else u
      code := some .slverr, data := 0, phase := .orderWait } s := by
  rw [tellRequester_readFailed table open_ asker kind found left fails]
  exact settle_known (s := s.withTable [recordOutcome (.current pos) outcome e]) (e := recordOutcome (.current pos) outcome e)
    rfl (read_off kind _) opened drain rest .slverr 0

/-- A READ whose first leg fails is presented at the other leg of its region (R63). -/
theorem settle_readRetried {outcome : LaneOutcome} {l : Lookup} {leg b : Leg} {d : Descriptor} (table : s.ift.entries = [e])
    (open_ : e.code = none) (opened : s.hp.seq = .opened) (drain : s.mu.commit.drain = none)
    (rest : ∀ n : Lane, (s.lanes.get n).Settled) (asker : r.requester = .host e.slot (.current pos)) (kind : e.kind = .read)
    (first : e.fallback = false) (found : e.lookup = some l) (mirror : l.legB = some b) (at_ : l.legAt pos.other = some leg)
    (desc : descOf s.mu.slots l.region = some d) (live : leg ∈ d.body.legs) (fails : outcome ≠ .ok) :
    settle (tellRequester lane r outcome 0 s) = { s with
      ift.entries := [{ e with
        legs := (e.legs.map fun u => if u.pos = pos then { u with outcome := some outcome } else u)
          ++ [{ pos := pos.other, leg := leg, line := leg.base * 32768 + l.offset, outcome := none }]
        fallback := true
        phase := if (s.lanes.get leg.lane).outstanding.length < 16 then .issued else .issuing }]
      lanes := s.lanes.set leg.lane ((s.lanes.get leg.lane).taking
        { kind := .read, line := leg.base * 32768 + l.offset, requester := .host e.slot (.current pos.other) }) } := by
  obtain ⟨x, hx⟩ : ∃ x, x = recordOutcome (.current pos) outcome e := ⟨_, rfl⟩
  have kind' : x.kind = .read := by rw [hx]; exact kind
  have found' : x.lookup = some l := by rw [hx]; exact found
  have falls : fallbackLeg x pos (s.withTable [x]) = some leg := by
    unfold fallbackLeg
    have desc' : descOf (s.withTable [x]).mu.slots l.region = some d := desc
    rw [found']
    dsimp only
    rw [mirror, at_, desc']
    exact if_pos (by simpa using live)
  have unused : ¬x.fallback = true := by
    rw [hx]
    show ¬e.fallback = true
    rw [first]
    nofun
  have slot : x.slot = e.slot := by rw [hx]; rfl
  have presents : formRead x pos outcome 0 (s.withTable [x]) = present leg.lane
      [{ kind := .read, line := leg.base * 32768 + l.offset, requester := .host e.slot (.current pos.other) }] (s.withTable
        [{ x with
          legs := x.legs ++ [{ pos := pos.other, leg := leg, line := leg.base * 32768 + l.offset, outcome := none }]
          fallback := true, phase := .issuing }]) := by
    rw [formRead_fails fails, falls]
    dsimp only
    rw [if_neg unused, presentFallback, modifyEntry_lone (s := s.withTable [x]) rfl, found', slot]
    rfl
  rw [tellRequester_lone table open_ asker, ← hx, formCode_read kind', presents]
  refine (settle_asking (x := { x with
    legs := x.legs ++ [{ pos := pos.other, leg := leg, line := leg.base * 32768 + l.offset, outcome := none }]
    fallback := true, phase := .issuing }) (part := .current pos.other) opened drain rest rfl (by rw [hx]; exact open_)
    (by rw [← slot])).trans ?_
  rw [hx]
  rfl

end

/-! ### Failed reads (R63) -/

/-- Lanes at rest stay so under a change of one that leaves it at rest. -/
theorem settled_modify {lanes : PerLane LanePort} {lane : Lane} {f : LanePort → LanePort}
    (others : ∀ n : Lane, n ≠ lane → (lanes.get n).Settled) (here : (f (lanes.get lane)).Settled) (n : Lane) :
    ((lanes.modify lane f).get n).Settled := by
  rw [PerLane.get_modify]
  split
  · exact here
  · exact others n ‹_›

/-- Settles O18: each failure is counted, recorded and weighed, and the READ answered SLVERR. -/
theorem failedReadWithNoLegLeftIsSlverr : Obligations.FailedReadWithNoLegLeftIsSlverr := by
  intro s e l lane pos kind found left info failed
  have answers : ∀ (f : LanePort → LanePort) (fault : FaultKind) (weight : Nat) (outcome : LaneOutcome) (r : Request),
      s.ift.entries = [e] → e.code = none → s.hp.seq = .opened → s.mu.commit.drain = none →
      (∀ n : Lane, n ≠ lane → (s.lanes.get n).Settled) → (f (s.lanes.get lane)).Settled →
      r.requester = .host e.slot (.current pos) → outcome ≠ .ok →
      settle (tellRequester lane r outcome 0 (s.failing lane f weight (errorRecord fault lane r s)))
        = answering (failed outcome) (s.failing lane f weight (info fault r.line)) :=
    fun f fault weight outcome r table open_ opened drain others here asker fails => by
      rw [errorRecord_lone table asker]
      exact settle_readFailed (s := s.failing lane f weight (info fault r.line)) table open_ opened drain
        (settled_modify others here) asker kind found left fails
  refine ⟨fun number resp data o lone stays bad at_ timer read asker => ?_, fun number o lone stays at_ read asker => ?_,
    fun w power opened table open_ drain others quiesce waits read asker stays => ?_⟩
  · obtain ⟨power, opened, table, open_, drain, rest⟩ := lone
    exact (exec_readError power at_ timer bad data read stays).trans (congrArg Host.Outcome.next (answers _ .laneReadError 64 .error
      o.req table open_ opened drain (fun n _ => rest n) (rest lane) asker nofun))
  · obtain ⟨power, opened, table, open_, drain, rest⟩ := lone
    exact (exec_responseExpiry power at_ stays).trans (congrArg Host.Outcome.next (answers _ .laneTimeout 256 .timeout
      o.req table open_ opened drain (fun n _ => rest n) (rest lane) asker nofun))
  · exact (exec_waitExpiry power waits stays).trans (congrArg Host.Outcome.next (answers _ .laneTimeout 256 .timeout
      w.req table open_ opened drain others ⟨rfl, quiesce⟩ asker nofun))

/-- Settles O19: each failure is counted, recorded and weighed, and the READ presented at the other leg. -/
theorem failedFirstReadFallsBack : Obligations.FailedFirstReadFallsBack := by
  intro s e l lane pos leg b d kind first found mirror at_ desc live other line falls timedOut
  have retried : ∀ (c : Instr) (f : LanePort → LanePort) (fault : FaultKind) (weight : Nat) (outcome : LaneOutcome)
      (r : Request) (port : LanePort), f (s.lanes.get lane) = port →
      exec c s = .next (settle (tellRequester lane r outcome 0 (s.failing lane f weight (errorRecord fault lane r s)))) →
      s.ift.entries = [e] → e.code = none → s.hp.seq = .opened → s.mu.commit.drain = none →
      (∀ n : Lane, n ≠ lane → (s.lanes.get n).Settled) → port.Settled →
      r.requester = .host e.slot (.current pos) → outcome ≠ .ok → falls c outcome fault r.line weight port :=
    fun c f fault weight outcome r port is runs table open_ opened drain others here asker fails => by
      rw [errorRecord_lone table asker] at runs
      have elsewhere : (s.lanes.modify lane f).get leg.lane = s.lanes.get leg.lane := by
        rw [PerLane.get_modify, if_neg other]
      have settled := settle_readRetried (lane := lane) (s := s.failing lane f weight { kind := fault, lane := some lane, region := e.region, hostLine := some e.line, laneLine := some r.line, id := some e.id }) table open_ opened drain
        (settled_modify others (is ▸ here)) asker kind first found mirror at_ desc live fails
      rw [State.failing] at settled
      dsimp only at settled
      rw [elsewhere] at settled
      refine ⟨_, runs.trans (congrArg Host.Outcome.next settled), fun n => ?_⟩
      rw [PerLane.get_set, PerLane.get_modify, is]
      by_cases here : n = lane
      · rw [if_pos here, if_pos here, if_neg fun c => other (c.symm.trans here)]
      · rw [if_neg here, if_neg here]
        split
        · rename_i same
          rw [same]
        · rfl
  refine ⟨fun number resp data o lone stays bad asked timer read asker => ?_, fun number o lone stays asked read asker => ?_,
    fun w power opened table open_ drain others quiesce waits read asker stays => ?_⟩
  · obtain ⟨power, opened, table, open_, drain, rest⟩ := lone
    exact retried _ _ .laneReadError 64 .error o.req _ rfl (exec_readError power asked timer bad data read stays) table open_ opened
      drain (fun n _ => rest n) (rest lane) asker nofun
  · obtain ⟨power, opened, table, open_, drain, rest⟩ := lone
    exact retried _ _ .laneTimeout 256 .timeout o.req _ rfl (exec_responseExpiry power asked stays) table open_ opened
      drain (fun n _ => rest n) (rest lane) asker nofun
  · exact retried _ _ .laneTimeout 256 .timeout w.req _ rfl (exec_waitExpiry power waits stays) table open_ opened
      drain others ⟨rfl, quiesce⟩ asker nofun

/-! ### Answered accesses (R58, R63, R64) -/

section
variable {s : State} {x : Entry} {n : Nat} {d : Descriptor}

theorem liveLegs_all (here : ∀ u ∈ x.legs, u.leg ∈ d.body.legs) : liveLegs (some d) x.legs = x.legs :=
  List.filter_eq_self.mpr fun u m => by simpa using here u m

theorem formWrite_live (region : x.region = some n) (desc : descOf s.mu.slots n = some d)
    (here : ∀ u ∈ x.legs, u.leg ∈ d.body.legs) (some_ : x.legs ≠ []) : formWrite x s =
      if x.legs.all LegUse.succeeded then becomeKnown x.slot .okay 0 s
      else match x.legs.any LegUse.succeeded, failedLeg x.legs with
        | true, some u => { s with mu.drops := s.mu.drops ++ [{ region := n, leg := u.leg, slot := some x.slot }] }
        | _, _ => becomeKnown x.slot .slverr 0 s := by
  have nonempty : ¬x.legs.isEmpty = true := by simpa using some_
  rw [formWrite]
  dsimp only
  rw [region, Option.getD_some, desc, liveLegs_all here]
  exact if_neg nonempty

/-- Every leg succeeded. -/
theorem formWrite_okay (region : x.region = some n) (desc : descOf s.mu.slots n = some d)
    (here : ∀ u ∈ x.legs, u.leg ∈ d.body.legs) (some_ : x.legs ≠ []) (all : ∀ u ∈ x.legs, u.outcome = some .ok) :
    formWrite x s = becomeKnown x.slot .okay 0 s := by
  rw [formWrite_live region desc here some_, if_pos (List.all_eq_true.mpr fun u m => by simp [LegUse.succeeded, all u m])]

/-- No leg succeeded. -/
theorem formWrite_slverr (region : x.region = some n) (desc : descOf s.mu.slots n = some d)
    (here : ∀ u ∈ x.legs, u.leg ∈ d.body.legs) (some_ : x.legs ≠ []) (none : ∀ u ∈ x.legs, u.outcome ≠ some .ok) :
    formWrite x s = becomeKnown x.slot .slverr 0 s := by
  have nobody : x.legs.any LegUse.succeeded = false := List.any_eq_false.mpr fun u m => by
    simpa [LegUse.succeeded] using none u m
  obtain ⟨u, m⟩ := List.exists_mem_of_ne_nil _ some_
  have notAll : ¬x.legs.all LegUse.succeeded = true := fun all =>
    absurd (List.all_eq_true.mp all u m) (List.any_eq_false.mp nobody u m)
  rw [formWrite_live region desc here some_, if_neg notAll, nobody]

/-- A leg succeeded and another failed. -/
theorem formWrite_drops {u w : LegUse} (region : x.region = some n) (desc : descOf s.mu.slots n = some d)
    (here : ∀ u ∈ x.legs, u.leg ∈ d.body.legs) (mu : u ∈ x.legs) (ok : u.outcome = some .ok)
    (failed : failedLeg x.legs = some w) :
    formWrite x s = { s with mu.drops := s.mu.drops ++ [{ region := n, leg := w.leg, slot := some x.slot }] } := by
  have somebody : x.legs.any LegUse.succeeded = true := List.any_eq_true.mpr ⟨u, mu, by simp [LegUse.succeeded, ok]⟩
  have fails : w.succeeded = false := by
    have h := List.find?_some failed
    rw [LegUse.succeeded]
    cases o : w.outcome with
    | none => rfl
    | some out => cases out <;> simp [o] at h ⊢
  have notAll : ¬x.legs.all LegUse.succeeded = true := fun all => by
    have h := List.all_eq_true.mp all w (List.mem_of_find?_eq_some failed)
    rw [fails] at h
    cases h
  rw [formWrite_live region desc here (List.ne_nil_of_mem mu), if_neg notAll, somebody, failed]

end

/-- The leg set of an entry that has been told an outcome. -/
def toldLegs (pos : LegPos) (outcome : LaneOutcome) (legs : List LegUse) : List LegUse :=
  legs.map fun u => if u.pos = pos then { u with outcome := some outcome } else u

theorem toldLegs_legs {pos : LegPos} {outcome : LaneOutcome} {legs : List LegUse} {P : Leg → Prop}
    (here : ∀ u ∈ legs, P u.leg) : ∀ u ∈ toldLegs pos outcome legs, P u.leg := fun u m => by
  obtain ⟨w, mem, rfl⟩ := List.mem_map.mp m
  split <;> exact here w mem

theorem toldLegs_at {pos : LegPos} {u : LegUse} (at_ : u.pos = pos) (outcome : LaneOutcome) :
    toldLegs pos outcome [u] = [{ u with outcome := some outcome }] := by
  rw [toldLegs, List.map_singleton, if_pos at_]

theorem toldLegs_pair {pos : LegPos} {u v : LegUse} {legs : List LegUse} (two : legs = [u, v] ∨ legs = [v, u]) (at_ : u.pos = pos)
    (other : v.pos ≠ pos) (outcome : LaneOutcome) : toldLegs pos outcome legs = [{ u with outcome := some outcome }, v]
      ∨ toldLegs pos outcome legs = [v, { u with outcome := some outcome }] := by
  rcases two with rfl | rfl
  · exact .inl (by simp [toldLegs, at_, other])
  · exact .inr (by simp [toldLegs, at_, other])

/-- Whether a member of a leg set failed. -/
def LegUse.fails (u : LegUse) : Bool := u.outcome == some .error || u.outcome == some .timeout

theorem failedLeg_eq (legs : List LegUse) : failedLeg legs = legs.find? LegUse.fails := rfl

theorem failedLeg_pair {a b : LegUse} {legs : List LegUse} {x : LaneOutcome} (two : legs = [a, b] ∨ legs = [b, a])
    (failed : a.outcome = some x) (bad : x ≠ .ok) (ok : b.outcome = some .ok) : failedLeg legs = some a := by
  have fails : a.fails = true := by
    cases x with
    | ok => exact absurd rfl bad
    | error => simp [LegUse.fails, failed]
    | timeout => simp [LegUse.fails, failed]
  have passes : ¬b.fails = true := by simp [LegUse.fails, ok]
  rw [failedLeg_eq]
  rcases two with rfl | rfl
  · exact List.find?_cons_of_pos fails
  · exact (List.find?_cons_of_neg passes).trans (List.find?_cons_of_pos fails)

/-- READ: it is answered OKAY with the data; on the fallback leg MIRROR_READ_RECOVERED is recorded. -/
theorem settle_readOkay {s : State} {e : Entry} {lane : Lane} {r : Request} {pos : LegPos} (data : LineData)
    (table : s.ift.entries = [e]) (open_ : e.code = none) (opened : s.hp.seq = .opened) (drain : s.mu.commit.drain = none)
    (rest : ∀ n : Lane, (s.lanes.get n).Settled) (asker : r.requester = .host e.slot (.current pos)) (kind : e.kind = .read) :
    settle (tellRequester lane r .ok data s) = answering { e with
        legs := toldLegs pos .ok e.legs, code := some .okay, data := data, phase := .orderWait }
      (if e.fallback then recordRecovered { e with legs := toldLegs pos .ok e.legs } s else s) := by
  obtain ⟨x, hx⟩ : ∃ x, x = recordOutcome (.current pos) .ok e := ⟨_, rfl⟩
  have kind' : x.kind = .read := by rw [hx]; exact kind
  have fallback : x.fallback = e.fallback := by rw [hx]; rfl
  obtain ⟨v, hv⟩ : ∃ v, v = if e.fallback then recordRecovered x s else s := ⟨_, rfl⟩
  have only : (if e.fallback then recordRecovered x (s.withTable [x]) else s.withTable [x]) = v.withTable [x]
      ∧ v = { s with log := v.log } := by
    rw [hv]
    split
    · unfold recordRecovered
      split <;> exact ⟨rfl, rfl⟩
    · exact ⟨rfl, rfl⟩
  obtain ⟨only, log⟩ := only
  rw [tellRequester_lone table open_ asker, ← hx, formCode_read kind', formRead, fallback, only]
  refine (settle_known (s := v.withTable [x]) rfl (read_off kind' _) (by rw [log]; exact opened) (by rw [log]; exact drain)
    (by rw [log]; exact rest) .okay data).trans ?_
  rw [hv, hx]
  rfl

/-- What the answer of a WRITE's last request leaves is what its code leaves. -/
theorem tellRequester_write {s : State} {e : Entry} {lane : Lane} {r : Request} {pos : LegPos} {out : LaneOutcome}
    (data : LineData) (table : s.ift.entries = [e]) (open_ : e.code = none)
    (asker : r.requester = .host e.slot (.current pos)) {mask : ByteMask} {bytes : LineData} (kind : e.kind = .write mask bytes)
    (shadows : ∀ u ∈ e.shadows, u.outcome ≠ none) (legs : ∀ u ∈ toldLegs pos out e.legs, u.outcome ≠ none) :
    tellRequester lane r out data s = formWrite { e with legs := toldLegs pos out e.legs }
      (s.withTable [{ e with legs := toldLegs pos out e.legs }]) := by
  obtain ⟨x, hx⟩ : ∃ x, x = recordOutcome (.current pos) out e := ⟨_, rfl⟩
  have same : x = { e with legs := toldLegs pos out e.legs } := hx
  have dir : x.dir = .write := by
    rw [same]
    show e.dir = .write
    rw [Entry.dir, kind]
  have settled : x.settled = true := by
    rw [same, Entry.settled, Bool.and_eq_true, List.all_eq_true, List.all_eq_true]
    exact ⟨fun u m => Option.isSome_iff_ne_none.mpr (legs u m), fun u m => Option.isSome_iff_ne_none.mpr (shadows u m)⟩
  rw [tellRequester_lone table open_ asker, ← hx, ← same]
  unfold formCode
  rw [dir]
  exact if_pos settled

/-- A WRITE whose last request has been told an outcome: its code, or the drop that is requested, closes the event. -/
theorem settle_written {s : State} {e : Entry} {lane : Lane} {r : Request} {pos : LegPos} {out : LaneOutcome}
    (data : LineData) (table : s.ift.entries = [e]) (open_ : e.code = none) (opened : s.hp.seq = .opened)
    (drain : s.mu.commit.drain = none) (rest : ∀ n : Lane, (s.lanes.get n).Settled)
    (asker : r.requester = .host e.slot (.current pos)) {mask : ByteMask} {bytes : LineData} (kind : e.kind = .write mask bytes)
    (phase : e.phase = .issued) (off : (s.engine.blockStep.any fun st => st.stage == .lockWait) = false)
    (shadows : ∀ u ∈ e.shadows, u.outcome ≠ none) (legs : ∀ u ∈ toldLegs pos out e.legs, u.outcome ≠ none)
    {n : Nat} {d : Descriptor} (region : e.region = some n) (desc : descOf s.mu.slots n = some d)
    (here : ∀ u ∈ e.legs, u.leg ∈ d.body.legs) (some_ : e.legs ≠ []) :
    let answered := fun code : Code => answering { e with
      legs := toldLegs pos out e.legs, code := some code, data := 0, phase := .orderWait } s
    ((∀ u ∈ toldLegs pos out e.legs, u.outcome = some .ok) → settle (tellRequester lane r out data s) = answered .okay)
    ∧ ((∀ u ∈ toldLegs pos out e.legs, u.outcome ≠ some .ok) → settle (tellRequester lane r out data s) = answered .slverr)
    ∧ (∀ u w, u ∈ toldLegs pos out e.legs → u.outcome = some .ok → failedLeg (toldLegs pos out e.legs) = some w →
        settle (tellRequester lane r out data s) = { s with
          ift.entries := [{ e with legs := toldLegs pos out e.legs }]
          mu.drops := s.mu.drops ++ [{ region := n, leg := w.leg, slot := some e.slot }] }) := by
  intro answered
  obtain ⟨x, hx⟩ : ∃ x, x = { e with legs := toldLegs pos out e.legs } := ⟨_, rfl⟩
  have told := tellRequester_write (lane := lane) data table open_ asker kind shadows legs
  rw [← hx] at told
  have uncounted : countedByLock s.engine x = false := by rw [countedByLock, off, Bool.and_false, Bool.false_and]
  have known : ∀ code, formWrite x (s.withTable [x]) = becomeKnown x.slot code 0 (s.withTable [x]) →
      settle (tellRequester lane r out data s) = answered code := fun code is => by
    rw [told, is]
    refine (settle_known (s := s.withTable [x]) rfl uncounted opened drain rest code 0).trans ?_
    rw [hx]
    rfl
  have same : x.legs = toldLegs pos out e.legs := by rw [hx]
  have region' : x.region = some n := by rw [hx]; exact region
  have here' : ∀ u ∈ x.legs, u.leg ∈ d.body.legs := by
    rw [same]
    exact toldLegs_legs here
  have some' : x.legs ≠ [] := by
    rw [same, toldLegs]
    simpa using some_
  refine ⟨fun all => known .okay (formWrite_okay (s := s.withTable [x]) region' desc here' some' (same ▸ all)),
    fun none => known .slverr (formWrite_slverr (s := s.withTable [x]) region' desc here' some' (same ▸ none)),
    fun u w m ok failed => ?_⟩
  have drops := formWrite_drops (s := s.withTable [x]) region' desc here' (same ▸ m) ok (same ▸ failed)
  rw [told, drops]
  refine (settle_still (s := { s with mu.drops := s.mu.drops ++ [{ region := n, leg := w.leg, slot := some x.slot }] })
    (table := [x]) opened drain rest fun y my => ?_).trans (by rw [hx]; rfl)
  rw [List.mem_singleton.mp my, hx]
  exact ⟨by rw [Entry.unanswered, open_]; rfl, by rw [phase]; nofun⟩

/-- Settles O15: a READ is answered as it is told, a WRITE by the outcomes of its legs. -/
theorem laneResponseAnswersItsEntry : Obligations.LaneResponseAnswersItsEntry := by
  intro s e lane number resp data o pos lone found timer asker ok freed told coded
  obtain ⟨power, opened, table, open_, drain, rest⟩ := lone
  have okay : ok → exec (.laneResponse lane number resp data) s = .next (settle (tellRequester lane o.req .ok data freed)) :=
    fun k => by
      have responds : respondsOk resp = true := by rcases k with rfl | rfl <;> rfl
      refine (exec_laneResponse power found timer resp data).trans ?_
      rw [responds]
      rfl
  have still : ∀ n : Lane, (freed.lanes.get n).Settled := settled_modify (fun n _ => rest n) (rest lane)
  refine ⟨fun kind k => ?_, fun mask bytes r d kind region desc phase shadows here off write stays => ?_⟩
  · have is := (okay k).trans (congrArg Host.Outcome.next
      (settle_readOkay (s := freed) (lane := lane) data table open_ opened drain still asker kind))
    refine ⟨fun first => ?_, fun u v x second legs other at_ outcome bad => ?_⟩
    · rw [if_neg (by rw [first]; nofun)] at is
      exact is
    · have failed : failedLeg (toldLegs pos .ok e.legs) = some u := by
        have fails : (u.outcome == some .error || u.outcome == some .timeout) = true := by
          rw [outcome]
          cases x with
          | ok => exact absurd rfl bad
          | error => rfl
          | timeout => rfl
        rw [toldLegs, legs, List.map_cons, if_neg other]
        exact List.find?_cons_of_pos fails
      rw [if_pos second, recordRecovered, failed] at is
      exact is
  · intro out base answers drops
    have outOk : ok → out = .ok := fun k => if_pos k
    have outError : ¬ok → out = .error := fun k => if_neg k
    obtain ⟨hp, mu, engine, table', settled, is⟩ : base.hp = s.hp ∧ base.mu = s.mu ∧ base.engine = s.engine
        ∧ base.ift.entries = [e] ∧ (∀ n : Lane, (base.lanes.get n).Settled)
        ∧ ∃ bytes, exec (.laneResponse lane number resp data) s = .next (settle (tellRequester lane o.req out bytes base)) := by
      by_cases k : ok
      · have is : base = freed := if_pos k
        rw [is, outOk k]
        exact ⟨rfl, rfl, rfl, table, still, data, okay k⟩
      · have bad : resp = .slverr ∨ resp = .decerr := by
          revert k
          cases resp <;> simp [ok]
        have record := errorRecord_lone (lane := lane) table asker .laneWriteError
        have is := exec_writeError power found timer bad data write (stays.resolve_left k)
        rw [record] at is
        have base_ : base = s.failing lane (fun p =>
            { p with
              outstanding := p.outstanding.erase o
              counters := { p.counters with writeErrors := bump p.counters.writeErrors } }) 128
            { kind := .laneWriteError, lane := some lane, region := e.region, hostLine := some e.line
              laneLine := some o.req.line, id := some e.id } := if_neg k
        rw [base_, outError k]
        exact ⟨rfl, rfl, rfl, table, settled_modify (fun n _ => rest n) (rest lane), 0, is⟩
    obtain ⟨bytes', is⟩ := is
    have closes := settle_written (s := base) (lane := lane) (r := o.req) (out := out) bytes' table' open_
      (by rw [hp]; exact opened) (by rw [mu]; exact drain) settled asker kind phase (by rw [engine]; exact off) shadows
    refine ⟨fun u legs at_ => ?_, fun u v x two at_ other outcome => ?_⟩
    · have now : toldLegs pos out e.legs = [{ u with outcome := some out }] := by rw [legs]; exact toldLegs_at at_ out
      obtain ⟨okays, slverrs, _⟩ := closes (by rw [now]; simp) region (by rw [mu]; exact desc) here (by rw [legs]; nofun)
      refine ⟨fun k => is.trans (congrArg Host.Outcome.next (okays ?_)), fun k => is.trans (congrArg Host.Outcome.next (slverrs ?_))⟩
      · rw [now, outOk k]
        simp
      · rw [now, outError k]
        simp
    · have now := toldLegs_pair two at_ other out
      have each : ∀ w ∈ toldLegs pos out e.legs, w.outcome = some out ∨ w.outcome = some x := fun w m => by
        rcases now with c | c <;> (rw [c] at m; simp only [List.mem_cons, List.not_mem_nil, or_false] at m; rcases m with rfl | rfl)
        · exact .inl rfl
        · exact .inr outcome
        · exact .inr outcome
        · exact .inl rfl
      have mine : { u with outcome := some out } ∈ toldLegs pos out e.legs ∧ v ∈ toldLegs pos out e.legs := by
        rcases now with c | c <;> (rw [c]; simp)
      obtain ⟨okays, slverrs, drop⟩ := closes (fun w m c => by rcases each w m with k | k <;> (rw [c] at k; cases k)) region
        (by rw [mu]; exact desc) here (by rcases two with c | c <;> (rw [c]; nofun))
      refine ⟨fun k ok => is.trans (congrArg Host.Outcome.next (okays fun w m => ?_)),
        fun k bad => is.trans (congrArg Host.Outcome.next (slverrs fun w m => ?_)),
        fun k bad => ?_, fun k ok => ?_⟩
      · rcases each w m with c | c
        · rw [c, outOk k]
        · rw [c, ok]
      · rcases each w m with c | c
        · rw [c, outError k]
          nofun
        · rw [c]
          exact fun c => bad (Option.some.inj c)
      · refine is.trans (congrArg Host.Outcome.next ((drop { u with outcome := some out } v mine.1 (by rw [outOk k])
          (failedLeg_pair now.symm outcome bad (by rw [outOk k]))).trans ?_))
        rw [mu]
        rfl
      · refine is.trans (congrArg Host.Outcome.next ((drop v { u with outcome := some out } mine.2 (by rw [outcome, ok])
          (failedLeg_pair now (x := .error) (by rw [outError k]) nofun (by rw [outcome, ok]))).trans ?_))
        rw [mu]
        rfl

end Sys2Proof.Machine

/-! PROOF. Responses taken and presented (O14). -/

namespace Sys2Proof.Machine

open Sys2Proof

/-! ### What the close of an event presents (R34, R35) -/

/-- Two states present alike. -/
def PresentsAlike (s t : State) : Prop := ∀ kind : Dir, presented kind t = presented kind s

theorem PresentsAlike.trans {s t u : State} (h : PresentsAlike s t) (k : PresentsAlike t u) : PresentsAlike s u :=
  fun kind => (k kind).trans (h kind)

theorem presentsAlike_of {s t : State} (read : t.hp.readChan = s.hp.readChan) (write : t.hp.writeChan = s.hp.writeChan) :
    PresentsAlike s t := fun kind => by
  cases kind with
  | read => exact read
  | write => exact write

theorem presentsAlike_closeStale (s : State) : PresentsAlike s (closeStale s) := by
  unfold closeStale
  split
  · rename_i stale
    cases drain : s.mu.commit.drain with
    | none =>
      rw [drain] at stale
      cases stale
    | some d =>
      obtain ⟨read, write⟩ := (endCommit_decoded drain .stale).aborted.channels
      exact presentsAlike_of read write
  · exact fun _ => rfl

theorem presentsAlike_advanceSequence (s : State) : PresentsAlike s (advanceSequence s) := by
  have drain : ∀ s, PresentsAlike s (drainStep s) := fun s => by
    unfold drainStep
    split <;> exact presentsAlike_of rfl rfl
  have quiesce : ∀ s, PresentsAlike s (quiesceStep s) := fun s => by
    unfold quiesceStep
    split
    · split <;> exact presentsAlike_of rfl rfl
    · exact presentsAlike_of rfl rfl
  have hold : ∀ s, PresentsAlike s (holdStep s) := fun s => by
    unfold holdStep
    split <;> exact presentsAlike_of rfl rfl
  have complete : ∀ s, PresentsAlike s (completeQuiesces s) := fun s => presentsAlike_of rfl rfl
  exact (((drain s).trans (complete _)).trans (quiesce _)).trans (hold _)

/-- A channel that presents a slot goes on with it; a free one presents the oldest eligible entry of its kind. -/
theorem presented_settle (kind : Dir) (s : State) :
    presented kind (settle s) = (presented kind s <|> nextResponse (settle s).ift.entries kind) := by
  obtain ⟨u, hu⟩ : ∃ u, u = advanceSequence (refreshPhases (grantAll (closeStale s))) := ⟨_, rfl⟩
  have alike : PresentsAlike s u := by
    rw [hu]
    exact (presentsAlike_closeStale s).trans (PresentsAlike.trans (t := refreshPhases (grantAll (closeStale s)))
      (presentsAlike_of rfl rfl) (presentsAlike_advanceSequence _))
  rw [settle, ← hu, ← alike kind]
  cases kind <;> rfl

/-! ### The entry a free channel presents -/

theorem eligible_iff {older younger : List Entry} {e : Entry} (distinct : ((older ++ e :: younger).map Entry.slot).Nodup) :
    eligible (older ++ e :: younger) e = true ↔ e.code ≠ none ∧ ∀ x ∈ older, x.id ≠ e.id := by
  have known : (!e.unanswered) = true ↔ e.code ≠ none := by
    rw [Entry.unanswered]
    cases e.code <;> simp
  have oldest : ((idOrder (older ++ e :: younger) e.id).head? == some e.slot) = true ↔ ∀ x ∈ older, x.id ≠ e.id := by
    rw [beq_iff_eq, idOrder, List.filter_append, List.filter_cons_of_pos (by simp)]
    constructor
    · intro head x m same
      cases mine : older.filter fun y => y.id == e.id with
      | nil => exact absurd same (by simpa using List.filter_eq_nil_iff.mp mine x m)
      | cons y rest =>
        rw [mine] at head
        have at_ : y.slot = e.slot := by simpa using head
        have my : y ∈ older := (List.mem_filter.mp (mine ▸ List.mem_cons_self : y ∈ older.filter fun y => y.id == e.id)).1
        rw [List.map_append, List.map_cons] at distinct
        exact List.disjoint_of_nodup_append distinct (List.mem_map.mpr ⟨y, my, at_⟩) (List.mem_cons_self ..)
    · intro none
      rw [List.filter_eq_nil_iff.mpr fun x m => by simpa using none x m]
      rfl
  rw [eligible, Bool.and_eq_true, known, oldest]

/-- With the slots of the table distinct, the oldest entry of a kind with its outcome known and no older one of its ID. -/
theorem nextResponse_iff {entries : List Entry} (distinct : (entries.map Entry.slot).Nodup) (kind : Dir) (n : Nat) :
    let ready := fun (older : List Entry) (e : Entry) => e.dir = kind ∧ e.code ≠ none ∧ ∀ x ∈ older, x.id ≠ e.id
    nextResponse entries kind = some n ↔ ∃ older e younger, entries = older ++ e :: younger ∧ e.slot = n ∧ ready older e
      ∧ ∀ first x rest, older = first ++ x :: rest → ¬ready first x := by
  intro ready
  have test : ∀ older e younger, entries = older ++ e :: younger →
      ((e.dir == kind && eligible entries e) = true ↔ ready older e) := fun older e younger split => by
    subst split
    rw [Bool.and_eq_true, beq_iff_eq, eligible_iff distinct]
  rw [nextResponse, Option.map_eq_some_iff]
  constructor
  · rintro ⟨e, found, slot⟩
    obtain ⟨is, older, younger, split, none⟩ := List.find?_eq_some_iff_append.mp found
    refine ⟨older, e, younger, split, slot, (test older e younger split).mp is, fun first x rest here => ?_⟩
    have not := none x (by rw [here]; simp)
    rw [← test first x (rest ++ e :: younger) (by rw [split, here]; simp)]
    rw [Bool.not_eq_true'] at not
    rw [not]
    nofun
  · rintro ⟨older, e, younger, split, slot, is, none⟩
    refine ⟨e, List.find?_eq_some_iff_append.mpr ⟨(test older e younger split).mpr is, older, younger, split, fun x m => ?_⟩, slot⟩
    obtain ⟨first, rest, here⟩ := List.append_of_mem m
    have not := none first x rest here
    rw [← test first x (rest ++ e :: younger) (by rw [split, here]; simp)] at not
    rw [Bool.not_eq_true']
    exact Bool.eq_false_iff.mpr not

/-! ### The response taken (R33, R35) -/

/-- What the removal of a response leaves. -/
theorem takeResponseOf_some {channel : Dir} {s : State} {slot : Nat} (h : presented channel s = some slot) :
    takeResponseOf channel s = removeEntry slot (freeChannel channel s) := by rw [takeResponseOf, h]

theorem freeChannel_presented (channel kind : Dir) (s : State) :
    presented kind (freeChannel channel s) = if kind = channel then none else presented kind s := by
  cases channel <;> cases kind <;> rfl

theorem freeChannel_rest (channel : Dir) (s : State) : freeChannel channel s = { s with hp := (freeChannel channel s).hp } := by
  cases channel <;> rfl

/-- Settles O14: the response of the slot, its removal, and what the channels present then. -/
theorem responseTakenFreesItsSlot : Obligations.ResponseTakenFreesItsSlot := by
  intro channel s slot power presents
  have possible : (presented channel s).isSome = true := by rw [presents]; rfl
  have is : exec (.responseTaken channel) s = .next (settle (removeEntry slot (freeChannel channel s))) :=
    (event_taken (f := takeResponseOf channel) power possible).trans
      (congrArg (fun t => Host.Outcome.next (settle t)) (takeResponseOf_some presents))
  obtain ⟨u, hu⟩ : ∃ u, u = removeEntry slot (freeChannel channel s) := ⟨_, rfl⟩
  rw [← hu] at is
  have settled := kept_settle u
  have rest := freeChannel_rest channel s
  have table : u.ift.entries = s.ift.entries.filter fun e => e.slot != slot := by rw [hu, rest]; rfl
  have names : identities (settle u) = (s.ift.entries.filter fun e => e.slot != slot).map Entry.identity := by
    rw [settled.entries, identities, table]
  have shows : ∀ kind, presented kind u = if kind = channel then none else presented kind s := fun kind => by
    rw [← freeChannel_presented, hu]
    cases kind <;> rfl
  have drain : u.mu.commit = s.mu.commit := by rw [hu, rest]; rfl
  have taken : KeptLaws s u := by
    have k := keptLaws_takeResponseOf channel s
    rwa [takeResponseOf_some presents, ← hu] at k
  refine ⟨_, is, names, fun e code distinct mem at_ known => ?_, ?_, fun other n ne here => ?_, fun kind free distinct => ?_,
    fun fresh => ?_, fun k => ?_, settled.config.trans taken.config, settled.link.trans taken.link⟩
  · have response := presentedResponse_of presents (at_ ▸ entryAt_mem distinct mem)
    rw [Entry.response, known] at response
    intro data
    cases kind : e.kind with
    | read => rw [kind] at response; exact response
    | badRead beats =>
      rw [kind] at response
      exact ⟨_, response, readBeats_length .., fun i lt => readBeats_getElem? code data beats i lt⟩
    | write mask bytes => rw [kind] at response; exact response
    | badWrite => rw [kind] at response; exact response
  · rw [presented_settle, shows, if_pos rfl]
    rfl
  · rw [presented_settle, shows, if_neg ne, here]
    rfl
  · have slots : ((settle u).ift.entries.map Entry.slot).Nodup := by
      have same : (settle u).ift.entries.map Entry.slot = (s.ift.entries.filter fun e => e.slot != slot).map Entry.slot := by
        have h := congrArg (List.map Prod.fst) names
        rw [identities, List.map_map, List.map_map] at h
        exact h
      rw [same]
      exact (List.filter_sublist.map _).nodup distinct
    intro ready n
    have next : presented kind (settle u) = nextResponse (settle u).ift.entries kind := by
      rw [presented_settle, shows]
      split
      · rfl
      · rename_i ne
        rw [free.resolve_left ne]
        rfl
    rw [next]
    exact nextResponse_iff slots kind n
  · have fresh' : (u.mu.commit.drain.any fun d => d.stale) = false := by rw [drain]; exact fresh
    obtain ⟨mu, _, _⟩ := settle_blocks fresh'
    refine ⟨(settle_commitSpan fresh').trans ?_, (settle_switchSpan fresh').trans ?_, ?_, ?_⟩
    · rw [hu, rest]
      rfl
    · rw [hu, rest]
      rfl
    · rw [mu, hu, rest]
      rfl
    · rw [mu, hu, rest]
      rfl
  · have orphaned := kept_orphan (fun n => n == slot) { freeChannel channel s with
      ift.entries := (freeChannel channel s).ift.entries.filter fun e => e.slot != slot
      ift.commitSpan := (freeChannel channel s).ift.commitSpan.map (Span.leave slot)
      ift.switchSpan := (freeChannel channel s).ift.switchSpan.map (Span.leave slot) }
    rw [settled.errors, settled.budgets, hu, removeEntry, orphaned.errors, orphaned.budgets]
    rw [rest]
    exact ⟨rfl, rfl⟩

end Sys2Proof.Machine

/-! PROOF. Grants of a lane and the numbers they take (O12). -/

namespace Sys2Proof.Machine

open Sys2Proof

/-! ### Free numbers (R52) -/

/-- When the number found is held, so are all that were tried. -/
theorem freshFrom_held {p : LanePort} (k : Nat) : ∀ n : Count16, numberHeld p (freshFrom p k n) = true →
    ∀ i, i ≤ k → numberHeld p (n + BitVec.ofNat 16 i) = true := by
  induction k with
  | zero =>
    intro n held i le
    obtain rfl : i = 0 := Nat.le_zero.mp le
    simpa [freshFrom] using held
  | succ k ih =>
    intro n held i le
    rw [freshFrom] at held
    split at held
    · rename_i here
      cases i with
      | zero => simpa using here
      | succ i =>
        have later := ih (n + 1) held i (by omega)
        have same : n + 1 + BitVec.ofNat 16 i = n + BitVec.ofNat 16 (i + 1) := by
          rw [BitVec.add_assoc, Nat.add_comm i 1, BitVec.ofNat_add]
          rfl
        rwa [same] at later
    · rename_i free
      exact absurd held free

theorem numberHeld_iff {p : LanePort} {n : Count16} : numberHeld p n = true ↔
    n ∈ p.outstanding.map Outstanding.number ++ p.reclaimed.map Reclaimed.number := by
  simp [numberHeld]

/-- Fewer numbers are held than there are: the number found is free. -/
theorem freshNumber_free {p : LanePort} (few : p.outstanding.length + p.reclaimed.length < 65536) :
    numberHeld p (freshNumber p) = false := by
  by_contra held
  rw [Bool.not_eq_false] at held
  obtain ⟨k, hk⟩ : ∃ k, k = p.outstanding.length + p.reclaimed.length := ⟨_, rfl⟩
  have all := freshFrom_held _ p.nextNumber held
  rw [← hk] at all few
  have distinct : ((List.range (k + 1)).map fun i => p.nextNumber + BitVec.ofNat 16 i).Nodup := by
    refine List.Nodup.map_on (fun i mi j mj same => ?_) List.nodup_range
    rw [List.mem_range] at mi mj
    have same : BitVec.ofNat 16 i = BitVec.ofNat 16 j := BitVec.add_right_inj _ |>.mp same
    have nat := congrArg BitVec.toNat same
    rw [BitVec.toNat_ofNat, BitVec.toNat_ofNat] at nat
    omega
  have sub : (List.range (k + 1)).map (fun i => p.nextNumber + BitVec.ofNat 16 i)
      ⊆ p.outstanding.map Outstanding.number ++ p.reclaimed.map Reclaimed.number := fun n m => by
    obtain ⟨i, mi, rfl⟩ := List.mem_map.mp m
    exact numberHeld_iff.mp (all i (by simpa [Nat.lt_succ_iff] using mi))
  have le := (distinct.subperm sub).length_le
  simp at le
  omega

/-! ### The order of the host side (R55) -/

/-- One place is not after another. -/
def placeLe (a b : Nat × Nat) : Prop := a.1 < b.1 ∨ (a.1 = b.1 ∧ a.2 ≤ b.2)

theorem placeBefore_false {a b : Nat × Nat} : placeBefore b a = false ↔ placeLe a b := by
  simp only [placeBefore, placeLe, Bool.or_eq_false_iff, Bool.and_eq_false_iff, decide_eq_false_iff_not, beq_eq_false_iff_ne]
  omega

theorem placeLe_trans {a b c : Nat × Nat} (h : placeLe a b) (k : placeLe b c) : placeLe a c := by
  unfold placeLe at *
  omega

theorem placeLe_of_before {a b : Nat × Nat} (h : placeBefore a b = true) : placeLe a b := by
  simp only [placeBefore, Bool.or_eq_true, Bool.and_eq_true, decide_eq_true_eq, beq_iff_eq] at h
  unfold placeLe
  omega

/-- The candidate found comes before none after it. -/
theorem leastPlace_least (entries : List Entry) (rest : List Waiting) : ∀ (best : Waiting), ∀ v ∈ best :: rest,
    placeLe (hostPlace entries (leastPlace entries best rest).req) (hostPlace entries v.req) := by
  induction rest with
  | nil =>
    intro best v m
    rw [List.mem_singleton.mp m]
    exact .inr ⟨rfl, Nat.le_refl _⟩
  | cons w rest ih =>
    intro best v m
    rw [leastPlace]
    by_cases before : placeBefore (hostPlace entries w.req) (hostPlace entries best.req) = true
    · rw [if_pos before]
      rcases List.mem_cons.mp m with rfl | m
      · exact placeLe_trans (ih w w (List.mem_cons_self ..)) (placeLe_of_before before)
      · exact ih w v m
    · rw [if_neg before]
      have first := ih best best (List.mem_cons_self ..)
      rcases List.mem_cons.mp m with rfl | m
      · exact first
      · rcases List.mem_cons.mp m with rfl | m
        · exact placeLe_trans first (placeBefore_false.mp (Bool.eq_false_iff.mpr before))
        · exact ih best v (List.mem_cons_of_mem _ m)

/-- The host-side request that would be granted is a first one of those that wait. -/
theorem nextHost_first {entries : List Entry} {p : LanePort} (host : (p.waiting.filter fun w => !w.req.fromEngine) ≠ []) :
    ∃ w, nextHost entries p = some w ∧ w ∈ (p.waiting.filter fun w => !w.req.fromEngine)
      ∧ ∀ v ∈ (p.waiting.filter fun w => !w.req.fromEngine), placeLe (hostPlace entries w.req) (hostPlace entries v.req) := by
  unfold nextHost
  cases waits : p.waiting.filter fun w => !w.req.fromEngine with
  | nil => exact absurd waits host
  | cons w rest =>
    exact ⟨_, rfl, leastPlace_mem entries rest w, fun v m => leastPlace_least entries rest w v m⟩

theorem nextHost_none {entries : List Entry} {p : LanePort} (host : (p.waiting.filter fun w => !w.req.fromEngine) = []) :
    nextHost entries p = none := by rw [nextHost, host]

theorem nextEngine_eq (p : LanePort) : nextEngine p = (p.waiting.filter fun w => w.req.fromEngine).head? :=
  List.head?_filter.symm

/-! ### The window (R54) -/

theorem windowAfter_eq (engineWon : Bool) (p : LanePort) : windowAfter engineWon p =
    if p.windowGrants + 1 < 16 then
      { p with
        windowGrants := p.windowGrants + 1
        windowEngine := if engineWon then p.windowEngine + 1 else p.windowEngine }
    else { p with windowGrants := 0, windowEngine := 0 } := by
  by_cases more : p.windowGrants + 1 < 16
  · exact (if_neg (Nat.not_le.mpr more)).trans (if_pos more).symm
  · exact (if_pos (Nat.not_lt.mp more)).trans (if_neg more).symm

/-- Nothing is granted only when no credit is free or nothing waits. -/
theorem grantOne_none {entries : List Entry} {share : Nat} {p : LanePort} (none : grantOne entries share p = none) :
    p.waiting = [] ∨ 16 ≤ p.outstanding.length := by
  by_contra c
  obtain ⟨waits, room⟩ := not_or.mp c
  have room : p.outstanding.length < Config.credits := Nat.not_le.mp room
  rw [grantOne, if_pos room] at none
  cases host : nextHost entries p with
  | some h =>
    rw [host] at none
    cases engine : nextEngine p with
    | none => rw [engine] at none; cases none
    | some e =>
      rw [engine] at none
      dsimp only at none
      split at none <;> cases none
  | none =>
    cases engine : nextEngine p with
    | some e => rw [host, engine] at none; cases none
    | none =>
      obtain ⟨w, m⟩ := List.exists_mem_of_ne_nil _ waits
      cases from_ : w.req.fromEngine with
      | true => exact absurd (List.find?_eq_none.mp engine w m) (by simp [from_])
      | false =>
        obtain ⟨v, is, _⟩ := nextHost_first (entries := entries) (p := p)
          (List.ne_nil_of_mem (List.mem_filter.mpr ⟨m, by simp [from_]⟩))
        rw [host] at is
        cases is

theorem grantOne_waiting {entries : List Entry} {share : Nat} {p q : LanePort} (granted : grantOne entries share p = some q) :
    q.waiting.length + 1 = p.waiting.length := by
  obtain ⟨_, w, m, is | ⟨b, is⟩⟩ := grantOne_some granted
  · have waiting : q.waiting = p.waiting.erase w := by rw [is]; rfl
    have pos := List.length_pos_of_mem m
    rw [waiting, List.length_erase_of_mem m]
    omega
  · have waiting : q.waiting = p.waiting.erase w := by
      rw [is]
      exact congrArg (List.erase · w) (windowAfter_fields b p).1
    have pos := List.length_pos_of_mem m
    rw [waiting, List.length_erase_of_mem m]
    omega

theorem grantMany_ends (entries : List Entry) (share n : Nat) : ∀ p : LanePort, p.waiting.length ≤ n →
    (grantMany entries share n p).waiting = [] ∨ 16 ≤ (grantMany entries share n p).outstanding.length := by
  induction n with
  | zero => exact fun p le => .inl (List.eq_nil_of_length_eq_zero (Nat.le_zero.mp le))
  | succ n ih =>
    intro p le
    rw [grantMany]
    cases granted : grantOne entries share p with
    | none => exact grantOne_none granted
    | some q =>
      have fewer := grantOne_waiting granted
      exact ih q (by omega)

/-! ### The grants of a lane (R54, R55) -/

section
variable {entries : List Entry} {share : Nat} {p : LanePort}

theorem grantOne_host {h : Waiting} (room : p.outstanding.length < 16) (host : nextHost entries p = some h)
    (engine : nextEngine p = none) : grantOne entries share p = some (issueRequest h p) := by
  rw [grantOne, if_pos (show p.outstanding.length < Config.credits from room), host, engine]

theorem grantOne_engine {e : Waiting} (room : p.outstanding.length < 16) (host : nextHost entries p = none)
    (engine : nextEngine p = some e) : grantOne entries share p = some (issueRequest e p) := by
  rw [grantOne, if_pos (show p.outstanding.length < Config.credits from room), host, engine]

theorem grantOne_both {h e : Waiting} (room : p.outstanding.length < 16) (host : nextHost entries p = some h)
    (engine : nextEngine p = some e) : grantOne entries share p =
      if p.windowEngine < share then some (issueRequest e (windowAfter true p)) else some (issueRequest h (windowAfter false p)) := by
  rw [grantOne, if_pos (show p.outstanding.length < Config.credits from room), host, engine]

end

/-- An OK answer whose requester has gone: the credit is free, and every lane makes its grants. -/
theorem laneResponse_gone {s : State} {lane : Lane} {number : Count16} {o : Outstanding} (data : LineData)
    (power : s.porst = false) (opened : s.hp.seq = .opened) (drain : s.mu.commit.drain = none)
    (quiesce : ∀ n : Lane, (s.lanes.get n).quiesce = none)
    (found : (s.lanes.get lane).outstanding.find? (fun x => x.number == number) = some o) (timer : o.timer.isSome = true)
    (gone : o.req.requester = .gone) : ∃ t, exec (.laneResponse lane number .okay data) s = .next t
      ∧ ∀ n : Lane, t.lanes.get n = grantLane s.ift.entries s.engine.share
        (if n = lane then { s.lanes.get n with outstanding := (s.lanes.get n).outstanding.erase o } else s.lanes.get n) := by
  have told : tellRequester lane o.req .ok data (freeCredit lane o s) = freeCredit lane o s := by rw [tellRequester, gone]
  have freed : ∀ n : Lane, (freeCredit lane o s).lanes.get n = if n = lane then
      { s.lanes.get n with outstanding := (s.lanes.get n).outstanding.erase o } else s.lanes.get n := fun n => by
    refine (PerLane.get_modify ..).trans ?_
    split
    · rename_i same
      rw [same]
    · rfl
  refine ⟨_, (exec_laneResponse power found timer .okay data).trans
    (congrArg (fun t => Host.Outcome.next (settle t)) ((if_pos rfl).trans told)), fun n => ?_⟩
  rw [settle_opened (s := freeCredit lane o s) opened (by show (s.mu.commit.drain.any _) = false; rw [drain]; rfl) fun m => by
    rw [freed m]
    split <;> exact quiesce m]
  show ((freeCredit lane o s).lanes.map _).get n = _
  rw [PerLane.get_map, freed n]
  rfl

/-- Settles O12: the number, the transfer, the side and the request of a grant, and the grants of an event. -/
theorem grantsFollowTheWindowAndTakeFreeNumbers : Obligations.GrantsFollowTheWindowAndTakeFreeNumbers := by
  refine ⟨fun p room few => ?_, fun p w => ⟨rfl, ?_⟩, fun entries share p => ?_,
    fun s lane number data o power opened drain quiesce found timer gone =>
      laneResponse_gone data power opened drain quiesce found timer gone⟩
  · have free := freshNumber_free (p := p) (by omega)
    rw [numberHeld, Bool.or_eq_false_iff, List.any_eq_false, List.any_eq_false] at free
    obtain ⟨issued, reclaimed⟩ := free
    exact ⟨fun o m => by simpa using issued o m, fun r m => by simpa using reclaimed r m⟩
  · exact List.map_append.trans rfl
  · intro host engine first counted
    have next : nextEngine p = engine.head? := nextEngine_eq p
    have window : ∀ b, windowAfter b p = counted (if b then p.windowEngine + 1 else p.windowEngine) := fun b =>
      windowAfter_eq b p
    refine ⟨fun stuck => ?_, fun room => ⟨fun w rest none some_ => ?_, fun some_ none => ?_, fun w rest some_ here less => ?_,
      fun w rest some_ here full => ?_⟩, grantMany_ends entries share _ p (Nat.le_refl _)⟩
    · rcases stuck with full | empty
      · exact if_neg (Nat.not_lt.mpr full)
      · rw [grantOne, nextHost, nextEngine, empty]
        exact ite_self _
    · exact grantOne_engine room (nextHost_none none) (by rw [next, some_]; rfl)
    · obtain ⟨w, is, mem, least⟩ := nextHost_first (entries := entries) (p := p) some_
      exact ⟨w, ⟨mem, least⟩, grantOne_host room is (by rw [next, none]; rfl)⟩
    · obtain ⟨h, is, _⟩ := nextHost_first (entries := entries) (p := p) some_
      rw [grantOne_both room is (by rw [next, here]; rfl), if_pos less, window]
      rfl
    · obtain ⟨h, is, mem, least⟩ := nextHost_first (entries := entries) (p := p) some_
      refine ⟨h, ⟨mem, least⟩, ?_⟩
      rw [grantOne_both room is (by rw [next, here]; rfl), if_neg (Nat.not_lt.mpr full), window]
      rfl

end Sys2Proof.Machine

/-! PROOF. Lane errors and late responses are counted, weighed and evaluated (O16). -/

namespace Sys2Proof.Machine

open Sys2Proof

/-! ### The evaluation a weight brings (R140, R142) -/

/-- A lane is evaluated at its budget with a weight added, and no other lane's state changes. -/
def Evaluates (lane : Lane) (weight : Nat) (s t : State) : Prop := ∀ n : Lane, (t.health.lanes.get n).state =
  if n = lane then evaluatedState s.health.suspect s.health.retire (weighed weight (budgetOf s n)) (s.health.lanes.get n).state
  else (s.health.lanes.get n).state

theorem Evaluates.after {lane : Lane} {weight : Nat} {s t u : State} (h : Evaluates lane weight s t)
    (health : u.health = t.health) : Evaluates lane weight s u := fun n => by rw [health, h n]

theorem Evaluates.before {lane : Lane} {weight : Nat} {s t u : State} (health : t.health = s.health)
    (h : Evaluates lane weight t u) : Evaluates lane weight s u := fun n => by
  have is := h n
  unfold budgetOf at *
  rwa [health] at is

theorem evaluates_addWeight (lane : Lane) (weight : Nat) (s : State) : Evaluates lane weight s (addWeight lane weight s) :=
  fun n => by
    rw [addWeight, health_evaluateLane]
    dsimp only
    rw [PerLane.get_modify]
    split
    · rename_i same
      subst same
      rw [PerLane.get_modify, if_pos rfl]
      rfl
    · rename_i other
      rw [PerLane.get_modify, if_neg other]

/-- A counter, a record, a weight and an outcome told: the weight alone is evaluated (R61). -/
theorem evaluates_counted (lane : Lane) (f : LaneCounters → LaneCounters) (info : FaultInfo) (weight : Nat) (r : Request)
    (outcome : LaneOutcome) (s : State) : Evaluates lane weight s
      (tellRequester lane r outcome 0 (addWeight lane weight (writeRecord info (countLane lane f s)))) := by
  have start : (writeRecord info (countLane lane f s)).health = s.health := rfl
  have weighs := (evaluates_addWeight lane weight (writeRecord info (countLane lane f s))).before start
  exact weighs.after (health_tellRequester _ _ _ _ _)

theorem evaluates_laneError (lane : Lane) (r : Request) (s : State) :
    Evaluates lane (errorWeight r.kind) s (laneError lane r s) := by
  unfold laneError
  cases r.kind with
  | read => exact evaluates_counted lane _ _ Config.weightRead r .error s
  | write mask data => exact evaluates_counted lane _ _ Config.weightWrite r .error s

theorem evaluates_laneTimeout (lane : Lane) (r : Request) (s : State) :
    Evaluates lane Config.weightTimeout s (laneTimeout lane r s) :=
  evaluates_counted lane _ _ Config.weightTimeout r .timeout s

theorem evaluates_lateResponse (lane : Lane) (line : Option Nat) (s : State) :
    Evaluates lane Config.weightLate s (lateResponse lane line s) := by
  have start : (countLane lane (fun c => { c with lateResponses := bump c.lateResponses }) s).health = s.health := rfl
  have weighs := (evaluates_addWeight lane Config.weightLate _).before start
  exact weighs.after rfl

/-! ### Late responses (R60) -/

/-- A response whose number no OUTSTANDING request holds is late: the number has been reclaimed, is TIMED_OUT, or stands
nowhere. -/
theorem takeResponse_late {lane : Lane} {number : Count16} {s : State}
    (late : ∀ o ∈ (s.lanes.get lane).outstanding, o.number = number → o.timer = none) (resp : AxiResp) (data : LineData) :
    ∃ (u : State) (line : Option Nat), Kept s u ∧ u.health = s.health
      ∧ takeResponse lane number resp data s = lateResponse lane line u := by
  rw [takeResponse]
  dsimp only
  cases issued : (s.lanes.get lane).outstanding.find? (fun o => o.number == number) with
  | some o =>
    have stopped := late o (List.mem_of_find?_eq_some issued) (by simpa using List.find?_some issued)
    exact ⟨_, _, kept_freeCredit lane o s, rfl, if_neg (by rw [Outstanding.running, stopped]; nofun)⟩
  | none =>
    cases (s.lanes.get lane).reclaimed.find? (fun r => r.number == number) with
    | some r => exact ⟨_, _, kept_forgetReclaimed lane r s, rfl, rfl⟩
    | none => exact ⟨s, none, .refl s, rfl, rfl⟩

theorem takeResponse_unknown {lane : Lane} {number : Count16} {s : State}
    (issued : ∀ o ∈ (s.lanes.get lane).outstanding, o.number ≠ number)
    (reclaimed : ∀ r ∈ (s.lanes.get lane).reclaimed, r.number ≠ number) (resp : AxiResp) (data : LineData) :
    takeResponse lane number resp data s = lateResponse lane none s := by
  rw [takeResponse]
  dsimp only
  rw [List.find?_eq_none.mpr fun o m => by simpa using issued o m, List.find?_eq_none.mpr fun r m => by simpa using reclaimed r m]

/-- On an OFFLINE or RETIRED lane an evaluation changes nothing. -/
theorem addWeight_unreached {lane : Lane} {s : State}
    (out : (s.health.lanes.get lane).state = .offline ∨ (s.health.lanes.get lane).state = .retired) (weight : Nat) :
    addWeight lane weight s = { s with health.lanes := s.health.lanes.modify lane fun h =>
      { h with budget := weighed weight h.budget } } := by
  rw [addWeight, evaluateLane]
  dsimp only
  rw [PerLane.get_modify, if_pos rfl]
  dsimp only
  rcases out with c | c <;> (rw [c]; rfl)

theorem kept_leaveWait (lane : Lane) (place : Nat) (s : State) :
    Kept s (modifyLane lane (fun p => { p with waiting := p.waiting.eraseIdx place }) s) :=
  kept_modifyLane s (fun w => w) (fun _ => ⟨rfl, rfl⟩) fun _ => rfl

/-- Settles O16: each failure counts, weighs and evaluates once, and so does a late response. -/
theorem laneErrorsAndLateResponsesAreCounted : Obligations.LaneErrorsAndLateResponsesAreCounted := by
  refine ⟨fun lane s power => ?_, fun lane number resp data s power late => ⟨?_, fun quiet issued reclaimed out => ?_⟩⟩
  · intro raised
    have raises : ∀ {up weight u v}, Kept s u → u.health = s.health → Counts lane up weight u v → Evaluates lane weight u v →
        raised up weight (settle v) := fun {up weight u v} kept health counts evaluates => by
      have all := (Counts.before kept counts).after (kept_settle v)
      exact ⟨all.errors, all.budgets, (evaluates.before health).after (health_settle v), all.entries, all.config, all.link⟩
    refine ⟨fun number resp data o bad found timer => ?_, fun number o mem at_ timer => ?_, fun place lt => ?_⟩
    · have goes := raises (kept_freeCredit lane o s) rfl (laneError_counts lane o.req _) (evaluates_laneError lane o.req _)
      refine ⟨_, exec_laneError power found timer bad data, fun read => ?_, fun write => ?_⟩
      · rw [read] at goes
        exact goes
      · cases kind : o.req.kind with
        | read => exact absurd kind write
        | write mask bytes =>
          rw [kind] at goes
          exact goes
    · have possible : ((s.lanes.get lane).outstanding.any fun x => x.number == number && x.running) = true :=
        List.any_eq_true.mpr ⟨o, mem, by simp [at_, Outstanding.running, timer]⟩
      obtain ⟨x, found⟩ : ∃ x, (s.lanes.get lane).outstanding.find? (fun x => x.number == number && x.running) = some x := by
        rw [← Option.isSome_iff_exists, List.find?_isSome]
        exact List.any_eq_true.mp possible
      refine ⟨_, event_taken (f := expireResponse lane number) power possible, ?_⟩
      rw [expireResponse, found]
      exact raises (kept_markTimedOut lane number s) rfl (laneTimeout_counts lane x.req _) (evaluates_laneTimeout lane x.req _)
    · have here := List.getElem?_eq_getElem lt
      have possible : ((s.lanes.get lane).waiting[place]?).isSome = true := by rw [here]; rfl
      refine ⟨_, event_taken (f := expireWait lane place) power possible, ?_⟩
      rw [expireWait, here]
      exact raises (kept_leaveWait lane place s) rfl (laneTimeout_counts lane _ _) (evaluates_laneTimeout lane _ _)
  · obtain ⟨u, line, kept, health, is⟩ := takeResponse_late late resp data
    have all := (Counts.before kept (lateResponse_counts lane line u)).after (kept_settle _)
    refine ⟨_, event_taken (f := takeResponse lane number resp data) power rfl, ?_⟩
    rw [is]
    exact ⟨all.errors, all.budgets, ((evaluates_lateResponse lane line u).before health).after (health_settle _), all.entries,
      all.config, all.link⟩
  · refine (event_taken (f := takeResponse lane number resp data) power rfl).trans (congrArg Host.Outcome.next ?_)
    obtain ⟨_, opened, table, drain, rest⟩ := quiet
    rw [takeResponse_unknown issued reclaimed, lateResponse,
      addWeight_unreached (s := countLane lane (fun c => { c with lateResponses := bump c.lateResponses }) s) out]
    refine (settle_empty ?_ ?_ ?_ ?_).trans ?_
    · exact opened
    · show (s.mu.commit.drain.any _) = false
      rw [drain]
      rfl
    · exact settled_modify (fun n _ => rest n) (rest lane)
    · exact table
    · rfl

end Sys2Proof.Machine

/-! PROOF. Leg drops: applied with the job told and the commit stale, or ignored (O20). -/

namespace Sys2Proof.Machine

open Sys2Proof

/-! ### A leg drop (R15, R126, R137) -/

/-- What an applied drop leaves before the copy engine and the commit are told: the slot, the generation and the log. -/
def State.dropped (region : Nat) (leg : Leg) (m : MapSlot) (d : Descriptor) (b : Leg) (s : State) : State := { s with
  mu.slots := s.mu.slots.set region { desc := some (dropLeg leg d b), revision := m.revision + 1 }
  mu.generation := s.mu.generation + 1
  log := takeNotice (s.mu.generation + 1) (.legDropped region leg.lane)
    (takeRecord (s.mu.generation + 1)
      { kind := .legDropped, lane := some leg.lane, region := some region, job := d.job } s.log) }

/-- The stop request an applied drop raises on the running job (R126, R137). -/
def dropStop (region : Nat) (leg : Leg) (j : Job) : Option Stop :=
  match j.work with
  | .audit _ _ _ => if j.region = region then some (.failed .regionDegraded none) else none
  | .relocate _ _ _ _ =>
    if j.region = region ∧ j.work.kept.contains leg = true then some (.failed .targetLegLost none) else none

theorem tellDrop_eq (region : Nat) (leg : Leg) (s : State) : tellDrop region leg s =
    match runningJob s.engine with
    | none => s
    | some (_, j) => match dropStop region leg j with
      | none => s
      | some stop => raiseStop stop s := by
  unfold tellDrop
  cases runningJob s.engine with
  | none => rfl
  | some r =>
    dsimp only
    unfold dropStop
    by_cases same : r.2.region = region
    · rw [if_pos same]
      cases work : r.2.work with
      | audit => simp only [if_pos same]
      | relocate t keptA keptB verify =>
        dsimp only
        by_cases kept : (JobWork.relocate t keptA keptB verify).kept.contains leg = true
        · rw [if_pos kept, if_pos ⟨same, kept⟩]
        · rw [if_neg kept, if_neg fun c => kept c.2]
    · rw [if_neg same]
      cases r.2.work with
      | audit => simp only [if_neg same]
      | relocate t keptA keptB verify => simp only [if_neg fun c => same (And.left c)]

/-- Telling the copy engine of a drop changes the record of the running job alone. -/
theorem tellDrop_rest (region : Nat) (leg : Leg) (s : State) : ∃ jobs, tellDrop region leg s = { s with engine.jobs := jobs } := by
  rw [tellDrop_eq]
  split
  · exact ⟨_, rfl⟩
  · split
    · exact ⟨_, rfl⟩
    · exact modifyRunning_engine _ s

/-- A running job keeps the stop request it has, and takes the one of the drop otherwise (R98). -/
theorem tellDrop_running {s : State} {h : Nat} {j : Job} {stop : Option Stop} (runs : runningJob s.engine = some (h, j))
    (life : j.life = .running stop) (region : Nat) (leg : Leg) : runningJob (tellDrop region leg s).engine
      = some (h, { j with life := .running (stop.or (dropStop region leg j)) }) := by
  obtain ⟨running, at_⟩ := runningJob_eq.mp runs
  rw [tellDrop_eq, runs]
  dsimp only
  cases raised : dropStop region leg j with
  | none =>
    rw [Option.or_none, ← life]
    exact runs
  | some r =>
    dsimp only
    rw [raiseStop_running running at_ life]
    refine runningJob_eq.mpr ⟨running, (jobOf_setAt at_ _ h).trans ?_⟩
    rw [if_pos rfl]
    cases stop <;> rfl

theorem takeDrop_applied {s : State} {region : Nat} {leg b : Leg} {m : MapSlot} {d : Descriptor}
    (target : dropTarget s.mu.slots region leg = some (m, d, b)) : takeDrop region leg s =
      if inCommitSet s.mu region then markStale (tellDrop region leg (s.dropped region leg m d b))
      else tellDrop region leg (s.dropped region leg m d b) := by
  have told : inCommitSet (tellDrop region leg (s.dropped region leg m d b)).mu region = inCommitSet s.mu region := by
    obtain ⟨jobs, is⟩ := tellDrop_rest region leg (s.dropped region leg m d b)
    rw [is]
    rfl
  rw [takeDrop, target]
  dsimp only
  rw [← told]
  rfl

theorem takeDrop_ignored {s : State} {region : Nat} {leg : Leg} (target : dropTarget s.mu.slots region leg = none) :
    takeDrop region leg s = s := by rw [takeDrop, target]

/-! ### Codes of entries that are not answered again -/

/-- The slots of the table with the codes of their entries. -/
def slotCodes (s : State) : List (Nat × Option Code) := s.ift.entries.map fun e => (e.slot, e.code)

theorem slotCodes_of {s t : State} (table : t.ift.entries = s.ift.entries) : slotCodes t = slotCodes s := by
  rw [slotCodes, table, slotCodes]

theorem slotCodes_modifyEntry (slot : Nat) {f : Entry → Entry} (keeps : ∀ e, (f e).slot = e.slot ∧ (f e).code = e.code)
    (s : State) : slotCodes (modifyEntry slot f s) = slotCodes s := by
  rw [slotCodes, modifyEntry, List.map_map, slotCodes]
  refine List.map_congr_left fun e _ => ?_
  obtain ⟨slots, code⟩ := keeps e
  rw [Function.comp]
  split
  · rw [slots, code]
  · rfl

/-- An entry as it issues: ISSUING, with its leg set and its shadow set. -/
def issuingEntry (engine : Engine) (e : Entry) (l : Lookup) (x : Entry) : Entry :=
  { x with phase := .issuing, legs := issueLegs e l, shadows := issueShadows engine e l }

theorem issueEntry_ift (e : Entry) (l : Lookup) (s : State) :
    (issueEntry e l s).ift = (modifyEntry e.slot (issuingEntry s.engine e l) s).ift := by
  rw [issueEntry, presentShadows_all, presentLegs_all, ← presentAll_append, presentAll_rest]
  rfl

theorem slotCodes_issueEntry (e : Entry) (l : Lookup) (s : State) : slotCodes (issueEntry e l s) = slotCodes s := by
  rw [slotCodes_of (congrArg InFlight.entries (issueEntry_ift e l s))]
  exact slotCodes_modifyEntry e.slot (f := issuingEntry s.engine e l) (fun _ => ⟨rfl, rfl⟩) s

theorem slotCodes_setPhase (slot : Nat) (phase : Phase) (s : State) : slotCodes (setPhase slot phase s) = slotCodes s :=
  slotCodes_modifyEntry slot (f := fun e => { e with phase := phase }) (fun _ => ⟨rfl, rfl⟩) s

theorem slotCodes_continueDecode (slot : Nat) (s : State) : slotCodes (continueDecode slot s) = slotCodes s := by
  unfold continueDecode
  split
  · rfl
  · split
    · rfl
    · split
      · exact slotCodes_setPhase slot _ s
      · split
        · exact slotCodes_setPhase slot _ s
        · exact slotCodes_issueEntry _ _ s

theorem slotCodes_continueDecodes (slots : List Nat) : ∀ s : State, slotCodes (continueDecodes slots s) = slotCodes s := by
  induction slots with
  | nil => exact fun _ => rfl
  | cons n rest ih => exact fun s => (ih _).trans (slotCodes_continueDecode n s)

/-- The entry of the slot takes the code; every other keeps its own. -/
theorem slotCodes_becomeKnown {slot : Nat} {s : State} {e : Entry} (at_ : entryAt s.ift.entries slot = some e) (code : Code)
    (data : LineData) : (slot, some code) ∈ slotCodes (becomeKnown slot code data s) := by
  obtain ⟨v, hv⟩ : ∃ v, v = modifyEntry slot (fun e => { e with code := some code, data := data, phase := .orderWait }) s := ⟨_, rfl⟩
  have known : (slot, some code) ∈ slotCodes v := by
    have same : e.slot = slot := by simpa using List.find?_some at_
    rw [hv, slotCodes, modifyEntry, List.map_map]
    exact List.mem_map.mpr ⟨e, List.mem_of_find?_eq_some at_, by simp [same]⟩
  rw [becomeKnown, at_]
  dsimp only
  rw [← hv]
  split
  · rw [slotCodes_of (congrArg InFlight.entries (writeWaitFalls_ift _)), slotCodes_continueDecodes]
    exact known
  · rw [slotCodes_continueDecodes]
    exact known

theorem slotCodes_settle {s : State} (fresh : (s.mu.commit.drain.any fun d => d.stale) = false) :
    slotCodes (settle s) = slotCodes s := by
  rw [slotCodes, settle_entries fresh, List.map_map, slotCodes]
  refine List.map_congr_left fun e _ => ?_
  rw [Function.comp, refreshed]
  split <;> rfl

theorem mem_slotCodes {s : State} {n : Nat} {code : Code} (m : (n, some code) ∈ slotCodes s) :
    ∃ e ∈ s.ift.entries, e.slot = n ∧ e.code = some code := by
  obtain ⟨e, mem, is⟩ := List.mem_map.mp m
  exact ⟨e, mem, congrArg Prod.fst is, congrArg Prod.snd is⟩

/-! ### The answer to a drop request (R65) -/

theorem decoded_answerDrop (applied : Bool) (slot : Option Nat) (s : State) : Decoded s (answerDrop applied slot s) := by
  unfold answerDrop
  split
  · exact Decoded.refl s
  · split
    · dsimp only
      split <;> exact decoded_becomeKnown _ _ _ s
    · exact Decoded.refl s

/-- A write that waits for the answer takes it: OKAY for an applied drop, the code of its live legs otherwise. -/
theorem answerDrop_waiting {s : State} {n : Nat} {e : Entry} (at_ : entryAt s.ift.entries n = some e) (open_ : e.code = none)
    (applied : Bool) :
    let live := liveLegs (descOf s.mu.slots (e.region.getD 0)) e.legs
    (n, some (if applied = true ∨ (live ≠ [] ∧ ∀ u ∈ live, u.outcome = some .ok) then Code.okay else .slverr))
      ∈ slotCodes (answerDrop applied (some n) s) := by
  intro live
  have known : e.unanswered = true := by rw [Entry.unanswered, open_]; rfl
  have slot : e.slot = n := by simpa using List.find?_some at_
  have here : entryAt s.ift.entries e.slot = some e := by rw [slot]; exact at_
  have test : (applied || (!live.isEmpty && live.all LegUse.succeeded)) = true
      ↔ applied = true ∨ (live ≠ [] ∧ ∀ u ∈ live, u.outcome = some .ok) := by
    simp [LegUse.succeeded]
  rw [answerDrop, Option.bind_some, at_]
  dsimp only
  rw [if_pos known]
  by_cases okay : applied = true ∨ (live ≠ [] ∧ ∀ u ∈ live, u.outcome = some .ok)
  · rw [if_pos (test.mpr okay), if_pos okay, ← slot]
    exact slotCodes_becomeKnown here .okay 0
  · rw [if_neg fun c => okay (test.mp c), if_neg okay, ← slot]
    exact slotCodes_becomeKnown here .slverr 0

/-! ### An issued entry under the release of others (R28, R86) -/

/-- Every entry of a slot is ISSUED and has no code. -/
def IssuedAt (n : Nat) (s : State) : Prop := ∀ e ∈ s.ift.entries, e.slot = n → e.code = none ∧ e.phase = .issued

theorem issuedAt_of {n : Nat} {s t : State} (h : IssuedAt n s) (table : t.ift.entries = s.ift.entries) : IssuedAt n t := by
  rw [IssuedAt, table]
  exact h

theorem issuedAt_modifyEntry {n slot : Nat} {s : State} (h : IssuedAt n s) (other : slot ≠ n) {f : Entry → Entry}
    (keeps : ∀ e, (f e).slot = e.slot) : IssuedAt n (modifyEntry slot f s) := fun e m at_ => by
  obtain ⟨x, mem, rfl⟩ := List.mem_map.mp m
  split at at_
  · rename_i same
    rw [keeps] at at_
    exact absurd ((beq_iff_eq.mp same).symm.trans at_) other
  · rename_i elsewhere
    rw [if_neg elsewhere]
    exact h x mem at_

theorem issuedAt_continueDecode {n slot : Nat} {s : State} (h : IssuedAt n s) (other : slot ≠ n) :
    IssuedAt n (continueDecode slot s) := by
  unfold continueDecode
  split
  · exact h
  · rename_i e found
    have at_ : e.slot = slot := by simpa using List.find?_some found
    split
    · exact h
    · split
      · exact issuedAt_modifyEntry h other (f := fun e => { e with phase := .lineWait }) fun _ => rfl
      · split
        · exact issuedAt_modifyEntry h other (f := fun e => { e with phase := .parked }) fun _ => rfl
        · rename_i l _ _ _
          refine issuedAt_of ?_ (congrArg InFlight.entries (issueEntry_ift e l s))
          exact issuedAt_modifyEntry h (by rw [at_]; exact other) (f := issuingEntry s.engine e l) fun _ => rfl

theorem issuedAt_continueDecodes {n : Nat} (slots : List Nat) : ∀ {s : State}, IssuedAt n s → n ∉ slots →
    IssuedAt n (continueDecodes slots s) := by
  induction slots with
  | nil => exact fun h _ => h
  | cons m rest ih =>
    exact fun h out => ih (issuedAt_continueDecode h fun c => out (c ▸ List.mem_cons_self ..))
      fun c => out (List.mem_cons_of_mem _ c)

theorem issuedAt_becomeKnown {n slot : Nat} {s : State} (h : IssuedAt n s) (other : slot ≠ n) (code : Code) (data : LineData) :
    IssuedAt n (becomeKnown slot code data s) := by
  unfold becomeKnown
  split
  · exact h
  · rename_i e _
    have known := issuedAt_modifyEntry h other (f := fun e => { e with code := some code, data := data, phase := .orderWait })
      fun _ => rfl
    obtain ⟨v, hv⟩ : ∃ v, v = modifyEntry slot (fun e => { e with code := some code, data := data, phase := .orderWait }) s :=
      ⟨_, rfl⟩
    rw [← hv] at known
    have out : n ∉ waitersOn v.ift.entries e := fun m => by
      obtain ⟨x, mem, at_⟩ := List.mem_map.mp m
      obtain ⟨younger, waits⟩ := List.mem_filter.mp mem
      obtain ⟨_, issued⟩ := known x ((List.dropWhile_sublist _).subset (List.mem_of_mem_drop younger)) at_
      simp [issued] at waits
    have goes := issuedAt_continueDecodes _ known out
    dsimp only
    rw [← hv]
    split
    · exact issuedAt_of goes (congrArg InFlight.entries (writeWaitFalls_ift _))
    · exact goes

theorem issuedAt_fullDecode {n slot : Nat} {s : State} (h : IssuedAt n s) (other : slot ≠ n) : IssuedAt n (fullDecode slot s) := by
  unfold fullDecode
  split
  · exact h
  · split
    · exact issuedAt_modifyEntry h other fun _ => rfl
    · split
      · exact issuedAt_becomeKnown (issuedAt_modifyEntry (s := { s with hp.unmapped := bump s.hp.unmapped }) h other
          (f := fun e => { e with hold := none, region := none, lookup := none }) fun _ => rfl) other _ _
      · rename_i l _
        have mapped := issuedAt_modifyEntry h other (f := fun e => { e with
          hold := none, region := some l.region, lookup := some l }) fun _ => rfl
        dsimp only
        split
        · refine issuedAt_becomeKnown ?_ other _ _
          exact issuedAt_of mapped rfl
        · exact issuedAt_continueDecode mapped other

theorem issuedAt_fullDecodes {n : Nat} (slots : List Nat) : ∀ {s : State}, IssuedAt n s → n ∉ slots →
    IssuedAt n (fullDecodes slots s) := by
  induction slots with
  | nil => exact fun h _ => h
  | cons m rest ih =>
    exact fun h out => ih (issuedAt_fullDecode h fun c => out (c ▸ List.mem_cons_self ..))
      fun c => out (List.mem_cons_of_mem _ c)

theorem issuedAt_releaseHeld {n : Nat} {s : State} (h : IssuedAt n s) (hold : Hold) (sp : Span) :
    IssuedAt n (releaseHeld hold sp s) := by
  refine issuedAt_fullDecodes _ h fun m => ?_
  obtain ⟨x, mem, at_⟩ := List.mem_map.mp m
  obtain ⟨mem, held⟩ := List.mem_filter.mp mem
  obtain ⟨_, issued⟩ := h x mem at_
  simp [issued] at held

theorem issuedAt_closeStale {n : Nat} {s : State} (h : IssuedAt n s) : IssuedAt n (closeStale s) := by
  unfold closeStale
  split
  · unfold endCommit
    split
    · exact h
    · cases s.ift.commitSpan with
      | none => exact issuedAt_of h rfl
      | some sp =>
        exact issuedAt_of (issuedAt_releaseHeld
          (s := { s with mu.commit := { drain := none, last := .stale }, ift.commitSpan := none }) h .commit sp) rfl
  · exact h

/-! ### The drop request (R15, R65, R86) -/

/-- The close of a stale commit leaves none stale. -/
theorem closeStale_fresh (s : State) : ((closeStale s).mu.commit.drain.any fun d => d.stale) = false := by
  unfold closeStale
  split
  · rename_i stale
    cases drain : s.mu.commit.drain with
    | none =>
      rw [drain] at stale
      cases stale
    | some d => rw [(endCommit_decoded drain .stale).mu]; rfl
  · rename_i fresh
    exact Bool.eq_false_iff.mpr fresh

theorem exec_legDropRequest {s : State} {place : Nat} {q : DropRequest} (power : s.porst = false)
    (here : s.mu.drops[place]? = some q) : exec (.legDropRequest place) s = .next (settle
      (answerDrop (dropTarget s.mu.slots q.region q.leg).isSome q.slot
        (closeStale (takeDrop q.region q.leg { s with mu.drops := s.mu.drops.eraseIdx place })))) := by
  have possible : (s.mu.drops[place]?).isSome = true := by rw [here]; rfl
  refine (event_taken (f := takeRequest place) power possible).trans (congrArg (fun t => Host.Outcome.next (settle t)) ?_)
  rw [takeRequest, here]

theorem dropTarget_of {slots : List MapSlot} {region : Nat} {leg b : Leg} {m : MapSlot} {d : Descriptor}
    (at_ : slots[region]? = some m) (desc : m.desc = some d) (mirror : d.body.legB = some b) (mine : leg = d.body.legA ∨ leg = b) :
    dropTarget slots region leg = some (m, d, b) := by
  rw [dropTarget, at_]
  dsimp only
  rw [desc]
  dsimp only
  rw [mirror]
  exact if_pos mine

theorem dropTarget_none {slots : List MapSlot} {region : Nat} {leg : Leg}
    (other : ∀ m d b, slots[region]? = some m → m.desc = some d → d.body.legB = some b → leg ≠ d.body.legA ∧ leg ≠ b) :
    dropTarget slots region leg = none := by
  cases target : dropTarget slots region leg with
  | none => rfl
  | some x =>
    obtain ⟨m, d, b⟩ := x
    obtain ⟨at_, desc, mirror, mine⟩ := dropTarget_some target
    obtain ⟨notA, notB⟩ := other m d b at_ desc mirror
    exact absurd mine (not_or.mpr ⟨notA, notB⟩)

/-- What the close of an event in OPEN leaves of a state that decodes have left. -/
theorem settle_decoded {s t : State} (k : Decoded s t) (opened : s.hp.seq = .opened)
    (fresh : (s.mu.commit.drain.any fun d => d.stale) = false) :
    (settle t).mu = s.mu ∧ (settle t).log = s.log ∧ (settle t).engine.jobs = s.engine.jobs := by
  have fresh' : (t.mu.commit.drain.any fun d => d.stale) = false := by rw [k.mu]; exact fresh
  have closed := settle_open (k.seq.trans opened) fresh'
  exact ⟨closed.mu.trans k.mu, closed.log.trans k.log, (congrArg Engine.jobs closed.engine).trans k.jobs⟩

/-- What an applied drop leaves once a commit it made stale has ended. -/
structure DropApplied (s u : State) (region : Nat) (leg : Leg) (m : MapSlot) (d : Descriptor) (b : Leg) : Prop where
  mu : u.mu = { (s.dropped region leg m d b).mu with
    commit := if inCommitSet s.mu region then { drain := none, last := .stale } else s.mu.commit }
  seq : u.hp.seq = s.hp.seq
  untouched : inCommitSet s.mu region = false → u.log = (s.dropped region leg m d b).log ∧ u.ift.entries = s.ift.entries
  job : ∀ h j stop, runningJob s.engine = some (h, j) → j.life = .running stop →
    runningJob u.engine = some (h, { j with life := .running (stop.or (dropStop region leg j)) })

theorem dropApplied_closeStale {s : State} {region : Nat} {leg b : Leg} {m : MapSlot} {d : Descriptor}
    (fresh : (s.mu.commit.drain.any fun d => d.stale) = false)
    (target : dropTarget s.mu.slots region leg = some (m, d, b)) :
    DropApplied s (closeStale (takeDrop region leg s)) region leg m d b := by
  obtain ⟨w, hw⟩ : ∃ w, w = tellDrop region leg (s.dropped region leg m d b) := ⟨_, rfl⟩
  obtain ⟨jobs, only⟩ := tellDrop_rest region leg (s.dropped region leg m d b)
  have job : ∀ h j stop, runningJob s.engine = some (h, j) → j.life = .running stop →
      runningJob w.engine = some (h, { j with life := .running (stop.or (dropStop region leg j)) }) := fun h j stop runs life => by
    rw [hw]
    exact tellDrop_running (s := s.dropped region leg m d b) runs life region leg
  rw [← hw] at only
  rw [takeDrop_applied target, ← hw]
  cases set : inCommitSet s.mu region with
  | false =>
    have same : closeStale w = w := closeStale_none (by rw [only]; exact fresh)
    rw [if_neg nofun, same]
    refine ⟨?_, by rw [only]; rfl, fun _ => by rw [only]; exact ⟨rfl, rfl⟩, job⟩
    rw [only, set]
    rfl
  | true =>
    obtain ⟨c, drain⟩ : ∃ c, s.mu.commit.drain = some c := by
      cases drain : s.mu.commit.drain with
      | none => rw [inCommitSet, drain] at set; cases set
      | some c => exact ⟨c, rfl⟩
    have drain' : (markStale w).mu.commit.drain = some { c with stale := true } := by
      show w.mu.commit.drain.map _ = _
      rw [only]
      show s.mu.commit.drain.map _ = _
      rw [drain]
      rfl
    have ends : closeStale (markStale w) = endCommit .stale (markStale w) := by rw [closeStale, drain']; rfl
    have left := endCommit_decoded drain' .stale
    rw [if_pos rfl, ends]
    refine ⟨?_, left.seq.trans (by rw [only]; rfl), fun c => absurd (set.symm.trans c) nofun, fun h j stop runs life => ?_⟩
    · rw [left.mu, set, only]
      rfl
    · rw [left.runningJob]
      exact job h j stop runs life

theorem entryAt_exists {entries : List Entry} {n : Nat} (h : ∃ x ∈ entries, x.slot = n) :
    ∃ y ∈ entries, entryAt entries n = some y ∧ y.slot = n := by
  obtain ⟨x, mem, slot⟩ := h
  cases found : entryAt entries n with
  | none => exact absurd (List.find?_eq_none.mp found x mem) (by simpa using slot)
  | some y => exact ⟨y, List.mem_of_find?_eq_some found, rfl, by simpa using List.find?_some found⟩

theorem exists_slot_of_identities {s t : State} (same : identities t = identities s) {n : Nat} (h : ∃ x ∈ s.ift.entries, x.slot = n) :
    ∃ x ∈ t.ift.entries, x.slot = n := by
  obtain ⟨x, mem, slot⟩ := h
  have m : x.identity ∈ identities t := by rw [same]; exact List.mem_map_of_mem mem
  obtain ⟨y, mem', is⟩ := List.mem_map.mp m
  exact ⟨y, mem', (congrArg Prod.fst is).trans slot⟩

theorem issuedAt_of_wf {s : State} {n : Nat} {e : Entry} (w : s.ift.Wf) (found : entryAt s.ift.entries n = some e)
    (open_ : e.code = none) (phase : e.phase = .issued) : IssuedAt n s := fun x mem slot => by
  obtain ⟨_, distinct, _⟩ := w
  have mine := entryAt_mem distinct mem
  rw [slot, found] at mine
  exact Option.some.inj mine ▸ ⟨open_, phase⟩

theorem issuedAt_takeDrop {s : State} {n : Nat} (h : IssuedAt n s) (region : Nat) (leg : Leg) : IssuedAt n (takeDrop region leg s) := by
  cases target : dropTarget s.mu.slots region leg with
  | none => rwa [takeDrop_ignored target]
  | some x =>
    obtain ⟨m, d, b⟩ := x
    obtain ⟨jobs, only⟩ := tellDrop_rest region leg (s.dropped region leg m d b)
    rw [takeDrop_applied target, only]
    split
    · exact h
    · exact h

/-- Settles O20: the drop is applied, and its answer is OKAY; or it is ignored, and the live legs give the code. -/
theorem legDropRequestIsAppliedOrIgnored : Obligations.LegDropRequestIsAppliedOrIgnored := by
  intro place s q power opened fresh here
  have is := exec_legDropRequest power here
  obtain ⟨v, hv⟩ : ∃ v, v = { s with mu.drops := s.mu.drops.eraseIdx place } := ⟨_, rfl⟩
  obtain ⟨u, hu⟩ : ∃ u, u = closeStale (takeDrop q.region q.leg v) := ⟨_, rfl⟩
  rw [← hv, ← hu] at is
  have fresh' : (u.mu.commit.drain.any fun d => d.stale) = false := by rw [hu]; exact closeStale_fresh _
  have answers := decoded_answerDrop (dropTarget s.mu.slots q.region q.leg).isSome q.slot u
  have kept : Kept s (settle (answerDrop (dropTarget s.mu.slots q.region q.leg).isSome q.slot u)) := by
    have k := (kept_takeRequest place s).trans (kept_settle _)
    rw [takeRequest, here] at k
    rw [hu, hv]
    exact k
  refine ⟨fun m d b at_ desc mirror mine => ?_, fun other => ?_⟩
  · have target : dropTarget v.mu.slots q.region q.leg = some (m, d, b) := by rw [hv]; exact dropTarget_of at_ desc mirror mine
    have dropped := dropApplied_closeStale (s := v) (by rw [hv]; exact fresh) target
    rw [← hu] at dropped
    have applied : (dropTarget s.mu.slots q.region q.leg).isSome = true := by rw [dropTarget_of at_ desc mirror mine]; rfl
    rw [applied] at is answers kept
    obtain ⟨mu, log, jobs⟩ := settle_decoded answers (by rw [dropped.seq, hv]; exact opened) fresh'
    have set : inCommitSet v.mu q.region = inCommitSet s.mu q.region := by rw [hv]; rfl
    refine ⟨_, is, ?_, ?_, ?_, fun out => ⟨?_, ?_⟩, fun inside => ?_, kept.entries, fun n e slot found open_ ways => ?_,
      fun h j runs life => ?_, fun k => ⟨kept.errors k, kept.budgets k⟩⟩
    · rw [mu, dropped.mu, hv]
      rfl
    · rw [mu, dropped.mu, hv]
      rfl
    · rw [mu, dropped.mu, hv]
      rfl
    · rw [mu, dropped.mu, set, out, hv]
      rfl
    · obtain ⟨told, _⟩ := dropped.untouched (set.trans out)
      rw [log, told, hv]
      rfl
    · rw [mu, dropped.mu, set, inside]
      rfl
    · refine mem_slotCodes ?_
      rw [slotCodes_settle (by rw [answers.mu]; exact fresh'), slot]
      obtain ⟨x, found', open'⟩ : ∃ x, entryAt u.ift.entries n = some x ∧ x.code = none := by
        rcases ways with out | ⟨wf, phase⟩
        · obtain ⟨_, table⟩ := dropped.untouched (set.trans out)
          exact ⟨e, by rw [table, hv]; exact found, open_⟩
        · have issued : IssuedAt n u := by
            rw [hu]
            refine issuedAt_closeStale (issuedAt_takeDrop ?_ _ _)
            rw [hv]
            exact issuedAt_of_wf wf found open_ phase
          have same : identities u = identities s := by
            rw [hu, (kept_closeStale _).entries, (kept_takeDrop _ _ _).entries, hv]
            rfl
          obtain ⟨x, mem, found', at_⟩ := entryAt_exists (exists_slot_of_identities same
            ⟨e, List.mem_of_find?_eq_some found, by simpa using List.find?_some found⟩)
          obtain ⟨open', _⟩ := issued x mem at_
          exact ⟨x, found', open'⟩
      have code := answerDrop_waiting found' open' true
      simpa using code
    · have job := dropped.job h j none (by rw [hv]; exact runs) life
      obtain ⟨_, job⟩ := runningJob_eq.mp job
      rw [jobOf, jobs]
      exact job
  · have target := dropTarget_none other
    have same : u = v := by
      rw [hu, takeDrop_ignored (by rw [hv]; exact target)]
      exact closeStale_none (by rw [hv]; exact fresh)
    rw [target] at is answers kept
    obtain ⟨mu, log, jobs⟩ := settle_decoded answers (by rw [same, hv]; exact opened) fresh'
    refine ⟨_, is, ?_, ?_, ?_, ?_, ?_, kept.entries, ?_, fun n e r slot found open_ region => ?_,
      fun k => ⟨kept.errors k, kept.budgets k⟩⟩
    · rw [mu, same, hv]
    · rw [mu, same, hv]
    · rw [mu, same, hv]
    · rw [mu, same, hv]
    · rw [log, same, hv]
    · rw [jobs, same, hv]
    · intro live
      refine mem_slotCodes ?_
      rw [slotCodes_settle (by rw [answers.mu]; exact fresh'), slot]
      have found' : entryAt u.ift.entries n = some e := by rw [same, hv]; exact found
      have code := answerDrop_waiting found' open_ false
      have same' : descOf u.mu.slots (e.region.getD 0) = descOf s.mu.slots r := by rw [same, hv, region]; rfl
      rw [same'] at code
      simpa using code

end Sys2Proof.Machine

/-! PROOF. A retired lane loses every MIRROR leg in slot order (O17). -/

namespace Sys2Proof.Machine

open Sys2Proof

/-! ### One drop of a retirement (R15, R17) -/

/-- A MIRROR descriptor with a leg on a lane. -/
def mirrorsOn (lane : Lane) (d : Descriptor) : Bool := d.body.legB.isSome && d.body.legs.any fun leg => leg.lane == lane

/-- What a retirement of the lane takes from a slot: its number, and the job its record names. -/
def lostAt (lane : Lane) (slots : List MapSlot) (i : Nat) : Option (Nat × Option Nat) :=
  (descOf slots i).bind fun d => if mirrorsOn lane d then some (i, d.job) else none

/-- The generation and the log after one more drop. -/
def afterDrop (lane : Lane) (x : Count16 × FaultLog) (q : Nat × Option Nat) : Count16 × FaultLog :=
  (x.1 + 1, takeNotice (x.1 + 1) (.legDropped q.1 lane) (takeRecord (x.1 + 1)
    { kind := .legDropped, lane := some lane, region := some q.1, job := q.2 } x.2))

/-- A slot that has lost its leg on a lane. -/
def lostSlot (lane : Lane) (m : MapSlot) : MapSlot :=
  match m.desc with
  | none => m
  | some d =>
    match d.body.legB with
    | none => m
    | some b =>
      if mirrorsOn lane d then
        { desc := some
            { d with
              body := { d.body with legA := if d.body.legA.lane = lane then b else d.body.legA, legB := none, pref := .aFirst }
              degraded := true }
          revision := m.revision + 1 }
      else m

theorem mirrorLegOn_none {lane : Lane} {slots : List MapSlot} {i : Nat} (none_ : mirrorLegOn lane (descOf slots i) = none) :
    lostAt lane slots i = none ∧ ∀ m, slots[i]? = some m → lostSlot lane m = m := by
  have off : ∀ d, descOf slots i = some d → mirrorsOn lane d = false := fun d desc => by
    rw [desc, mirrorLegOn] at none_
    unfold mirrorsOn
    cases mirror : d.body.legB.isSome with
    | false => rfl
    | true =>
      rw [mirror, if_pos rfl] at none_
      rw [Bool.true_and]
      exact List.any_eq_false.mpr fun leg m => List.find?_eq_none.mp none_ leg m
  constructor
  · unfold lostAt
    cases desc : descOf slots i with
    | none => rfl
    | some d => exact if_neg (by rw [off d desc]; nofun)
  · intro m at_
    unfold lostSlot
    split
    · rfl
    · rename_i d desc
      have is : descOf slots i = some d := by rw [descOf, at_, Option.bind_some, desc]
      split
      · rfl
      · exact if_neg (by rw [off d is]; nofun)

theorem mirrorLegOn_some {lane : Lane} {slots : List MapSlot} {i : Nat} {leg : Leg}
    (on : mirrorLegOn lane (descOf slots i) = some leg) : ∃ m d b, dropTarget slots i leg = some (m, d, b) ∧ leg.lane = lane
      ∧ lostAt lane slots i = some (i, d.job)
      ∧ lostSlot lane m = { desc := some (dropLeg leg d b), revision := m.revision + 1 } := by
  cases desc : descOf slots i with
  | none => rw [desc] at on; cases on
  | some d =>
    rw [desc, mirrorLegOn] at on
    obtain ⟨m, at_, here⟩ := Option.bind_eq_some_iff.mp desc
    split at on
    · rename_i mirror
      obtain ⟨b, mirror⟩ := Option.isSome_iff_exists.mp mirror
      have lane_ : leg.lane = lane := by simpa using List.find?_some on
      have legs : d.body.legs = [d.body.legA, b] := by rw [Body.legs, mirror]; rfl
      have mine : leg = d.body.legA ∨ leg = b := by
        have mem := List.mem_of_find?_eq_some on
        rw [legs] at mem
        simpa using mem
      have mirrors : mirrorsOn lane d = true := by
        rw [mirrorsOn, mirror]
        exact List.any_eq_true.mpr ⟨leg, List.mem_of_find?_eq_some on, by simp [lane_]⟩
      refine ⟨m, d, b, dropTarget_of at_ here mirror mine, lane_, ?_, ?_⟩
      · rw [lostAt, desc, Option.bind_some, if_pos mirrors]
      · have other : (if d.body.legA.lane = lane then b else d.body.legA) = if leg = d.body.legA then b else d.body.legA := by
          rw [legs] at on
          by_cases first : d.body.legA.lane = lane
          · rw [List.find?_cons_of_pos (by simpa using first)] at on
            rw [if_pos first, if_pos (Option.some.inj on).symm]
          · rw [if_neg first, if_neg fun c : leg = d.body.legA => first (c ▸ lane_)]
        rw [lostSlot, here]
        dsimp only
        rw [mirror]
        dsimp only
        rw [if_pos mirrors, other]
        rfl
    · cases on

/-- A draining commit after drops of slots: stale when one of them is in its set (R86). -/
def CommitDrain.losing (lost : List (Nat × Option Nat)) (c : CommitDrain) : CommitDrain :=
  { c with stale := c.stale || lost.any fun q => c.members.any fun x => x.slot == q.1 }

/-- The stop request that the drops of a lane's legs, over slots in order, raise on a job (R126, R137). -/
def laneStop (lane : Lane) (slots : List MapSlot) (is : List Nat) (j : Job) : Option Stop :=
  is.findSome? fun i => (mirrorLegOn lane (descOf slots i)).bind fun leg => dropStop i leg j

/-- What the drops of a lane's legs, over slots in order, leave of a state. -/
structure LaneDropped (s u : State) (lane : Lane) (is : List Nat) : Prop where
  rest : u = { s with
    mu := { s.mu with slots := u.mu.slots, generation := u.mu.generation, commit := u.mu.commit }
    engine := { s.engine with jobs := u.engine.jobs }
    log := u.log }
  slots : ∀ i, u.mu.slots[i]? = s.mu.slots[i]?.map fun m => if i ∈ is then lostSlot lane m else m
  record : (u.mu.generation, u.log) = (is.filterMap (lostAt lane s.mu.slots)).foldl (afterDrop lane) (s.mu.generation, s.log)
  commit : u.mu.commit = { s.mu.commit with
    drain := s.mu.commit.drain.map (CommitDrain.losing (is.filterMap (lostAt lane s.mu.slots))) }
  job : ∀ h j stop, runningJob s.engine = some (h, j) → j.life = .running stop →
    runningJob u.engine = some (h, { j with life := .running (stop.or (laneStop lane s.mu.slots is j)) })

theorem LaneDropped.nil (s : State) (lane : Lane) : LaneDropped s s lane [] := by
  refine ⟨rfl, fun i => by simp, rfl, ?_, fun h j stop runs life => ?_⟩
  · have same : CommitDrain.losing [] = id := funext fun c => by simp [CommitDrain.losing]
    simp [same]
  · rw [laneStop, List.findSome?_nil, Option.or_none, ← life]
    exact runs

theorem commit_losing (mu : MapUnit) (i : Nat) (job : Option Nat) :
    (if inCommitSet mu i then { mu.commit with drain := mu.commit.drain.map fun c => { c with stale := true } } else mu.commit)
      = { mu.commit with drain := mu.commit.drain.map (CommitDrain.losing [(i, job)]) } := by
  have drains : (if inCommitSet mu i then mu.commit.drain.map fun c => { c with stale := true } else mu.commit.drain)
      = mu.commit.drain.map (CommitDrain.losing [(i, job)]) := by
    rw [inCommitSet]
    cases mu.commit.drain with
    | none => rfl
    | some c =>
      cases mine : c.members.any fun x => x.slot == i with
      | true => simp [CommitDrain.losing, mine]
      | false => simp [CommitDrain.losing, mine]
  rw [← drains]
  split <;> rfl

theorem findSome?_of_mem {α β : Type} {f g : α → Option β} {l : List α} (same : ∀ x ∈ l, f x = g x) :
    l.findSome? f = l.findSome? g := by
  induction l with
  | nil => rfl
  | cons x rest ih =>
    rw [List.findSome?_cons, List.findSome?_cons, same x (List.mem_cons_self ..), ih fun y m => same y (List.mem_cons_of_mem _ m)]

/-- A drop of the leg a slot has on the lane. -/
theorem laneDropped_one {s : State} {lane : Lane} {i : Nat} {leg : Leg} (on : mirrorLegOn lane (descOf s.mu.slots i) = some leg) :
    LaneDropped s (takeDrop i leg s) lane [i] := by
  obtain ⟨m, d, b, target, lane_, lost, slot⟩ := mirrorLegOn_some on
  obtain ⟨at_, -⟩ := dropTarget_some target
  obtain ⟨jobs, told⟩ := tellDrop_rest i leg (s.dropped i leg m d b)
  have losts : [i].filterMap (lostAt lane s.mu.slots) = [(i, d.job)] := by simp [lost]
  have applied := takeDrop_applied target
  have commits := commit_losing s.mu i d.job
  refine ⟨?_, fun k => ?_, ?_, ?_, fun h j stop runs life => ?_⟩
  · rw [applied, told]
    split <;> rfl
  · have slots : (takeDrop i leg s).mu.slots = s.mu.slots.set i { desc := some (dropLeg leg d b), revision := m.revision + 1 } := by
      rw [applied, told]
      split <;> rfl
    rw [slots, List.getElem?_set]
    by_cases same : i = k
    · subst same
      rw [if_pos rfl, if_pos (List.getElem?_eq_some_iff.mp at_).1, at_, Option.map_some, if_pos (List.mem_singleton_self i), slot]
    · rw [if_neg same]
      cases s.mu.slots[k]? with
      | none => rfl
      | some x => rw [Option.map_some, if_neg (by simpa using Ne.symm same)]
  · rw [losts, applied, told, List.foldl_cons, List.foldl_nil, afterDrop, ← lane_]
    split <;> rfl
  · rw [losts, ← commits, applied, told]
    split <;> rfl
  · have job := tellDrop_running (s := s.dropped i leg m d b) runs life i leg
    have same : runningJob (takeDrop i leg s).engine = runningJob (tellDrop i leg (s.dropped i leg m d b)).engine := by
      rw [applied]
      split <;> rfl
    rw [same, job, laneStop, List.findSome?_cons, on, Option.bind_some, List.findSome?_nil]
    cases dropStop i leg j <;> rfl

/-- Drops of slots that are not among those before see them as they were. -/
theorem LaneDropped.trans {s t u : State} {lane : Lane} {is ks : List Nat} (h : LaneDropped s t lane is)
    (k : LaneDropped t u lane ks) (apart : ∀ i ∈ ks, i ∉ is) : LaneDropped s u lane (is ++ ks) := by
  have desc : ∀ i ∈ ks, descOf t.mu.slots i = descOf s.mu.slots i := fun i m => by
    rw [descOf, h.slots i, descOf]
    simp [apart i m]
  have losts : ks.filterMap (lostAt lane t.mu.slots) = ks.filterMap (lostAt lane s.mu.slots) :=
    List.filterMap_congr fun i m => by rw [lostAt, lostAt, desc i m]
  refine ⟨?_, fun i => ?_, ?_, ?_, fun n j stop runs life => ?_⟩
  · have rest := k.rest
    rw [h.rest] at rest
    exact rest
  · rw [k.slots, h.slots]
    cases s.mu.slots[i]? with
    | none => rfl
    | some m =>
      simp only [Option.map_some, List.mem_append, Option.some.injEq]
      by_cases mine : i ∈ ks
      · rw [if_pos mine, if_neg (apart i mine), if_pos (.inr mine)]
      · rw [if_neg mine]
        exact if_congr (by simp [mine]) rfl rfl
  · rw [k.record, losts, h.record, List.filterMap_append, List.foldl_append]
  · rw [k.commit, losts, h.commit, List.filterMap_append]
    simp only [Option.map_map]
    congr 1
    refine congrArg (fun f => s.mu.commit.drain.map f) (funext fun c => ?_)
    simp [CommitDrain.losing, List.any_append, Bool.or_assoc]
  · have first := h.job n j stop runs life
    have second := k.job n _ _ first rfl
    have same : laneStop lane t.mu.slots ks { j with life := .running (stop.or (laneStop lane s.mu.slots is j)) }
        = laneStop lane s.mu.slots ks j := by
      unfold laneStop
      refine findSome?_of_mem fun i m => ?_
      rw [desc i m]
      rfl
    have both : laneStop lane s.mu.slots (is ++ ks) j = (laneStop lane s.mu.slots is j).or (laneStop lane s.mu.slots ks j) :=
      List.findSome?_append
    rw [second, same, both, Option.or_assoc]

theorem laneDropped_dropLane (lane : Lane) (is : List Nat) : ∀ s : State, is.Nodup → LaneDropped s (dropLane lane is s) lane is := by
  induction is with
  | nil => exact fun s _ => .nil s lane
  | cons i rest ih =>
    intro s distinct
    obtain ⟨out, distinct⟩ := List.nodup_cons.mp distinct
    have apart : ∀ k ∈ rest, k ∉ [i] := fun k m c => out (List.mem_singleton.mp c ▸ m)
    have one : LaneDropped s (match mirrorLegOn lane (descOf s.mu.slots i) with
        | some leg => takeDrop i leg s
        | none => s) lane [i] := by
      cases on : mirrorLegOn lane (descOf s.mu.slots i) with
      | some leg => exact laneDropped_one on
      | none =>
        obtain ⟨lost, slot⟩ := mirrorLegOn_none on
        have nothing := LaneDropped.nil s lane
        have losts : [i].filterMap (lostAt lane s.mu.slots) = [] := by simp [lost]
        refine ⟨nothing.rest, fun k => ?_, by rw [losts]; exact nothing.record, by rw [losts]; exact nothing.commit,
          fun h j stop runs life => ?_⟩
        · cases at_ : s.mu.slots[k]? with
          | none => rfl
          | some m =>
            rw [Option.map_some]
            split
            · rename_i same
              obtain rfl := List.mem_singleton.mp same
              rw [slot m at_]
            · rfl
        · have quiet : laneStop lane s.mu.slots [i] j = none := by simp [laneStop, on]
          rw [quiet]
          exact nothing.job h j stop runs life
    exact one.trans (ih _ distinct) apart

/-! ### Retirement (R144) -/

/-- The stop request that a retired lane raises on the running job (R127). -/
def retiredStop (lane : Lane) (j : Job) : Option Stop :=
  match j.work with
  | .audit _ _ _ => none
  | .relocate target _ _ _ =>
    if j.work.shadows.any (fun leg => leg.lane == lane) || (target.legB.isSome && j.work.kept.any fun leg => leg.lane == lane) then
      some (.failed .targetRetired none)
    else none

theorem tellRetired_eq (lane : Lane) (s : State) : tellRetired lane s =
    match runningJob s.engine with
    | none => s
    | some (_, j) => match retiredStop lane j with
      | none => s
      | some stop => raiseStop stop s := by
  unfold tellRetired
  cases runningJob s.engine with
  | none => rfl
  | some r =>
    obtain ⟨n, j⟩ := r
    dsimp only
    unfold retiredStop
    cases j.work with
    | audit => rfl
    | relocate t keptA keptB verify =>
      dsimp only
      split <;> rfl

theorem tellRetired_rest (lane : Lane) (s : State) : ∃ jobs, tellRetired lane s = { s with engine.jobs := jobs } := by
  rw [tellRetired_eq]
  split
  · exact ⟨_, rfl⟩
  · split
    · exact ⟨_, rfl⟩
    · exact modifyRunning_engine _ s

theorem tellRetired_running {s : State} {h : Nat} {j : Job} {stop : Option Stop} (runs : runningJob s.engine = some (h, j))
    (life : j.life = .running stop) (lane : Lane) : runningJob (tellRetired lane s).engine
      = some (h, { j with life := .running (stop.or (retiredStop lane j)) }) := by
  obtain ⟨running, at_⟩ := runningJob_eq.mp runs
  rw [tellRetired_eq, runs]
  dsimp only
  cases raised : retiredStop lane j with
  | none =>
    rw [Option.or_none, ← life]
    exact runs
  | some r =>
    dsimp only
    rw [raiseStop_running running at_ life]
    refine runningJob_eq.mpr ⟨running, (jobOf_setAt at_ _ h).trans ?_⟩
    rw [if_pos rfl]
    cases stop <;> rfl

/-- A draining commit has a leg on the lane. -/
theorem commitItems_on {mu : MapUnit} {lane : Lane} : ((commitItems mu).any fun item => item.lane == lane) = true ↔
    ∃ c, mu.commit.drain = some c ∧ ∃ x ∈ c.members, ∃ b, x.body = some b ∧ ∃ leg ∈ b.legs, leg.lane = lane := by
  rw [List.any_eq_true]
  constructor
  · rintro ⟨item, mem, on⟩
    obtain ⟨c, x, b, leg, drain, mx, body, ml, rfl⟩ := mem_commitItems.mp mem
    exact ⟨c, drain, x, mx, b, body, leg, ml, beq_iff_eq.mp on⟩
  · rintro ⟨c, drain, x, mx, b, body, leg, ml, on⟩
    exact ⟨_, mem_commitItems.mpr ⟨c, x, b, leg, drain, mx, body, ml, rfl⟩, beq_iff_eq.mpr on⟩

/-- Slots lost make the commit stale when one of them is in its set. -/
theorem losing_stale {c : CommitDrain} (fresh : c.stale = false) (lost : List (Nat × Option Nat)) :
    (c.losing lost).stale = true ↔ ∃ x ∈ c.members, ∃ q ∈ lost, q.1 = x.slot := by
  simp only [CommitDrain.losing, fresh, Bool.false_or, List.any_eq_true, beq_iff_eq]
  constructor
  · rintro ⟨q, mq, x, mx, same⟩
    exact ⟨x, mx, q, mq, same.symm⟩
  · rintro ⟨x, mx, q, mq, same⟩
    exact ⟨q, mq, x, mx, same.symm⟩

theorem losing_fresh {c : CommitDrain} (fresh : c.stale = false) {lost : List (Nat × Option Nat)}
    (still : (c.losing lost).stale = false) : c.losing lost = c := by
  rw [CommitDrain.losing]
  rw [CommitDrain.losing] at still
  dsimp only at still
  rw [still, ← fresh]

/-- What a retirement leaves of the map, the log, the commit and the running job. -/
structure Retirement (s t : State) (lane : Lane) (lost : List (Nat × Option Nat)) : Prop where
  rest : t = { s with
    mu := { s.mu with slots := t.mu.slots, generation := t.mu.generation, commit := t.mu.commit }
    engine := { s.engine with jobs := t.engine.jobs }
    health := t.health
    log := t.log }
  slots : ∀ i, i < 64 → t.mu.slots[i]? = s.mu.slots[i]?.map (lostSlot lane)
  record : (t.mu.generation, t.log) = lost.foldl (afterDrop lane)
    (s.mu.generation, takeNotice s.mu.generation (.laneStateChanged lane .retired)
      (takeRecord s.mu.generation { kind := .laneStateChanged, lane := some lane } s.log))
  commit : t.mu.commit = { s.mu.commit with drain := s.mu.commit.drain.map fun c =>
    { c.losing lost with stale := (c.losing lost).stale || (commitItems s.mu).any fun item => item.lane == lane } }
  job : ∀ h j, runningJob s.engine = some (h, j) → j.life = .running none → runningJob t.engine
    = some (h, { j with life := .running ((laneStop lane s.mu.slots (List.range 64) j).or (retiredStop lane j)) })

theorem retirement_retireLane (lane : Lane) (s : State) :
    Retirement s (retireLane lane s) lane ((List.range 64).filterMap (lostAt lane s.mu.slots)) := by
  obtain ⟨r, hr⟩ : ∃ r, r = setLaneState lane .retired s := ⟨_, rfl⟩
  have mu : r.mu = s.mu := by rw [hr]; rfl
  have engine : r.engine = s.engine := by rw [hr]; rfl
  have dropped := laneDropped_dropLane lane (List.range 64) r List.nodup_range
  obtain ⟨p, hp⟩ : ∃ p, p = dropLane lane (List.range 64) r := ⟨_, rfl⟩
  rw [← hp] at dropped
  obtain ⟨q, hq⟩ : ∃ q, q = staleByLane lane p := ⟨_, rfl⟩
  obtain ⟨jobs, told⟩ := tellRetired_rest lane q
  have is : retireLane lane s = tellRetired lane q := by rw [hq, hp, hr]; rfl
  have items : commitItems p.mu = commitItems s.mu := by
    unfold commitItems
    rw [dropped.commit, mu]
    cases s.mu.commit.drain <;> rfl
  have stale : q = { p with mu.commit.drain := p.mu.commit.drain.map fun c =>
      { c with stale := c.stale || (commitItems s.mu).any fun item => item.lane == lane } } := by
    rw [hq, staleByLane, items]
    cases (commitItems s.mu).any fun item => item.lane == lane with
    | true => simp [markStale]
    | false => simp
  rw [is]
  refine ⟨?_, fun i lt => ?_, ?_, ?_, fun h j runs life => ?_⟩
  · rw [told, stale]
    obtain ⟨slots, generation, commit, jobs', log, only⟩ : ∃ slots generation commit jobs log, p = { r with
        mu := { r.mu with slots := slots, generation := generation, commit := commit }
        engine := { r.engine with jobs := jobs }
        log := log } := ⟨_, _, _, _, _, dropped.rest⟩
    rw [only, hr]
    rfl
  · have slots := dropped.slots i
    rw [told, stale]
    simp only [List.mem_range, if_pos lt, mu] at slots
    exact slots
  · have record := dropped.record
    rw [told, stale]
    rw [mu, show r.log = takeNotice s.mu.generation (.laneStateChanged lane .retired)
      (takeRecord s.mu.generation { kind := .laneStateChanged, lane := some lane } s.log) by rw [hr]; rfl] at record
    exact record
  · have commit : q.mu.commit = { p.mu.commit with drain := p.mu.commit.drain.map fun c =>
        { c with stale := c.stale || (commitItems s.mu).any fun item => item.lane == lane } } := by rw [stale]
    rw [dropped.commit, mu] at commit
    simp only [Option.map_map] at commit
    rw [told]
    exact commit
  · have job := dropped.job h j none (by rw [engine]; exact runs) life
    have same : runningJob q.engine = runningJob p.engine := by rw [stale]
    rw [mu, Option.none_or] at job
    exact tellRetired_running (same.trans job) rfl lane

/-! ### A late response that retires its lane (R60, R140, R144) -/

/-- The budget reaches the retire threshold: the lane is retired. -/
theorem addWeight_retires {lane : Lane} {s : State}
    (reached : (s.health.lanes.get lane).state = .active ∨ (s.health.lanes.get lane).state = .suspect) {weight : Nat}
    (retire : s.health.retire ≤ weighed weight (budgetOf s lane)) :
    addWeight lane weight s = retireLane lane { s with health.lanes := s.health.lanes.modify lane fun h =>
      { h with budget := weighed weight h.budget } } := by
  unfold weighed budgetOf at retire
  rw [addWeight, evaluateLane]
  dsimp only
  rw [PerLane.get_modify, if_pos rfl]
  dsimp only
  rcases reached with c | c <;> (rw [c]; exact if_pos retire)

/-- The event closes as its stale commit ends. -/
theorem settle_closeStale (s : State) : settle (closeStale s) = settle s := by
  rw [settle, closeStale_none (closeStale_fresh s), settle]

/-- A draining commit that an event made stale ends STALE as the event closes in OPEN. -/
theorem settle_stale {s : State} {c : CommitDrain} (opened : s.hp.seq = .opened) (drain : s.mu.commit.drain = some c)
    (stale : c.stale = true) : (settle s).mu = { s.mu with commit := { drain := none, last := .stale } }
      ∧ (settle s).log = takeNotice s.mu.generation (.commitFinished c.subject .stale) s.log
      ∧ (settle s).engine.jobs = s.engine.jobs := by
  have ends : closeStale s = endCommit .stale s := by
    rw [closeStale, drain]
    exact if_pos stale
  rw [← settle_closeStale, ends]
  obtain ⟨mu, log, jobs⟩ := settle_decoded (endCommit_decoded drain .stale) opened rfl
  exact ⟨mu, log, jobs⟩

theorem settle_unstale {s : State} (opened : s.hp.seq = .opened) (fresh : (s.mu.commit.drain.any fun d => d.stale) = false) :
    (settle s).mu = s.mu ∧ (settle s).log = s.log ∧ (settle s).engine.jobs = s.engine.jobs :=
  settle_decoded (Decoded.refl s) opened fresh

/-- Over all 64 slots a job hears of its own region's drop alone. -/
theorem laneStop_region {lane : Lane} {slots : List MapSlot} (size : slots.length = 64) (j : Job) :
    laneStop lane slots (List.range 64) j = (mirrorLegOn lane (descOf slots j.region)).bind fun leg => dropStop j.region leg j := by
  have elsewhere : ∀ i, i ≠ j.region → ∀ leg, dropStop i leg j = none := fun i ne leg => by
    unfold dropStop
    cases j.work with
    | audit => exact if_neg (Ne.symm ne)
    | relocate => exact if_neg fun c => ne c.1.symm
  cases here : (mirrorLegOn lane (descOf slots j.region)).bind fun leg => dropStop j.region leg j with
  | none =>
    refine List.findSome?_eq_none_iff.mpr fun i m => ?_
    by_cases same : i = j.region
    · rw [same]
      exact here
    · cases mirrorLegOn lane (descOf slots i) with
      | none => rfl
      | some leg => exact elsewhere i same leg
  | some stop =>
    have inside : j.region ∈ List.range 64 := by
      rw [List.mem_range, ← size]
      obtain ⟨leg, on, _⟩ := Option.bind_eq_some_iff.mp here
      by_contra out
      rw [descOf, List.getElem?_eq_none (Nat.not_lt.mp out)] at on
      cases on
    obtain ⟨x, is⟩ : ∃ x, laneStop lane slots (List.range 64) j = some x :=
      Option.isSome_iff_exists.mp (List.findSome?_isSome_iff.mpr ⟨j.region, inside, by rw [here]; rfl⟩)
    obtain ⟨i, _, found⟩ := List.exists_of_findSome?_eq_some is
    obtain ⟨leg, on, raised⟩ := Option.bind_eq_some_iff.mp found
    by_cases same : i = j.region
    · rw [same] at found
      rw [is, ← here]
      exact found.symm
    · rw [elsewhere i same leg] at raised
      cases raised

theorem afterDrop_generation (lane : Lane) (lost : List (Nat × Option Nat)) : ∀ x : Count16 × FaultLog,
    (lost.foldl (afterDrop lane) x).1 = x.1 + BitVec.ofNat 16 lost.length := by
  induction lost with
  | nil => exact fun x => (BitVec.add_zero x.1).symm
  | cons q rest ih =>
    intro x
    rw [List.foldl_cons, ih, afterDrop, List.length_cons, Nat.add_comm, BitVec.ofNat_add, BitVec.add_assoc]
    rfl

theorem mirrorLegOn_eq (lane : Lane) (d : Option Descriptor) : mirrorLegOn lane d =
    d.bind fun d => if mirrorsOn lane d then d.body.legs.find? fun leg => leg.lane == lane else none := by
  cases d with
  | none => rfl
  | some d =>
    rw [mirrorLegOn, Option.bind_some, mirrorsOn]
    cases d.body.legB.isSome with
    | false => rfl
    | true =>
      rw [if_pos rfl, Bool.true_and]
      split
      · rfl
      · rename_i nowhere
        exact List.find?_eq_none.mpr fun leg m => List.any_eq_false.mp (Bool.eq_false_iff.mpr nowhere) leg m

theorem mirrorLegOn_isSome (lane : Lane) (d : Option Descriptor) : (mirrorLegOn lane d).isSome = d.any (mirrorsOn lane) := by
  rw [mirrorLegOn_eq]
  cases d with
  | none => rfl
  | some d =>
    rw [Option.bind_some, Option.any_some]
    cases on : mirrorsOn lane d with
    | false => rfl
    | true =>
      rw [if_pos rfl, List.find?_isSome]
      exact List.any_eq_true.mp (Bool.and_eq_true_iff.mp on).2

/-- What a running job without a stop request hears of a retired lane: the drop first, and then the lane (R126, R127, R137). -/
theorem retired_told {lane : Lane} {slots : List MapSlot} (size : slots.length = 64) (j : Job) :
    (laneStop lane slots (List.range 64) j).or (retiredStop lane j) =
      match j.work with
      | .audit _ _ _ => if (descOf slots j.region).any (mirrorsOn lane) then some (.failed .regionDegraded none) else none
      | .relocate target _ _ _ =>
        if (mirrorLegOn lane (descOf slots j.region)).any fun leg => j.work.kept.contains leg then
          some (.failed .targetLegLost none)
        else if j.work.shadows.any (fun leg => leg.lane == lane)
            || (target.legB.isSome && j.work.kept.any fun leg => leg.lane == lane) then
          some (.failed .targetRetired none)
        else none := by
  rw [laneStop_region size, ← mirrorLegOn_isSome]
  unfold dropStop retiredStop
  cases work : j.work with
  | audit => cases mirrorLegOn lane (descOf slots j.region) <;> simp
  | relocate t keptA keptB verify =>
    cases mirrorLegOn lane (descOf slots j.region) with
    | none => simp
    | some leg =>
      simp only [Option.bind_some, true_and, Option.any_some]
      split <;> rfl

/-- Settles O17: the lane is retired, its legs dropped in slot order, the commit made stale and the job told. -/
theorem retirementDropsLegsInSlotOrder : Obligations.RetirementDropsLegsInSlotOrder := by
  intro s lane number resp data power opened size fresh reached retire issued reclaimed on lost stale g changed dropped late
  obtain ⟨v, hv⟩ : ∃ v, v = { countLane lane (fun c => { c with lateResponses := bump c.lateResponses }) s with
    health.lanes := s.health.lanes.modify lane fun h => { h with budget := weighed 32 h.budget } } := ⟨_, rfl⟩
  have is : takeResponse lane number resp data s
      = writeRecord { kind := .lateResponse, lane := some lane, laneLine := none } (retireLane lane v) := by
    rw [takeResponse_unknown issued reclaimed, lateResponse, hv]
    exact congrArg (writeRecord _) (addWeight_retires
      (s := countLane lane (fun c => { c with lateResponses := bump c.lateResponses }) s) reached retire)
  obtain ⟨w, hw⟩ : ∃ w, w = retireLane lane v := ⟨_, rfl⟩
  have mu : v.mu = s.mu := by rw [hv]; rfl
  have retired := retirement_retireLane lane v
  rw [← hw, mu] at retired
  have losts : (List.range 64).filterMap (lostAt lane s.mu.slots) = lost := rfl
  rw [losts] at retired
  obtain ⟨x, hx⟩ : ∃ x, x = writeRecord { kind := .lateResponse, lane := some lane, laneLine := none } w := ⟨_, rfl⟩
  have taken : exec (.laneResponse lane number resp data) s = .next (settle x) := by
    rw [hx, hw, ← is]
    exact event_taken (f := takeResponse lane number resp data) power rfl
  have openedX : x.hp.seq = .opened := by
    rw [hx]
    show w.hp.seq = _
    rw [retired.rest, hv]
    exact opened
  have muX : x.mu = w.mu := by rw [hx]; rfl
  have jobsX : x.engine.jobs = w.engine.jobs := by rw [hx]; rfl
  have record : (w.mu.generation, w.log) = dropped := by
    have r := retired.record
    rw [mu, show v.log = s.log by rw [hv]; rfl] at r
    exact r
  have generation : w.mu.generation = dropped.1 := congrArg Prod.fst record
  have logX : x.log = late := by
    rw [hx]
    show takeRecord w.mu.generation _ w.log = _
    rw [generation, show w.log = dropped.2 from congrArg Prod.snd record]
  have slots : ∀ i m, s.mu.slots[i]? = some m → w.mu.slots[i]? = some (lostSlot lane m) := fun i m at_ => by
    have lt : i < 64 := by
      rw [← size]
      exact (List.getElem?_eq_some_iff.mp at_).1
    rw [retired.slots i lt, mu, at_]
    rfl
  have commitW := retired.commit
  rw [mu] at commitW
  have flag : (x.mu.commit.drain.any fun d => d.stale) = true ↔ stale := by
    rw [muX, commitW]
    dsimp only
    cases drain : s.mu.commit.drain with
    | none =>
      refine ⟨nofun, fun is => ?_⟩
      obtain ⟨c, is, _⟩ := is
      rw [drain] at is
      cases is
    | some c =>
      have freshC : c.stale = false := by rw [drain] at fresh; exact fresh
      rw [Option.map_some, Option.any_some, Bool.or_eq_true, losing_stale freshC, commitItems_on]
      constructor
      · rintro (⟨y, my, hit⟩ | ⟨c', is, y, my, hit⟩)
        · exact ⟨c, drain, y, my, .inl hit⟩
        · exact ⟨c', is, y, my, .inr hit⟩
      · intro is
        obtain ⟨c', is, y, my, hit | hit⟩ := is
        · rw [drain] at is
          cases is
          exact .inl ⟨y, my, hit⟩
        · exact .inr ⟨c', is, y, my, hit⟩
  have freshX : ¬stale → (x.mu.commit.drain.any fun d => d.stale) = false := fun no => Bool.eq_false_iff.mpr fun c => no (flag.mp c)
  have staleX : stale → ∃ c, s.mu.commit.drain = some c ∧ ∃ c', x.mu.commit.drain = some c' ∧ c'.stale = true
      ∧ c'.members = c.members := fun yes => by
    have set := flag.mpr yes
    obtain ⟨c, drain, _⟩ := yes
    have drainX : x.mu.commit.drain = some { c.losing lost with
        stale := (c.losing lost).stale || (commitItems s.mu).any fun item => item.lane == lane } := by
      rw [muX, commitW]
      dsimp only
      rw [drain]
      rfl
    rw [drainX] at set
    exact ⟨c, drain, _, drainX, set, rfl⟩
  have closes : (settle x).mu.slots = w.mu.slots ∧ (settle x).mu.generation = w.mu.generation
      ∧ (settle x).engine.jobs = w.engine.jobs := by
    by_cases yes : stale
    · obtain ⟨c, _, c', drainX, set, _⟩ := staleX yes
      obtain ⟨muT, _, jobsT⟩ := settle_stale openedX drainX set
      exact ⟨by rw [muT, muX], by rw [muT, muX], jobsT.trans jobsX⟩
    · obtain ⟨muT, _, jobsT⟩ := settle_unstale openedX (freshX yes)
      exact ⟨by rw [muT, muX], by rw [muT, muX], jobsT.trans jobsX⟩
  obtain ⟨slotsT, generationT, jobsT⟩ := closes
  refine ⟨_, taken, fun n => ?_, fun i m at_ => ⟨fun off => ?_, fun d b desc mirror here => ?_⟩, ?_, fun no => ?_, fun yes => ?_,
    fun h j runs life => ?_, ?_⟩
  · have health : (settle x).health = (setLaneState lane .retired v).health := by
      rw [health_settle, hx]
      show w.health = _
      rw [hw]
      exact health_retireLane lane v
    rw [health, setLaneState_states]
    split
    · rfl
    · rename_i other
      rw [hv]
      exact congrArg LaneHealth.state ((PerLane.get_modify ..).trans (if_neg other))
  · rw [slotsT, slots i m at_, lostSlot]
    split
    · rfl
    · rename_i d desc
      split
      · rfl
      · rw [if_neg (by rw [show mirrorsOn lane d = false from off d desc]; nofun)]
  · rw [slotsT, slots i m at_, lostSlot, desc]
    dsimp only
    rw [mirror]
    exact congrArg some (if_pos here)
  · rw [generationT, generation]
    exact afterDrop_generation lane lost (g, changed)
  · obtain ⟨muT, logT, _⟩ := settle_unstale openedX (freshX no)
    refine ⟨?_, logT.trans logX⟩
    rw [muT, muX]
    have still := freshX no
    rw [muX, commitW] at still
    dsimp only at still
    rw [commitW]
    cases drain : s.mu.commit.drain with
    | none =>
      rw [Option.map_none, ← drain]
    | some c =>
      have freshC : c.stale = false := by rw [drain] at fresh; exact fresh
      rw [drain, Option.map_some, Option.any_some, Bool.or_eq_false_iff] at still
      obtain ⟨keeps, nowhere⟩ := still
      rw [Option.map_some, nowhere, Bool.or_false, losing_fresh freshC keeps, ← drain]
  · obtain ⟨c, drain, c', drainX, set, members⟩ := staleX yes
    obtain ⟨muT, logT, _⟩ := settle_stale openedX drainX set
    refine ⟨by rw [muT], fun c₀ y rest is first => ?_⟩
    rw [drain] at is
    obtain rfl := Option.some.inj is
    rw [logT, logX, muX, generation, CommitDrain.subject, members, first]
    rfl
  · have job := retired.job h j (by rw [hv]; exact runs) life
    obtain ⟨_, job⟩ := runningJob_eq.mp job
    rw [mu, retired_told size, mirrorLegOn_eq] at job
    rw [jobOf, jobsT]
    exact job
  · have kept := (keptTable_takeResponse lane number resp data s).trans (kept_settle _).toKeptTable
    rw [is, ← hw, ← hx] at kept
    exact kept.entries

end Sys2Proof.Machine

/-! PROOF. QUIESCE_TIMEOUT (O21): what the requesters that are told TIMEOUT leave of the lane ports, the credits reclaimed in issue order, and the three cases that end in this event: nothing to tell, one READ of the host, and the last request of a stopping job. -/

namespace Sys2Proof.Machine

open Sys2Proof

/-! ### What an outcome told leaves of the lane ports -/

/-- At the lane ports only the wait lists change, and the reset sequence stands where it stood. -/
structure OnlyWaits (s t : State) : Prop where
  seq : t.hp.seq = s.hp.seq
  lanes : ∀ n : Lane, { t.lanes.get n with waiting := (s.lanes.get n).waiting } = s.lanes.get n

theorem OnlyWaits.trans {s t u : State} (h : OnlyWaits s t) (k : OnlyWaits t u) : OnlyWaits s u :=
  ⟨k.seq.trans h.seq, fun n => LanePort.patch_trans (h.lanes n) (k.lanes n)⟩

theorem onlyWaits_of {s t : State} (seq : t.hp.seq = s.hp.seq) (lanes : t.lanes = s.lanes) : OnlyWaits s t :=
  ⟨seq, fun n => by rw [lanes]⟩

theorem OnlyWaits.refl (s : State) : OnlyWaits s s := onlyWaits_of rfl rfl

theorem Decoded.onlyWaits {s t : State} (k : Decoded s t) : OnlyWaits s t := ⟨k.seq, k.lanes⟩

theorem JobsOnly.onlyWaits {s t : State} (k : JobsOnly s t) : OnlyWaits s t :=
  onlyWaits_of (by rw [k.hp]) (by rw [k])

theorem onlyWaits_finishJob (h : Nat) (outcome : JobOutcome) (s : State) : OnlyWaits s (finishJob h outcome s) :=
  (finishJob_only h outcome s).onlyWaits

theorem onlyWaits_modifyRunning (f : Job → Job) (s : State) : OnlyWaits s (modifyRunning f s) := by
  obtain ⟨jobs, e⟩ := modifyRunning_engine f s
  rw [e]
  exact onlyWaits_of rfl rfl

theorem onlyWaits_openSwitch (s : State) : OnlyWaits s (openSwitch s) := by
  unfold openSwitch
  split
  · exact OnlyWaits.refl s
  · exact onlyWaits_of rfl rfl

theorem onlyWaits_switchDecide (j : Job) (s : State) : OnlyWaits s (switchDecide j s).2 := by
  unfold switchDecide
  split
  · exact OnlyWaits.refl s
  · unfold switchInstall
    split
    · split
      · exact OnlyWaits.refl s
      · split
        · exact OnlyWaits.refl s
        · split
          · exact OnlyWaits.refl s
          · exact onlyWaits_of rfl rfl
    · exact OnlyWaits.refl s

theorem onlyWaits_startQueue (n : Nat) : ∀ s : State, OnlyWaits s (startQueue n s) := by
  induction n with
  | zero => exact OnlyWaits.refl
  | succ n ih =>
    intro s
    unfold startQueue
    split
    · exact OnlyWaits.refl s
    · exact OnlyWaits.refl s
    · rename_i h rest _ _
      refine OnlyWaits.trans (t := { s with engine.queue := rest }) (onlyWaits_of rfl rfl) ?_
      dsimp only
      split
      · exact ih _
      · rename_i j _
        split
        · exact (onlyWaits_finishJob _ _ _).trans (ih _)
        · refine OnlyWaits.trans (t := enterRunning h j (firstPhase j.work) { s with engine.queue := rest })
            (onlyWaits_of rfl rfl) ?_
          split
          · exact (decoded_beginStep _).onlyWaits
          · exact (decoded_beginStep _).onlyWaits
          · exact OnlyWaits.refl _
          · refine (onlyWaits_openSwitch _).trans ?_
            split
            · exact OnlyWaits.refl _
            · split
              · refine OnlyWaits.trans ?_ (decoded_releaseHeld _ _ _).onlyWaits
                refine OnlyWaits.trans ?_ (ih _)
                refine OnlyWaits.trans ?_ (onlyWaits_finishJob _ _ _)
                exact (onlyWaits_switchDecide _ _).trans (onlyWaits_of rfl rfl)
              · exact OnlyWaits.refl _

theorem onlyWaits_startNext (s : State) : OnlyWaits s (startNext s) := onlyWaits_startQueue _ s

theorem onlyWaits_endSwitch (outcome : JobOutcome) (s : State) : OnlyWaits s (endSwitch outcome s) := by
  unfold endSwitch
  split
  · refine OnlyWaits.trans ?_ (decoded_releaseHeld _ _ _).onlyWaits
    refine OnlyWaits.trans ?_ (onlyWaits_startNext _)
    refine OnlyWaits.trans ?_ (onlyWaits_finishJob _ _ _)
    exact onlyWaits_of rfl rfl
  · exact OnlyWaits.refl s

theorem onlyWaits_enterSwitch (s : State) : OnlyWaits s (enterSwitch s) := by
  unfold enterSwitch completeSwitch
  refine (onlyWaits_openSwitch s).trans ?_
  dsimp only
  split
  · split
    · exact OnlyWaits.refl _
    · exact (onlyWaits_switchDecide _ _).trans (onlyWaits_endSwitch _ _)
  · exact OnlyWaits.refl _

theorem onlyWaits_stopFinish (s : State) : OnlyWaits s (stopFinish s) := by
  have released : OnlyWaits s (releaseLock { s with engine.stopping := true }) :=
    OnlyWaits.trans (t := { s with engine.stopping := true }) (onlyWaits_of rfl rfl) (decoded_releaseLock _).onlyWaits
  unfold stopFinish
  refine released.trans ?_
  dsimp only
  split
  · exact OnlyWaits.refl _
  · split
    · exact OnlyWaits.refl _
    · exact (onlyWaits_finishJob _ _ _).trans (onlyWaits_startNext _)

theorem onlyWaits_afterStep (s : State) : OnlyWaits s (afterStep s) := by
  unfold afterStep
  split
  · exact OnlyWaits.refl s
  · split
    · exact (decoded_beginStep s).onlyWaits
    · split
      · refine OnlyWaits.trans ?_ (decoded_beginStep _).onlyWaits
        exact onlyWaits_of rfl rfl
      · exact onlyWaits_enterSwitch s
      · exact onlyWaits_enterSwitch s
      · exact (onlyWaits_finishJob _ _ s).trans (onlyWaits_startNext _)
      · exact OnlyWaits.refl s
      · exact OnlyWaits.refl s

theorem onlyWaits_engineAdvance (s : State) : OnlyWaits s (engineAdvance s) := by
  unfold engineAdvance stepEnd
  split
  · split
    · exact onlyWaits_stopFinish s
    · split
      · split
        · exact OnlyWaits.refl s
        · split
          · exact onlyWaits_stopFinish s
          · refine OnlyWaits.trans ?_ (onlyWaits_afterStep _)
            refine OnlyWaits.trans ?_ (decoded_releaseLock _).onlyWaits
            exact onlyWaits_of rfl rfl
      · exact OnlyWaits.refl s
  · exact OnlyWaits.refl s

theorem onlyWaits_modifyLine (i : Nat) (f : LineState → LineState) (s : State) : OnlyWaits s (modifyLine i f s) := by
  unfold modifyLine
  split
  · exact OnlyWaits.refl s
  · exact onlyWaits_of rfl rfl

theorem onlyWaits_raiseFailure (reason : Reason) (lane : Lane) (line : Nat) (s : State) :
    OnlyWaits s (raiseFailure reason lane line s) :=
  onlyWaits_modifyRunning _ s

theorem onlyWaits_shadowFailure (region : Nat) (hostLine : Option Nat) (lane : Lane) (line : Nat) (id : Option (Fin 16))
    (s : State) : OnlyWaits s (shadowFailure region hostLine lane line id s) := by
  unfold shadowFailure
  split
  · exact OnlyWaits.refl s
  · split
    · exact OnlyWaits.refl s
    · split
      · refine OnlyWaits.trans ?_ (onlyWaits_raiseFailure _ _ _ _)
        exact onlyWaits_of rfl rfl
      · exact OnlyWaits.refl s

theorem onlyWaits_sourceFailed (h : Nat) (j : Job) (i : Nat) (lane : Lane) (line : Nat) (s : State) :
    OnlyWaits s (sourceFailed h j i lane line s) := by
  unfold sourceFailed
  split
  · exact OnlyWaits.refl s
  · dsimp only
    split
    · split
      · exact OnlyWaits.refl s
      · exact (onlyWaits_modifyLine _ _ s).trans (decoded_present _ _ _).onlyWaits
    · refine OnlyWaits.trans ?_ (onlyWaits_raiseFailure _ _ _ _)
      exact (onlyWaits_modifyLine _ _ s).trans (onlyWaits_of rfl rfl)

theorem onlyWaits_engineFailed (h : Nat) (j : Job) (part : EnginePart) (i : Nat) (lane : Lane) (line : Nat) (s : State) :
    OnlyWaits s (engineFailed h j part i lane line s) := by
  cases part with
  | source => exact onlyWaits_sourceFailed _ _ _ _ _ s
  | shadowWrite k => exact (onlyWaits_modifyLine _ _ s).trans (onlyWaits_shadowFailure _ _ _ _ _ _)
  | verifyRead k => exact (onlyWaits_modifyLine _ _ s).trans (onlyWaits_raiseFailure _ _ _ _)
  | auditA => exact (onlyWaits_modifyLine _ _ s).trans (onlyWaits_raiseFailure _ _ _ _)
  | auditB => exact (onlyWaits_modifyLine _ _ s).trans (onlyWaits_raiseFailure _ _ _ _)
  | repair => exact onlyWaits_modifyLine _ _ s

theorem onlyWaits_formRead (e : Entry) (pos : LegPos) (data : LineData) (s : State) :
    OnlyWaits s (formRead e pos .timeout data s) := by
  unfold formRead presentFallback
  dsimp only
  split
  · split
    · exact (decoded_becomeKnown _ _ _ s).onlyWaits
    · exact ((decoded_modifyEntry _ _ s).trans (decoded_present _ _ _)).onlyWaits
  · exact (decoded_becomeKnown _ _ _ s).onlyWaits

theorem onlyWaits_formWrite (e : Entry) (s : State) : OnlyWaits s (formWrite e s) := by
  unfold formWrite
  dsimp only
  split
  · exact (decoded_becomeKnown _ _ _ s).onlyWaits
  · split
    · exact (decoded_becomeKnown _ _ _ s).onlyWaits
    · split
      · exact onlyWaits_of rfl rfl
      · exact (decoded_becomeKnown _ _ _ s).onlyWaits

theorem onlyWaits_formCode (e : Entry) (part : HostPart) (data : LineData) (s : State) :
    OnlyWaits s (formCode e part .timeout data s) := by
  unfold formCode
  split
  · exact onlyWaits_formRead _ _ _ s
  · exact OnlyWaits.refl s
  · split
    · exact onlyWaits_formWrite _ s
    · exact OnlyWaits.refl s

theorem onlyWaits_tellHost (slot : Nat) (part : HostPart) (lane : Lane) (line : Nat) (data : LineData) (s : State) :
    OnlyWaits s (tellHost slot part lane line .timeout data s) := by
  unfold tellHost
  split
  · exact OnlyWaits.refl s
  · split
    · refine (decoded_modifyEntry slot (recordOutcome part .timeout) s).onlyWaits.trans ?_
      refine OnlyWaits.trans ?_ (onlyWaits_formCode _ _ _ _)
      split
      · exact OnlyWaits.refl _
      · exact onlyWaits_shadowFailure _ _ _ _ _ _
    · exact OnlyWaits.refl s

/-- A requester told TIMEOUT changes nothing at the lane ports but what waits there. -/
theorem onlyWaits_tellRequester (lane : Lane) (r : Request) (data : LineData) (s : State) :
    OnlyWaits s (tellRequester lane r .timeout data s) := by
  unfold tellRequester
  split
  · exact onlyWaits_tellHost _ _ _ _ _ s
  · unfold tellEngine
    split
    · exact OnlyWaits.refl s
    · exact (onlyWaits_engineFailed _ _ _ _ _ _ s).trans (onlyWaits_engineAdvance _)
  · exact OnlyWaits.refl s

/-! ### Credits reclaimed and requests withdrawn (R62) -/

/-- The issued requests and the reclaimed numbers of every lane stand as they stood, and so does the reset
sequence. -/
structure KeepsIssued (s t : State) : Prop where
  seq : t.hp.seq = s.hp.seq
  outstanding : ∀ n : Lane, (t.lanes.get n).outstanding = (s.lanes.get n).outstanding
  reclaimed : ∀ n : Lane, (t.lanes.get n).reclaimed = (s.lanes.get n).reclaimed

theorem KeepsIssued.trans {s t u : State} (h : KeepsIssued s t) (k : KeepsIssued t u) : KeepsIssued s u :=
  ⟨k.seq.trans h.seq, fun n => (k.outstanding n).trans (h.outstanding n), fun n => (k.reclaimed n).trans (h.reclaimed n)⟩

theorem OnlyWaits.keepsIssued {s t : State} (k : OnlyWaits s t) : KeepsIssued s t :=
  ⟨k.seq, fun n => by have h := congrArg LanePort.outstanding (k.lanes n); exact h,
   fun n => by have h := congrArg LanePort.reclaimed (k.lanes n); exact h⟩

theorem keepsIssued_modifyLane {lane : Lane} {f : LanePort → LanePort} {s : State}
    (outstanding : (f (s.lanes.get lane)).outstanding = (s.lanes.get lane).outstanding)
    (reclaimed : (f (s.lanes.get lane)).reclaimed = (s.lanes.get lane).reclaimed) : KeepsIssued s (modifyLane lane f s) := by
  have at_ : ∀ n : Lane, (modifyLane lane f s).lanes.get n = if n = lane then f (s.lanes.get lane) else s.lanes.get n :=
    fun n => PerLane.get_modify ..
  refine ⟨rfl, fun n => ?_, fun n => ?_⟩ <;> rw [at_] <;> split
  · rename_i same
    rw [outstanding, same]
  · rfl
  · rename_i same
    rw [reclaimed, same]
  · rfl

/-- An evaluated lane changes nothing at the lane ports. -/
theorem onlyWaits_evaluateLane (lane : Lane) (s : State) : OnlyWaits s (evaluateLane lane s) := by
  have retires : OnlyWaits s (retireLane lane s) := by
    have rest := (retirement_retireLane lane s).rest
    exact onlyWaits_of (by rw [rest]) (by rw [rest])
  unfold evaluateLane
  dsimp only
  split
  · split
    · exact retires
    · split
      · exact onlyWaits_of rfl rfl
      · exact OnlyWaits.refl s
  · split
    · exact retires
    · split
      · exact onlyWaits_of rfl rfl
      · exact OnlyWaits.refl s
  · exact OnlyWaits.refl s
  · exact OnlyWaits.refl s

theorem laneTimeout_keepsIssued (lane : Lane) (r : Request) (s : State) : KeepsIssued s (laneTimeout lane r s) := by
  have counted : KeepsIssued s (countLane lane (fun c => { c with timeouts := bump c.timeouts }) s) :=
    keepsIssued_modifyLane rfl rfl
  unfold laneTimeout addWeight
  refine counted.trans (KeepsIssued.trans ?_ (onlyWaits_tellRequester _ _ _ _).keepsIssued)
  refine KeepsIssued.trans ?_ (onlyWaits_evaluateLane _ _).keepsIssued
  exact ⟨rfl, fun _ => rfl, fun _ => rfl⟩

/-- One change done first and then some number of times is done once more. -/
theorem repeat_first {α : Type} (f : α → α) (n : Nat) (a : α) : Nat.repeat f n (f a) = Nat.repeat f (n + 1) a := by
  induction n with
  | zero => rfl
  | succ n ih => exact congrArg f ih

/-- What the reclaim of a lane's credits does: `m` OUTSTANDING requests are counted and weighed, and no request of the
lane is issued any more. -/
structure Reclaims (lane : Lane) (m : Nat) (s t : State) : Prop where
  seq : t.hp.seq = s.hp.seq
  reclaimed : ∀ n : Lane, (t.lanes.get n).reclaimed = (s.lanes.get n).reclaimed
  errors : ∀ n : Lane, errorCounts t n = if n = lane then
    { errorCounts s n with timeouts := Nat.repeat bump m (errorCounts s n).timeouts } else errorCounts s n
  budgets : ∀ n : Lane, budgetOf t n = if n = lane then Nat.repeat (weighed 256) m (budgetOf s n) else budgetOf s n

theorem Reclaims.before {lane : Lane} {m : Nat} {s t u : State} (seq : t.hp.seq = s.hp.seq)
    (reclaimed : ∀ n : Lane, (t.lanes.get n).reclaimed = (s.lanes.get n).reclaimed)
    (errors : ∀ n, errorCounts t n = errorCounts s n) (budgets : ∀ n, budgetOf t n = budgetOf s n) (k : Reclaims lane m t u) :
    Reclaims lane m s u :=
  ⟨k.seq.trans seq, fun n => (k.reclaimed n).trans (reclaimed n), fun n => by rw [k.errors, errors],
   fun n => by rw [k.budgets, budgets]⟩

theorem Reclaims.timeout {lane : Lane} {m : Nat} {s u : State} {r : Request} (k : Reclaims lane m (laneTimeout lane r s) u) :
    Reclaims lane (m + 1) s u := by
  have kept := laneTimeout_keepsIssued lane r s
  have counts := laneTimeout_counts lane r s
  refine ⟨k.seq.trans kept.seq, fun n => (k.reclaimed n).trans (kept.reclaimed n), fun n => ?_, fun n => ?_⟩
  · rw [k.errors, counts.errors]
    split
    · rw [timeoutUp, repeat_first]
    · rfl
  · rw [k.budgets, counts.budgets]
    split
    · exact repeat_first _ _ _
    · rfl

theorem reclaims_reclaimIssued (lane : Lane) (issued : List Outstanding) : ∀ s : State,
    (s.lanes.get lane).outstanding = issued →
    Reclaims lane (issued.filter fun o => o.timer.isSome).length s (reclaimIssued lane issued.length s) := by
  induction issued with
  | nil =>
    intro s _
    refine ⟨rfl, fun _ => rfl, fun n => ?_, fun n => ?_⟩ <;> exact (ite_self _).symm
  | cons o rest ih =>
    intro s is
    obtain ⟨v, hv⟩ : ∃ v, v = modifyLane lane (fun p => { p with outstanding := rest }) s := ⟨_, rfl⟩
    have at_ : ∀ n : Lane, v.lanes.get n
        = if n = lane then { s.lanes.get lane with outstanding := rest } else s.lanes.get n := fun n => by
      rw [hv]
      exact PerLane.get_modify ..
    have kept : Kept s v := hv ▸ kept_dropIssued lane o rest s is
    have first : ∀ m u, Reclaims lane m v u → Reclaims lane m s u := fun m u k =>
      k.before (by rw [hv]; rfl) (fun n => by rw [at_]; split <;> simp_all) kept.errors kept.budgets
    have mine : (v.lanes.get lane).outstanding = rest := by rw [at_, if_pos rfl]
    have step : reclaimIssued lane (o :: rest).length s
        = reclaimIssued lane rest.length (if o.timer.isSome then laneTimeout lane o.req v else v) := by
      rw [List.length_cons, reclaimIssued, is, hv]
      rfl
    rw [step]
    by_cases timer : o.timer.isSome = true
    · rw [if_pos timer, List.filter_cons, if_pos timer, List.length_cons]
      exact first _ _ (Reclaims.timeout (ih _ (((laneTimeout_keepsIssued lane o.req v).outstanding lane).trans mine)))
    · rw [if_neg timer, List.filter_cons, if_neg timer]
      exact first _ _ (ih v mine)

theorem withdrawWaiting_keepsIssued (lane : Lane) (n : Nat) : ∀ s : State, KeepsIssued s (withdrawWaiting lane n s) := by
  induction n with
  | zero => exact fun s => (OnlyWaits.refl s).keepsIssued
  | succ n ih =>
    intro s
    unfold withdrawWaiting
    split
    · exact (OnlyWaits.refl s).keepsIssued
    · refine KeepsIssued.trans ?_ (ih _)
      refine KeepsIssued.trans ?_ (onlyWaits_tellRequester _ _ _ _).keepsIssued
      exact keepsIssued_modifyLane rfl rfl

/-- A quiesce that expires: its lane has reclaimed its credits and quiesces no more. -/
theorem reclaims_expireQuiesce (lane : Lane) (s : State) :
    Reclaims lane ((s.lanes.get lane).outstanding.filter fun o => o.timer.isSome).length
        (modifyLane lane (fun p => { p with reclaimed := joinReclaimed p }) s) (expireQuiesce lane s)
      ∧ ((expireQuiesce lane s).lanes.get lane).quiesce = none := by
  obtain ⟨v, hv⟩ : ∃ v, v = modifyLane lane (fun p => { p with reclaimed := joinReclaimed p }) s := ⟨_, rfl⟩
  obtain ⟨issued, hi⟩ : ∃ issued, issued = (s.lanes.get lane).outstanding := ⟨_, rfl⟩
  obtain ⟨w, hw⟩ : ∃ w, w = withdrawWaiting lane (s.lanes.get lane).waiting.length (reclaimIssued lane issued.length v) :=
    ⟨_, rfl⟩
  have joined : (v.lanes.get lane).outstanding = issued := by
    have at_ : v.lanes.get lane = { s.lanes.get lane with reclaimed := joinReclaimed (s.lanes.get lane) } := by
      rw [hv]
      exact (PerLane.get_modify ..).trans (if_pos rfl)
    rw [at_, hi]
  have is : expireQuiesce lane s = modifyLane lane quiesceDone w := by rw [hw, hi, hv]; rfl
  have at_ : ∀ n : Lane, (expireQuiesce lane s).lanes.get n
      = if n = lane then quiesceDone (w.lanes.get lane) else w.lanes.get n := fun n => by
    rw [is]
    exact PerLane.get_modify ..
  have reclaims := reclaims_reclaimIssued lane issued v joined
  have withdrawn := withdrawWaiting_keepsIssued lane (s.lanes.get lane).waiting.length (reclaimIssued lane issued.length v)
  have kept := kept_withdrawWaiting lane (s.lanes.get lane).waiting.length (reclaimIssued lane issued.length v)
  rw [← hw] at withdrawn kept
  rw [← hi, ← hv]
  refine ⟨⟨?_, fun n => ?_, fun n => ?_, fun n => ?_⟩, by rw [at_, if_pos rfl]; rfl⟩
  · rw [is]
    exact withdrawn.seq.trans reclaims.seq
  · have same : ((expireQuiesce lane s).lanes.get n).reclaimed = (w.lanes.get n).reclaimed := by
      rw [at_]
      split
      · rename_i c
        rw [c]
        rfl
      · rfl
    exact same.trans ((withdrawn.reclaimed n).trans (reclaims.reclaimed n))
  · have same : errorCounts (expireQuiesce lane s) n = errorCounts w n := by
      unfold errorCounts
      rw [at_]
      split
      · rename_i c
        rw [c]
        rfl
      · rfl
    exact (same.trans (kept.errors n)).trans (reclaims.errors n)
  · have same : budgetOf (expireQuiesce lane s) n = budgetOf w n := by
      rw [is]
      rfl
    exact (same.trans (kept.budgets n)).trans (reclaims.budgets n)

/-! ### The close of an event at a lane (R43, R52, R62) -/

theorem issueRequest_reclaimed (b : Bool) (w : Waiting) (p : LanePort) :
    (issueRequest w (windowAfter b p)).reclaimed = p.reclaimed := by
  rw [windowAfter_eq]
  split <;> rfl

theorem grantMany_reclaimed (entries : List Entry) (share n : Nat) : ∀ p : LanePort,
    (grantMany entries share n p).reclaimed = p.reclaimed := by
  induction n with
  | zero => exact fun _ => rfl
  | succ n ih =>
    intro p
    unfold grantMany
    split
    · rfl
    · rename_i q granted
      obtain ⟨_, w, _, is | ⟨b, is⟩⟩ := grantOne_some granted
      · rw [ih, is]
        rfl
      · rw [ih, is, issueRequest_reclaimed]

theorem advanceSequence_lanes (s : State) : (advanceSequence s).lanes = (completeQuiesces (drainStep s)).lanes := by
  have quiesce : ∀ u : State, (quiesceStep u).lanes = u.lanes := fun u => by
    unfold quiesceStep
    split
    · split <;> rfl
    · rfl
  have hold : ∀ u : State, (holdStep u).lanes = u.lanes := fun u => by
    unfold holdStep
    split <;> rfl
  rw [advanceSequence, hold, quiesce]

theorem advanceSequence_reclaimed (s : State) (n : Lane) :
    ((advanceSequence s).lanes.get n).reclaimed = (s.lanes.get n).reclaimed := by
  have drain : ((drainStep s).lanes.get n).reclaimed = (s.lanes.get n).reclaimed := by
    unfold drainStep
    split
    · rw [leaveEntryDrain, startQuiesce_lane]
      split <;> rfl
    · rfl
  rw [advanceSequence_lanes, completeQuiesces_lane, ← drain]
  split <;> rfl

theorem granted_lane (s : State) (n : Lane) : (refreshPhases (grantAll s)).lanes.get n
    = grantLane s.ift.entries s.engine.share (s.lanes.get n) :=
  PerLane.get_map ..

theorem onlyWaits_closeStale (s : State) : OnlyWaits s (closeStale s) := by
  unfold closeStale
  split
  · cases drain : s.mu.commit.drain with
    | none => rw [endCommit_idle drain]; exact OnlyWaits.refl s
    | some d =>
      have ends := (endCommit_decoded drain .stale).onlyWaits
      exact ⟨ends.seq, ends.lanes⟩
  · exact OnlyWaits.refl s

/-- The close of an event forgets no reclaimed number. -/
theorem settle_reclaimed (s : State) (n : Lane) : ((settle s).lanes.get n).reclaimed = (s.lanes.get n).reclaimed := by
  have closed := (onlyWaits_closeStale s).keepsIssued.reclaimed n
  have granted : ((refreshPhases (grantAll (closeStale s))).lanes.get n).reclaimed = ((closeStale s).lanes.get n).reclaimed := by
    rw [granted_lane]
    exact grantMany_reclaimed _ _ _ _
  exact (advanceSequence_reclaimed _ n).trans (granted.trans closed)

/-- Out of ENTRY_DRAIN the close of an event only grants at a lane that does not quiesce. -/
theorem settle_lane {s : State} {n : Lane} (seq : s.hp.seq ≠ .entryDrain) (quiesce : (s.lanes.get n).quiesce = none) :
    (settle s).lanes.get n
      = grantLane (closeStale s).ift.entries (closeStale s).engine.share ((closeStale s).lanes.get n) := by
  have closed := onlyWaits_closeStale s
  have still : drainStep (refreshPhases (grantAll (closeStale s))) = refreshPhases (grantAll (closeStale s)) :=
    if_neg fun c => seq (closed.seq.symm.trans c.1)
  have free : ((closeStale s).lanes.get n).quiesce = none := by
    have h := congrArg LanePort.quiesce (closed.lanes n)
    exact h.trans quiesce
  show (advanceSequence (refreshPhases (grantAll (closeStale s)))).lanes.get n = _
  rw [advanceSequence_lanes, still, completeQuiesces_lane, granted_lane, grantLane_quiesce, free]
  rfl

theorem settle_quiesce {s : State} {n : Lane} (seq : s.hp.seq ≠ .entryDrain) (quiesce : (s.lanes.get n).quiesce = none) :
    ((settle s).lanes.get n).quiesce = none := by
  have h := congrArg LanePort.quiesce ((onlyWaits_closeStale s).lanes n)
  rw [settle_lane seq quiesce, grantLane_quiesce]
  exact h.trans quiesce

/-! ### A stopping job's last request (R100) -/

theorem jobs_set_same {e : Engine} {h : Nat} {j : Job} (at_ : jobOf e h = some j) : e.jobs.set h (some j) = e.jobs := by
  have there : e.jobs[h]? = some (some j) := by
    unfold jobOf at at_
    cases x : e.jobs[h]? with
    | none => rw [x] at at_; cases at_
    | some y => rw [x] at at_; exact congrArg some at_
  obtain ⟨lt, is⟩ := List.getElem?_eq_some_iff.mp there
  rw [← is, List.set_getElem_self]

/-- A job that has its stop request takes no other. -/
theorem raiseStop_stopped {s : State} {h : Nat} {j : Job} {stop : Stop} (runs : runningJob s.engine = some (h, j))
    (life : j.life = .running (some stop)) (raised : Stop) : raiseStop raised s = s := by
  obtain ⟨running, at_⟩ := runningJob_eq.mp runs
  have same : ({ j with life := .running (some stop) } : Job) = j := by rw [← life]
  rw [raiseStop_running running at_ life, Option.getD_some, same, jobs_set_same at_]

/-- All but the block step and the log is as it was. -/
def StepOnly (s t : State) : Prop := ∃ step log, t = { s with engine.blockStep := step, log := log }

theorem StepOnly.refl (s : State) : StepOnly s s := ⟨s.engine.blockStep, s.log, rfl⟩

theorem StepOnly.trans {s t u : State} (h : StepOnly s t) (k : StepOnly t u) : StepOnly s u := by
  obtain ⟨_, _, rfl⟩ := h
  obtain ⟨step, log, rfl⟩ := k
  exact ⟨step, log, rfl⟩

theorem stepOnly_modifyLine (i : Nat) (f : LineState → LineState) (s : State) : StepOnly s (modifyLine i f s) := by
  unfold modifyLine
  split
  · exact StepOnly.refl s
  · exact ⟨_, s.log, rfl⟩

section
variable {s : State} {h : Nat} {j : Job} {stop : Stop}

theorem StepOnly.raised {u : State} (k : StepOnly s u) (runs : runningJob s.engine = some (h, j))
    (life : j.life = .running (some stop)) (raised : Stop) : StepOnly s (raiseStop raised u) := by
  obtain ⟨step, log, is⟩ := k
  have runsU : runningJob u.engine = some (h, j) := by rw [is]; exact runs
  rw [raiseStop_stopped runsU life, is]
  exact ⟨step, log, rfl⟩

/-- A stopping job with its stop request marks a failed request and asks nothing more. -/
theorem engineFailed_stopping (runs : runningJob s.engine = some (h, j)) (life : j.life = .running (some stop))
    (stopping : s.engine.stopping = true) (part : EnginePart) (i : Nat) (lane : Lane) (line : Nat) :
    StepOnly s (engineFailed h j part i lane line s) := by
  have marked := stepOnly_modifyLine (s := s) i
  cases part with
  | source =>
    show StepOnly s (sourceFailed h j i lane line s)
    unfold sourceFailed
    split
    · exact StepOnly.refl s
    · dsimp only
      split
      · rw [if_pos stopping]
        exact StepOnly.refl s
      · exact ((marked _).trans ⟨_, _, rfl⟩).raised runs life _
  | shadowWrite k =>
    show StepOnly s (shadowFailure j.region (stepHostLine j.region i s) lane line none
      (modifySide i k { state := .failed, data := none } s))
    unfold shadowFailure
    split
    · exact marked _
    · split
      · exact marked _
      · split
        · exact ((marked _).trans ⟨_, _, rfl⟩).raised runs life _
        · exact marked _
  | verifyRead k => exact (marked _).raised runs life _
  | auditA => exact (marked _).raised runs life _
  | auditB => exact (marked _).raised runs life _
  | repair => exact marked _

/-- A stopping job with nothing queued finishes with its stop request's outcome as its last request times out. -/
theorem tellEngine_stopped (runs : runningJob s.engine = some (h, j)) (life : j.life = .running (some stop))
    (stopping : s.engine.stopping = true) (queue : s.engine.queue = []) (idle : engineOpen s.lanes = 0) (part : EnginePart)
    (i : Nat) (lane : Lane) (line : Nat) (data : LineData) :
    let t := tellEngine part i lane line .timeout data s
    t.mu.commit = s.mu.commit ∧ t.engine.running = none ∧ t.engine.lock = none ∧ t.engine.blockStep = none
      ∧ (jobOf t.engine h).map Job.life = some (.finished stop.outcome) := by
  intro t
  obtain ⟨u, hu⟩ : ∃ u, u = engineFailed h j part i lane line s := ⟨_, rfl⟩
  obtain ⟨step, log, is⟩ : StepOnly s u := hu ▸ engineFailed_stopping runs life stopping part i lane line
  have runsU : runningJob u.engine = some (h, j) := by rw [is]; exact runs
  obtain ⟨v, released, ends⟩ := stopFinish_eq runsU life
  have runsV : runningJob v.engine = some (h, j) := released.runningJob.trans runsU
  have queueV : v.engine.queue = [] := released.aborted.queue.trans (show u.engine.queue = [] by rw [is]; exact queue)
  have done : t = finished h j stop.outcome v := by
    have advances : t = engineAdvance u := by
      show tellEngine part i lane line .timeout data s = _
      rw [tellEngine, runs, hu]
    have none_ : engineOpen u.lanes = 0 := by rw [is]; exact idle
    have stops : u.engine.stopping = true := by rw [is]; exact stopping
    rw [advances, engineAdvance, if_pos none_, if_pos stops, ends]
    exact startNext_empty queueV
  have commit : v.mu.commit = s.mu.commit := by
    rw [released.mu]
    show u.mu.commit = _
    rw [is]
  rw [done]
  refine ⟨commit, rfl, rfl, rfl, ?_⟩
  rw [finished_job runsV, if_pos rfl]
  rfl

end

/-! ### The quiesce of a lane with one request, or none to tell (R62) -/

theorem modifyLane_modifyLane (lane : Lane) (f g : LanePort → LanePort) (s : State) :
    modifyLane lane g (modifyLane lane f s) = modifyLane lane (fun p => g (f p)) s := by
  unfold modifyLane
  dsimp only
  rw [PerLane.modify_modify]

theorem modifyLane_congr {lane : Lane} {f g : LanePort → LanePort} {s : State}
    (same : f (s.lanes.get lane) = g (s.lanes.get lane)) : modifyLane lane f s = modifyLane lane g s := by
  unfold modifyLane
  rw [PerLane.modify_congr same]

theorem modifyLane_self {lane : Lane} {f : LanePort → LanePort} {s : State} (same : f (s.lanes.get lane) = s.lanes.get lane) :
    modifyLane lane f s = s := by
  have lanes : s.lanes.modify lane f = s.lanes := PerLane.ext_get fun n => by
    rw [PerLane.get_modify]
    split
    · rename_i c
      rw [same, c]
    · rfl
  rw [modifyLane, lanes]

theorem modifyLane_get (lane : Lane) (f : LanePort → LanePort) (s : State) :
    (modifyLane lane f s).lanes.get lane = f (s.lanes.get lane) :=
  (PerLane.get_modify ..).trans (if_pos rfl)

/-- Requests that are TIMED_OUT leave a lane with nobody told. -/
theorem reclaimIssued_silent {lane : Lane} (issued : List Outstanding) : ∀ s : State,
    (s.lanes.get lane).outstanding = issued → (∀ o ∈ issued, o.timer = none) →
    reclaimIssued lane issued.length s = modifyLane lane (fun p => { p with outstanding := [] }) s := by
  induction issued with
  | nil =>
    intro s is _
    have same : ({ s.lanes.get lane with outstanding := [] } : LanePort) = s.lanes.get lane := by rw [← is]
    exact (modifyLane_self same).symm
  | cons o rest ih =>
    intro s is silent
    have timer : ¬o.running = true := by rw [Outstanding.running, silent o List.mem_cons_self]; nofun
    rw [List.length_cons, reclaimIssued, is]
    dsimp only
    rw [if_neg timer, ih _ (by rw [modifyLane_get]) fun x m => silent x (List.mem_cons_of_mem o m), modifyLane_modifyLane]

theorem reclaimIssued_one {lane : Lane} {o : Outstanding} {s : State} (issued : (s.lanes.get lane).outstanding = [o])
    (timer : o.timer.isSome = true) : reclaimIssued lane [o].length s
      = laneTimeout lane o.req (modifyLane lane (fun p => { p with outstanding := [] }) s) := by
  rw [List.length_singleton, reclaimIssued, issued]
  exact if_pos timer

theorem withdrawWaiting_one {lane : Lane} {w : Waiting} {s : State} (waiting : (s.lanes.get lane).waiting = [w]) :
    withdrawWaiting lane [w].length s
      = tellRequester lane w.req .timeout 0 (modifyLane lane (fun p => { p with waiting := [] }) s) := by
  rw [List.length_singleton, withdrawWaiting, waiting]
  rfl

section
variable {lane : Lane} {s : State} {kept : List Reclaimed}

theorem expireQuiesce_silent (waiting : (s.lanes.get lane).waiting = [])
    (silent : ∀ o ∈ (s.lanes.get lane).outstanding, o.timer = none) (joins : joinReclaimed (s.lanes.get lane) = kept) :
    expireQuiesce lane s = modifyLane lane (fun p => quiesceDone { p with outstanding := [], reclaimed := kept }) s := by
  rw [expireQuiesce, waiting]
  rw [reclaimIssued_silent _ _ (by rw [modifyLane_get]) silent, List.length_nil, withdrawWaiting, modifyLane_modifyLane,
    modifyLane_modifyLane]
  exact modifyLane_congr (by rw [joins])

theorem expireQuiesce_issued {o : Outstanding} (waiting : (s.lanes.get lane).waiting = [])
    (issued : (s.lanes.get lane).outstanding = [o]) (timer : o.timer.isSome = true)
    (joins : joinReclaimed (s.lanes.get lane) = kept) (stays : StaysActive s lane 256) :
    expireQuiesce lane s = modifyLane lane quiesceDone (tellRequester lane o.req .timeout 0 (s.failing lane (fun p =>
      { p with
        outstanding := []
        reclaimed := kept
        counters := { p.counters with timeouts := bump p.counters.timeouts } })
      256 (errorRecord .laneTimeout lane o.req s))) := by
  have told := failing_stays stays (fun p => { p with outstanding := [], reclaimed := kept })
    (fun c => { c with timeouts := bump c.timeouts }) .laneTimeout o.req
  have joined : modifyLane lane (fun p => { p with outstanding := [] })
      (modifyLane lane (fun p => { p with reclaimed := joinReclaimed p }) s)
      = modifyLane lane (fun p => { p with outstanding := [], reclaimed := kept }) s :=
    (modifyLane_modifyLane ..).trans (modifyLane_congr (by dsimp only; rw [joins]))
  rw [expireQuiesce, waiting, issued, reclaimIssued_one (by rw [modifyLane_get]; exact issued) timer, joined]
  exact congrArg (fun t => modifyLane lane quiesceDone (tellRequester lane o.req .timeout 0 t)) told

theorem expireQuiesce_waiting {w : Waiting} (issued : (s.lanes.get lane).outstanding = [])
    (waiting : (s.lanes.get lane).waiting = [w]) (joins : joinReclaimed (s.lanes.get lane) = kept) :
    expireQuiesce lane s = modifyLane lane quiesceDone (tellRequester lane w.req .timeout 0
      (modifyLane lane (fun p => { p with waiting := [], reclaimed := kept }) s)) := by
  have joined : modifyLane lane (fun p => { p with waiting := [] })
      (modifyLane lane (fun p => { p with reclaimed := joinReclaimed p }) s)
      = modifyLane lane (fun p => { p with waiting := [], reclaimed := kept }) s :=
    (modifyLane_modifyLane ..).trans (modifyLane_congr (by dsimp only; rw [joins]))
  rw [expireQuiesce, waiting, issued, List.length_nil, reclaimIssued, withdrawWaiting_one (by rw [modifyLane_get]; exact waiting),
    joined]

end

/-- A READ alone in the table and with no leg left to try is answered SLVERR as its request is told TIMEOUT. -/
theorem settle_quiescedRead {v : State} {e : Entry} {l : Lookup} {lane : Lane} {r : Request} {pos : LegPos}
    (table : v.ift.entries = [e]) (open_ : e.code = none) (drain : v.mu.commit.drain = none)
    (asker : r.requester = .host e.slot (.current pos)) (kind : e.kind = .read) (found : e.lookup = some l)
    (left : e.fallback = true ∨ l.legB = none
      ∨ ∀ leg d, l.legAt pos.other = some leg → descOf v.mu.slots l.region = some d → leg ∉ d.body.legs) :
    let t := settle (modifyLane lane quiesceDone (tellRequester lane r .timeout 0 v))
    (∃ e', t.ift.entries = [e'] ∧ e'.slot = e.slot ∧ e'.code = some .slverr) ∧ t.log = v.log := by
  intro t
  obtain ⟨x, hx⟩ : ∃ x, x = recordOutcome (.current pos) .timeout e := ⟨_, rfl⟩
  obtain ⟨y, hy⟩ : ∃ y, y = { x with code := some Code.slverr, data := 0, phase := .orderWait } := ⟨_, rfl⟩
  have kindX : x.kind = .read := by rw [hx]; exact kind
  have slot : x.slot = e.slot := by rw [hx]; rfl
  have known : tellRequester lane r .timeout 0 v = (v.withTable [x]).withTable [y] := by
    rw [tellRequester_readFailed (outcome := .timeout) table open_ asker kind found left nofun, ← hx, ← slot,
      becomeKnown_lone (s := v.withTable [x]) rfl (read_off kindX _), hy]
  have is : t = settle (modifyLane lane quiesceDone ((v.withTable [x]).withTable [y])) := congrArg (fun u => settle (modifyLane lane quiesceDone u)) known
  have fresh := stale_none (s := modifyLane lane quiesceDone ((v.withTable [x]).withTable [y])) drain
  refine ⟨⟨refreshed t.lanes y, ?_, ?_, ?_⟩, ?_⟩
  · rw [is, settle_entries fresh]
    rfl
  · rw [← slot]
    unfold refreshed
    split <;> rw [hy]
  · unfold refreshed
    split <;> rw [hy]
  · rw [is, settle_log fresh (.inr (by exact List.cons_ne_nil y []))]
    rfl

/-- A stopping job whose last request is told TIMEOUT ends with its stop request's outcome. -/
theorem settle_quiescedJob {v : State} {h : Nat} {j : Job} {stop : Stop} {lane : Lane} {r : Request} {part : EnginePart} {i : Nat}
    (runs : runningJob v.engine = some (h, j)) (life : j.life = .running (some stop)) (stopping : v.engine.stopping = true)
    (queue : v.engine.queue = []) (idle : engineOpen v.lanes = 0) (drain : v.mu.commit.drain = none)
    (asker : r.requester = .engine part i) :
    let t := settle (modifyLane lane quiesceDone (tellRequester lane r .timeout 0 v))
    t.engine.running = none ∧ t.engine.lock = none ∧ t.engine.blockStep = none
      ∧ (jobOf t.engine h).map Job.life = some (.finished stop.outcome) := by
  intro t
  obtain ⟨commit, ends⟩ := tellEngine_stopped runs life stopping queue idle part i lane r.line 0
  have told : tellRequester lane r .timeout 0 v = tellEngine part i lane r.line .timeout 0 v := by rw [tellRequester, asker]
  rw [← told] at commit ends
  have fresh := stale_none (s := modifyLane lane quiesceDone (tellRequester lane r .timeout 0 v))
    ((congrArg CommitRecord.drain commit).trans drain)
  obtain ⟨_, engine, _⟩ := settle_blocks fresh
  have same : t.engine = (tellRequester lane r .timeout 0 v).engine := engine
  rw [same]
  exact ends

/-- Reclaimed, the only open request of the engine leaves none open. -/
theorem engineOpen_reclaimed {s : State} {lane : Lane} {o : Outstanding} {part : EnginePart} {i : Nat}
    (issued : (s.lanes.get lane).outstanding = [o]) (waiting : (s.lanes.get lane).waiting = []) (timer : o.timer.isSome = true)
    (asker : o.req.requester = .engine part i) (one : engineOpen s.lanes = 1) (kept : List Reclaimed)
    (count : LaneCounters → LaneCounters) : engineOpen (s.lanes.modify lane fun p =>
      { p with outstanding := [], reclaimed := kept, counters := count p.counters }) = 0 := by
  have engine : o.req.fromEngine = true := by rw [Request.fromEngine, asker]
  have running : o.running = true := timer
  refine Nat.succ.inj ((engineOpen_modify (s := s) ?_).trans one)
  rw [LanePort.engineOpen, LanePort.engineOpen, issued, waiting]
  simp [engine, running]

/-! ### The quiesce bound (O21) -/

/-- Settles O21: the credits are reclaimed one request after another, each requester told; the three cases are those of
one telling or none. -/
theorem quiesceExpiryReclaimsCredits : Obligations.QuiesceExpiryReclaimsCredits := by
  intro lane s power quiesces p running joining kept
  have taken : exec (.quiesceTimeout lane) s = .next (settle (expireQuiesce lane s)) :=
    event_taken (f := expireQuiesce lane) power quiesces
  have joins : joinReclaimed p = kept := by
    simp only [kept, joining, List.length_map]
    unfold joinReclaimed Config.reclaimedMax
    split <;> rfl
  clear_value kept
  obtain ⟨reclaims, free⟩ := reclaims_expireQuiesce lane s
  have joined := kept_joinReclaimed lane s
  have closes := kept_settle (expireQuiesce lane s)
  have table := (keptTable_expireQuiesce lane s).trans closes.toKeptTable
  have seq : s.hp.seq ≠ .entryDrain → (expireQuiesce lane s).hp.seq ≠ .entryDrain := fun c k => c (reclaims.seq.symm.trans k)
  refine ⟨_, taken, fun k => ?_, fun k => ?_, ?_, fun c => settle_quiesce (seq c) free, table.entries, table.config, table.link,
    fun c drain waiting silent => ?_, fun e l pos c drain lone kind open_ found left => ?_,
    fun h j stop o part i empty drain queue runs life stopping issued waiting timer asker one stays => ?_⟩
  · rw [closes.errors, reclaims.errors, joined.errors]
  · rw [closes.budgets, reclaims.budgets, joined.budgets]
  · rw [settle_reclaimed, reclaims.reclaimed, modifyLane_get]
    exact joins
  · have is := expireQuiesce_silent waiting silent joins
    have mu : (expireQuiesce lane s).mu = s.mu := by rw [is]; rfl
    have fresh := stale_none (s := expireQuiesce lane s) (by rw [mu]; exact drain)
    have at_ : (expireQuiesce lane s).lanes.get lane = quiesceDone { p with outstanding := [], reclaimed := kept } := by
      rw [is, modifyLane_get]
    have rest : (quiesceDone { p with outstanding := [], reclaimed := kept }).waiting = [] := waiting
    rw [settle_lane (seq c) free, closeStale_none fresh, at_, grantLane, rest]
    rfl
  · intro answered
    refine ⟨fun o issued waiting timer _ asker stays => ?_, fun w issued waiting _ asker => ?_⟩
    · have record := errorRecord_lone (lane := lane) lone asker .laneTimeout
      obtain ⟨v, hv⟩ : ∃ v, v = s.failing lane (fun p =>
        { p with
          outstanding := []
          reclaimed := kept
          counters := { p.counters with timeouts := bump p.counters.timeouts } })
        256 (errorRecord .laneTimeout lane o.req s) := ⟨_, rfl⟩
      have table : v.ift.entries = [e] := by rw [hv]; exact lone
      have mu : v.mu = s.mu := by rw [hv]; rfl
      have log : v.log = takeRecord s.mu.generation (errorRecord .laneTimeout lane o.req s) s.log := by rw [hv]; rfl
      have is := expireQuiesce_issued waiting issued timer joins stays
      have ends := settle_quiescedRead (lane := lane) table open_ (by rw [mu]; exact drain) asker kind found
        (by rw [mu]; exact left)
      rw [← hv] at is
      rw [← is, log, record] at ends
      exact ends
    · obtain ⟨v, hv⟩ : ∃ v, v = modifyLane lane (fun p => { p with waiting := [], reclaimed := kept }) s := ⟨_, rfl⟩
      have table : v.ift.entries = [e] := by rw [hv]; exact lone
      have mu : v.mu = s.mu := by rw [hv]; rfl
      have log : v.log = s.log := by rw [hv]; rfl
      have is := expireQuiesce_waiting issued waiting joins
      have ends := settle_quiescedRead (lane := lane) table open_ (by rw [mu]; exact drain) asker kind found
        (by rw [mu]; exact left)
      rw [← hv] at is
      rw [← is, log] at ends
      exact ends
  · obtain ⟨v, hv⟩ : ∃ v, v = s.failing lane (fun p =>
      { p with
        outstanding := []
        reclaimed := kept
        counters := { p.counters with timeouts := bump p.counters.timeouts } })
      256 (errorRecord .laneTimeout lane o.req s) := ⟨_, rfl⟩
    have engine : v.engine = s.engine := by rw [hv]; rfl
    have mu : v.mu = s.mu := by rw [hv]; rfl
    have idle : engineOpen v.lanes = 0 := by
      rw [hv]
      exact engineOpen_reclaimed issued waiting timer asker one kept fun c => { c with timeouts := bump c.timeouts }
    rw [expireQuiesce_issued waiting issued timer joins stays, ← hv]
    exact settle_quiescedJob (by rw [engine]; exact runs) life (by rw [engine]; exact stopping) (by rw [engine]; exact queue) idle
      (by rw [mu]; exact drain) asker

end Sys2Proof.Machine
